-- ==== Sys2Proof/Word.lean ====
section
/-!
DEFINITION. The word types of the Cerio CX9 and nothing else: register words, the 96-bit
instruction word (02 R18) and the mask of a team's at most 1,024 lanes (09 R152).
-/
namespace Sys2Proof

/-- One byte of memory. -/
abbrev Byte := BitVec 8
/-- A vector register of one lane (02 R20). -/
abbrev U32 := BitVec 32
/-- A scalar register, a future token, a virtual address (02 R22). -/
abbrev U64 := BitVec 64
/-- An instruction word (02 R18). -/
abbrev Word96 := BitVec 96
/-- A set of lanes of one team: bit `$tlane` (09 R152, R156). -/
abbrev Mask := BitVec 1024
/-- A set of group words of one team, GWMASK, or a set of lanes of one group (09 R152). -/
abbrev GMask := BitVec 32

end Sys2Proof
end

