-- ==== Sys2Proof/Syntax.lean ====
section
/-!
DEFINITION. The instruction syntax. `Fields` are the decoded fields of an instruction word (02 R18 to R28);
`Instr` has one constructor for each row of spec/opcode_table.json: the 163 instructions, which carry their
fields, and the 111 events of the device (95_what_each_step_holds.md), which carry what names them.
-/
namespace Sys2Proof

/-- The special registers of 02 R21, in table order. -/
inductive SReg where
  | lane | group | tlane | team | teamdim | cluster | cpos | split | origlane | core | quad | ctx | argp | gts | poison
  deriving DecidableEq, Repr

/-- An operand field (02 R20). -/
inductive Opnd where
  /-- CLASS 00: vector register -/
  | v (n : BitVec 8)
  /-- CLASS 01: scalar register -/
  | s (n : BitVec 7)
  /-- CLASS 10: predicate; only 0 to 11 exist -/
  | p (n : BitVec 4)
  /-- CLASS 11: special register -/
  | sp (r : SReg)
  /-- CLASS 11: future handle -/
  | h (n : BitVec 4)
  /-- CLASS 11, INDEX 0x1FF: the immediate -/
  | imm
  /-- CLASS 11, INDEX 0x1FE: no operand -/
  | none
  deriving DecidableEq, Repr

/-- GRD (02 R19). -/
inductive Guard where
  | always
  | p (n : BitVec 4) (neg : Bool)
  deriving DecidableEq, Repr

/-- TYPE codes 0 to 11 (02 R26). -/
inductive Ty where
  | i32 | u32 | i64 | u64 | i16x2 | u16x2 | i8x4 | u8x4 | f32 | f16x2 | bf16x2 | f64
  deriving DecidableEq, Repr

/-- RND codes (02 R26). -/
inductive Rnd where
  | rne | rtz | rdn | rup
  deriving DecidableEq, Repr

/-- The fields of an instruction word besides OPC (02 R18). -/
structure Fields where
  grd : Guard
  dst : Opnd
  sa : Opnd
  sb : Opnd
  /-- FE[48], for SA (02 R25) -/
  feA : Bool
  /-- FE[47], for SB -/
  feB : Bool
  ty : Ty
  sat : Bool
  rnd : Rnd
  isp : BitVec 5
  imm : BitVec 24
  hint : BitVec 11
  deriving DecidableEq, Repr

/-- The PCIe AtomicOps completed by BAR 4 (23 R377). -/
inductive HostAtomic where
  | fetchAdd | swap | cas
  deriving DecidableEq, Repr

/-- The rows of spec/opcode_table.json. -/
inductive Instr where
  /-- ADD (R177): Adds a and b per element, wrapping or saturating. -/
  | add (f : Fields)
  /-- SUB (R177): Subtracts b from a per element, wrapping or saturating. -/
  | sub (f : Fields)
  /-- ADDC (R178): Adds with a carry-in predicate and writes the carry-out to that predicate. -/
  | addc (f : Fields)
  /-- SUBB (R178): Subtracts with a borrow-in predicate and writes the borrow-out to that predicate. -/
  | subb (f : Fields)
  /-- MUL (R177): Multiplies a by b per element. -/
  | mul (f : Fields)
  /-- MULH (R177): Writes the high half of the double-width product. -/
  | mulh (f : Fields)
  /-- MAD (R177): Computes d + a × b. -/
  | mad (f : Fields)
  /-- DIV (R179): Divides with truncation toward zero and defined results for divisors of zero; never traps. -/
  | div (f : Fields)
  /-- REM (R179): Computes the truncated remainder, which takes the sign of a. -/
  | rem (f : Fields)
  /-- ABS (R177): Computes the absolute value. -/
  | abs (f : Fields)
  /-- NEG (R177): Computes the negation. -/
  | neg (f : Fields)
  /-- MIN (R177): Writes the smaller of a and b. -/
  | min (f : Fields)
  /-- MAX (R177): Writes the larger of a and b. -/
  | max (f : Fields)
  /-- SAD (R177): Adds the sum of absolute differences to d. -/
  | sad (f : Fields)
  /-- ADDMIN (R177): Writes the minimum of d and a + b. -/
  | addmin (f : Fields)
  /-- ADDMAX (R177): Writes the maximum of d and a + b. -/
  | addmax (f : Fields)
  /-- AND (R180): Computes bitwise AND. -/
  | and (f : Fields)
  /-- OR (R180): Computes bitwise OR. -/
  | or (f : Fields)
  /-- XOR (R180): Computes bitwise XOR. -/
  | xor (f : Fields)
  /-- ANDN (R180): Computes a AND NOT b. -/
  | andn (f : Fields)
  /-- NOT (R180): Computes bitwise NOT. -/
  | not (f : Fields)
  /-- SHL (R180): Shifts left logically; an amount of W or more gives 0. -/
  | shl (f : Fields)
  /-- SHR (R180): Shifts right logically; an amount of W or more gives 0. -/
  | shr (f : Fields)
  /-- SAR (R180): Shifts right arithmetically. -/
  | sar (f : Fields)
  /-- ROTL (R180): Rotates left by b mod W. -/
  | rotl (f : Fields)
  /-- FUNSH (R180): Performs a funnel shift of b:a left or right by n. -/
  | funsh (f : Fields)
  /-- POPC (R180): Counts the set bits. -/
  | popc (f : Fields)
  /-- CLZ (R180): Counts the leading zeros. -/
  | clz (f : Fields)
  /-- CTZ (R180): Counts the trailing zeros. -/
  | ctz (f : Fields)
  /-- BREV (R180): Reverses the bit order. -/
  | brev (f : Fields)
  /-- BFX (R180): Extracts a bit field, with sign or zero extension. -/
  | bfx (f : Fields)
  /-- BFI (R180): Inserts a bit field into d. -/
  | bfi (f : Fields)
  /-- CMP (R181): Compares integers and writes a predicate. -/
  | cmp (f : Fields)
  /-- SEL (R181): Selects a or b per lane by a predicate. -/
  | sel (f : Fields)
  /-- LEA (R180): Computes a + (b << n). -/
  | lea (f : Fields)
  /-- DOT4 (R177): Adds a four-way byte dot product to d. -/
  | dot4 (f : Fields)
  /-- DOT2 (R177): Adds a two-way halfword dot product to d. -/
  | dot2 (f : Fields)
  /-- CLAMP (R177): Clamps d between a and b. -/
  | clamp (f : Fields)
  /-- EXT (R180): Sign-extends or zero-extends the low 8, 16 or 32 bits. -/
  | ext (f : Fields)
  /-- FADD (R182): Floating-point add, rounded once. -/
  | fadd (f : Fields)
  /-- FSUB (R182): Floating-point subtract, rounded once. -/
  | fsub (f : Fields)
  /-- FMUL (R182): Floating-point multiply, rounded once. -/
  | fmul (f : Fields)
  /-- FMA (R182): Fused multiply-add d + a × b. -/
  | fma (f : Fields)
  /-- FMS (R182): Fused multiply-subtract d − a × b. -/
  | fms (f : Fields)
  /-- FMIN (R183): Writes the lesser value under the NaN rules. -/
  | fmin (f : Fields)
  /-- FMAX (R183): Writes the greater value under the NaN rules. -/
  | fmax (f : Fields)
  /-- FABS (R183): Clears the sign. -/
  | fabs (f : Fields)
  /-- FNEG (R183): Inverts the sign. -/
  | fneg (f : Fields)
  /-- FCMP (R184): Compares floating-point values and writes a predicate. -/
  | fcmp (f : Fields)
  /-- FRCP (R185): Reciprocal on the special-function unit. -/
  | frcp (f : Fields)
  /-- FRSQ (R185): Reciprocal square root on the special-function unit. -/
  | frsq (f : Fields)
  /-- FSQRT (R185): Square root on the special-function unit. -/
  | fsqrt (f : Fields)
  /-- FDIV (R185): Divides, rounded once under RND. -/
  | fdiv (f : Fields)
  /-- FEXP2 (R185): Computes 2 to the power a. -/
  | fexp2 (f : Fields)
  /-- FLOG2 (R185): Computes the base-2 logarithm. -/
  | flog2 (f : Fields)
  /-- FSIN (R185): Computes the sine in radians. -/
  | fsin (f : Fields)
  /-- FCOS (R185): Computes the cosine in radians. -/
  | fcos (f : Fields)
  /-- FRND (R183): Rounds to an integral value in the same format. -/
  | frnd (f : Fields)
  /-- FCLASS (R183): Writes a class mask of the value. -/
  | fclass (f : Fields)
  /-- FSCALE (R182): Computes a × 2^b. -/
  | fscale (f : Fields)
  /-- FADDMIN (R182): Writes the minimum of d and the rounded sum a + b. -/
  | faddmin (f : Fields)
  /-- FDOT2 (R182): Computes a two-way half-precision dot product accumulated into F32. -/
  | fdot2 (f : Fields)
  /-- CVT (R186): Converts one value per lane between the formats coded in IMM. -/
  | cvt (f : Fields)
  /-- PACK (R187): Packs two values into one 16x2 register. -/
  | pack (f : Fields)
  /-- UNPACK (R187): Unpacks one element of a 16x2 register. -/
  | unpack (f : Fields)
  /-- SXPACK (R188): Encodes lanes as a shared-exponent block. -/
  | sxpack (f : Fields)
  /-- SXUNPACK (R188): Decodes one SX element to F32. -/
  | sxunpack (f : Fields)
  /-- MOV (R189): Copies a. -/
  | mov (f : Fields)
  /-- MOVI (R189): Writes the extended immediate. -/
  | movi (f : Fields)
  /-- MOVHI (R189): Replaces a high bit field of d with the immediate. -/
  | movhi (f : Fields)
  /-- BCAST (R190): Broadcasts lane n's value within each group word. -/
  | bcast (f : Fields)
  /-- RDLANE (R190): Reads one team lane's value into a scalar. -/
  | rdlane (f : Fields)
  /-- WRLANE (R190): Writes a value into one team lane. -/
  | wrlane (f : Fields)
  /-- SHFL (R191): Exchanges values within a group word. -/
  | shfl (f : Fields)
  /-- TSHFL (R191): Exchanges values across the team. -/
  | tshfl (f : Fields)
  /-- VOTE (R192): Computes any, all or ballot of a predicate over the counted lanes. -/
  | vote (f : Fields)
  /-- PRMT (R194): Permutes bytes from b:a under selector nibbles. -/
  | prmt (f : Fields)
  /-- REGROUP (R168): Compacts the issuing split's lanes in its wholly owned groups. -/
  | regroup (f : Fields)
  /-- RDSP (R195): Pops each lane's link stack into d. -/
  | rdsp (f : Fields)
  /-- WRSP (R195): Pushes a onto each lane's link stack. -/
  | wrsp (f : Fields)
  /-- SCAN (R193): Computes an inclusive or exclusive prefix combination. -/
  | scan (f : Fields)
  /-- REDUCE (R193): Combines the value over all counted lanes. -/
  | reduce (f : Fields)
  /-- PLOP (R197): Computes any function of three predicates from a truth table. -/
  | plop (f : Fields)
  /-- PMOV (R197): Copies between predicates and registers. -/
  | pmov (f : Fields)
  /-- BRA (R199): Branches the guarded lanes to the target, dividing the split where the lanes disagree. -/
  | bra (f : Fields)
  /-- BRX (R199): Branches each lane to a register address. -/
  | brx (f : Fields)
  /-- CALL (R199): Pushes the return address and branches. -/
  | call (f : Fields)
  /-- RET (R199): Pops the link stack and branches to the popped address. -/
  | ret (f : Fields)
  /-- EXIT (R200): Removes the guarded lanes from the split for good. -/
  | exit (f : Fields)
  /-- YIELD (R200): Orders the split after the core's other ready splits. -/
  | yield (f : Fields)
  /-- NOP (R200): Does nothing. -/
  | nop (f : Fields)
  /-- LOOP (R201): Decrements s and moves the whole split to t while s is nonzero. -/
  | loop (f : Fields)
  /-- SPLITQ (R201): Copies the split status word into s. -/
  | splitq (f : Fields)
  /-- SAFEPT (R201): Marks a safe point and branches to the save routine when a pre-emption request is pending. -/
  | safept (f : Fields)
  /-- CRIT_ENTER (R201): Raises the team's CRIT nesting count. -/
  | critEnter (f : Fields)
  /-- CRIT_EXIT (R201): Lowers the team's CRIT nesting count. -/
  | critExit (f : Fields)
  /-- LD (R227): Loads 1 to 16 bytes per lane from global memory. -/
  | ld (f : Fields)
  /-- ST (R227): Stores 1 to 16 bytes per lane to global memory. -/
  | st (f : Fields)
  /-- LD_TOKEN (R239): Loads a future token into an h register. -/
  | ldToken (f : Fields)
  /-- ST_TOKEN (R239): Stores an h register's future token. -/
  | stToken (f : Fields)
  /-- LDS (R227): Loads from the scratchpad. -/
  | lds (f : Fields)
  /-- STS (R227): Stores to the scratchpad. -/
  | sts (f : Fields)
  /-- LDK (R228): Reads the constant section through frames translated at launch. -/
  | ldk (f : Fields)
  /-- ATOM (R229): Performs a global read-modify-write per lane and returns the old value. -/
  | atom (f : Fields)
  /-- ATOMS (R229): Performs a scratchpad read-modify-write per lane and returns the old value. -/
  | atoms (f : Fields)
  /-- RED (R229): Performs a global read-modify-write per lane without a result. -/
  | red (f : Fields)
  /-- PREF (R230): Prefetches lines into L1 or the LLC without faulting. -/
  | pref (f : Fields)
  /-- CCTL (R231): Writes back and/or removes L1 lines. -/
  | cctl (f : Fields)
  /-- STASH (R232): Maps window sectors onto a global range. -/
  | stash (f : Fields)
  /-- UNSTASH (R234): Writes back and ends a stash mapping. -/
  | unstash (f : Fields)
  /-- STASHWB (R234): Writes back a stash mapping's dirty sectors and keeps the mapping. -/
  | stashwb (f : Fields)
  /-- IFLUSH (R235): Removes covered lines from the context's instruction caches. -/
  | iflush (f : Fields)
  /-- BCOPY (R242): Posts a linear copy to the BTE. -/
  | bcopy (f : Fields)
  /-- BTILE (R242): Posts a tile copy into the scratchpad. -/
  | btile (f : Fields)
  /-- BMCAST (R242): Posts a multicast into the windows of cluster teams. -/
  | bmcast (f : Fields)
  /-- BFILL (R242): Posts a pattern fill. -/
  | bfill (f : Fields)
  /-- BGATHER (R242): Posts a per-lane gather into the scratchpad. -/
  | bgather (f : Fields)
  /-- FWAIT (R238): Blocks until the future's job completes. -/
  | fwait (f : Fields)
  /-- FTEST (R238): Writes whether the job has completed. -/
  | ftest (f : Fields)
  /-- FCANCEL (R238): Asks the job to stop. -/
  | fcancel (f : Fields)
  /-- CHKT (R244): Tests whether the named chunks are present. -/
  | chkt (f : Fields)
  /-- CHKW (R244): Waits until the named chunks are present or the job ends. -/
  | chkw (f : Fields)
  /-- FSTAT (R237): Writes the future's status word. -/
  | fstat (f : Fields)
  /-- WALK (R273): Copies and checks a problem record and queues the walk. -/
  | walk (f : Fields)
  /-- WSTAT (R275): Reads a walk counter. -/
  | wstat (f : Fields)
  /-- HRET (R258): Handler return that completes the upcall with its slot as stored. -/
  | hret (f : Fields)
  /-- HRETF (R258): Handler return with a tile handle for the fetcher. -/
  | hretf (f : Fields)
  /-- HFAIL (R258): Handler return that fails the upcall. -/
  | hfail (f : Fields)
  /-- HREG (R276): Sets a bit of the grid's live-handler mask. -/
  | hreg (f : Fields)
  /-- HUNREG (R276): Clears a bit of the grid's live-handler mask. -/
  | hunreg (f : Fields)
  /-- BAR_INIT (R293): Binds, resets or releases a named barrier. -/
  | barInit (f : Fields)
  /-- BAR_ARRIVE (R294): Adds the split's lanes to the barrier's arrivals. -/
  | barArrive (f : Fields)
  /-- BAR_WAIT (R294): Waits while the split's lanes have arrived in the current phase. -/
  | barWait (f : Fields)
  /-- BAR_SYNC (R294): Arrives at the barrier and then waits. -/
  | barSync (f : Fields)
  /-- BARX (R294): Arrives at the barrier and adds expected bytes to PBYTES. -/
  | barx (f : Fields)
  /-- CBAR (R298): Arrives at and/or waits on the cluster barrier. -/
  | cbar (f : Fields)
  /-- AMSG (R301): Sends an active-message record to a core's RG. -/
  | amsg (f : Fields)
  /-- CONT (R301): Sends a continuation record to the own core's RG. -/
  | cont (f : Fields)
  /-- EMIT (R301): Sends a node record to the node's home core. -/
  | emit (f : Fields)
  /-- FENCE_IO (R305): Waits for acceptance of host-bound writes. -/
  | fenceIo (f : Fields)
  /-- FENCE_POOL (R305): Waits until earlier pool writes are visible to CXL agents. -/
  | fencePool (f : Fields)
  /-- WAITMON (R303): Blocks until a monitored word differs from the expected value. -/
  | waitmon (f : Fields)
  /-- SLEEP (R304): Blocks the split for a given number of nanoseconds. -/
  | sleep (f : Fields)
  /-- TRAP (R317): Raises the software trap with DETAIL n. -/
  | trap (f : Fields)
  /-- TRET (R316): Ends the trap handler and kills a group still in TRAP. -/
  | tret (f : Fields)
  /-- CWR (R318): Reads a control word. -/
  | cwr (f : Fields)
  /-- CWW (R318): Writes a control word. -/
  | cww (f : Fields)
  /-- INSPECT (R313): Reads state of a group of the trapped or attached team. -/
  | inspect (f : Fields)
  /-- ALTER (R314): Writes state of a stopped group. -/
  | alter (f : Fields)
  /-- RESUME (R315): Treats the trapped instruction as performed and continues the group. -/
  | resume (f : Fields)
  /-- KILL (R315): Kills a group. -/
  | kill (f : Fields)
  /-- REPLAY (R315): Reissues the trapped instruction for a group. -/
  | replay (f : Fields)
  /-- BKPT (R320): Stops the split in DEBUG when DEN is set. -/
  | bkpt (f : Fields)
  /-- RDTS (R328): Writes the GTS after the split's earlier memory events. -/
  | rdts (f : Fields)
  /-- PCLASS (R329): Sets the team's priority class. -/
  | pclass (f : Fields)
  /-- PWRQ (R330): Reads power state. -/
  | pwrq (f : Fields)
  /-- ACCSPILL (R327): Spills a saved walk's accumulator tile to memory and frees it. -/
  | accspill (f : Fields)
  /-- ACCFILL (R327): Fills an accumulator tile from a spill image. -/
  | accfill (f : Fields)
  /-- TLBINV_ALL (R331): Invalidates every translation entry of the device. -/
  | tlbinvAll (f : Fields)
  /-- TLBINV_CTX (R331): Invalidates one context's translation entries. -/
  | tlbinvCtx (f : Fields)
  /-- TLBINV_VA (R331): Invalidates the translation entries covering one page. -/
  | tlbinvVa (f : Fields)
  /-- SCANRUN (R332): Queues a rotation scan of a core. -/
  | scanrun (f : Fields)
  /-- UDF (R31): Traps ILLOP unconditionally. -/
  | udf (raw : BitVec 87)
  /-- DIVIDE_RETRY (R163): A HELD split retries its branch when an entry frees or records shrink. -/
  | divideRetry (uid : Nat) (e : Nat)
  /-- SCHEDULER_ISSUE (R164): Each cycle the quad scheduler chooses the splits that fill the issue slots. -/
  | schedulerIssue
  /-- BLOCK_ENTRY_HOLD_EXPIRY (R160): A block-entry hold ends 3,072 cycles after it began. -/
  | blockEntryHoldExpiry (uid : Nat) (e : Nat)
  /-- KITE_TIMEOUT (R172): A kite ends 4,096 cycles after its spawn. -/
  | kiteTimeout (uid : Nat)
  /-- TRAP_FRAME_GRANT (R310): A group waiting in TRAP is granted a freed trap frame. -/
  | trapFrameGrant (core : Nat)
  /-- WAITMON_WAKE (R303): A write to a monitored line re-reads the words and may end the wait. -/
  | waitmonWake (uid : Nat) (e : Nat) (line : Nat)
  /-- SLEEP_EXPIRY (R304): A sleeping split resumes after its time. -/
  | sleepExpiry (uid : Nat) (e : Nat)
  /-- WAKE_APPLY (R95): A wake buffer entry updates WRIDX or stops the queue on overrun. -/
  | wakeApply
  /-- PACKET_READ (R96): A queue core reads the next launchable packet. -/
  | packetRead (q : Nat)
  /-- WAITVAL_REEVALUATE (R102): A write to the monitored line re-evaluates a waiting WAITVAL. -/
  | waitvalReevaluate (q : Nat)
  /-- MD_ACCEPT (R106): The MD takes the next waiting LAUNCH into the partition's placement line. -/
  | mdAccept
  /-- PLACEMENT_GRANT (R116): The MD grants resources to the head grid's next team or cluster. -/
  | placementGrant (part : Nat)
  /-- WINDOW_ZEROING_DONE (R205): A team's window zeroing ends and its first instruction may issue. -/
  | windowZeroingDone (uid : Nat)
  /-- RECORD_ARRIVAL (R108): A record arrives at an RG and joins or opens a batch. -/
  | recordArrival (core : Nat)
  /-- BATCH_TIMER_EXPIRY (R108): A batch closes when its gather timer lapses. -/
  | batchTimerExpiry (core : Nat) (batch : Nat)
  /-- BATCH_LAUNCH (R119): A closed batch launches handler teams or a group when resources are granted. -/
  | batchLaunch (core : Nat) (batch : Nat)
  /-- FAULT_RECORD_DEFERRED_WRITE (R140): A held fault record is written after FRD advances. -/
  | faultRecordDeferredWrite (ctx : Nat)
  /-- PARKED_ACCESS_WAKE (R138): A write that makes an entry valid wakes the accesses parked on it. -/
  | parkedAccessWake (line : Nat)
  /-- MIGRATION_REQUEST (R217): The supervisor takes a migration request, refuses it or locks the page and starts the copy. -/
  | migrationRequest (fn : Nat)
  /-- MIGRATION_DONE (R217): After the copy, the leaf is rewritten, the translation invalidated, the lock released and STATUS set. -/
  | migrationDone (fn : Nat)
  /-- TLB_INVALIDATION_DONE (R137): A host invalidation request completes and TIDONE advances. -/
  | tlbInvalidationDone (fn : Nat)
  /-- APERTURE_READ_TIMEOUT (R379): A read not completed 10 ms after arrival completes with Completer Abort. -/
  | apertureReadTimeout (fn : Nat) (tag : Nat)
  /-- PART_SET (R384): Writes a partition descriptor. -/
  | partSet (fn : Nat)
  /-- PART_CLEAR (R384): Sets a partition's PSTATE to 0. -/
  | partClear (fn : Nat)
  /-- PART_RESET (R384): Resets a partition. -/
  | partReset (fn : Nat)
  /-- PART_RUN (R384): Moves a partition from resetting to running. -/
  | partRun (fn : Nat)
  /-- FUNC_PARTS (R384): Sets the partitions a function may use. -/
  | funcParts (fn : Nat)
  /-- CTX_SET (R384): Creates or replaces a context from the staged descriptor. -/
  | ctxSet (fn : Nat)
  /-- CTX_DESTROY (R384): Ends a context and frees its tag. -/
  | ctxDestroy (fn : Nat)
  /-- CTX_PREEMPT (R384): Pre-empts a context. -/
  | ctxPreempt (fn : Nat)
  /-- CTX_RESTORE (R384): Restores a pre-empted context. -/
  | ctxRestore (fn : Nat)
  /-- CTX_REPLAY_GRANT (R384): Grants telemetry replay to a context. -/
  | ctxReplayGrant (fn : Nat)
  /-- CTX_REPLAY_REVOKE (R384): Revokes telemetry replay. -/
  | ctxReplayRevoke (fn : Nat)
  /-- QUEUE_SET (R384): MODE 0: writes a queue table entry whole. -/
  | queueSet (fn : Nat)
  /-- QUEUE_SET_RESTART (R384): MODE 1: restarts a stopped queue, keeping its indices. -/
  | queueSetRestart (fn : Nat)
  /-- QUEUE_ASSIGN (R384): Assigns a queue's doorbell to a function. -/
  | queueAssign (fn : Nat)
  /-- APERTURE (R384): Sets a function's aperture context. -/
  | aperture (fn : Nat)
  /-- FW_LOAD (R384): Verifies and loads a queue-core or scan-pattern image. -/
  | fwLoad (fn : Nat)
  /-- SVN_RAISE (R384): Raises a fused minimum SVN. -/
  | svnRaise (fn : Nat)
  /-- RAIL_SET (R384): Sets a quad's logic rail set point. -/
  | railSet (fn : Nat)
  /-- SCAN_GAP (R384): Sets ROTGAP. -/
  | scanGap (fn : Nat)
  /-- SCAN_NOW (R384): Queues a scan of a core. -/
  | scanNow (fn : Nat)
  /-- REPLAY_SLOT_READ (R351): A write to the replay slot's line makes the STP read and check a frame. -/
  | replaySlotRead
  /-- STP_LINK_LOSS (R350): No accepted frame for 5 ms declares the link lost. -/
  | stpLinkLoss
  /-- DROOP_DECISION (R354): The controller trips or releases points and sets the target level. -/
  | droopDecision
  /-- SHED_LEVEL_FALL (R355): A scheduled fall lowers the shed level by one. -/
  | shedLevelFall
  /-- BACKSTOP_EXPIRY (R358): Unparked splits of a shed class are withheld. -/
  | backstopExpiry (cls : Nat)
  /-- CRITCAP_EXPIRY (R357): A CRIT deferral ends. -/
  | critcapExpiry (uid : Nat)
  /-- NOTIFY_GRANT_EXPIRY (R364): A notify-only issue grant ends 100 µs after its wake. -/
  | notifyGrantExpiry (uid : Nat)
  /-- CLOCK_STRETCH_END (R365): The stretch ends after 64 cycles of recovered supply. -/
  | clockStretchEnd (quad : Nat)
  /-- A1_ENTRY (R368): A quad idle for 10 µs is clock-gated. -/
  | a1Entry (quad : Nat)
  /-- A2_ENTRY (R368): A quad idle for 1 ms is power-gated. -/
  | a2Entry (quad : Nat)
  /-- A3_ENTRY (R368): The device enters A3 after 100 ms with every quad in A2. -/
  | a3Entry
  /-- IDLE_EXIT_COMPLETE (R369): The exit completes and held work proceeds. -/
  | idleExitComplete (unit : Nat)
  /-- WALK_ACTIVATE (R249): A QUEUED walk takes a free live set and becomes ACTIVE. -/
  | walkActivate (quad : Nat) (rte : Nat)
  /-- OPERAND_REQUEST (R251): The engine requests a window operand. -/
  | operandRequest (quad : Nat) (rte : Nat)
  /-- TILE_BEGIN (R253): The arbiter grants the array to the best-ranked ready walk. -/
  | tileBegin (quad : Nat)
  /-- TILE_FINISH (R252): A finished tile is scaled into a consumer slot and a consumer upcall is raised. -/
  | tileFinish (quad : Nat)
  /-- OPERAND_HELD (R258): The slot counts as held 20 cycles after a producer's HRET. -/
  | operandHeld (quad : Nat) (rte : Nat) (slot : Nat)
  /-- FETCHER_FILL_DONE (R259): The operand fetcher completes a tile into its slot. -/
  | fetcherFillDone (quad : Nat) (rte : Nat) (slot : Nat)
  /-- WALK_SAVE (R268): With no tile in progress, the cursor is written and the live set released. -/
  | walkSave (quad : Nat) (rte : Nat)
  /-- WALK_STOP_DONE (R249): A STOPPING walk frees its resources once its fetcher copies stop. -/
  | walkStopDone (quad : Nat) (rte : Nat)
  /-- ENGINE_RESET (R348): Stops every walk of an engine and clears its state. -/
  | engineReset (quad : Nat)
  /-- COPY_CHUNK_DONE (R243): A copy chunk is written and its bitmap bit set. -/
  | copyChunkDone (core : Nat) (job : Nat) (chunk : Nat)
  /-- PREEMPT_DEADLINE (R326): A team not out within PDL is killed with PREEMPTLATE. -/
  | preemptDeadline (ctx : Nat)
  /-- DONE_WRITE (R375): The queue core writes DONEV to DONE and advances DONEIDX. -/
  | doneWrite (q : Nat) (pidx : Nat)
  /-- QUEUE_REASSIGNMENT (R342): The supervisor moves a halted core's queues. -/
  | queueReassignment
  /-- PARTITION_RESET_COMPLETE (R347): The partition reset completes. -/
  | partitionResetComplete (part : Nat)
  /-- BASE_DIE_FAULT (R338): A base-die clock or rail fault stops the device. -/
  | baseDieFault
  /-- ROTATION_SCAN_START (R343): After ROTGAP the next core is drained for its scan. -/
  | rotationScanStart
  /-- SCAN_DRAIN_TIMEOUT (R343): A core still occupied after 10 ms is skipped. -/
  | scanDrainTimeout (core : Nat)
  /-- SCAN_COMPLETE (R343): The scan ends and the core returns to service or is removed. -/
  | scanComplete (core : Nat) (pass : Bool)
  /-- HOT_RESET (R382): A physical function FLR, hot reset or link-down ends every function's contexts. -/
  | hotReset
  /-- FABRIC_LINK_DOWN (R382): In-flight pool reads complete poisoned. -/
  | fabricLinkDown
  /-- PERST_RELEASE (R388): Release of PERST# starts bring-up. -/
  | perstRelease (verified : Bool)
  /-- LINK_RETRAIN (R348): A reset mesh or crossbar link finishes retraining, replays its in-flight flits and releases the traffic held at both ends, or after a third failed retrain resets every partition with a quad on that die. -/
  | linkRetrain (link : Nat) (trained : Bool)
  /-- FABRIC_LINK_RETRAIN (R382): The fabric port link retrains after a link-down, and the dirty pool lines the device kept can again be written back. -/
  | fabricLinkRetrain
  /-- WAKE_WRITE (R381): A doorbell write enters the wake buffer. -/
  | wakeWrite (fn : Nat) (off : Nat) (size : Nat) (value : U64)
  /-- POOL_BACK_INVALIDATE (R219): A back-invalidate from the pool removes a line from every cache. -/
  | poolBackInvalidate (line : Nat)
  /-- MIGTAIL (R216): A driver write advancing the migration ring tail. -/
  | migtail (fn : Nat) (value : U64)
  /-- TICMD_ALL (R137): TLB invalidation request of kind 0 for every context. -/
  | ticmdAll (fn : Nat) (raw : U64)
  /-- TICMD_CTX (R137): TLB invalidation request of kind 1 for one context. -/
  | ticmdCtx (fn : Nat) (raw : U64)
  /-- TICMD_VA (R137): TLB invalidation request of kind 2 for the page of TIVA. -/
  | ticmdVa (fn : Nat) (raw : U64)
  /-- TISTAT_CLEAR (R137): Writing 1 clears TISTAT bits. -/
  | tistatClear (fn : Nat) (bits : U64)
  /-- FRDW (R393): Sets FRD of the context in FRCTX under ownership and range checks. -/
  | frdw (fn : Nat) (value : U64)
  /-- ABASE (R379): Sets the aperture base, discarding invalid values. -/
  | abase (fn : Nat) (value : U64)
  /-- APERTURE_READ (R379): A host read through BAR 4, translated in the aperture context. -/
  | apertureRead (fn : Nat) (tag : Nat) (off : Nat) (len : Nat)
  /-- APERTURE_WRITE (R379): A host posted write through BAR 4, stamped at ingress. -/
  | apertureWrite (fn : Nat) (off : Nat) (data : List Byte)
  /-- APERTURE_ATOMIC (R284): A PCIe AtomicOp to BAR 4 performed as one event. -/
  | apertureAtomic (fn : Nat) (tag : Nat) (off : Nat) (op : HostAtomic) (wide : Bool) (v : U64) (cmp : U64)
  /-- LTR (R368): A PCIe LTR message sets the latency tolerance. -/
  | ltr (enabled : Bool) (snoop : Nat) (noSnoop : Nat)
  /-- SPDM_REQUEST (R387): An SPDM request over DOE is answered with identity and measurements. -/
  | spdmRequest (req : List Byte)
  /-- SCTAIL (R383): A driver write submitting supervisor commands. -/
  | sctail (fn : Nat) (value : U64)
  /-- ERRRD (R385): Advances the error-log read index, releasing held records into the window. -/
  | errrd (value : U64)
  /-- CLRD (R385): Advances the completion-log read index, releasing held entries into the window. -/
  | clrd (value : U64)
  /-- REGISTER_WRITE (R352): A write to a register without behaviour of its own, such as a power register taking effect at the next decision. -/
  | registerWrite (fn : Nat) (off : Nat) (data : List Byte)
  /-- THEZEN_FRAME (R350): A frame arrives on the STP and is accepted or counted in STPREJ. -/
  | thezenFrame (data : List Byte)
  /-- DROOP_DETECTOR_TRIP (R365): A supply sag of 40 mV stretches the quad clock. -/
  | droopDetectorTrip (quad : Nat)
  /-- RAIL_FAULT (R366): A rail 60 mV off its set point for 10 µs is a rail fault. -/
  | railFault (quad : Nat)
  /-- SENSOR_SWEEP (R367): Every 5 µs the sensors update SENSMAX and the hot state. -/
  | sensorSweep (temps : List Int)
  /-- VECTOR_REGISTER_ERROR (R336): An uncorrectable vector register error kills the group. -/
  | vectorRegisterError (uid : Nat) (lane : Nat) (reg : Nat)
  /-- TEAM_STATE_ERROR (R336): An uncorrectable team-wide state error kills the team. -/
  | teamStateError (uid : Nat)
  /-- SCRATCHPAD_ERROR (R333): An uncorrectable scratchpad error poisons the sector. -/
  | scratchpadError (core : Nat) (sector : Nat)
  /-- LLC_LINE_ERROR (R333): An uncorrectable dirty LLC line error poisons the line. -/
  | llcLineError (line : Nat)
  /-- CLEAN_LINE_ERROR (R333): A clean line error drops the line and refetches it. -/
  | cleanLineError (core : Nat) (line : Nat)
  /-- DRAM_ERROR (R333): An uncorrectable DRAM error poisons the line. -/
  | dramError (line : Nat)
  /-- CORRECTABLE_ERROR (R338): A correctable error is corrected and counted. -/
  | correctableError (src : Nat)
  /-- LINK_CRC_FAILURE (R348): Retries a link and resets it after 16 retries. -/
  | linkCrcFailure (link : Nat)
  /-- QUEUE_CORE_IMEM_ERROR (R342): A queue core halts. -/
  | queueCoreImemError (qc : Nat)
  /-- QUEUE_TABLE_ERROR (R94): An uncorrectable queue table entry error faults the queue. -/
  | queueTableError (q : Nat)
  /-- QUAD_CLOCK_RAIL_FAULT (R338): A quad clock or rail fault resets its partition. -/
  | quadClockRailFault (quad : Nat)
  /-- FUNCTION_LEVEL_RESET (R382): An FLR of a virtual function destroys its contexts. -/
  | functionLevelReset (fn : Nat)
  deriving DecidableEq, Repr

end Sys2Proof
end

