-- ==== Sys2Proof/Machine/Forms.lean ====
section
/-!
DEFINITION. The forms of the instruction words: which opcode and ISP codes name an instruction (02 R29, 10 R175,
13 R222, 16 R291, 18 R307), which operand classes, types, modifiers and IMM bits each accepts (03 R44 to R52 with
the "Fields by form" tables of R174, R221, R257, R290, R307), and how wide each operand is (R22, R223).
-/
namespace Sys2Proof

/-- The operand classes a form accepts in one field (02 R20, R33). -/
inductive Kind where
  | v | s | p | h
  /-- any special register -/
  | sp
  /-- a 64-bit uniform special register, as an address (13 R223) -/
  | sp64
  | imm | none
  deriving DecidableEq, Repr

namespace Kind
/-- a source under R35, the immediate among them -/
def src : List Kind := [.v, .s, .sp, .imm]
/-- a source of a form whose IMM holds n (R23) -/
def srcN : List Kind := [.v, .s, .sp]
end Kind

/-- Does the operand have the class? -/
def Opnd.isKind : Opnd → Kind → Bool
  | .v _, .v | .s _, .s | .p _, .p | .h _, .h | .sp _, .sp | .imm, .imm | .none, .none => true
  | .sp .argp, .sp64 | .sp .gts, .sp64 => true
  | _, _ => false

namespace Ty
/-- the types of ADD (R44) -/
def alu : List Ty := [.i32, .u32, .i64, .u64, .i16x2, .u16x2, .i8x4, .u8x4]
/-- the types of FADD (R45) -/
def float : List Ty := [.f32, .f16x2, .bf16x2, .f64]
/-- Registers of 32 bits that a value of the type takes (R22). -/
def words : Ty → Nat
  | .i64 | .u64 | .f64 => 2
  | .i32 | .u32 | .i16x2 | .u16x2 | .i8x4 | .u8x4 | .f32 | .f16x2 | .bf16x2 => 1
end Ty

/-- What one instruction accepts. -/
structure Form where
  dst : List Kind
  sa : List Kind
  sb : List Kind
  tys : List Ty := [.i32]
  sat : Bool := false
  rnd : Bool := false
  isps : List Nat := [0]
  /-- the IMM bits of the instruction's own use, when it has one (R23) -/
  own : Option (BitVec 24) := none
  /-- FE must be 0 (R238, R275) -/
  fe0 : Bool := false
  /-- the scalar form reads a vector source across lanes (R33) -/
  cross : Bool := false

/-- The fields of an instruction; none of UDF and of events. -/
def Instr.fields? : Instr → Option Fields
  | .add f => some f
  | .sub f => some f
  | .addc f => some f
  | .subb f => some f
  | .mul f => some f
  | .mulh f => some f
  | .mad f => some f
  | .div f => some f
  | .rem f => some f
  | .abs f => some f
  | .neg f => some f
  | .min f => some f
  | .max f => some f
  | .sad f => some f
  | .addmin f => some f
  | .addmax f => some f
  | .and f => some f
  | .or f => some f
  | .xor f => some f
  | .andn f => some f
  | .not f => some f
  | .shl f => some f
  | .shr f => some f
  | .sar f => some f
  | .rotl f => some f
  | .funsh f => some f
  | .popc f => some f
  | .clz f => some f
  | .ctz f => some f
  | .brev f => some f
  | .bfx f => some f
  | .bfi f => some f
  | .cmp f => some f
  | .sel f => some f
  | .lea f => some f
  | .dot4 f => some f
  | .dot2 f => some f
  | .clamp f => some f
  | .ext f => some f
  | .fadd f => some f
  | .fsub f => some f
  | .fmul f => some f
  | .fma f => some f
  | .fms f => some f
  | .fmin f => some f
  | .fmax f => some f
  | .fabs f => some f
  | .fneg f => some f
  | .fcmp f => some f
  | .frcp f => some f
  | .frsq f => some f
  | .fsqrt f => some f
  | .fdiv f => some f
  | .fexp2 f => some f
  | .flog2 f => some f
  | .fsin f => some f
  | .fcos f => some f
  | .frnd f => some f
  | .fclass f => some f
  | .fscale f => some f
  | .faddmin f => some f
  | .fdot2 f => some f
  | .cvt f => some f
  | .pack f => some f
  | .unpack f => some f
  | .sxpack f => some f
  | .sxunpack f => some f
  | .mov f => some f
  | .movi f => some f
  | .movhi f => some f
  | .bcast f => some f
  | .rdlane f => some f
  | .wrlane f => some f
  | .shfl f => some f
  | .tshfl f => some f
  | .vote f => some f
  | .prmt f => some f
  | .regroup f => some f
  | .rdsp f => some f
  | .wrsp f => some f
  | .scan f => some f
  | .reduce f => some f
  | .plop f => some f
  | .pmov f => some f
  | .bra f => some f
  | .brx f => some f
  | .call f => some f
  | .ret f => some f
  | .exit f => some f
  | .yield f => some f
  | .nop f => some f
  | .loop f => some f
  | .splitq f => some f
  | .safept f => some f
  | .critEnter f => some f
  | .critExit f => some f
  | .ld f => some f
  | .st f => some f
  | .ldToken f => some f
  | .stToken f => some f
  | .lds f => some f
  | .sts f => some f
  | .ldk f => some f
  | .atom f => some f
  | .atoms f => some f
  | .red f => some f
  | .pref f => some f
  | .cctl f => some f
  | .stash f => some f
  | .unstash f => some f
  | .stashwb f => some f
  | .iflush f => some f
  | .bcopy f => some f
  | .btile f => some f
  | .bmcast f => some f
  | .bfill f => some f
  | .bgather f => some f
  | .fwait f => some f
  | .ftest f => some f
  | .fcancel f => some f
  | .chkt f => some f
  | .chkw f => some f
  | .fstat f => some f
  | .walk f => some f
  | .wstat f => some f
  | .hret f => some f
  | .hretf f => some f
  | .hfail f => some f
  | .hreg f => some f
  | .hunreg f => some f
  | .barInit f => some f
  | .barArrive f => some f
  | .barWait f => some f
  | .barSync f => some f
  | .barx f => some f
  | .cbar f => some f
  | .amsg f => some f
  | .cont f => some f
  | .emit f => some f
  | .fenceIo f => some f
  | .fencePool f => some f
  | .waitmon f => some f
  | .sleep f => some f
  | .trap f => some f
  | .tret f => some f
  | .cwr f => some f
  | .cww f => some f
  | .inspect f => some f
  | .alter f => some f
  | .resume f => some f
  | .kill f => some f
  | .replay f => some f
  | .bkpt f => some f
  | .rdts f => some f
  | .pclass f => some f
  | .pwrq f => some f
  | .accspill f => some f
  | .accfill f => some f
  | .tlbinvAll f => some f
  | .tlbinvCtx f => some f
  | .tlbinvVa f => some f
  | .scanrun f => some f
  | _ => none

/-- OPC of an instruction (02 R29); none of events. -/
def Instr.opc? : Instr → Option (BitVec 9)
  | .add _ => some 0x000
  | .sub _ => some 0x001
  | .addc _ => some 0x002
  | .subb _ => some 0x003
  | .mul _ => some 0x004
  | .mulh _ => some 0x005
  | .mad _ => some 0x006
  | .div _ => some 0x007
  | .rem _ => some 0x008
  | .abs _ => some 0x009
  | .neg _ => some 0x00A
  | .min _ => some 0x00B
  | .max _ => some 0x00C
  | .sad _ => some 0x00D
  | .addmin _ => some 0x00E
  | .addmax _ => some 0x00F
  | .and _ => some 0x010
  | .or _ => some 0x011
  | .xor _ => some 0x012
  | .andn _ => some 0x013
  | .not _ => some 0x014
  | .shl _ => some 0x015
  | .shr _ => some 0x016
  | .sar _ => some 0x017
  | .rotl _ => some 0x018
  | .funsh _ => some 0x019
  | .popc _ => some 0x01A
  | .clz _ => some 0x01B
  | .ctz _ => some 0x01C
  | .brev _ => some 0x01D
  | .bfx _ => some 0x01E
  | .bfi _ => some 0x01F
  | .cmp _ => some 0x020
  | .sel _ => some 0x021
  | .lea _ => some 0x022
  | .dot4 _ => some 0x024
  | .dot2 _ => some 0x025
  | .clamp _ => some 0x026
  | .ext _ => some 0x027
  | .fadd _ => some 0x040
  | .fsub _ => some 0x041
  | .fmul _ => some 0x042
  | .fma _ => some 0x043
  | .fms _ => some 0x044
  | .fmin _ => some 0x045
  | .fmax _ => some 0x046
  | .fabs _ => some 0x047
  | .fneg _ => some 0x048
  | .fcmp _ => some 0x049
  | .frcp _ => some 0x04B
  | .frsq _ => some 0x04C
  | .fsqrt _ => some 0x04D
  | .fdiv _ => some 0x04E
  | .fexp2 _ => some 0x04F
  | .flog2 _ => some 0x050
  | .fsin _ => some 0x051
  | .fcos _ => some 0x052
  | .frnd _ => some 0x053
  | .fclass _ => some 0x054
  | .fscale _ => some 0x055
  | .faddmin _ => some 0x056
  | .fdot2 _ => some 0x057
  | .cvt _ => some 0x058
  | .pack _ => some 0x059
  | .unpack _ => some 0x05A
  | .sxpack _ => some 0x05B
  | .sxunpack _ => some 0x05C
  | .mov _ => some 0x080
  | .movi _ => some 0x081
  | .movhi _ => some 0x082
  | .bcast _ => some 0x083
  | .rdlane _ => some 0x084
  | .wrlane _ => some 0x085
  | .shfl _ => some 0x086
  | .tshfl _ => some 0x087
  | .vote _ => some 0x088
  | .prmt _ => some 0x089
  | .regroup _ => some 0x08A
  | .rdsp _ => some 0x08B
  | .wrsp _ => some 0x08C
  | .scan _ => some 0x08D
  | .reduce _ => some 0x08E
  | .plop _ => some 0x0A0
  | .pmov _ => some 0x0A1
  | .bra _ => some 0x0A2
  | .brx _ => some 0x0A3
  | .call _ => some 0x0A4
  | .ret _ => some 0x0A5
  | .exit _ => some 0x0A6
  | .yield _ => some 0x0A7
  | .nop _ => some 0x0A8
  | .loop _ => some 0x0A9
  | .splitq _ => some 0x0AA
  | .safept _ => some 0x0AC
  | .critEnter _ => some 0x0AD
  | .critExit _ => some 0x0AD
  | .ld _ => some 0x0C0
  | .st _ => some 0x0C1
  | .ldToken _ => some 0x0C0
  | .stToken _ => some 0x0C1
  | .lds _ => some 0x0C2
  | .sts _ => some 0x0C3
  | .ldk _ => some 0x0C4
  | .atom _ => some 0x0C5
  | .atoms _ => some 0x0C6
  | .red _ => some 0x0C7
  | .pref _ => some 0x0C8
  | .cctl _ => some 0x0C9
  | .stash _ => some 0x0CA
  | .unstash _ => some 0x0CB
  | .stashwb _ => some 0x0CC
  | .iflush _ => some 0x0CE
  | .bcopy _ => some 0x100
  | .btile _ => some 0x101
  | .bmcast _ => some 0x102
  | .bfill _ => some 0x103
  | .bgather _ => some 0x104
  | .fwait _ => some 0x105
  | .ftest _ => some 0x106
  | .fcancel _ => some 0x107
  | .chkt _ => some 0x109
  | .chkw _ => some 0x10A
  | .fstat _ => some 0x10B
  | .walk _ => some 0x120
  | .wstat _ => some 0x121
  | .hret _ => some 0x122
  | .hretf _ => some 0x123
  | .hfail _ => some 0x124
  | .hreg _ => some 0x125
  | .hunreg _ => some 0x126
  | .barInit _ => some 0x140
  | .barArrive _ => some 0x140
  | .barWait _ => some 0x140
  | .barSync _ => some 0x140
  | .barx _ => some 0x141
  | .cbar _ => some 0x142
  | .amsg _ => some 0x143
  | .cont _ => some 0x144
  | .emit _ => some 0x145
  | .fenceIo _ => some 0x146
  | .fencePool _ => some 0x146
  | .waitmon _ => some 0x147
  | .sleep _ => some 0x148
  | .trap _ => some 0x160
  | .tret _ => some 0x161
  | .cwr _ => some 0x162
  | .cww _ => some 0x163
  | .inspect _ => some 0x164
  | .alter _ => some 0x165
  | .resume _ => some 0x166
  | .kill _ => some 0x167
  | .replay _ => some 0x168
  | .bkpt _ => some 0x169
  | .rdts _ => some 0x16A
  | .pclass _ => some 0x16B
  | .pwrq _ => some 0x16C
  | .accspill _ => some 0x16D
  | .accfill _ => some 0x16E
  | .tlbinvAll _ => some 0x16F
  | .tlbinvCtx _ => some 0x16F
  | .tlbinvVa _ => some 0x16F
  | .scanrun _ => some 0x170
  | .udf _ => some 0x1FF
  | _ => none

/-- The form of an instruction; none of UDF and of events. Where a rule lists the classes of an operand more narrowly than R43 does, or
lists addresses for an instruction that acts once for its split, the choices are those of logs 72 (b of SHFL and TSHFL, DESIGN CHOICE), 73
(IMM of PMOV, DESIGN CHOICE) and 74 (a of UNSTASH, STASHWB and IFLUSH, b of STASH, DESIGN CHOICE). -/
def Instr.form? : Instr → Option Form
  | .add _ => some { dst := [.v, .s], sa := Kind.src, sb := Kind.src, tys := Ty.alu, sat := true }
  | .sub _ => some { dst := [.v, .s], sa := Kind.src, sb := Kind.src, tys := Ty.alu, sat := true }
  | .addc _ => some { dst := [.v, .s], sa := Kind.srcN, sb := Kind.srcN, tys := [.u32, .u64], own := some 0x00000F }
  | .subb _ => some { dst := [.v, .s], sa := Kind.srcN, sb := Kind.srcN, tys := [.u32, .u64], own := some 0x00000F }
  | .mul _ => some { dst := [.v, .s], sa := Kind.src, sb := Kind.src, tys := Ty.alu, sat := true }
  | .mulh _ => some { dst := [.v, .s], sa := Kind.src, sb := Kind.src, tys := [.i32, .u32, .i64, .u64] }
  | .mad _ => some { dst := [.v, .s], sa := Kind.src, sb := Kind.src, tys := [.i32, .u32, .i64, .u64, .i16x2, .u16x2], sat := true }
  | .div _ => some { dst := [.v, .s], sa := Kind.src, sb := Kind.src, tys := [.i32, .u32, .i64, .u64] }
  | .rem _ => some { dst := [.v, .s], sa := Kind.src, sb := Kind.src, tys := [.i32, .u32, .i64, .u64] }
  | .abs _ => some { dst := [.v, .s], sa := Kind.src, sb := [.none], tys := [.i32, .i64, .i16x2, .i8x4], sat := true }
  | .neg _ => some { dst := [.v, .s], sa := Kind.src, sb := [.none], tys := [.i32, .i64, .i16x2, .i8x4], sat := true }
  | .min _ => some { dst := [.v, .s], sa := Kind.src, sb := Kind.src, tys := Ty.alu }
  | .max _ => some { dst := [.v, .s], sa := Kind.src, sb := Kind.src, tys := Ty.alu }
  | .sad _ => some { dst := [.v, .s], sa := Kind.src, sb := Kind.src, tys := [.i32, .u32, .i16x2, .u16x2, .i8x4, .u8x4] }
  | .addmin _ => some { dst := [.v, .s], sa := Kind.src, sb := Kind.src, tys := [.i32, .u32, .i16x2, .u16x2], sat := true }
  | .addmax _ => some { dst := [.v, .s], sa := Kind.src, sb := Kind.src, tys := [.i32, .u32, .i16x2, .u16x2], sat := true }
  | .and _ => some { dst := [.v, .s], sa := Kind.src, sb := Kind.src, tys := [.u32, .u64] }
  | .or _ => some { dst := [.v, .s], sa := Kind.src, sb := Kind.src, tys := [.u32, .u64] }
  | .xor _ => some { dst := [.v, .s], sa := Kind.src, sb := Kind.src, tys := [.u32, .u64] }
  | .andn _ => some { dst := [.v, .s], sa := Kind.src, sb := Kind.src, tys := [.u32, .u64] }
  | .not _ => some { dst := [.v, .s], sa := Kind.src, sb := [.none], tys := [.u32, .u64] }
  | .shl _ => some { dst := [.v, .s], sa := Kind.src, sb := Kind.src, tys := [.u32, .u64, .u16x2] }
  | .shr _ => some { dst := [.v, .s], sa := Kind.src, sb := Kind.src, tys := [.u32, .u64, .u16x2] }
  | .sar _ => some { dst := [.v, .s], sa := Kind.src, sb := Kind.src, tys := [.i32, .i64, .i16x2] }
  | .rotl _ => some { dst := [.v, .s], sa := Kind.src, sb := Kind.src, tys := [.u32, .u64, .u16x2] }
  | .funsh _ => some { dst := [.v, .s], sa := Kind.srcN, sb := Kind.srcN, tys := [.u32], isps := List.range 2, own := some 0x00003F }
  | .popc _ => some { dst := [.v, .s], sa := Kind.src, sb := [.none], tys := [.u32, .u64] }
  | .clz _ => some { dst := [.v, .s], sa := Kind.src, sb := [.none], tys := [.u32, .u64] }
  | .ctz _ => some { dst := [.v, .s], sa := Kind.src, sb := [.none], tys := [.u32, .u64] }
  | .brev _ => some { dst := [.v, .s], sa := Kind.src, sb := [.none], tys := [.u32, .u64] }
  | .bfx _ => some { dst := [.v, .s], sa := Kind.srcN, sb := [.none], tys := [.i32, .u32, .i64, .u64], own := some 0x003F3F }
  | .bfi _ => some { dst := [.v, .s], sa := Kind.srcN, sb := [.none], tys := [.i32, .u32, .i64, .u64], own := some 0x003F3F }
  | .cmp _ => some { dst := [.p], sa := Kind.src, sb := Kind.src, tys := Ty.alu, isps := List.range 6 }
  | .sel _ => some { dst := [.v], sa := Kind.srcN, sb := Kind.srcN, tys := [.u32, .u64], own := some 0x00000F }
  | .lea _ => some { dst := [.v, .s], sa := Kind.srcN, sb := Kind.srcN, tys := [.u32, .u64], own := some 0x00001F }
  | .dot4 _ => some { dst := [.v, .s], sa := Kind.src, sb := Kind.src, tys := [.i8x4, .u8x4], sat := true }
  | .dot2 _ => some { dst := [.v, .s], sa := Kind.src, sb := Kind.src, tys := [.i16x2, .u16x2], sat := true }
  | .clamp _ => some { dst := [.v, .s], sa := Kind.src, sb := Kind.src, tys := Ty.alu }
  | .ext _ => some { dst := [.v, .s], sa := Kind.src, sb := [.none], tys := [.i32, .u32, .i64, .u64], isps := List.range 3 }
  | .fadd _ => some { dst := [.v, .s], sa := Kind.src, sb := Kind.src, tys := Ty.float, sat := true, rnd := true, isps := [0, 16] }
  | .fsub _ => some { dst := [.v, .s], sa := Kind.src, sb := Kind.src, tys := Ty.float, sat := true, rnd := true, isps := [0, 16] }
  | .fmul _ => some { dst := [.v, .s], sa := Kind.src, sb := Kind.src, tys := Ty.float, sat := true, rnd := true, isps := [0, 16] }
  | .fma _ => some { dst := [.v, .s], sa := Kind.src, sb := Kind.src, tys := Ty.float, sat := true, rnd := true, isps := [0, 16] }
  | .fms _ => some { dst := [.v, .s], sa := Kind.src, sb := Kind.src, tys := Ty.float, sat := true, rnd := true, isps := [0, 16] }
  | .fmin _ => some { dst := [.v, .s], sa := Kind.src, sb := Kind.src, tys := Ty.float, isps := List.range 2 }
  | .fmax _ => some { dst := [.v, .s], sa := Kind.src, sb := Kind.src, tys := Ty.float, isps := List.range 2 }
  | .fabs _ => some { dst := [.v, .s], sa := Kind.src, sb := [.none], tys := Ty.float }
  | .fneg _ => some { dst := [.v, .s], sa := Kind.src, sb := [.none], tys := Ty.float }
  | .fcmp _ => some { dst := [.p], sa := Kind.src, sb := Kind.src, tys := Ty.float, isps := List.range 8 }
  | .frcp _ => some { dst := [.v, .s], sa := Kind.src, sb := [.none], tys := [.f32, .f16x2], isps := [0, 16] }
  | .frsq _ => some { dst := [.v, .s], sa := Kind.src, sb := [.none], tys := [.f32, .f16x2], isps := [0, 16] }
  | .fsqrt _ => some { dst := [.v, .s], sa := Kind.src, sb := [.none], tys := [.f32, .f16x2], isps := [0, 16] }
  | .fdiv _ => some { dst := [.v, .s], sa := Kind.src, sb := Kind.src, tys := [.f32, .f64], rnd := true, isps := [0, 16] }
  | .fexp2 _ => some { dst := [.v, .s], sa := Kind.src, sb := [.none], tys := [.f32, .f16x2], isps := [0, 16] }
  | .flog2 _ => some { dst := [.v, .s], sa := Kind.src, sb := [.none], tys := [.f32, .f16x2], isps := [0, 16] }
  | .fsin _ => some { dst := [.v, .s], sa := Kind.src, sb := [.none], tys := [.f32, .f16x2], isps := [0, 16] }
  | .fcos _ => some { dst := [.v, .s], sa := Kind.src, sb := [.none], tys := [.f32, .f16x2], isps := [0, 16] }
  | .frnd _ => some { dst := [.v, .s], sa := Kind.src, sb := [.none], tys := Ty.float, rnd := true }
  | .fclass _ => some { dst := [.v, .s], sa := Kind.src, sb := [.none], tys := Ty.float }
  | .fscale _ => some { dst := [.v, .s], sa := Kind.src, sb := Kind.src, tys := Ty.float, sat := true, rnd := true }
  | .faddmin _ => some { dst := [.v, .s], sa := Kind.src, sb := Kind.src, tys := [.f32, .f16x2], rnd := true }
  | .fdot2 _ => some { dst := [.v, .s], sa := Kind.src, sb := Kind.src, tys := [.f16x2, .bf16x2], isps := [0, 16] }
  | .cvt _ => some { dst := [.v, .s], sa := Kind.srcN, sb := [.none], sat := true, rnd := true, own := some 0x001F1F }
  | .pack _ => some { dst := [.v, .s], sa := Kind.src, sb := Kind.src, tys := [.f16x2, .bf16x2, .i16x2, .u16x2], sat := true, rnd := true }
  | .unpack _ => some { dst := [.v, .s], sa := Kind.src, sb := [.none], tys := [.f16x2, .bf16x2, .i16x2, .u16x2], isps := List.range 2 }
  | .sxpack _ => some { dst := [.v, .s], sa := Kind.src, sb := [.none], isps := [0, 1, 2, 3, 4, 5, 6, 8, 9, 10, 11, 12, 13, 14] }
  | .sxunpack _ => some { dst := [.v, .s], sa := Kind.src, sb := [.none], isps := [0, 1, 2, 3, 4, 5, 6, 8, 9, 10, 11, 12, 13, 14] }
  | .mov _ => some { dst := [.v, .s], sa := Kind.src, sb := [.none], tys := [.i32, .u32, .i64, .u64] }
  | .movi _ => some { dst := [.v, .s], sa := [.none], sb := [.none], tys := [.i32, .u32, .i64, .u64], own := some 0xFFFFFF }
  | .movhi _ => some { dst := [.v, .s], sa := [.none], sb := [.none], tys := [.u32, .u64], isps := List.range 2, own := some 0xFFFFFF }
  | .bcast _ => some { dst := [.v], sa := Kind.srcN, sb := [.none], tys := [.u32, .u64], own := some 0x00001F }
  | .rdlane _ => some { dst := [.s], sa := Kind.srcN, sb := [.none], tys := [.u32, .u64], own := some 0x0003FF, cross := true }
  | .wrlane _ => some { dst := [.v], sa := Kind.srcN, sb := [.none], tys := [.u32, .u64], own := some 0x0003FF }
  | .shfl _ => some { dst := [.v], sa := Kind.src, sb := Kind.src, tys := [.u32, .i32, .u64], isps := List.range 4 }
  | .tshfl _ => some { dst := [.v], sa := Kind.src, sb := Kind.src, tys := [.u32, .i32, .u64], isps := [0, 1, 3] }
  | .vote _ => some { dst := [.p, .v], sa := [.p], sb := [.none], isps := [0, 1, 2, 4, 5, 6] }
  | .prmt _ => some { dst := [.v], sa := Kind.srcN, sb := Kind.srcN, own := some 0x00FFFF }
  | .regroup _ => some { dst := [.none], sa := [.none], sb := [.none] }
  | .rdsp _ => some { dst := [.v, .s], sa := [.none], sb := [.none] }
  | .wrsp _ => some { dst := [.none], sa := [.v, .s, .imm], sb := [.none] }
  | .scan _ => some { dst := [.v], sa := Kind.src, sb := [.none], tys := [.i32, .u32, .i64, .u64, .f32], isps := [0, 1, 2, 3, 4, 5, 8, 9, 10, 11, 12, 13, 16, 17, 18, 19, 20, 21, 24, 25, 26, 27, 28, 29] }
  | .reduce _ => some { dst := [.v, .s], sa := Kind.src, sb := [.none], tys := [.i32, .u32, .i64, .u64, .f32], isps := [0, 1, 2, 3, 4, 5, 16, 17, 18, 19, 20, 21], cross := true }
  | .plop _ => some { dst := [.p], sa := [.p], sb := [.p], own := some 0x00FF0F }
  | .pmov _ => some { dst := [.p, .v], sa := [.p, .v, .s, .imm], sb := [.none] }
  | .bra _ => some { dst := [.none], sa := [.none], sb := [.none], own := some 0xFFFFFF }
  | .brx _ => some { dst := [.none], sa := [.v, .s], sb := [.none] }
  | .call _ => some { dst := [.none], sa := [.none], sb := [.none], own := some 0xFFFFFF }
  | .ret _ => some { dst := [.none], sa := [.none], sb := [.none] }
  | .exit _ => some { dst := [.none], sa := [.none], sb := [.none] }
  | .yield _ => some { dst := [.none], sa := [.none], sb := [.none] }
  | .nop _ => some { dst := [.none], sa := [.none], sb := [.none] }
  | .loop _ => some { dst := [.s], sa := [.none], sb := [.none], own := some 0xFFFFFF }
  | .splitq _ => some { dst := [.s], sa := [.none], sb := [.none] }
  | .safept _ => some { dst := [.none], sa := [.none], sb := [.none], own := some 0x0000FF }
  | .critEnter _ => some { dst := [.none], sa := [.none], sb := [.none] }
  | .critExit _ => some { dst := [.none], sa := [.none], sb := [.none], isps := [1] }
  | .ld _ => some { dst := [.v, .s], sa := [.v, .s, .sp64], sb := [.none], isps := [0, 1, 2, 3, 4, 8, 9, 10, 16, 17, 18, 19, 20, 24, 25, 26], own := some 0xFFFFFF }
  | .st _ => some { dst := [.none], sa := [.v, .s, .sp64], sb := [.v, .s, .sp], isps := [0, 1, 2, 3, 4, 16, 17, 18, 19, 20], own := some 0xFFFFFF }
  | .ldToken _ => some { dst := [.h], sa := [.s, .sp64], sb := [.none], isps := [3, 19], own := some 0xFFFFFF }
  | .stToken _ => some { dst := [.none], sa := [.s, .sp64], sb := [.h], isps := [3, 19], own := some 0xFFFFFF }
  | .lds _ => some { dst := [.v, .s], sa := [.v, .s], sb := [.none], isps := [0, 1, 2, 3, 4, 8, 9, 10, 16, 17, 18, 19, 20, 24, 25, 26], own := some 0xFFFFFF }
  | .sts _ => some { dst := [.none], sa := [.v, .s], sb := [.v, .s, .sp], isps := [0, 1, 2, 3, 4, 16, 17, 18, 19, 20], own := some 0xFFFFFF }
  | .ldk _ => some { dst := [.v, .s], sa := [.none], sb := [.none], isps := [2, 3, 4], own := some 0xFFFFFF }
  | .atom _ => some { dst := [.v, .s], sa := [.v, .s, .sp64], sb := [.v, .s, .sp], isps := [0, 1, 2, 3, 4, 5, 6, 7, 8, 9, 10, 11, 12, 16, 17, 18, 19, 20, 21, 22, 23, 24, 25, 26, 27, 28], own := some 0xFFFFFF }
  | .atoms _ => some { dst := [.v, .s], sa := [.v, .s], sb := [.v, .s, .sp], isps := [0, 1, 2, 3, 4, 5, 6, 7, 8, 9, 10, 11, 12, 16, 17, 18, 19, 20, 21, 22, 23, 24, 25, 26, 27, 28], own := some 0xFFFFFF }
  | .red _ => some { dst := [.none], sa := [.v, .s, .sp64], sb := [.v, .s, .sp], isps := [0, 1, 2, 3, 4, 5, 8, 9, 10, 11, 12, 16, 17, 18, 19, 20, 21, 24, 25, 26, 27, 28], own := some 0xFFFFFF }
  | .pref _ => some { dst := [.none], sa := [.v, .s, .sp64], sb := [.none], isps := List.range 2, own := some 0xFFFFFF }
  | .cctl _ => some { dst := [.none], sa := [.v, .s, .sp64], sb := [.none], isps := List.range 3, own := some 0xFFFFFF }
  | .stash _ => some { dst := [.none], sa := [.s], sb := [.s], own := some 0xFFFFFF }
  | .unstash _ => some { dst := [.none], sa := [.s], sb := [.none] }
  | .stashwb _ => some { dst := [.none], sa := [.s], sb := [.none] }
  | .iflush _ => some { dst := [.none], sa := [.s, .sp64], sb := [.none], own := some 0xFFFFFF }
  | .bcopy _ => some { dst := [.h], sa := [.s], sb := [.none] }
  | .btile _ => some { dst := [.h], sa := [.s], sb := [.none] }
  | .bmcast _ => some { dst := [.h], sa := [.s], sb := [.none] }
  | .bfill _ => some { dst := [.h], sa := [.s], sb := [.none] }
  | .bgather _ => some { dst := [.h], sa := [.s], sb := [.v] }
  | .fwait _ => some { dst := [.none], sa := [.h], sb := [.none] }
  | .ftest _ => some { dst := [.p], sa := [.h], sb := [.none], fe0 := true }
  | .fcancel _ => some { dst := [.none], sa := [.h], sb := [.none], fe0 := true }
  | .chkt _ => some { dst := [.p], sa := [.h], sb := [.s], own := some 0x0001FF, fe0 := true }
  | .chkw _ => some { dst := [.none], sa := [.h], sb := [.s], own := some 0x0001FF, fe0 := true }
  | .fstat _ => some { dst := [.s], sa := [.h], sb := [.none], fe0 := true }
  | .walk _ => some { dst := [.h], sa := [.s], sb := [.none] }
  | .wstat _ => some { dst := [.s], sa := [.h], sb := [.none], own := some 0x000007, fe0 := true }
  | .hret _ => some { dst := [.none], sa := [.none], sb := [.none] }
  | .hretf _ => some { dst := [.none], sa := [.s], sb := [.s] }
  | .hfail _ => some { dst := [.none], sa := [.s, .imm], sb := [.none] }
  | .hreg _ => some { dst := [.none], sa := [.none], sb := [.none], own := some 0x00003F }
  | .hunreg _ => some { dst := [.none], sa := [.none], sb := [.none], own := some 0x00003F }
  | .barInit _ => some { dst := [.none], sa := [.s], sb := [.none], own := some 0x0000FF }
  | .barArrive _ => some { dst := [.none], sa := [.none], sb := [.none], isps := [1], own := some 0x0000FF }
  | .barWait _ => some { dst := [.none], sa := [.none], sb := [.none], isps := [2], own := some 0x0000FF }
  | .barSync _ => some { dst := [.none], sa := [.none], sb := [.none], isps := [3], own := some 0x0000FF }
  | .barx _ => some { dst := [.none], sa := [.s], sb := [.none], own := some 0x0000FF }
  | .cbar _ => some { dst := [.none], sa := [.none], sb := [.none], isps := [1, 2, 3] }
  | .amsg _ => some { dst := [.none], sa := Kind.srcN, sb := [.v, .s], own := some 0x00003F }
  | .cont _ => some { dst := [.none], sa := [.none], sb := [.v, .s], own := some 0x00003F }
  | .emit _ => some { dst := [.none], sa := [.none], sb := [.v, .s], own := some 0x00003F }
  | .fenceIo _ => some { dst := [.none], sa := [.none], sb := [.none] }
  | .fencePool _ => some { dst := [.none], sa := [.none], sb := [.none], isps := [1] }
  | .waitmon _ => some { dst := [.none], sa := [.v, .s, .sp64], sb := [.v, .s, .sp, .imm], isps := List.range 2 }
  | .sleep _ => some { dst := [.none], sa := [.s, .imm], sb := [.none] }
  | .trap _ => some { dst := [.none], sa := [.none], sb := [.none], own := some 0x00FFFF }
  | .tret _ => some { dst := [.none], sa := [.none], sb := [.none] }
  | .cwr _ => some { dst := [.s], sa := [.none], sb := [.none], own := some 0x0000FF }
  | .cww _ => some { dst := [.none], sa := [.s], sb := [.none], own := some 0x0000FF }
  | .inspect _ => some { dst := [.v, .s], sa := [.s], sb := [.none], own := some 0x003FFF }
  | .alter _ => some { dst := [.none], sa := [.s], sb := [.v, .s], own := some 0x003FFF }
  | .resume _ => some { dst := [.none], sa := [.s, .imm], sb := [.none] }
  | .kill _ => some { dst := [.none], sa := [.s, .imm], sb := [.none] }
  | .replay _ => some { dst := [.none], sa := [.s, .imm], sb := [.none] }
  | .bkpt _ => some { dst := [.none], sa := [.none], sb := [.none], own := some 0x00FFFF }
  | .rdts _ => some { dst := [.v, .s], sa := [.none], sb := [.none] }
  | .pclass _ => some { dst := [.none], sa := [.s, .imm], sb := [.none] }
  | .pwrq _ => some { dst := [.s], sa := [.none], sb := [.none], own := some 0x00000F }
  | .accspill _ => some { dst := [.none], sa := [.s], sb := [.s] }
  | .accfill _ => some { dst := [.none], sa := [.s], sb := [.s] }
  | .tlbinvAll _ => some { dst := [.none], sa := [.none], sb := [.none] }
  | .tlbinvCtx _ => some { dst := [.none], sa := [.s], sb := [.none], isps := [1] }
  | .tlbinvVa _ => some { dst := [.none], sa := [.s], sb := [.none], isps := [2], own := some 0x000FFF }
  | .scanrun _ => some { dst := [.none], sa := [.s, .imm], sb := [.none] }
  | _ => none

/-- The instruction an opcode names, by ISP where the table has a row for each code and by whether DST or SB is a
future handle for the token forms of LD and ST (R239); none of an unassigned code. An ISP that no row takes gives
some row of the opcode, whose form then refuses the code. -/
def mkInstr? (opc : Nat) (isp : Nat) (dstH sbH : Bool) : Option (Fields → Instr) :=
  match opc with
  | 0x000 => some .add
  | 0x001 => some .sub
  | 0x002 => some .addc
  | 0x003 => some .subb
  | 0x004 => some .mul
  | 0x005 => some .mulh
  | 0x006 => some .mad
  | 0x007 => some .div
  | 0x008 => some .rem
  | 0x009 => some .abs
  | 0x00A => some .neg
  | 0x00B => some .min
  | 0x00C => some .max
  | 0x00D => some .sad
  | 0x00E => some .addmin
  | 0x00F => some .addmax
  | 0x010 => some .and
  | 0x011 => some .or
  | 0x012 => some .xor
  | 0x013 => some .andn
  | 0x014 => some .not
  | 0x015 => some .shl
  | 0x016 => some .shr
  | 0x017 => some .sar
  | 0x018 => some .rotl
  | 0x019 => some .funsh
  | 0x01A => some .popc
  | 0x01B => some .clz
  | 0x01C => some .ctz
  | 0x01D => some .brev
  | 0x01E => some .bfx
  | 0x01F => some .bfi
  | 0x020 => some .cmp
  | 0x021 => some .sel
  | 0x022 => some .lea
  | 0x024 => some .dot4
  | 0x025 => some .dot2
  | 0x026 => some .clamp
  | 0x027 => some .ext
  | 0x040 => some .fadd
  | 0x041 => some .fsub
  | 0x042 => some .fmul
  | 0x043 => some .fma
  | 0x044 => some .fms
  | 0x045 => some .fmin
  | 0x046 => some .fmax
  | 0x047 => some .fabs
  | 0x048 => some .fneg
  | 0x049 => some .fcmp
  | 0x04B => some .frcp
  | 0x04C => some .frsq
  | 0x04D => some .fsqrt
  | 0x04E => some .fdiv
  | 0x04F => some .fexp2
  | 0x050 => some .flog2
  | 0x051 => some .fsin
  | 0x052 => some .fcos
  | 0x053 => some .frnd
  | 0x054 => some .fclass
  | 0x055 => some .fscale
  | 0x056 => some .faddmin
  | 0x057 => some .fdot2
  | 0x058 => some .cvt
  | 0x059 => some .pack
  | 0x05A => some .unpack
  | 0x05B => some .sxpack
  | 0x05C => some .sxunpack
  | 0x080 => some .mov
  | 0x081 => some .movi
  | 0x082 => some .movhi
  | 0x083 => some .bcast
  | 0x084 => some .rdlane
  | 0x085 => some .wrlane
  | 0x086 => some .shfl
  | 0x087 => some .tshfl
  | 0x088 => some .vote
  | 0x089 => some .prmt
  | 0x08A => some .regroup
  | 0x08B => some .rdsp
  | 0x08C => some .wrsp
  | 0x08D => some .scan
  | 0x08E => some .reduce
  | 0x0A0 => some .plop
  | 0x0A1 => some .pmov
  | 0x0A2 => some .bra
  | 0x0A3 => some .brx
  | 0x0A4 => some .call
  | 0x0A5 => some .ret
  | 0x0A6 => some .exit
  | 0x0A7 => some .yield
  | 0x0A8 => some .nop
  | 0x0A9 => some .loop
  | 0x0AA => some .splitq
  | 0x0AC => some .safept
  | 0x0AD => some (if isp = 0 then .critEnter else .critExit)
  | 0x0C0 => some (if dstH then .ldToken else .ld)
  | 0x0C1 => some (if sbH then .stToken else .st)
  | 0x0C2 => some .lds
  | 0x0C3 => some .sts
  | 0x0C4 => some .ldk
  | 0x0C5 => some .atom
  | 0x0C6 => some .atoms
  | 0x0C7 => some .red
  | 0x0C8 => some .pref
  | 0x0C9 => some .cctl
  | 0x0CA => some .stash
  | 0x0CB => some .unstash
  | 0x0CC => some .stashwb
  | 0x0CE => some .iflush
  | 0x100 => some .bcopy
  | 0x101 => some .btile
  | 0x102 => some .bmcast
  | 0x103 => some .bfill
  | 0x104 => some .bgather
  | 0x105 => some .fwait
  | 0x106 => some .ftest
  | 0x107 => some .fcancel
  | 0x109 => some .chkt
  | 0x10A => some .chkw
  | 0x10B => some .fstat
  | 0x120 => some .walk
  | 0x121 => some .wstat
  | 0x122 => some .hret
  | 0x123 => some .hretf
  | 0x124 => some .hfail
  | 0x125 => some .hreg
  | 0x126 => some .hunreg
  | 0x140 => some (if isp = 0 then .barInit else if isp = 1 then .barArrive else if isp = 2 then .barWait else .barSync)
  | 0x141 => some .barx
  | 0x142 => some .cbar
  | 0x143 => some .amsg
  | 0x144 => some .cont
  | 0x145 => some .emit
  | 0x146 => some (if isp = 0 then .fenceIo else .fencePool)
  | 0x147 => some .waitmon
  | 0x148 => some .sleep
  | 0x160 => some .trap
  | 0x161 => some .tret
  | 0x162 => some .cwr
  | 0x163 => some .cww
  | 0x164 => some .inspect
  | 0x165 => some .alter
  | 0x166 => some .resume
  | 0x167 => some .kill
  | 0x168 => some .replay
  | 0x169 => some .bkpt
  | 0x16A => some .rdts
  | 0x16B => some .pclass
  | 0x16C => some .pwrq
  | 0x16D => some .accspill
  | 0x16E => some .accfill
  | 0x16F => some (if isp = 0 then .tlbinvAll else if isp = 1 then .tlbinvCtx else .tlbinvVa)
  | 0x170 => some .scanrun
  | _ => none

/-- W of the width codes of 13 R222, in bytes. -/
def widthBytes (isp : BitVec 5) : Nat := 2 ^ (isp.toNat % 8)

/-- Registers of 32 bits that a load, store or LDK of the width takes. -/
def widthWords (isp : BitVec 5) : Nat := (widthBytes isp + 3) / 4

/-- Registers of 32 bits that an atomic's or WAITMON's word takes, from its .64 bit. -/
def wordWords (wide : Bool) : Nat := if wide then 2 else 1

/-- Registers of 32 bits of a CVT format (R71). -/
def cvtWords (c : Nat) : Nat := if c = 2 ∨ c = 3 ∨ c = 4 then 2 else 1

/-- KIND of an INSPECT or ALTER selector (R313). -/
def selKind (imm : BitVec 24) : Nat := imm.toNat / 256 % 16
/-- INDEX of a selector. -/
def selIndex (imm : BitVec 24) : Nat := imm.toNat % 256
/-- PART of a selector. -/
def selPart (imm : BitVec 24) : Nat := imm.toNat / 4096 % 4

/-- Widths of DST, SA and SB in registers of 32 bits (R22, R71, R182, R183, R191, R195, R199, R223, R229, R303, R307). -/
def Instr.widths : Instr → Nat × Nat × Nat
  | .fscale f => (f.ty.words, f.ty.words, 1)
  | .fclass f => (1, f.ty.words, 1)
  | .shfl f | .tshfl f => (f.ty.words, f.ty.words, 1)
  | .cvt f => (cvtWords (f.imm.toNat % 32), cvtWords (f.imm.toNat / 256 % 32), 1)
  | .rdsp _ | .rdts _ => (2, 1, 1)
  | .wrsp _ | .brx _ => (1, 2, 1)
  | .ld f => (widthWords f.isp, 2, 1)
  | .st f => (1, 2, widthWords f.isp)
  | .ldToken _ | .stToken _ | .pref _ | .cctl _ | .iflush _ => (1, 2, 1)
  | .lds f => (widthWords f.isp, 1, 1)
  | .sts f => (1, 1, widthWords f.isp)
  | .ldk f => (widthWords f.isp, 1, 1)
  | .atom f => (wordWords f.isp[4], 2, wordWords f.isp[4])
  | .atoms f => (wordWords f.isp[4], 1, wordWords f.isp[4])
  | .red f => (1, 2, wordWords f.isp[4])
  | .bgather _ => (1, 1, 2)
  | .waitmon f => (1, 2, wordWords f.isp[0])
  | .inspect f => (if selKind f.imm = 5 then 2 else 1, 1, 1)
  | .alter f => (1, 1, if selKind f.imm = 5 then 2 else 1)
  | i => match i.fields? with
    | some f => (f.ty.words, f.ty.words, f.ty.words)
    | none => (1, 1, 1)

/-- A selector of R313 whose INDEX and PART are in the kind's range. -/
def selOk (imm : BitVec 24) : Bool :=
  let k := selKind imm; let x := selIndex imm; let p := selPart imm
  match k with
  | 0 => p = 0
  | 1 => x < 128 && p = 0
  | 2 => x < 12 && p = 0
  | 3 => x < 16 && p = 0
  | 4 => x < 7 && p = 0
  | 5 => x < 16 && p = 0
  | 6 => x = 0 && p = 0
  | 7 => x < 16
  | 8 => x < 16 && p < 2
  | 9 => x < 8 && p = 0
  | 10 => x = 0 && p < 3
  | 11 | 12 => x = 0 && p = 0
  | _ => false

/-- The kinds whose operand is a vector register (R313). -/
def selVector (imm : BitVec 24) : Bool := [0, 2, 5, 6].contains (selKind imm)

/-- The rules on TYPE, ISP and RND together: those of an instruction's own description (R189, R193), and .FTZ never with F64
(04 R54). -/
def Instr.modRule : Instr → Bool
  | .fadd f | .fsub f | .fmul f | .fma f | .fms f | .fdiv f => f.ty != .f64 || f.isp != 16
  | .movhi f => f.isp != 1 || f.ty == .u64
  | .scan f | .reduce f => !(f.ty == .f32 && (3 ≤ f.isp.toNat % 8))
  | _ => true

/-- A special register gives the data of an instruction whose word takes so many registers: any one for 32 bits, one of 64 bits for 64
where the rule names a register of the width (16 R303): of a global or scratchpad access R223 names an even vector pair or one scalar
register, so `$argp` and `$gts` are refused there (DEDUCED, log 91). -/
def specialData (o : Opnd) (words : Nat) (wide : Bool) : Bool := !o.isKind .sp || words = 1 || (wide && o.isKind .sp64)

/-- The rules it puts on its operand classes and on IMM (R178, R180, R181, R186, R189, R192, R197, R223, R232, R235, R303, R313,
R314, R318, R330). -/
def Instr.operandRule : Instr → Bool
  | .addc f | .subb f | .sel f => f.imm.toNat % 16 < 12
  | .bfx f | .bfi f =>
    let pos := f.imm.toNat % 64; let len := f.imm.toNat / 256 % 64; let w := 32 * f.ty.words
    len != 0 && pos < w && pos + len ≤ w
  | .cvt f => f.imm.toNat % 32 < 13 && f.imm.toNat / 256 % 32 < 13
  | .movhi f => if f.isp = 1 then f.imm.toNat < 2 ^ 16 else f.ty == .u64 || f.imm.toNat < 2 ^ 8
  | .vote f => f.isp.toNat % 4 != 2 || f.dst.isKind .v
  | .plop f => f.imm.toNat % 16 < 12 || f.imm.toNat % 16 = 15
  | .pmov f => f.dst.isKind .p || f.sa.isKind .p
  | .st f | .sts f => specialData f.sb (widthWords f.isp) false
  | .atom f | .atoms f | .red f => specialData f.sb (wordWords f.isp[4]) false
  | .waitmon f => specialData f.sb (wordWords f.isp[0]) true
  | .stash f => f.imm != 0
  | .iflush f => f.imm != 0
  | .inspect f => selOk f.imm && f.dst.isKind (if selVector f.imm then .v else .s)
  | .alter f => selOk f.imm && [0, 1, 2, 3, 4, 5, 12].contains (selKind f.imm) &&
      f.sb.isKind (if selVector f.imm then .v else .s)
  | .cwr f => f.imm.toNat < 4
  | .cww f => f.imm.toNat = 1 || f.imm.toNat = 3
  | .pwrq f => f.imm.toNat < 5
  | _ => true

end Sys2Proof
end

