-- ==== Sys2Proof/WellFormed.lean ====
section
/-!
DEFINITION. When an instruction is well formed: the decoder's checks 2 to 4 of 02 R32, each by name, in its order.
The register limits VREGS and SREGS (R22) belong to the team and are checked at issue.
-/
namespace Sys2Proof

/-- Why the decoder refuses a word. Every one of them is an ILLOP of R32. -/
inductive WfError where
  /-- GRD names no predicate (R19) -/
  | guardNumber
  /-- TYPE is not accepted (R27) -/
  | type
  /-- SAT on an instruction that does not saturate -/
  | saturate
  /-- RND on an instruction that does not round -/
  | rounding
  /-- an ISP value that is not defined -/
  | specific
  /-- modifiers that exclude one another by the instruction's rule -/
  | modRule
  /-- a predicate number of 12 or more in an operand field (R20) -/
  | predicate
  /-- DST, SA or SB of a class the form does not take (R21, R22, R23) -/
  | dstClass | saClass | sbClass
  /-- a scalar form with a vector source (R33) -/
  | scalarForm
  /-- a register group that is not aligned (R22, R223) -/
  | alignment
  /-- SA and SB both name the immediate (R23) -/
  | twoImmediates
  /-- a set IMM bit that must be zero (R23, R24) -/
  | immediate
  /-- FE on a source without a full/empty bit (R25) -/
  | emptyRead
  /-- the instruction's own limits on operands and IMM -/
  | operandRule
  deriving DecidableEq, Repr

/-- The guard of R19 exists. -/
def Guard.ok : Guard → Bool
  | .always => true
  | .p n _ => n.toNat < 12

/-- The predicate number of an operand is one of p0 to p11. -/
def Opnd.predOk : Opnd → Bool
  | .p n => n.toNat < 12
  | _ => true

/-- The operand has one of the classes. -/
def Opnd.within (o : Opnd) (ks : List Kind) : Bool := ks.any o.isKind

/-- A register group of `w` words starts on a multiple of its size (R22, R223): a pair at an even vector register, a
quadruple at a multiple of 4, and 128 bits at an even scalar register. -/
def Opnd.aligned (w : Nat) : Opnd → Bool
  | .v n => n.toNat % w = 0
  | .s n => w < 4 || n.toNat % 2 = 0
  | _ => true

/-- A source with a full/empty bit (R25). -/
def Opnd.hasFull : Opnd → Bool
  | .v _ | .s _ | .h _ => true
  | _ => false

/-- The must-be-zero part of an immediate of a packed or 16-bit type (R24). -/
def Ty.immOk (t : Ty) (imm : BitVec 24) : Bool :=
  match t with
  | .i16x2 | .u16x2 | .f16x2 | .bf16x2 => imm.toNat < 2 ^ 16
  | .i8x4 | .u8x4 => imm.toNat < 2 ^ 8
  | _ => true

/-- IMM obeys R23 and R24. -/
def Fields.immOk (f : Fields) (fm : Form) : Bool :=
  match fm.own with
  | some mask => f.imm &&& ~~~mask = 0
  | none => if f.sa = .imm || f.sb = .imm then f.ty.immOk f.imm else f.imm = 0

/-- The decoder's third check: MOD (R26, R27). -/
def Instr.modErrors (i : Instr) (fm : Form) (f : Fields) : List (WfError × Bool) :=
  [(.type, fm.tys.contains f.ty), (.saturate, fm.sat || !f.sat), (.rounding, fm.rnd || f.rnd == .rne),
   (.specific, fm.isps.contains f.isp.toNat), (.modRule, i.modRule)]

/-- The decoder's fourth check: operand fields, IMM and FE (R20 to R25, R33). -/
def Instr.operandErrors (i : Instr) (fm : Form) (f : Fields) : List (WfError × Bool) :=
  let w := i.widths
  [(.predicate, f.dst.predOk && f.sa.predOk && f.sb.predOk),
   (.dstClass, f.dst.within fm.dst), (.saClass, f.sa.within fm.sa), (.sbClass, f.sb.within fm.sb),
   (.scalarForm, !f.dst.isKind .s || fm.cross || !(f.sa.isKind .v || f.sb.isKind .v)),
   (.alignment, f.dst.aligned w.1 && f.sa.aligned w.2.1 && f.sb.aligned w.2.2),
   (.twoImmediates, !(f.sa == .imm && f.sb == .imm)),
   (.immediate, f.immOk fm),
   (.emptyRead, (!f.feA || (f.sa.hasFull && !fm.fe0)) && (!f.feB || (f.sb.hasFull && !fm.fe0))),
   (.operandRule, i.operandRule)]

/-- The first failing check. -/
def firstError : List (WfError × Bool) → Option WfError
  | [] => none
  | (e, ok) :: rest => if ok then firstError rest else some e

/-- The first of the decoder's checks 2 to 4 that the instruction fails (R32). -/
def Instr.wfError? (i : Instr) : Option WfError :=
  match i.form?, i.fields? with
  | some fm, some f => firstError ((.guardNumber, f.grd.ok) :: (i.modErrors fm f ++ i.operandErrors fm f))
  | _, _ => none

/-- The instruction is well formed. Events and UDF have no fields to check. -/
def Instr.wellFormed (i : Instr) : Bool := i.wfError?.isNone

/-- The instruction is one that a word encodes: every instruction of the opcode map, no event. -/
def Instr.isWord (i : Instr) : Bool := i.opc?.isSome

end Sys2Proof
end

