-- ==== Sys2Proof/Decode.lean ====
section
/-!
DEFINITION. The decoder of 96-bit instruction words (02 R18 to R32), total on every word and refusing by name, the
encoder beside it, and fetching a word from bytes.
-/
namespace Sys2Proof

/-- Why a word is not an instruction: the first failing check of R32. Each is an ILLOP. -/
inductive DecodeError where
  /-- check 1: OPC is unassigned or reserved -/
  | opcode
  /-- check 2: GRD -/
  | guardNumber
  /-- check 3: TYPE is 12 to 15, or another MOD rule fails -/
  | modifiers (e : WfError)
  /-- check 4: an operand index that names nothing (R20, R21), or another rule of the operand fields, IMM and FE -/
  | operands (e : WfError)
  deriving DecidableEq, Repr

/-- The nine fields of a word as bits (R18). -/
structure Raw where
  opc : BitVec 9
  grd : BitVec 5
  dst : BitVec 11
  sa : BitVec 11
  sb : BitVec 11
  fe : BitVec 2
  ty : BitVec 4
  sat : BitVec 1
  rnd : BitVec 2
  isp : BitVec 5
  imm : BitVec 24
  hint : BitVec 11
  deriving DecidableEq, Repr

/-- Takes a word apart (R18, R26). -/
def Raw.ofWord (w : Word96) : Raw where
  opc := w.extractLsb' 87 9
  grd := w.extractLsb' 82 5
  dst := w.extractLsb' 71 11
  sa := w.extractLsb' 60 11
  sb := w.extractLsb' 49 11
  fe := w.extractLsb' 47 2
  ty := w.extractLsb' 43 4
  sat := w.extractLsb' 42 1
  rnd := w.extractLsb' 40 2
  isp := w.extractLsb' 35 5
  imm := w.extractLsb' 11 24
  hint := w.extractLsb' 0 11

/-- Puts a word together (R18). -/
def Raw.toWord (r : Raw) : Word96 :=
  r.opc ++ r.grd ++ r.dst ++ r.sa ++ r.sb ++ r.fe ++ r.ty ++ r.sat ++ r.rnd ++ r.isp ++ r.imm ++ r.hint

/-- GRD (R19): 12 to 14, and 15 with the negation, name nothing. -/
def Guard.ofBits (b : BitVec 5) : Option Guard :=
  let n := b.extractLsb' 0 4
  if b = 0x0F then some .always else if n.toNat < 12 then some (.p n b[4]) else none

def Guard.toBits : Guard → BitVec 5
  | .always => 0x0F
  | .p n neg => BitVec.ofBool neg ++ n

/-- The special registers by index (R21). -/
def SReg.ofIndex : Nat → Option SReg
  | 0 => some .lane | 1 => some .group | 2 => some .tlane | 3 => some .team | 4 => some .teamdim
  | 5 => some .cluster | 6 => some .cpos | 7 => some .split | 8 => some .origlane | 9 => some .core
  | 10 => some .quad | 11 => some .ctx | 12 => some .argp | 13 => some .gts | 14 => some .poison
  | _ => none

def SReg.index : SReg → Nat
  | .lane => 0 | .group => 1 | .tlane => 2 | .team => 3 | .teamdim => 4
  | .cluster => 5 | .cpos => 6 | .split => 7 | .origlane => 8 | .core => 9
  | .quad => 10 | .ctx => 11 | .argp => 12 | .gts => 13 | .poison => 14

/-- An operand field (R20); none of an index that names nothing. -/
def Opnd.ofBits (b : BitVec 11) : Option Opnd :=
  let cls := (b.extractLsb' 9 2).toNat
  let x := (b.extractLsb' 0 9).toNat
  if cls = 0 then if x < 0x100 then some (.v (.ofNat 8 x)) else Option.none
  else if cls = 1 then if x < 0x80 then some (.s (.ofNat 7 x)) else Option.none
  else if cls = 2 then if x < 12 then some (.p (.ofNat 4 x)) else Option.none
  else if x = 0x1FF then some .imm
  else if x = 0x1FE then some .none
  else if x < 0x100 then (SReg.ofIndex x).map .sp
  else if x < 0x110 then some (.h (.ofNat 4 (x - 0x100)))
  else Option.none

def Opnd.toBits : Opnd → BitVec 11
  | .v n => .ofNat 11 n.toNat
  | .s n => .ofNat 11 (0x200 + n.toNat)
  | .p n => .ofNat 11 (0x400 + n.toNat)
  | .sp r => .ofNat 11 (0x600 + r.index)
  | .h n => .ofNat 11 (0x700 + n.toNat)
  | .imm => 0x7FF
  | .none => 0x7FE

/-- TYPE (R26): codes 12 to 15 name nothing. -/
def Ty.ofBits (b : BitVec 4) : Option Ty :=
  match b.toNat with
  | 0 => some .i32 | 1 => some .u32 | 2 => some .i64 | 3 => some .u64 | 4 => some .i16x2 | 5 => some .u16x2
  | 6 => some .i8x4 | 7 => some .u8x4 | 8 => some .f32 | 9 => some .f16x2 | 10 => some .bf16x2 | 11 => some .f64
  | _ => none

def Ty.toBits : Ty → BitVec 4
  | .i32 => 0 | .u32 => 1 | .i64 => 2 | .u64 => 3 | .i16x2 => 4 | .u16x2 => 5
  | .i8x4 => 6 | .u8x4 => 7 | .f32 => 8 | .f16x2 => 9 | .bf16x2 => 10 | .f64 => 11

/-- RND (R26). -/
def Rnd.ofBits (b : BitVec 2) : Rnd :=
  match b.toNat with
  | 0 => .rne | 1 => .rtz | 2 => .rdn | _ => .rup

def Rnd.toBits : Rnd → BitVec 2
  | .rne => 0 | .rtz => 1 | .rdn => 2 | .rup => 3

/-- The fields with everything empty, to ask a form before the operands are read. -/
def Fields.blank (ty : Ty) (r : Raw) : Fields where
  grd := .always
  dst := .none
  sa := .none
  sb := .none
  feA := r.fe[1]
  feB := r.fe[0]
  ty := ty
  sat := r.sat[0]
  rnd := Rnd.ofBits r.rnd
  isp := r.isp
  imm := r.imm
  hint := r.hint

/-- A future handle stands in an operand field (R20). -/
def rawIsHandle (b : BitVec 11) : Bool := 0x700 ≤ b.toNat && b.toNat < 0x710

/-- The decoder: R32's checks 1 to 4, in order. -/
def decode (w : Word96) : Except DecodeError Instr :=
  let r := Raw.ofWord w
  if r.opc = 0x1FF then .ok (.udf (w.extractLsb' 0 87))
  else
    match mkInstr? r.opc.toNat r.isp.toNat (rawIsHandle r.dst) (rawIsHandle r.sb) with
    | none => .error .opcode
    | some mk =>
      match Guard.ofBits r.grd with
      | none => .error .guardNumber
      | some g =>
        match Ty.ofBits r.ty with
        | none => .error (.modifiers .type)
        | some ty =>
          let b := { Fields.blank ty r with grd := g }
          match (mk b).form? with
          | none => .error .opcode
          | some fm =>
            match firstError ((mk b).modErrors fm b) with
            | some e => .error (.modifiers e)
            | none =>
              match Opnd.ofBits r.dst, Opnd.ofBits r.sa, Opnd.ofBits r.sb with
              | some d, some a, some c =>
                let f := { b with dst := d, sa := a, sb := c }
                match firstError ((mk f).operandErrors fm f) with
                | some e => .error (.operands e)
                | none => .ok (mk f)
              | none, _, _ => .error (.operands .dstClass)
              | some _, none, _ => .error (.operands .saClass)
              | some _, some _, none => .error (.operands .sbClass)

/-- The fields of an instruction's word (R18). -/
def Fields.toRaw (f : Fields) (opc : BitVec 9) : Raw where
  opc := opc
  grd := f.grd.toBits
  dst := f.dst.toBits
  sa := f.sa.toBits
  sb := f.sb.toBits
  fe := BitVec.ofBool f.feA ++ BitVec.ofBool f.feB
  ty := f.ty.toBits
  sat := BitVec.ofBool f.sat
  rnd := f.rnd.toBits
  isp := f.isp
  imm := f.imm
  hint := f.hint

/-- The word of an instruction; events have none and give 0. -/
def encode (i : Instr) : Word96 :=
  match i with
  | .udf raw => (0x1FF : BitVec 9) ++ raw
  | i =>
    match i.opc?, i.fields? with
    | some opc, some f => (f.toRaw opc).toWord
    | _, _ => 0

/-- A word of 12 bytes, little-endian (R18). -/
def word96OfBytes (l : List Byte) : Word96 :=
  .ofNat 96 (l.foldr (fun b n => n * 256 + b.toNat) 0)

/-- The 12 bytes of a word, as memory holds them (R18). -/
def bytesOfWord96 (w : Word96) : List Byte :=
  (List.range 12).map fun k => w.extractLsb' (8 * k) 8

/-- The instruction of a word of `nbits` table bits, the bits above them zero, laid out as memory stores it and read
by the decoder. -/
def decodeTableWord (nbits w : Nat) : Option Instr :=
  match decode (word96OfBytes (bytesOfWord96 (.ofNat 96 (w % 2 ^ nbits)))) with
  | .ok i => some i
  | .error _ => none

end Sys2Proof
end

