-- ==== Sys2Proof/Machine/State.lean ====
section
/-!
DEFINITION. The state of the device as plain data: every piece of state the spec names, in the structures it names
them in, the state after reset, and the reasons a step can stop. INVENTORY.md lists each piece with its rule.
Maps are lists of key and value in rising key order that omit the default value; sets of numbers are rising lists.
-/
namespace Sys2Proof.Machine

/-- A map from natural numbers, kept as rising keys. -/
abbrev NMap (α : Type) := List (Nat × α)
/-- A set of natural numbers, kept rising. -/
abbrev NSet := List Nat

/-! ## Teams and splits -/

/-- What a team is (07 R111, 06 R109, 18 R310, 02 R30, 09 R170). -/
inductive TeamKind where
  | grid | upcall | record | trapHandler | supervisor | kite
  deriving DecidableEq, Repr

/-- The modes of CW_STATUS (18 R319); `save` and `restore` are both mode 3. -/
inductive Mode where
  | user | trap | supervisor | save | restore
  deriving DecidableEq, Repr

/-- Split states (09 R155). -/
inductive SplitState where
  | free | ready | wait | blocked | trap | debug | shed | held
  deriving DecidableEq, Repr

/-- A record on its way to or in a record gatherer (06 R107). -/
structure Record where
  grid : Nat
  origin : Nat
  hidx : Nat
  ospec : U32
  src : Nat
  /-- bytes 8 to 63 as 14 words, with each word's poison -/
  payload : List U32
  poison : List Bool
  /-- for an upcall: quad, entry and upcall number -/
  upcall : Option (Nat × Nat × Nat)
  deriving DecidableEq, Repr

/-- Why a split is in WAIT or BLOCKED: what its retry waits for. -/
inductive Waiting where
  /-- nothing: the instruction is tried again at the next choice of splits -/
  | retry
  /-- registers of an instruction to become full (08 R148, R149) -/
  | regs
  /-- an operand log entry of the split to be freed (08 R142) -/
  | log
  /-- the STALL count to run out (02 R28, 09 R155) -/
  | stall
  /-- named barrier `n`, to go on, or to perform the instruction `again` once its lanes may arrive (16 R294) -/
  | bar (n : Nat) (again : Bool)
  /-- the cluster barrier, likewise (16 R298) -/
  | cbar (again : Bool)
  /-- nothing: the split traps at the instruction it has left BLOCKED at (16 R297) -/
  | doomed (cls detail : Nat)
  /-- room for records: their lanes, cores and records as read at issue (16 R300) -/
  | send (records : List (Nat × Nat × Record))
  /-- ACCSPILL or ACCFILL to leave the operand log (18 R327) -/
  | spill
  /-- WAITMON, on words of 4 or 8 bytes (16 R303) -/
  | monitor (wide : Bool)
  /-- SLEEP until a time, in units of State.time (16 R304) -/
  | sleep (until_ : Nat)
  /-- FWAIT on a token (13 R238) -/
  | future (token : U64)
  /-- CHKW on a token's chunks (13 R244) -/
  | chunks (token : U64) (n : Nat) (mask : U64)
  /-- an instruction fetch parked on the table entry at an address (08 R146) -/
  | fetch (entry : Nat)
  /-- a safe point waiting for the team to settle (18 R322) -/
  | safept (n : Nat)
  /-- REPLAY of a group, until its pass has ended (18 R315) -/
  | replay (uid : Nat) (group : Nat)
  deriving DecidableEq, Repr

/-- A split table entry with its mask slot's contents (09 R154 to R156) and what the scheduler keeps for it. -/
structure Split where
  state : SplitState := .free
  pc : U64 := 0
  /-- GTS of creation -/
  age : Nat := 0
  /-- mask store slot -/
  mptr : Nat := 0
  mask : Mask := 0
  waitc : Nat := 0
  /-- cycles of STALL left (02 R28) -/
  stall : Nat := 0
  yld : Bool := false
  /-- cycles held at a block entry (09 R160) -/
  hold : Nat := 0
  /-- the hold's limit has been reached at this instruction -/
  holdOver : Bool := false
  waiting : Waiting := .retry
  /-- lanes that have performed the instruction at which the split stands: their passes have issued (09 R152), or it counts as
  performed for them after a trap (18 R315) -/
  did : Mask := 0
  /-- groups whose passes of this issue of the instruction have gone by -/
  passed : GMask := 0
  /-- the word of the instruction that it has begun, or waits at -/
  word : Option Word96 := none
  /-- the state to return to from SHED or from a stop of STOPTEAM (20 R359, 18 R320) -/
  former : SplitState := .ready
  /-- it issues the one instruction of a single step (18 R320) -/
  stepping : Bool := false
  /-- stopped in DEBUG by its own breakpoint or step, not by STOPTEAM (18 R320) -/
  stopped : Bool := false
  /-- a REGROUP under way: when it completes, and the groups it touches (09 R169) -/
  moving : Option (Nat × GMask) := none
  /-- WAITMON's lanes that have read: by lane, the word's device address, the expected value and the word as last read (16 R303) -/
  mon : NMap (Nat × U64 × U64) := []
  deriving DecidableEq, Repr

/-- A frontier record (09 R162). -/
structure FrontierRec where
  pc : U64
  age : Nat
  mask : Mask
  deriving DecidableEq, Repr

/-- A group's trap or debug stop (18 R310, R315, R320). -/
structure GTrap where
  cls : Nat
  /-- lanes of the group that hold the class -/
  mask : GMask
  detail : Nat
  pc : U64
  ea : U64
  gts : Nat
  word : Word96
  /-- resume PC -/
  rpc : U64
  /-- entry of the group's split -/
  split : Nat
  debug : Bool
  /-- the handler group serving it, once a frame is granted -/
  handler : Option Nat
  /-- its REPLAY has performed the instruction, and the group waits for room for its subset (18 R315) -/
  replayed : Bool := false
  /-- what the pass of its REPLAY waits for -/
  pend : Option Waiting := none
  deriving DecidableEq, Repr

/-- A bound named barrier (16 R292). -/
structure Barrier where
  count : Nat
  arrived : Mask
  pbytes : Int
  phase : U32
  abandoned : Bool
  deriving DecidableEq, Repr

/-- A cluster barrier (16 R298): arrived lanes by team. -/
structure CBar where
  arrived : NMap Mask
  phase : U32
  abandoned : Bool
  deriving DecidableEq, Repr

/-- A stash mapping (12 R209, R210): filled sectors with the device address each was filled from. -/
structure Stash where
  win : Nat
  glob : U64
  sectors : Nat
  filled : NMap Nat
  dirty : NSet
  deriving DecidableEq, Repr

/-- The registers of a team (02 R19 to R22, 08 R148, 10 R173, R195, 13 R236). Keys: `lane * 512 + r` for vector
registers, `lane * 16 + p` for predicates, `group * 512 + r` for full/empty bits. -/
structure Regs where
  v : NMap U32 := []
  vPoison : NSet := []
  vEmpty : NSet := []
  s : NMap U64 := []
  sPoison : NSet := []
  sEmpty : NSet := []
  p : NSet := []
  pPoison : NSet := []
  h : NMap U64 := []
  hEmpty : NSet := []
  /-- link stacks, top first, by lane -/
  links : NMap (List U64) := []
  /-- `$origlane` where it differs from `$tlane` -/
  origlane : NMap Nat := []
  /-- lanes whose `$poison` is 1 -/
  flag : Mask := 0
  deriving DecidableEq, Repr

/-- The slot an upcall grants its handler team (05 R83, 14 R256). -/
structure Grant where
  quad : Nat
  rte : Nat
  upcall : Nat
  /-- team that posted the walk, whose window holds the slot -/
  owner : Nat
  /-- window ranges granted: start and size -/
  ranges : List (Nat × Nat)
  live : Bool
  deriving DecidableEq, Repr

/-- A team's scratchpad window (01 R8, 12 R205). -/
structure Window where
  base : Nat := 0
  /-- program part, in bytes -/
  size : Nat := 0
  tag : U32 := 0
  /-- allocated -/
  held : Bool := false
  deriving DecidableEq, Repr

/-- What a pre-empted team has left behind (18 R323 to R325): the control block's items. -/
structure Saved where
  block : Nat
  entry : Nat
  /-- entry of the split that stood at the chosen safe point -/
  chosen : Nat
  splits : List Split
  frontier : List FrontierRec
  origlane : NMap Nat
  crit : Nat
  prio : Nat
  barriers : NMap Barrier
  lastS : U64
  lastSPoison : Bool
  lanes : Mask
  deriving DecidableEq, Repr

/-- Where a team stands in a pre-emption (18 R322 to R326). -/
inductive Out where
  | in_
  /-- its save routine runs -/
  | saving
  | saved
  /-- held in place -/
  | held
  /-- its restore routine runs -/
  | restoring
  deriving DecidableEq, Repr

/-- A resident team: of a grid, a handler, a trap handler group, a supervisor team or a kite. -/
structure Team where
  uid : Nat
  kind : TeamKind
  /-- the grid it belongs to; 0 for none -/
  grid : Nat
  ctx : Nat
  /-- `$team`, `$cluster`, `$cpos` -/
  team : U32
  cluster : U32
  cpos : U32
  core : Nat
  /-- group slots, the lowest first (07 R112); a trap handler's is its frame -/
  slots : List Nat
  lanes : Nat
  vregs : Nat
  sregs : Nat
  argp : U64
  /-- image base, code section and safe-point table of the image it runs -/
  image : U64
  codeOff : Nat
  codeSz : Nat
  spCount : Nat
  window : Window
  regs : Regs
  mode : Mode
  prio : Nat
  crit : Nat
  splits : List Split
  frontier : List FrontierRec
  ovf : Bool
  hold : Bool
  /-- GTS-cycle of the last issue, for "least recently issued" (09 R164) -/
  lastIssue : Nat
  barriers : NMap Barrier
  /-- the cluster barrier of a team that has none to share (16 R298) -/
  cbar : CBar
  /-- CW_DEBUG and CW_ATTACH (18 R319) -/
  debug : U64
  attach : U64
  traps : NMap GTrap
  /-- stops of groups that are in TRAP or DEBUG already, by group: each counts once the record that the group has is gone (18 R320) -/
  stops : List (Nat × GTrap) := []
  /-- by operand log entry: the lanes whose later accesses come after its own, those of the split that issued it and of the splits that
  one has merged with (15 R280) -/
  logAfter : NMap Mask := []
  /-- groups that lost a member by a kill -/
  killed : GMask
  /-- a trap handler's team and group, and its core's frame (18 R310) -/
  serves : Option (Nat × Nat)
  frame : Nat
  stashes : List Stash
  grant : Option Grant
  /-- a split of the team has executed a handler return (14 R257) -/
  returned : Bool
  /-- the reserve entry it draws on (07 R119) -/
  reserve : Bool
  /-- the window has been zeroed and a quad's idle exit has ended (12 R205, 20 R369) -/
  started : Bool
  /-- lanes saved by EXIT in save mode -/
  savedLanes : Mask
  saved : Option Saved
  out : Out
  /-- kite: the team it runs ahead of, STOP, and the time it was spawned (09 R170, R172) -/
  kiteOf : Nat
  kiteStop : U64
  born : Nat
  /-- time the team became shed; CRIT deferral over; BACKSTOP reached (20 R356 to R358) -/
  shedAt : Option Nat
  critOver : Bool
  backstop : Bool
  /-- notify-only grant: issue slots left and its end (20 R364) -/
  notify : Option (Nat × Nat)
  /-- the team has no live lane and its resources are released; only its kept window remains (23 R373) -/
  retired : Bool
  deriving DecidableEq, Repr

/-! ## Images, grids and launch -/

/-- A kernel image's header and tables as read at launch (01 R6 to R12). -/
structure Image where
  base : U64
  hflags : Nat
  lanes : Nat
  clw : Nat
  clh : Nat
  vregs : Nat
  sregs : Nat
  scratch : Nat
  prioMin : Nat
  prioMax : Nat
  maxrun : Nat
  entry : Nat
  codeOff : Nat
  codeSz : Nat
  constOff : Nat
  constSz : Nat
  dataOff : Nat
  dataSz : Nat
  htOff : Nat
  htCount : Nat
  spCount : Nat
  spOff : Nat
  slOff : Nat
  slCount : Nat
  imgSz : Nat
  /-- HENTRY and LPR -/
  handlers : List (Nat × Nat)
  /-- SAVE and RESTORE -/
  safepts : List (Nat × Nat)
  /-- START and STOP -/
  slices : List (Nat × Nat)
  deriving DecidableEq, Repr

/-- ROOT, HB, HL, HO (08 R128). -/
structure Xlat where
  root : U64
  hb : U64
  hl : U64
  ho : U64
  deriving DecidableEq, Repr

/-- An adopted node (06 R100, R107). -/
structure Node where
  hidx : Nat
  ntmr : Nat
  home : Nat
  deriving DecidableEq, Repr

/-- A reserve entry on one core (07 R118): the group slots and window it holds, and the team using it. -/
structure Reserve where
  core : Nat
  slots : List Nat
  base : Nat
  user : Option Nat
  deriving DecidableEq, Repr

/-- A launched grid (06 R99, 07 R115). -/
structure Grid where
  id : Nat
  ctx : Nat
  part : Nat
  queue : Nat
  pidx : Nat
  prio : Nat
  teams : Nat
  image : Image
  argp : U64
  done : U64
  donev : U64
  ctmr : Nat
  atmr : Nat
  /-- the heap triple and root the grid keeps (08 R129); read at its first placement -/
  xlat : Option Xlat
  /-- frames of the constant section's 64 KiB pages (13 R228) -/
  constFrames : List Nat
  nodes : NMap Node
  /-- live-handler mask (14 R276) -/
  live : U64
  reserves : List Reserve
  placed : Nat
  /-- cores that ran a team or handler team of it (19 R344) -/
  ran : NSet
  cbars : NMap CBar
  /-- nodes that the LAUNCH adopts and that have no home core yet: handler index and timer (06 R100) -/
  pending : NMap (Nat × Nat)
  /-- the queue's entry has not been rewritten since the launch, so that its DONEIDX counts the packet (23 R384) -/
  counts : Bool
  deriving DecidableEq, Repr

/-! ## Records and the record gatherer -/

/-- A batch (06 R108). -/
structure Batch where
  id : Nat
  grid : Nat
  origin : Nat
  hidx : Nat
  records : List Record
  /-- when its timer lapses -/
  due : Nat
  closed : Bool
  deriving DecidableEq, Repr

/-! ## Copies, walks and their status rings -/

/-- A status ring entry (13 R236, R237, 14 R275). -/
structure JobStat where
  seq : Nat
  ctx : Nat
  state : Nat
  count : Nat
  detail : Nat
  /-- WSTAT's eight counters, of a walk -/
  counters : Option (List Nat)
  /-- of a copy that stopped: its chunks, and those whose bit is set -/
  bits : Option (Nat × NSet) := none
  deriving DecidableEq, Repr

/-- An engine's sequence number and status ring of 1,024 jobs (13 R236). -/
structure Engine where
  /-- sequence number of the next job -/
  next : Nat := 1
  ring : List JobStat := []
  deriving DecidableEq, Repr

/-- A copy descriptor (13 R241). -/
structure CopyDesc where
  kind : Nat
  barv : Bool
  sscr : Bool
  dscr : Bool
  barn : Nat
  esz : Nat
  len : Nat
  src : U64
  dst : U64
  pat : U64
  ext0 : Nat
  ext1 : Nat
  pitch : U64
  org0 : Int
  org1 : Int
  w0 : Nat
  w1 : Nat
  dpitch : Nat
  cmask : Nat
  deriving DecidableEq, Repr

/-- A window a copy touches, with the allocation tag taken at the post (13 R247). -/
structure Target where
  uid : Nat
  core : Nat
  base : Nat
  size : Nat
  tag : U32
  /-- first offset written or read in it -/
  off : Nat
  deriving DecidableEq, Repr

/-- A byte range of a job's footprint with its access (15 R281): start, length, write. -/
structure Foot where
  base : Nat
  len : Nat
  write : Bool
  deriving DecidableEq, Repr

/-- A copy in flight on a BTE (13 R240 to R247). -/
structure Copy where
  seq : Nat
  /-- place in the order of posts (15 R281) -/
  order : Nat
  uid : Nat
  grid : Nat
  ctx : Nat
  prio : Nat
  desc : CopyDesc
  /-- BGATHER's lanes and addresses -/
  lanes : List (Nat × U64)
  src : Option Target
  targets : List Target
  chunks : Nat
  /-- completion bitmap -/
  done : NSet
  /-- bytes written and not discarded, and bytes discarded -/
  written : Nat
  discarded : Nat
  /-- by target: bytes reported to its barrier or discarded at its window -/
  accounted : List Nat
  /-- source bytes, by number, that the copy itself has overwritten, as they stood before it (R242) -/
  before : NMap Byte
  beforePoison : NSet
  /-- the table entries that its accesses are parked on -/
  parked : List Nat
  foot : List Foot
  deriving DecidableEq, Repr

/-- A tensor or convolution shape record (05 R85, R86). -/
structure Shape where
  kind : Nat
  fmt : Nat
  layout : Nat
  base : U64
  extn : Nat
  extk : Nat
  pitch : U64
  ic : Nat := 0
  in_ : Nat := 0
  ih : Nat := 0
  iw : Nat := 0
  oh : Nat := 0
  ow : Nat := 0
  fh : Nat := 0
  fw : Nat := 0
  sh : Nat := 0
  sw : Nat := 0
  dh : Nat := 0
  dw : Nat := 0
  ph : Nat := 0
  pw : Nat := 0
  padv : U32 := 0
  deriving DecidableEq, Repr

/-- An operand block (05 R81). -/
structure Operand where
  fmt : Nat
  blen : Nat
  xshift : Nat
  kind : Nat
  hidx : Nat
  xbase : U64
  shape : Option Shape
  /-- MOFF and MLAY of sparse A (05 R88) -/
  sparse : Option (Nat × Nat)
  deriving DecidableEq, Repr

/-- A scale descriptor (05 R89). -/
structure Scale where
  sbase : U64
  tbase : U64
  senc : Nat
  shift : Nat
  deriving DecidableEq, Repr

/-- A problem record as copied at WALK (05 R80). -/
structure Problem where
  m : Nat
  n : Nat
  k : Nat
  tmlog : Nat
  tnlog : Nat
  tk : Nat
  order : Nat
  look : Nat
  slots : Nat
  cslots : Nat
  cons : Nat
  fpol : Nat
  schk : Nat
  intsat : Bool
  slotOff : Nat
  slotSz : Nat
  a : Operand
  b : Operand
  sr : Scale
  sc : Scale
  save : U64
  user : U64
  foot : List Foot
  deriving DecidableEq, Repr

/-- Walk states (14 R249). -/
inductive WalkState where
  | free | queued | active | saving | saved | stopping
  deriving DecidableEq, Repr

/-- A fetch of an operand tile (14 R259): the handle's shape record while it is still to be read, the shape once it is
known, the origin word, and whether the record was poisoned. -/
structure Fetch where
  handle : Option U64
  shape : Option Shape
  origin : U64
  bad : Bool
  deriving DecidableEq, Repr

/-- An operand the engine has requested or holds (14 R251, R269). -/
structure OpSlot where
  /-- slot, none of a KIND 1 operand whose handle has not arrived -/
  slot : Option Nat
  /-- B rather than A -/
  sideB : Bool
  ordinal : Nat
  /-- 1 requested, 2 held, 3 held poisoned -/
  st : Nat
  /-- what the fetcher fills the slot from -/
  fetch : Option Fetch
  /-- the table entry the fetch is parked on -/
  parked : Option Nat
  deriving DecidableEq, Repr

/-- An upcall of a walk that has not completed (14 R255). -/
structure Upcall where
  id : Nat
  /-- 1 A producer, 2 B producer, 3 consumer -/
  ukind : Nat
  slot : Option Nat
  ordinal : Nat
  tseq : Nat
  /-- a consumer's tile was delivered poisoned -/
  bad : Bool
  deriving DecidableEq, Repr

/-- A handler's first return (14 R258), as recorded while the walk is SAVED. -/
inductive Return where
  | hret
  | hretf (addr : U64) (origin : U64)
  | hfail (code : Nat)
  /-- a group of the handler team was killed (R264) -/
  | killed
  deriving DecidableEq, Repr

/-- A walk in a reservation table entry (14 R248 to R272). -/
structure Walk where
  state : WalkState
  seq : Nat
  order : Nat
  ctx : Nat
  grid : Nat
  /-- posting team and its window -/
  uid : Nat
  core : Nat
  window : Window
  prio : Nat
  age : Nat
  prob : Problem
  ops : List OpSlot
  /-- consumer slots in use -/
  cons : NSet
  upcalls : List Upcall
  returns : List (Nat × Return)
  /-- walk-order index of the first tile not yet begun -/
  next : Nat
  /-- tiles finished or dropped -/
  finished : Nat
  /-- tiles whose consumer completed with HRET -/
  donec : Nat
  counters : List Nat
  resumed : Bool
  /-- it has been ACTIVE, so that its counters run (R254) -/
  began : Bool
  /-- the cursor written at the save, to be read at resume; none before a save -/
  cursor : List Byte
  /-- the table entry that a cursor or scale access is parked on -/
  parked : Option Nat
  /-- final state and detail while STOPPING -/
  ending : Option (Nat × Nat)
  /-- scales as the scale cache holds them: by device address and width, their bytes and poison (05 R89) -/
  scales : NMap (List Byte × Bool) := []
  deriving DecidableEq, Repr

/-- An accumulator tile (14 R252, R269, R270, 18 R327). -/
structure Acc where
  /-- 0 free, 1 computing, 2 finished and waiting for a consumer slot -/
  st : Nat := 0
  ctx : Nat := 0
  rte : Nat := 0
  seq : Nat := 0
  q : Nat := 0
  /-- results row by row -/
  data : List U32 := []
  /-- numbers of the poisoned elements -/
  poison : NSet := []
  checked : Bool := false
  /-- GTS at which it finished, for the oldest (R270) -/
  gts : Nat := 0
  deriving DecidableEq, Repr

/-- The tile that has the array: its walk's entry, its index, its accumulator, its next slab, and whether that slab's
pass is under way rather than stalled (14 R252, R253). -/
structure ArrayUse where
  rte : Nat
  q : Nat
  acc : Nat
  ks : Nat
  busy : Bool
  /-- results of the first two passes of a checked slab, while its third pass runs (14 R272) -/
  passes : Option (List U32 × List U32) := none
  deriving DecidableEq, Repr

/-- A matrix walk engine (14 R248). -/
structure Mwe where
  walks : NMap Walk := []
  accs : List Acc := [{}, {}, {}, {}]
  array : Option ArrayUse := none
  /-- tiles whose last slab pass has ended and whose scales are still to be read, in the order in which they left the array -/
  late : List ArrayUse := []
  /-- time from which the next operand request may be made (14 R251) -/
  nextAsk : Nat := 0
  /-- the accumulator tile named in the trap to the supervisor (14 R270) -/
  signal : Option Nat := none
  /-- time up to which the walks' cycle counters have counted -/
  since : Nat := 0
  engine : Engine := {}
  /-- faulty processing elements, row and column (19 R340): what one computes is a free value; none in a correct array -/
  badPes : List (Nat × Nat) := []
  deriving DecidableEq, Repr

/-! ## Cores -/

/-- One recorded lane of an operand log entry (08 R141). -/
structure LogLane where
  lane : Nat
  ea : U64
  data : BitVec 128
  cmp : U64
  poison : Bool
  deriving DecidableEq, Repr

/-- An operand log entry (08 R141): the instruction word and address and the lanes still to be performed. -/
structure LogEntry where
  id : Nat
  uid : Nat
  /-- the entry and mask of the split that issued it -/
  e : Nat
  mask : Mask
  word : Word96
  pc : U64
  lanes : List LogLane
  /-- BGATHER's lanes and addresses, which its post keeps besides the one recorded lane (13 R240) -/
  gather : List (Nat × U64)
  /-- device addresses of the invalid table entries that its lanes have met (08 R138) -/
  entries : List Nat
  deriving DecidableEq, Repr

/-- A result that becomes full at a time (10 R176): vector register of a group word, or scalar register. -/
structure Pending where
  uid : Nat
  /-- `group * 512 + r`, or `s` numbers from 2^16 on -/
  reg : Nat
  due : Nat
  /-- lanes of the group word whose read travels the fabric port (23 R382); of a scalar register's, any bit -/
  pool : GMask := 0
  deriving DecidableEq, Repr

/-- An instruction word held by an L1 instruction cache (12 R203, 13 R235). -/
structure ICell where
  ctx : Nat
  pc : Nat
  word : Word96
  deriving DecidableEq, Repr

/-- The scan status of a core (19 R343 to R346). -/
inductive Scan where
  | inService | draining | scanning | removed
  deriving DecidableEq, Repr

/-- One core. -/
structure Core where
  oplog : List LogEntry := []
  tagCtr : U32 := 0
  /-- records in flight to the record gatherer, in order of arrival -/
  inflight : List Record := []
  batches : List Batch := []
  bte : Engine := {}
  copies : List Copy := []
  icache : List ICell := []
  /-- L1 data cache residency: line, its filled sectors and its dirty ones (12 R208) -/
  l1 : NMap (BitVec 8 × BitVec 8) := []
  pending : List Pending := []
  /-- time at which the special-function unit accepts again -/
  sfuBusy : Nat := 0
  /-- by issue slot, the time until which an F64 pass holds its vector pipe, and until which a REGROUP keeps it (09 R153, R169) -/
  pipes : NMap Nat := []
  kept : NMap Nat := []
  /-- slot of the last instruction of the branch unit -/
  ctrlSlot : Nat := 0
  scan : Scan := .inService
  scanStart : Nat := 0
  /-- GTS at which its last passing scan began, and of its last passing scan -/
  lastPassBegan : Nat := 0
  lastPass : Nat := 0
  deriving DecidableEq, Repr

/-! ## Queues -/

/-- A WAITVAL being waited on (06 R102). -/
structure WaitVal where
  cond : Nat
  addr : U64
  value : U64
  mask : U64
  /-- device address of the word -/
  phys : Nat
  pidx : Nat
  deriving DecidableEq, Repr

/-- The DONE write and the completion of a LAUNCH whose grid has retired (23 R375). -/
structure Done where
  pidx : Nat
  ctx : Nat
  addr : U64
  value : U64
  /-- DONEIDX counts it -/
  counts : Bool
  /-- the table entry the write is parked on -/
  parked : Option Nat
  deriving DecidableEq, Repr

/-- A queue table entry (06 R93) and what the device keeps for the queue. -/
structure Queue where
  rbase : U64 := 0
  rlog : Nat := 0
  qstate : Nat := 0
  qcode : Nat := 0
  ctx : Nat := 0
  rdidx : Nat := 0
  wridx : Nat := 0
  doneidx : Nat := 0
  /-- function whose doorbell it is (06 R95) -/
  fn : Nat := 0
  /-- pending node set (06 R100) -/
  nodes : NMap (Nat × Nat) := []
  waiting : Option WaitVal := none
  /-- packets launched and not completed -/
  open_ : NSet := []
  /-- a LAUNCH handed to the MD and not yet launched -/
  launching : Bool := false
  /-- the table entry its access is parked on -/
  parked : Option Nat := none
  /-- DONE writes still to be made -/
  dones : List Done := []
  /-- index and GTS of the wakes whose packets have not all been launched (06 R106) -/
  wakes : List (Nat × Nat) := []
  deriving DecidableEq, Repr

/-- A checked LAUNCH waiting for the MD (06 R106). -/
structure Launch where
  queue : Nat
  wakeGts : Nat
  grid : Grid
  deriving DecidableEq, Repr

/-! ## Partitions, contexts and functions -/

/-- A partition descriptor (07 R113) and its placement line (R116). -/
structure Partition where
  qmask : BitVec 48 := 0
  gbase : Nat := 0
  gsize : Nat := 0
  lbase : Nat := 0
  lsize : Nat := 0
  pstate : Nat := 0
  pooloff : Nat := 0
  poolsz : Nat := 0
  /-- grids of the placement line, the head first -/
  line : List Nat := []
  deriving DecidableEq, Repr

/-- A fault-ring record that waits for room (08 R140): its 32 bytes. -/
abbrev FaultRec := List Byte

/-- A live context: its descriptor (08 R128, 18 R309, 20 R362) and what the supervisor keeps. -/
structure Context where
  root : U64
  hb : U64
  hl : U64
  ho : U64
  fring : Nat
  frlog : Nat
  fvec : Nat
  fwr : Nat
  frd : Nat
  timg : U64
  targ : U64
  pdl : Nat
  ppool : U64
  pbsz : Nat
  pbcnt : Nat
  dbginit : Nat
  pctl : Nat
  nqbase : U64
  nqlog : Nat
  rpl : Bool
  owner : Nat
  part : Nat
  /-- the trap handler image, read when the context went live -/
  trapImage : Option Image
  /-- GTS of the pending pre-emption request, and its function -/
  preempt : Option (Nat × Nat)
  /-- the request has completed and the context is out -/
  out : Bool
  /-- teams killed with PREEMPTLATE by the request -/
  late : Nat
  held : List FaultRec
  /-- save blocks in use -/
  blocks : NSet
  deriving DecidableEq, Repr

/-- A posted write of the host: to memory, or to bytes of BAR 0 (23 R378, 15 R284). -/
inductive HostWrite where
  | mem (off : Nat) (data : List Byte)
  | bar0 (off : Nat) (data : List Byte)
  deriving DecidableEq, Repr

/-- A posted host write that has not been performed, with the entry it is parked on (23 R379, 15 R284). -/
structure Posted where
  write : HostWrite
  entry : Option Nat
  /-- its place in the order in which the host port has taken the accesses of every function (15 R284) -/
  stamp : Nat := 0
  deriving DecidableEq, Repr

/-- A host read or AtomicOp that has not completed: its address in the aperture context, by the base that the writes stamped before it
leave (23 R379); its stamp (15 R284); the entry it is parked on; and for an AtomicOp its operation, width, operand and
comparison value. -/
structure HostRead where
  tag : Nat
  va : U64
  len : Nat
  stamp : Nat
  entry : Option Nat
  op : Option (HostAtomic × Bool × U64 × U64)
  deriving DecidableEq, Repr

/-- A page migration under way (12 R217): the context and page, its size, its leaf's address, the two frames, and the job
card's place in the order of posts (15 R281). -/
structure Migration where
  ctx : Nat
  page : Nat
  size : Nat
  leaf : Nat
  old : Nat
  new : Nat
  order : Nat
  deriving DecidableEq, Repr

/-- A PCIe function (23 R378). -/
structure Function where
  parts : BitVec 16 := 0
  migbase : U64 := 0
  migtail : U64 := 0
  mighead : U64 := 0
  tiva : U64 := 0
  tireq : Nat := 0
  tidone : Nat := 0
  tistat : BitVec 64 := 0
  /-- requests accepted and not completed: kind, context, address; none of a refused one -/
  tiq : List (Option (Nat × Nat × U64)) := []
  frctx : U64 := 0
  abase : U64 := 0
  apctx : Option Nat := none
  sctail : Nat := 0
  schead : Nat := 0
  /-- the supervisor has taken up the command of SCHEAD -/
  busy : Bool := false
  /-- the command as the supervisor has read it from its slot (23 R383) -/
  taken : List Byte := []
  /-- command slots, 4,096 bytes, and staging area, 128 bytes -/
  slots : NMap Byte := []
  staging : NMap Byte := []
  posted : List Posted := []
  reads : List HostRead := []
  /-- the PASID that the function is assigned, if any; and the PASIDs that its next requests carry, the first first, of those that carry
  one (23 R377) -/
  pasid : Option Nat := none
  pasids : List (Option Nat) := []
  /-- the request whose copy runs -/
  migrating : Option Migration := none
  deriving DecidableEq, Repr

/-! ## Power -/

/-- A droop point (20 R353). -/
structure Point where
  fdev : Nat := 0
  vmin : Nat := 0
  hys : Nat := 0
  lvl : Nat := 0
  deriving DecidableEq, Repr

/-- The last accepted Thezen frame (20 R349, R350). -/
structure Frame where
  flags : Nat := 0
  seq : Nat := 0
  freq : Nat := 0
  vbus : Nat := 0
  gts : Nat := 0
  deriving DecidableEq, Repr

/-- Idle states (20 R368). -/
inductive Idle where
  | a0 | a1 | a2
  deriving DecidableEq, Repr

/-- The supply and clock of one quad (20 R361, R365, R366, R368). -/
structure QuadPower where
  alw : Int := 65536
  /-- the cut class of this cycle (20 R361) -/
  cut : Nat := 7
  stretched : Bool := false
  /-- set point in mV -/
  rail : Nat := 800
  idle : Idle := .a0
  /-- time since which it has been idle -/
  idleSince : Option Nat := some 0
  /-- an exit from A1 or A2 is under way -/
  exiting : Bool := false
  deriving DecidableEq, Repr

/-- The droop controller and the power registers (20 R350 to R359, R367). -/
structure Power where
  curve : List Point := List.replicate 16 {}
  fnom : Nat := 50000
  backstop : Nat := 1000
  critcap : Nat := 2000
  losslvl : Nat := 0xFF
  tlvl : Nat := 2
  ttrip : Int := 1680
  rate : List Nat := [320, 288, 256, 224, 192, 160, 128, 96, 64]
  cap : Nat := 65536
  step : Nat := 4096
  stprej : Nat := 0
  scount : Nat := 0
  sid : Nat := 0
  temp : Int := 0
  /-- register bytes written and not yet in force, by offset from 0x2000 -/
  pending : NMap Byte := []
  tripped : BitVec 16 := 0
  level : Nat := 0
  target : Nat := 0
  /-- time of the pending fall -/
  fall : Option Nat := none
  changes : Nat := 0
  changeGts : Nat := 0
  frame : Frame := {}
  /-- the frame behind the last decision (20 R363) -/
  behind : Frame := {}
  first : Bool := true
  lost : Bool := false
  /-- time of the frame whose decision is due -/
  deciding : Option Nat := none
  hot : Bool := false
  /-- context that has the replay grant, and the slot's previous 16 bytes -/
  replay : Option Nat := none
  previous : Option (List Byte) := none
  /-- device address of the armed replay slot, and the entry its read is parked on -/
  slotLine : Option Nat := none
  slotParked : Option Nat := none
  /-- deadlines of the classes' backstops -/
  deadlines : NMap Nat := []
  quads : List QuadPower := List.replicate 48 {}
  a3 : Bool := false
  /-- latency tolerance in ns -/
  ltr : Nat := 0
  deriving DecidableEq, Repr

/-! ## Logs, errors and the outside -/

/-- A completion entry (19 R344). -/
structure Completion where
  gts : Nat
  ctx : Nat
  queue : Nat
  cstate : Nat
  pidx : Nat
  cores : NSet
  deriving DecidableEq, Repr

/-- The log windows and their registers (23 R385). Lists hold the records from number 0 of the window on. -/
structure Logs where
  errwr : Nat := 0
  errrd : Nat := 0
  clwr : Nat := 0
  clrd : Nat := 0
  errlost : Nat := 0
  cllost : Nat := 0
  logvec : Nat := 0xFFFF
  errWindow : NMap (List Byte) := []
  clWindow : NMap Completion := []
  errHeld : List (List Byte) := []
  clHeld : List Completion := []
  /-- entries not yet confirmed or suspect, consumed or not -/
  provisional : List Completion := []
  deriving DecidableEq, Repr

/-- What the device sends to the host (23 R377, R379, R387). -/
inductive HostMsg where
  | msix (fn : Nat) (vec : Nat)
  /-- a read's completion: its data, and whether it is poisoned -/
  | data (fn : Nat) (tag : Nat) (bytes : List Byte) (poisoned : Bool)
  | unsupported (fn : Nat) (tag : Nat)
  | abort (fn : Nat) (tag : Nat)
  /-- Configuration Request Retry Status, before bring-up has ended (23 R388) -/
  | retry (fn : Nat) (tag : Nat)
  /-- AER: an uncorrectable internal error, as a device error, with its ECLASS (23 R377) -/
  | deviceError (ecls : Nat)
  | spdm (bytes : List Byte)
  /-- the answer to a back-invalidate of the CXL fabric (12 R219) -/
  | backInvalidated (line : Nat)
  deriving DecidableEq, Repr

/-- Firmware (23 R386): fused minimum SVNs by FTYPE, running images, halted queue cores. -/
structure Firmware where
  minSvn : NMap Nat := []
  /-- digests and SVNs of the running supervisor, queue-core and scan images, by `fwKey` -/
  running : NMap (List Byte × Nat) := []
  haltedCores : NSet := []
  /-- queue cores that have halted and whose queues are still to move, in the order in which they halted (19 R342) -/
  toMove : List Nat := []
  /-- queues moved to another queue core (06 R105) -/
  moved : NMap Nat := []
  deriving DecidableEq, Repr

/-! ## Translation -/

/-- A table entry held by the TLBs and walker caches (08 R136): context, level, index path, its address and value. -/
structure Held where
  ctx : Nat
  level : Nat
  path : Nat
  addr : Nat
  entry : U64
  deriving DecidableEq, Repr

/-- An engine's or fetch's fault record in force while its monitor is armed (08 R140): context and entry address. -/
abbrev Armed := Nat × Nat × Nat

/-! ## Scheduling -/

/-- A split chosen to issue (09 R164), or a group to be replayed (18 R315). -/
structure Ticket where
  uid : Nat
  e : Nat
  /-- shares its pass with the split issued before it (09 R161) -/
  joined : Bool
  /-- REPLAY: the group, and the handler and its split -/
  replay : Option (Nat × Nat × Nat)
  deriving DecidableEq, Repr

/-- The split whose instruction is being performed. -/
structure Cur where
  uid : Nat
  e : Nat
  pc : U64
  word : Word96
  /-- the groups whose passes are performed now -/
  groups : GMask
  /-- the split's lanes when it issued -/
  mask : Mask
  replay : Option (Nat × Nat × Nat)
  /-- the pass is shared with the split that issues next (09 R161) -/
  shared : Bool
  deriving DecidableEq, Repr

/-- A lane's access of a shared pass, checked and not yet performed (13 R225): its team, instruction word, exact address and the
bytes it names. -/
structure PassLane where
  uid : Nat
  word : Word96
  lane : LogLane
  ea : Int
  keys : List Nat
  deriving DecidableEq, Repr

/-! ## The device -/

/-- The state of the device. -/
structure State where
  /-- units of 1/13 ns; the GTS is `time / 13`, an arithmetic cycle is 10 units -/
  time : Nat
  inputs : List (Nat × Instr)
  agenda : List (Nat × Instr)
  issueQ : List Ticket
  cur : Option Cur
  /-- registers of a team before the pass that a joined split shares -/
  shadow : Option (Nat × Regs)
  /-- lanes of a shared memory pass that wait for those of the split it is shared with -/
  passLanes : List PassLane
  choices : List Nat
  freeCtr : Nat
  uidCtr : Nat
  out : List HostMsg
  stopped : Bool
  /-- device physical memory and its poisoned 16-byte sectors -/
  mem : List Host.Cell
  poison : NSet
  /-- scratchpads: key `core * 2^20 + address`, and poisoned sectors -/
  scratch : List Host.Cell
  scratchPoison : NSet
  tlb : List Held
  /-- fault records in force: context, entry address, source -/
  armed : List Armed
  /-- table entries that a write has left valid, whose parked accesses are still to walk again (08 R138) -/
  woken : NSet
  /-- LLC lines asked for by PREF.LLC -/
  llc : NSet
  /-- tracked pool lines, least recently used first -/
  snoop : List Nat
  /-- pool lines as other agents have left them, until an access of the device obtains them (15 R286) -/
  peer : NMap (List Byte)
  /-- pages under migration: first address and size -/
  locks : List (Nat × Nat)
  grids : NMap Grid
  teams : NMap Team
  cores : NMap Core
  mwes : NMap Mwe
  queues : NMap Queue
  /-- base of the queue table (06 R93, R105) -/
  tableBase : Nat
  /-- base of the context table (08 R128) -/
  contextBase : Nat
  /-- wake buffer (23 R381): function, queue, stamp (15 R284), value -/
  wakes : List (Nat × Nat × Nat × U64)
  launches : List Launch
  partitions : NMap Partition
  contexts : NMap Context
  functions : NMap Function
  /-- function whose command the supervisor serves next (23 R383) -/
  nextFn : Nat
  power : Power
  logs : Logs
  firmware : Firmware
  /-- queued scans, the time of the next rotation scan, the core it stands at, ROTGAP in µs (19 R343, 23 R384) -/
  scanQueue : List Nat
  scanNext : Nat
  scanCore : Nat
  rotgap : Nat
  /-- correctable errors by unit, link retries and failed retrains by link (19 R338, R348) -/
  corrected : NMap Nat
  retries : NMap Nat
  retrains : NMap Nat
  fabricUp : Bool
  /-- device status register (23 R388) -/
  status : BitVec 2
  deriving DecidableEq, Repr

/-- The device right after reset, with nothing placed (23 R388; values no rule gives: logs 1 to 9). The physical
function may use every partition (23 R384). -/
def State.reset : State where
  time := 0
  inputs := []
  agenda := []
  issueQ := []
  cur := none
  shadow := none
  passLanes := []
  choices := []
  freeCtr := 0
  uidCtr := 0
  out := []
  stopped := false
  mem := []
  poison := []
  scratch := []
  scratchPoison := []
  tlb := []
  armed := []
  woken := []
  llc := []
  snoop := []
  peer := []
  locks := []
  grids := []
  teams := []
  cores := []
  mwes := []
  queues := []
  tableBase := 0
  contextBase := 0
  wakes := []
  launches := []
  partitions := []
  contexts := []
  functions := [(0, { parts := 0xFFFF })]
  nextFn := 0
  power := {}
  logs := {}
  firmware := {}
  scanQueue := []
  scanNext := 0
  scanCore := 0
  rotgap := 0
  corrected := []
  retries := []
  retrains := []
  fabricUp := true
  status := 0

/-- Why a step stops. -/
inductive Fault where
  /-- raised by `exec` of an instruction when no split is issuing it; `step` never asks for that; safe -/
  | noIssuingSplit
  /-- raised by `step` once the device has stopped under ECLASS 0x0C (19 R338): nothing runs any more; safe -/
  | deviceStopped
  deriving DecidableEq, Repr

/-- Why an instruction has no meaning here. -/
inductive Refusal where
  /-- an instruction whose arm is not written yet; safe -/
  | notModelled (mnemonic : String)
  deriving DecidableEq, Repr

end Sys2Proof.Machine
end

