-- ==== Sys2Proof/Machine/Maps.lean ====
section
/-!
DEFINITION. Maps and sets of numbers in one canonical form, byte order, bit fields and masks of lanes.
-/
namespace Sys2Proof.Machine

namespace NMap

/-- The value at a key, if the map lists it. -/
def find? {α : Type} : NMap α → Nat → Option α
  | [], _ => none
  | (k, v) :: rest, x => if x = k then some v else find? rest x

/-- The value at a key, or the default of keys the map does not list. -/
def get {α : Type} (m : NMap α) (x : Nat) (d : α) : α := (find? m x).getD d

/-- Lists the value at the key. -/
def insert {α : Type} : NMap α → Nat → α → NMap α
  | [], x, v => [(x, v)]
  | (k, w) :: rest, x, v =>
    if x < k then (x, v) :: (k, w) :: rest
    else if x = k then (x, v) :: rest
    else (k, w) :: insert rest x v

/-- Unlists the key. -/
def erase {α : Type} (m : NMap α) (x : Nat) : NMap α := m.filter fun c => c.1 != x

/-- Sets the value at a key; the default value is not listed. -/
def set {α : Type} [DecidableEq α] (d : α) (m : NMap α) (x : Nat) (v : α) : NMap α :=
  if v = d then erase m x else insert m x v

/-- Keys strictly rising. -/
def sorted {α : Type} : NMap α → Bool
  | [] => true
  | [_] => true
  | (k, _) :: (k', v') :: rest => k < k' && sorted ((k', v') :: rest)

/-- The canonical form: keys strictly rising and no default value listed. -/
def wf {α : Type} [DecidableEq α] (d : α) (m : NMap α) : Bool := sorted m && m.all fun c => c.2 ≠ d

end NMap

namespace NSet

/-- Membership. -/
def mem (s : NSet) (x : Nat) : Bool := s.any (· == x)

/-- Adds a number. -/
def add : NSet → Nat → NSet
  | [], x => [x]
  | k :: rest, x => if x < k then x :: k :: rest else if x = k then k :: rest else k :: add rest x

/-- Removes a number. -/
def remove (s : NSet) (x : Nat) : NSet := s.filter (· != x)

/-- Adds or removes. -/
def put (s : NSet) (x : Nat) (b : Bool) : NSet := if b then add s x else remove s x

/-- Strictly rising. -/
def sorted : NSet → Bool
  | [] => true
  | [_] => true
  | a :: b :: rest => a < b && sorted (b :: rest)

end NSet

/-! ## Memory: what a byte that no entry lists reads as (23 R388) -/

/-- What an unlisted address reads as: both DRAM tiers are zeroed at bring-up (23 R388). -/
def emptyByte : Byte := 0

namespace Memory

/-- The canonical form of a memory: addresses strictly rising, no entry equal to what an unlisted address reads as. -/
def wf (m : List Host.Cell) : Bool := NMap.wf emptyByte m

/-- One byte. -/
def read (m : List Host.Cell) (a : Nat) : Byte := NMap.get m a emptyByte

/-- Writes one byte. -/
def write (m : List Host.Cell) (a : Nat) (b : Byte) : List Host.Cell := NMap.set emptyByte m a b

/-- `n` bytes from an address on. -/
def readN (m : List Host.Cell) (a n : Nat) : List Byte := (List.range n).map fun k => read m (a + k)

/-- Writes bytes from an address on. -/
def writeN (m : List Host.Cell) (a : Nat) : List Byte → List Host.Cell
  | [] => m
  | b :: rest => writeN (write m a b) (a + 1) rest

/-- Replaces every byte from `lo` up to but not including `hi` by zero: the entries of the range go. -/
def clear (m : List Host.Cell) (lo hi : Nat) : List Host.Cell := m.filter fun c => c.1 < lo || hi ≤ c.1

end Memory

/-! ## Byte order and bit fields -/

/-- The number little-endian bytes hold (00 R2). -/
def leNat : List Byte → Nat
  | [] => 0
  | b :: rest => b.toNat + 256 * leNat rest

/-- The low `n` bytes of a number, little-endian. -/
def leBytes : Nat → Nat → List Byte
  | 0, _ => []
  | n + 1, x => BitVec.ofNat 8 x :: leBytes n (x / 256)

/-- `n` bytes of a list at an offset, as a number. -/
def leAt (l : List Byte) (off n : Nat) : Nat := leNat ((l.drop off).take n)

/-- Bits `lo` to `lo + len - 1` of a number. -/
def bitsAt (x lo len : Nat) : Nat := x / 2 ^ lo % 2 ^ len

/-- A number of `w` bits read as two's complement. -/
def signed (w x : Nat) : Int := if 2 * x < 2 ^ w then (x : Int) else (x : Int) - (2 ^ w : Nat)

/-- An integer modulo 2^w. -/
def wrap (w : Nat) (x : Int) : Nat := (x % ((2 ^ w : Nat) : Int)).toNat

/-- An integer clamped to a range. -/
def clampInt (lo hi x : Int) : Int := if x < lo then lo else if hi < x then hi else x

/-- The largest of a list, 0 if empty. -/
def maxList (l : List Nat) : Nat := l.foldl Nat.max 0

/-! ## Masks of lanes -/

/-- The lane belongs to the mask. -/
def Mask.has (m : Mask) (l : Nat) : Bool := m.getLsbD l

/-- The mask of one lane. -/
def Mask.one (l : Nat) : Mask := (1 : Mask) <<< l

/-- The mask of lanes 0 to n - 1. -/
def Mask.below (n : Nat) : Mask := BitVec.ofNat 1024 (2 ^ n - 1)

/-- The lane word of group g. -/
def Mask.word (m : Mask) (g : Nat) : GMask := m.extractLsb' (32 * g) 32

/-- The mask whose group g has the lane word and no other lane. -/
def Mask.ofWord (g : Nat) (w : GMask) : Mask := w.setWidth 1024 <<< (32 * g)

/-- GWMASK: the groups with a lane. -/
def Mask.groups (m : Mask) : GMask :=
  (List.range 32).foldl (fun acc g => if Mask.word m g = 0 then acc else acc ||| ((1 : GMask) <<< g)) 0

/-- The set bits of a 32-bit set, rising. -/
def GMask.list (w : GMask) : List Nat := (List.range 32).filter fun k => w.getLsbD k

/-- The lanes of a mask in group g, rising. -/
def Mask.lanesOf (m : Mask) (g : Nat) : List Nat := (GMask.list (Mask.word m g)).map (32 * g + ·)

/-- The lanes of a mask, rising. -/
def Mask.list (m : Mask) : List Nat := (GMask.list (Mask.groups m)).flatMap (Mask.lanesOf m)

/-- The lowest lane. -/
def Mask.lowest (m : Mask) : Option Nat := (Mask.list m).head?

/-- The number of lanes. -/
def Mask.count (m : Mask) : Nat := (Mask.list m).length

/-- The lanes of the groups of a set. -/
def Mask.inGroups (m : Mask) (gs : GMask) : Mask :=
  (GMask.list gs).foldl (fun acc g => acc ||| Mask.ofWord g (Mask.word m g)) 0

/-- The mask of a list of lanes. -/
def Mask.ofList (l : List Nat) : Mask := l.foldl (fun acc x => acc ||| Mask.one x) 0

/-- The set of one group. -/
def GMask.one (g : Nat) : GMask := (1 : GMask) <<< g

end Sys2Proof.Machine
end

