-- ==== Sys2Proof/Machine/Access.lean ====
section
/-!
DEFINITION. Reading and changing the parts of the state: teams, splits, cores, grids, contexts, queues, functions,
engines; the two queues of events; time; source numbers (00 R1, R4).
-/
namespace Sys2Proof.Machine

/-- GTS in ns (00 R2). -/
def State.gts (s : State) : Nat := s.time / 13
/-- Arithmetic cycles since reset (00 R2). -/
def State.cycle (s : State) : Nat := s.time / 10
/-- Units of State.time in `n` ns. -/
def ns (n : Nat) : Nat := 13 * n
/-- Units of State.time in `n` arithmetic cycles. -/
def cycles (n : Nat) : Nat := 10 * n

/-- The team of a number. -/
def State.team? (s : State) (uid : Nat) : Option Team := (NMap.find? s.teams uid).filter (·.uid == uid)
def State.setTeam (s : State) (t : Team) : State := { s with teams := NMap.insert s.teams t.uid t }
def State.dropTeam (s : State) (uid : Nat) : State := { s with teams := NMap.erase s.teams uid }
/-- Changes a team, if it exists. -/
def State.onTeam (s : State) (uid : Nat) (f : Team → Team) : State :=
  match s.team? uid with
  | some t => s.setTeam (f t)
  | none => s
/-- Every team. -/
def State.allTeams (s : State) : List Team := s.teams.filterMap fun p => s.team? p.1

def State.core (s : State) (c : Nat) : Core := NMap.get s.cores c {}
def State.setCore (s : State) (c : Nat) (x : Core) : State := { s with cores := NMap.set {} s.cores c x }
def State.onCore (s : State) (c : Nat) (f : Core → Core) : State := s.setCore c (f (s.core c))

def State.mwe (s : State) (q : Nat) : Mwe := NMap.get s.mwes q {}
def State.setMwe (s : State) (q : Nat) (x : Mwe) : State := { s with mwes := NMap.set {} s.mwes q x }
def State.onMwe (s : State) (q : Nat) (f : Mwe → Mwe) : State := s.setMwe q (f (s.mwe q))

def State.queue (s : State) (q : Nat) : Queue := NMap.get s.queues q {}
def State.setQueue (s : State) (q : Nat) (x : Queue) : State := { s with queues := NMap.set {} s.queues q x }
def State.onQueue (s : State) (q : Nat) (f : Queue → Queue) : State := s.setQueue q (f (s.queue q))

def State.part (s : State) (p : Nat) : Partition := NMap.get s.partitions p {}
def State.setPart (s : State) (p : Nat) (x : Partition) : State := { s with partitions := NMap.set {} s.partitions p x }
def State.onPart (s : State) (p : Nat) (f : Partition → Partition) : State := s.setPart p (f (s.part p))

def State.fn (s : State) (f : Nat) : Function := NMap.get s.functions f {}
def State.setFn (s : State) (f : Nat) (x : Function) : State := { s with functions := NMap.set {} s.functions f x }
def State.onFn (s : State) (n : Nat) (f : Function → Function) : State := s.setFn n (f (s.fn n))

def State.ctx? (s : State) (c : Nat) : Option Context := NMap.find? s.contexts c
def State.setCtx (s : State) (c : Nat) (x : Context) : State := { s with contexts := NMap.insert s.contexts c x }
def State.onCtx (s : State) (c : Nat) (f : Context → Context) : State :=
  match s.ctx? c with
  | some x => s.setCtx c (f x)
  | none => s

/-- The grid of a number. -/
def State.grid? (s : State) (g : Nat) : Option Grid := (NMap.find? s.grids g).filter (·.id == g)
def State.setGrid (s : State) (g : Grid) : State := { s with grids := NMap.insert s.grids g.id g }
def State.onGrid (s : State) (n : Nat) (f : Grid → Grid) : State :=
  match s.grid? n with
  | some g => s.setGrid (f g)
  | none => s

def State.quadPower (s : State) (q : Nat) : QuadPower := s.power.quads.getD q {}
def State.onQuadPower (s : State) (q : Nat) (f : QuadPower → QuadPower) : State :=
  { s with power := { s.power with quads := s.power.quads.set q (f (s.quadPower q)) } }
def State.onPower (s : State) (f : Power → Power) : State := { s with power := f s.power }
def State.onLogs (s : State) (f : Logs → Logs) : State := { s with logs := f s.logs }

/-- Entry `e` of a list of splits. -/
def Team.split (t : Team) (e : Nat) : Split := t.splits.getD e {}
def Team.setSplit (t : Team) (e : Nat) (x : Split) : Team := { t with splits := t.splits.set e x }
def Team.onSplit (t : Team) (e : Nat) (f : Split → Split) : Team := t.setSplit e (f (t.split e))
/-- Changes a split of a team. -/
def State.onSplit (s : State) (uid e : Nat) (f : Split → Split) : State := s.onTeam uid (·.onSplit e f)

/-- The live lanes of a team (09 R156). -/
def Team.live (t : Team) : Mask :=
  let a := t.splits.foldl (fun acc x => if x.state = .free then acc else acc ||| x.mask) 0
  t.frontier.foldl (fun acc x => acc ||| x.mask) a

/-- Groups of a team (07 R111). -/
def Team.groupCount (t : Team) : Nat := (t.lanes + 31) / 32

/-- Entries that hold a split. -/
def Team.entries (t : Team) : List Nat := (List.range t.splits.length).filter fun e => (t.split e).state ≠ .free

/-- Quad of a core: quads are 2 by 2 blocks of the 8 by 6 cores of a die (00 R1). -/
def quadOf (core : Nat) : Nat :=
  let d := core / 48; let r := core % 48 / 8; let c := core % 8
  12 * d + 4 * (r / 2) + c / 2

/-- The four cores of a quad, rising (00 R1). -/
def coresOf (quad : Nat) : List Nat :=
  let d := quad / 12; let r := quad % 12 / 4 * 2; let c := quad % 4 * 2
  let b := 48 * d + 8 * r + c
  [b, b + 1, b + 8, b + 9]

/-- Source numbers (00 R4). -/
def srcCore (c : Nat) : Nat := c
def srcMwe (q : Nat) : Nat := 0x0100 + q
def srcBte (c : Nat) : Nat := 0x0200 + c
def srcHost : Nat := 0x0300
def srcFabric : Nat := 0x0301
def srcQueueCore (k : Nat) : Nat := 0x0310 + k
def srcSupervisor : Nat := 0x0316

/-- Puts an event on the agenda. -/
def State.later (s : State) (due : Nat) (i : Instr) : State := { s with agenda := s.agenda ++ [(due, i)] }
/-- Puts an event on the agenda that is due at once. -/
def State.soon (s : State) (i : Instr) : State := s.later s.time i
/-- Takes events off the agenda. -/
def State.cancel (s : State) (p : Instr → Bool) : State := { s with agenda := s.agenda.filter fun x => !p x.2 }
/-- Is such an event on the agenda? -/
def State.expects (s : State) (p : Instr → Bool) : Bool := s.agenda.any fun x => p x.2
/-- Sends something to the host. -/
def State.emit (s : State) (m : HostMsg) : State := { s with out := s.out ++ [m] }
/-- A fresh number for an object, above every team's. -/
def State.fresh (s : State) : Nat × State :=
  let n := s.teams.foldl (fun m p => Nat.max m p.1) s.uidCtr + 1
  (n, { s with uidCtr := n })
/-- The choice the device makes now, where the spec leaves one (DESIGN CHOICE, log 3). -/
def State.choice (s : State) : Nat := s.choices.headD 0

/-- The quads of a partition. -/
def Partition.hasQuad (p : Partition) (q : Nat) : Bool := p.qmask.getLsbD q
/-- The partition of a context. -/
def State.partOf (s : State) (ctx : Nat) : Partition :=
  match s.ctx? ctx with
  | some c => s.part c.part
  | none => {}

end Sys2Proof.Machine
end

