-- ==== Sys2Proof/Machine/Addr.lean ====
section
/-!
DEFINITION. Addresses, translation, the parked accesses' fault records, and device memory and scratchpads as the
units of the device access them (08 R123 to R140, 12 R203 to R219, 19 R333).
-/
namespace Sys2Proof.Machine

/-- What an access does (the KINDs of 08 R139). -/
inductive AKind where
  | read | write | fetch | atomic
  deriving DecidableEq, Repr

/-- KIND of a fault record. -/
def AKind.code : AKind → Nat
  | .read => 0 | .write => 1 | .fetch => 2 | .atomic => 3

/-- A translation that does not give an address: a trap class with the level and address of the entry concerned, or
an invalid entry to park on. -/
inductive XErr where
  | trap (cls va level entry : Nat)
  | park (va level entry : Nat)
  deriving DecidableEq, Repr

/-- Class codes of 18 R306. -/
def cILLOP := 0x01
def cPRIV := 0x02
def cNC := 0x03
def cAX := 0x04
def cPF := 0x05
def cPW := 0x06
def cPX := 0x07
def cSB := 0x08
def cAL := 0x09
def cEMPTYRD := 0x0A
def cHREENTRY := 0x0B
def cBARABANDON := 0x0C
def cPOISON := 0x0D
def cPREEMPTLATE := 0x0E
def cTRAP := 0x0F
def cBKPT := 0x10
def cSTEP := 0x11

/-- The step of 08 R127 that finds a class; the lowest step of a pass gives its class. -/
def checkStep (cls : Nat) : Nat :=
  if cls = cPOISON then 1 else if cls = cNC then 2 else if cls = cAX then 3 else if cls = cAL then 4
  else if cls = cSB then 5 else if cls = cPF then 6 else if cls = cPW then 7 else 8

/-- The step at which an error is found; parking is step 9. -/
def XErr.step : XErr → Nat
  | .trap cls _ _ _ => checkStep cls
  | .park _ _ _ => 9

/-- A virtual address of 64 bits is canonical (08 R123). -/
def canonical (a : Nat) : Bool := a < 2 ^ 56 || (2 ^ 64 - 2 ^ 56 ≤ a && a < 2 ^ 64)

/-- The first byte of an access breaks R124, or its last R125. -/
def rangeError (ea : Int) (w : Nat) : Option Nat :=
  if ea < 0 || !canonical ea.toNat then some cNC
  else if !canonical (ea.toNat + w - 1) then some cAX
  else none

/-- Base of the CXL pool window (08 R134). -/
def poolBase : Nat := 0x400000000000
/-- An address of the pool window: up to 64 TiB (08 R134). -/
def inPool (pa : Nat) : Bool := poolBase ≤ pa && pa < poolBase + 2 ^ 46

/-- The bytes of a frame, or a table's base, lie in a carve or the pool range of the partition, as the POOL bit says
(08 R134). -/
def frameOk (p : Partition) (base size : Nat) (pool : Bool) : Bool :=
  if inPool base then
    pool && poolBase + p.pooloff ≤ base && base + size ≤ poolBase + p.pooloff + p.poolsz
  else
    !pool && ((p.gbase ≤ base && base + size ≤ p.gbase + p.gsize) ||
      (p.lbase ≤ base && base + size ≤ p.lbase + p.lsize))

/-! ## Table entries (08 R131 to R136) -/

def pteV (e : U64) : Bool := e[0]
def pteW (e : U64) : Bool := e[1]
def pteX (e : U64) : Bool := e[2]
def pteLeaf (e : U64) : Bool := e[3]
def pteCont (e : U64) : Bool := e[4]
def ptePool (e : U64) : Bool := e[5]
/-- The frame or table base an entry names. -/
def pteFrame (e : U64) : Nat := bitsAt e.toNat 16 36 * 2 ^ 16

/-- A valid entry is malformed (08 R133). -/
def malformed (level : Nat) (e : U64) : Bool :=
  bitsAt e.toNat 52 12 ≠ 0 || bitsAt e.toNat 6 10 ≠ 0 || bitsAt e.toNat 48 4 ≠ 0 ||
  (level = 1 && pteLeaf e) || (level = 3 && !pteLeaf e) ||
  (level = 2 && pteLeaf e && bitsAt e.toNat 16 14 ≠ 0) ||
  (pteCont e && level ≠ 3) ||
  (!pteLeaf e && (pteW e || pteX e || ptePool e || pteCont e))

/-- Index and path of a level: the address bits above those the level leaves. -/
def levelShift (level : Nat) : Nat := if level = 1 then 45 else if level = 2 then 30 else 16
def levelBits (level : Nat) : Nat := if level = 1 then 12 else if level = 2 then 15 else 14

/-- Bytes of the address space a core's scratchpad takes in State.scratch. -/
def scratchKey (core a : Nat) : Nat := core * 2 ^ 20 + a

/-- A device byte as the next access of any agent finds it: that of a stash sector which holds it dirty, for the access would
recall the sector (12 R210), else memory's. -/
def State.peekByte (s : State) (a : Nat) : Byte :=
  let copy := s.teams.findSome? fun p => p.2.stashes.findSome? fun m =>
    (List.find? (fun c : Nat × Nat => c.2 == a / 16 && NSet.mem m.dirty c.1) m.filled).map fun c =>
      scratchKey p.2.core (p.2.window.base + m.win + 16 * c.1 + a % 16)
  match copy with
  | some key => Memory.read s.scratch key
  | none => Memory.read s.mem a

/-- A device physical doubleword. -/
def State.phys64 (s : State) (a : Nat) : U64 :=
  .ofNat 64 (leNat (if s.teams.all (fun p => p.2.stashes.isEmpty) then Memory.readN s.mem a 8
    else (List.range 8).map fun k => s.peekByte (a + k)))

/-- A table entry as an access of the context reads it: the entry the TLBs hold, old or new where memory has changed
since (08 R136; the device's choice, DESIGN CHOICE, log 6), else memory's. -/
def State.pte (s : State) (ctx level path addr : Nat) : U64 :=
  match s.tlb.find? fun h => h.ctx == ctx && h.level == level && h.path == path with
  | some h => if s.choice % 2 = 0 then h.entry else s.phys64 addr
  | none => s.phys64 addr

/-- One step of a walk: the level, path, entry address and entry. -/
structure Walked where
  level : Nat
  path : Nat
  addr : Nat
  entry : U64
  deriving DecidableEq, Repr

/-- Reads the entry of a level. -/
def State.walkLevel (s : State) (ctx level base va : Nat) : Walked :=
  let path := va % 2 ^ 57 / 2 ^ levelShift level
  let addr := base + 8 * bitsAt va (levelShift level) (levelBits level)
  { level := level, path := path, addr := addr, entry := s.pte ctx level path addr }

/-- Judges a walked entry: the physical address of a leaf's byte, the next table, or an error (08 R132 to R134, R138,
in the order of R127). -/
def judge (p : Partition) (k : AKind) (va : Nat) (w : Walked) : Except XErr (Bool × Nat) :=
  let e := w.entry
  if !pteV e then .error (.park va w.level w.addr)
  else if malformed w.level e then .error (.trap cPF va w.level w.addr)
  else if pteLeaf e then
    let size := if w.level = 2 then 2 ^ 30 else 2 ^ 16
    if !frameOk p (pteFrame e) size (ptePool e) then .error (.trap cPF va w.level w.addr)
    else if (k = .write || k = .atomic) && !pteW e then .error (.trap cPW va w.level w.addr)
    else if k = .fetch && !pteX e then .error (.trap cPX va w.level w.addr)
    else .ok (true, pteFrame e + va % size)
  else
    if !frameOk p (pteFrame e) 1 false then .error (.trap cPF va w.level w.addr)
    else .ok (false, pteFrame e)

/-- Walks from level 1 (08 R131), with the entries read. -/
def State.walkFrom (s : State) (ctx : Nat) (p : Partition) (k : AKind) (va : Nat) :
    Nat → Nat → Nat → Except XErr Nat × List Walked
  | 0, _, _ => (.error (.trap cPF va 3 0), [])
  | fuel + 1, level, base =>
    let w := s.walkLevel ctx level base va
    match judge p k va w with
    | .error e => (.error e, [w])
    | .ok (true, pa) => (.ok pa, [w])
    | .ok (false, next) =>
      let r := s.walkFrom ctx p k va fuel (level + 1) next
      (r.1, w :: r.2)

/-- The heap holds the address (08 R130). -/
def Xlat.inHeap (x : Xlat) (va : Nat) : Bool := x.hb.toNat ≤ va && va < x.hb.toNat + x.hl.toNat

/-- Translates one byte (08 R130 to R136), with the entries walked. -/
def State.walk (s : State) (ctx : Nat) (x : Xlat) (k : AKind) (va : Nat) : Except XErr Nat × List Walked :=
  if x.inHeap va then
    (if k = .fetch then .error (.trap cPX va 0 0) else .ok ((va + x.ho.toNat) % 2 ^ 64), [])
  else
    let p := s.partOf ctx
    if !frameOk p x.root.toNat 1 false then (.error (.trap cPF va 0 0), [])
    else s.walkFrom ctx p k va 3 1 x.root.toNat

/-- The error of the lower step; of one step, the first. -/
def firstErr (a b : XErr) : XErr := if b.step < a.step then b else a

/-- Translates every byte of an access by the rule of its own address (08 R126): the device addresses, or the error of
the lowest step. -/
def State.translate (s : State) (ctx : Nat) (x : Xlat) (k : AKind) (va n : Nat) : Except XErr (List Nat) :=
  (List.range n).foldr (fun i acc =>
    match (s.walk ctx x k (va + i)).1, acc with
    | .ok pa, .ok rest => .ok (pa :: rest)
    | .error e, .ok _ => .error e
    | .ok _, .error e => .error e
    | .error e, .error e' => .error (firstErr e e')) (.ok [])

/-- The triple and root of a context. -/
def Context.xlat (c : Context) : Xlat := { root := c.root, hb := c.hb, hl := c.hl, ho := c.ho }
def Xlat.nil : Xlat := { root := 0, hb := 0, hl := 0, ho := 0 }

/-- The triple and root of a context's accesses: those its grid keeps (08 R129), else the descriptor's. -/
def State.xlatOf (s : State) (ctx grid : Nat) : Xlat :=
  match (s.grid? grid).bind (·.xlat) with
  | some x => x
  | none => match s.ctx? ctx with
    | some c => c.xlat
    | none => .nil

def Team.xlat (t : Team) (s : State) : Xlat := s.xlatOf t.ctx t.grid

/-- TLBs and walker caches keep the valid entries of a walk (08 R136). -/
def State.keep (s : State) (ctx : Nat) (ws : List Walked) : State :=
  ws.foldl (fun s w =>
    if pteV w.entry && !s.tlb.any (fun h => h.ctx == ctx && h.level == w.level && h.path == w.path && h.entry == w.entry)
    then { s with tlb := { ctx := ctx, level := w.level, path := w.path, addr := w.addr, entry := w.entry } ::
        s.tlb.filter (fun h => !(h.ctx == ctx && h.level == w.level && h.path == w.path)) }
    else s) s

/-! ## Monitors -/

/-- The entry addresses that accesses are parked on. -/
def State.parkedEntries (s : State) : List Nat :=
  (s.cores.flatMap fun c => c.2.oplog.flatMap (·.entries) ++ c.2.copies.flatMap (·.parked)) ++
  (s.teams.flatMap fun t => t.2.splits.filterMap fun sp =>
    match sp.waiting with
    | .fetch e => if sp.state = .free then none else some e
    | _ => none) ++
  (s.mwes.flatMap fun m => m.2.walks.flatMap fun w => w.2.ops.filterMap (·.parked) ++ w.2.parked.toList) ++
  (s.queues.flatMap fun q => q.2.parked.toList ++ q.2.dones.filterMap (·.parked)) ++
  (s.functions.flatMap fun f => f.2.posted.filterMap (·.entry) ++ f.2.reads.filterMap (·.entry)) ++
  s.power.slotParked.toList

/-- The 128-byte lines on which a monitor is armed, or may be. -/
def State.monitored (s : State) : List Nat :=
  s.parkedEntries.map (· / 128) ++
  (s.teams.flatMap fun t => t.2.splits.flatMap fun x => x.mon.map (·.2.1 / 128)) ++
  s.queues.filterMap (fun q => q.2.waiting.map (·.phys / 128)) ++ s.power.slotLine.toList

/-- The accesses parked on a table entry are woken: each walks again (08 R138). -/
def State.wakeEntry (s : State) (entry : Nat) : State :=
  { s with woken := NSet.add s.woken entry }.soon (.parkedAccessWake (entry / 128))

/-- Tells the monitors on a 128-byte line that it has been written: parked accesses (08 R138), WAITMON (16 R303),
WAITVAL (06 R102) and the replay slot (20 R351). -/
def State.noteLine (s : State) (line : Nat) : State :=
  let s := (s.parkedEntries.filter fun e => e / 128 = line && pteV (s.phys64 e) && !NSet.mem s.woken e).foldl (fun s e =>
    if NSet.mem s.woken e then s else s.wakeEntry e) s
  let s := s.teams.foldl (fun s p => (List.range p.2.splits.length).foldl (fun s e =>
    if (p.2.split e).mon.any (fun w => w.2.1 / 128 = line) then s.soon (.waitmonWake p.1 e line) else s) s) s
  let s := s.queues.foldl (fun s q =>
    match q.2.waiting with
    | some w => if w.phys / 128 = line then s.soon (.waitvalReevaluate q.1) else s
    | none => s) s
  if s.power.slotLine = some line then s.soon .replaySlotRead else s

/-- The distinct values of a list, in order. -/
def distinct (l : List Nat) : List Nat :=
  l.foldl (fun acc x => if acc.contains x then acc else acc ++ [x]) []

/-! ## Scratchpads (12 R203 to R207) -/

/-- Sectors of a list of addresses. -/
def sectorsOf (as : List Nat) : List Nat := distinct (as.map (· / 16))

/-- Poison of a set of sectors after bytes were written (19 R333): poisoned data poisons what it touches; a whole
sector of clean data clears. -/
def poisonAfter (poison : NSet) (as : List Nat) (bad : Bool) : NSet :=
  (sectorsOf as).foldl (fun p k =>
    if bad then NSet.add p k
    else if (as.filter (· / 16 = k)).length = 16 then NSet.remove p k else p) poison

/-- Scratchpad bytes by key, and whether a sector of them is poisoned. -/
def State.sread (s : State) (keys : List Nat) : List Byte × Bool :=
  (keys.map (Memory.read s.scratch), (sectorsOf keys).any (NSet.mem s.scratchPoison))

/-- Writes bytes at addresses. -/
def writeAt (m : List Host.Cell) : List Nat → List Byte → List Host.Cell
  | a :: as, b :: bs => writeAt (Memory.write m a b) as bs
  | _, _ => m

def State.swrite (s : State) (keys : List Nat) (bytes : List Byte) (bad : Bool) : State :=
  { s with scratch := writeAt s.scratch keys bytes, scratchPoison := poisonAfter s.scratchPoison keys bad }

/-! ## Stash recall (12 R210) -/

/-- Device memory bytes written, without recall: the bytes, their poison and the monitors of their lines. -/
def State.rawWrite (s : State) (pas : List Nat) (bytes : List Byte) (bad : Bool) : State :=
  let s := { s with mem := writeAt s.mem pas bytes, poison := poisonAfter s.poison pas bad }
  (distinct (pas.map (· / 128))).foldl State.noteLine s

/-- Writes back sector `k` of a mapping of a team if it is dirty (12 R210); a poisoned sector goes back poisoned. -/
def State.stashBack (s : State) (t : Team) (m : Stash) (k : Nat) : State :=
  match NMap.find? m.filled k with
  | some sec =>
    if NSet.mem m.dirty k then
      let keys := (List.range 16).map fun i => scratchKey t.core (t.window.base + m.win + 16 * k + i)
      let (bytes, bad) := s.sread keys
      s.rawWrite ((List.range 16).map (16 * sec + ·)) bytes bad
    else s
  | none => s

/-- Marks sector `k` of mapping number `i` of a team unfilled. -/
def Team.unfill (t : Team) (i k : Nat) : Team :=
  { t with stashes := (List.range t.stashes.length).zip t.stashes |>.map fun p =>
      if p.1 = i then { p.2 with filled := NMap.erase p.2.filled k, dirty := NSet.remove p.2.dirty k } else p.2 }

/-- Recalls a device sector from every stash that holds it. -/
def State.recallSector (s : State) (sec : Nat) : State :=
  s.teams.foldl (fun s p =>
    ((List.range p.2.stashes.length).zip p.2.stashes).foldl (fun s q =>
      match List.find? (fun c : Nat × Nat => c.2 == sec) q.2.filled with
      | some (k, _) => (s.stashBack p.2 q.2 k).onTeam p.1 (·.unfill q.1 k)
      | none => s) s) s

/-- The pool lines of addresses that other agents have written are obtained as those agents left them (15 R286): not while the fabric
port's link is down. -/
def State.bringIn (s : State) (pas : List Nat) : State :=
  if s.peer.isEmpty || !s.fabricUp then s
  else (distinct (pas.map (· / 128))).foldl (fun s l =>
    match NMap.find? s.peer l with
    | some bytes =>
      { s with peer := NMap.erase s.peer l }.rawWrite ((List.range bytes.length).map (128 * l + ·)) bytes false
    | none => s) s

/-- An access of an agent takes sectors back from the stashes that own them (12 R210), and obtains pool lines. -/
def State.recall (s : State) (pas : List Nat) : State :=
  let s := if s.teams.all (fun p => p.2.stashes.isEmpty) then s else (sectorsOf pas).foldl State.recallSector s
  s.bringIn pas

/-- The entries that the walks of an access read, of its first byte and of the first byte in each further 64 KiB. -/
def State.walked (s : State) (ctx : Nat) (x : Xlat) (k : AKind) (va n : Nat) : List Walked :=
  (List.range ((va % 2 ^ 16 + n - 1) / 2 ^ 16 + 1)).flatMap fun p =>
    (s.walk ctx x k (if p = 0 then va else (va / 2 ^ 16 + p) * 2 ^ 16)).2

/-- The walks of an access take the entries' sectors back from the stashes that own them (12 R210). -/
def State.recallWalk (s : State) (ctx : Nat) (x : Xlat) (k : AKind) (va n : Nat) : State :=
  if s.teams.all (fun p => p.2.stashes.isEmpty) then s
  else s.recall ((s.walked ctx x k va n).flatMap fun w => (List.range 8).map (w.addr + ·))

/-- The entries that an access' walks read are taken back from stashes, and kept (08 R136). -/
def State.keepAccess (s : State) (ctx : Nat) (x : Xlat) (k : AKind) (va n : Nat) : State :=
  (s.recallWalk ctx x k va n).keep ctx (s.walked ctx x k va n)

/-- Recalls every sector of a range of device memory. -/
def State.recallRange (s : State) (lo n : Nat) : State :=
  (s.teams.flatMap fun p => p.2.stashes.flatMap fun m => (m.filled.map (·.2)).filter fun k => lo ≤ 16 * k && 16 * k < lo + n).foldl
    State.recallSector s

/-! ## Pool lines and residency (12 R208, R211, R218) -/

/-- Removes a line from every cache and stash, writing back what is dirty (12 R218, R219). -/
def State.dropLine (s : State) (line : Nat) : State :=
  let s := (List.range 8).foldl (fun s k => s.recallSector (8 * line + k)) s
  { s with
    cores := s.cores.map fun c => (c.1, { c.2 with l1 := NMap.erase c.2.l1 line })
    llc := NSet.remove s.llc line
    snoop := s.snoop.filter (· ≠ line) }

/-- The most pool lines the snoop filter tracks. -/
def snoopMax : Nat := 2 ^ 22

/-- The device holds dirty bytes of a line. -/
def State.dirtyLine (s : State) (line : Nat) : Bool :=
  s.cores.any (fun c => (NMap.get c.2.l1 line (0, 0)).2 ≠ 0) ||
  s.teams.any fun t => t.2.stashes.any fun m => m.filled.any fun x => NSet.mem m.dirty x.1 && x.2 / 8 = line

/-- A pool line that is to be cached is tracked, the least recent one evicted if the filter is full (12 R218): a dirty line stays while
the fabric port's link is down (23 R382). -/
def State.track (s : State) (line : Nat) : State :=
  let s := if !s.snoop.contains line && snoopMax ≤ s.snoop.length then
    (match s.snoop.find? fun l => s.fabricUp || !s.dirtyLine l with | some old => s.dropLine old | none => s) else s
  { s with snoop := s.snoop.filter (· ≠ line) ++ [line] }

/-- A core's L1 holds sectors of a line: those `filled`, and `dirty` ones of them (12 R208). A store has taken the right to
write the line, so that no other core's copy stays dirty. -/
def State.touchLine (s : State) (core line : Nat) (filled dirty : BitVec 8) : State :=
  let s := if dirty = 0 then s else
    let clean (c : Core) : Core :=
      { c with l1 := c.l1.map fun x => if x.1 = line then (x.1, (x.2.1, 0)) else x }
    { s with cores := s.cores.map fun c => if c.1 = core then c else (c.1, clean c.2) }
  let s := s.onCore core fun c =>
    let x := NMap.get c.l1 line (0, 0)
    { c with l1 := NMap.insert c.l1 line (x.1 ||| filled, x.2 ||| dirty) }
  if inPool (128 * line) then s.track line else s

/-- The device holds a sector of the pool: in its home slice or an L1 (12 R218). -/
def State.holdsSector (s : State) (sec : Nat) : Bool :=
  NSet.mem s.llc (sec / 8) || s.cores.any fun c => (NMap.get c.2.l1 (sec / 8) (0, 0)).1.getLsbD (sec % 8)

/-- Bits of a line's sectors that addresses touch. -/
def sectorBits (pas : List Nat) (line : Nat) : BitVec 8 :=
  (pas.filter (· / 128 = line)).foldl (fun d a => d ||| ((1 : BitVec 8) <<< (a / 16 % 8))) 0

/-- A lane's access brings sectors into its core's L1. While the fabric port's link is down, a pool sector that the device does not hold
comes in only where a store writes all of it (12 R208, 23 R382). -/
def State.touch (s : State) (core : Nat) (pas : List Nat) (write : Bool) : State :=
  let comes (a : Nat) : Bool := s.fabricUp || !inPool a || s.holdsSector (a / 16) ||
    (write && (pas.filter fun b => b / 16 = a / 16).length = 16)
  let pas := pas.filter comes
  (distinct (pas.map (· / 128))).foldl (fun s l =>
    let b := sectorBits pas l
    s.touchLine core l b (if write then b else 0)) s

/-- Pool lines that an access obtains are held by their home slices (12 R218; DESIGN CHOICE, log 10): not while the fabric port's
link is down. -/
def State.obtain (s : State) (pas : List Nat) : State :=
  if s.fabricUp && pas.any inPool then
    (distinct ((pas.filter inPool).map (· / 128))).foldl (fun s l =>
      let s := s.track l
      { s with llc := NSet.add s.llc l }) s
  else s

/-! ## Device memory as agents access it (15 R277) -/

/-- Bytes at device addresses, and whether a sector of them is poisoned. Recall the sectors first. While the fabric port's link
is down, a pool sector that the device does not hold reads poisoned (23 R382). -/
def State.gread (s : State) (pas : List Nat) : List Byte × Bool :=
  (pas.map (Memory.read s.mem), (sectorsOf pas).any (NSet.mem s.poison) ||
    (!s.fabricUp && (sectorsOf pas).any fun k => inPool (16 * k) && !s.holdsSector k))

/-- A write of an agent: recall, then the bytes with their poison, then the monitors. -/
def State.gwrite (s : State) (pas : List Nat) (bytes : List Byte) (bad : Bool) : State :=
  (s.recall pas).rawWrite pas bytes bad

/-- A read of an agent: recall, then the bytes. -/
def State.readGlobal (s : State) (pas : List Nat) : State × List Byte × Bool :=
  let s := s.recall pas
  (s.obtain pas, s.gread pas)

/-- A device write by physical address, of the supervisor or a walker. -/
def State.physWrite (s : State) (a : Nat) (bytes : List Byte) : State :=
  s.gwrite ((List.range bytes.length).map (a + ·)) bytes false

/-- The page of a device address is locked by a migration (12 R217, 15 R285). -/
def State.locked (s : State) (pa : Nat) : Bool := s.locks.any fun l => l.1 ≤ pa && pa < l.1 + l.2

/-! ## Fault rings (08 R139, R140) -/

/-- A fault record's 32 bytes. -/
def faultRecord (va gts src ctx kind level entry : Nat) : FaultRec :=
  leBytes 8 va ++ leBytes 8 gts ++ leBytes 2 src ++ leBytes 2 ctx ++ leBytes 1 kind ++ leBytes 1 level ++
  leBytes 2 0 ++ leBytes 8 entry

/-- A record comes before another: an earlier GTS, or of equal ones a lower source (00 R4). -/
def recBefore (a b : FaultRec) : Bool :=
  leAt a 8 8 < leAt b 8 8 || (leAt a 8 8 = leAt b 8 8 && leAt a 16 2 < leAt b 16 2)

/-- Puts something into its place in an order. -/
def insertOrd {α : Type} (before : α → α → Bool) (x : α) (l : List α) : List α :=
  l.takeWhile (fun y => !before x y) ++ x :: l.dropWhile (fun y => !before x y)

/-- Where record `n` of a context's fault ring lies. -/
def Context.ringSlot (c : Context) (n : Nat) : Nat := c.fring + n % 2 ^ c.frlog * 32

/-- The last records of a ring of `n` that come after a new one, the oldest first: those of the same GTS and a higher source. -/
def State.ringAfter (s : State) (c : Context) (rec : FaultRec) : Nat → List FaultRec
  | 0 => []
  | n + 1 =>
    let x := Memory.readN s.mem (c.ringSlot (c.frd + n)) 32
    if recBefore rec x then s.ringAfter c rec n ++ [x] else []

/-- Writes a record to a context's ring in report order; while the ring is full the last of its records and the new one is held (08 R139,
R140, 00 R4). -/
def State.ringWrite (s : State) (ctx : Nat) (rec : FaultRec) : State :=
  match s.ctx? ctx with
  | none => s
  | some c =>
    let late := s.ringAfter c rec (c.fwr - c.frd)
    let moved := (rec :: late).zipIdx (c.fwr - late.length)
    let put (s : State) (l : List (FaultRec × Nat)) : State := l.foldl (fun s x => s.physWrite (c.ringSlot x.2) x.1) s
    if !c.held.isEmpty || c.fwr - c.frd = 2 ^ c.frlog then
      (put s moved.dropLast).setCtx ctx { c with held := insertOrd recBefore (late.getLastD rec) c.held }
    else
      let s := (put s moved).onCtx ctx fun c => { c with fwr := c.fwr + 1 }
      if c.frd = c.fwr then s.emit (.msix c.owner c.fvec) else s

/-- Records a parked walk, once for each walker while its monitor is armed (08 R139, R140). -/
def State.parkRecord (s : State) (ctx src : Nat) (k : AKind) (va level entry : Nat) : State :=
  if s.armed.contains (ctx, entry, src) then s
  else { s with armed := (ctx, entry, src) :: s.armed }.ringWrite ctx
    (faultRecord va s.gts src ctx k.code level entry)

/-- Records a trap-class fault of an engine, the host or the supervisor (08 R139). -/
def State.faultRec (s : State) (ctx src : Nat) (k : AKind) (va level entry : Nat) : State :=
  s.ringWrite ctx (faultRecord va s.gts src ctx k.code level entry)

/-- What has parked on an entry is woken at once if the entry is already valid: a monitor reads again (08 R138). -/
def State.recheck (s : State) (entry : Nat) : State :=
  let s := s.recall ((List.range 8).map (entry + ·))
  if pteV (s.phys64 entry) then s.wakeEntry entry else s

/-- A walk that has found an entry invalid: its virtual address, level and entry. -/
structure Parked where
  va : Nat
  level : Nat
  entry : Nat
  deriving DecidableEq, Repr

/-- Walks park on the entries that they have found invalid, each with its record (08 R138, R139). -/
def State.parkWalks (s : State) (ctx src : Nat) (ws : List (Parked × AKind)) : State :=
  ws.foldl (fun s w => (s.parkRecord ctx src w.2 w.1.va w.1.level w.1.entry).recheck w.1.entry) s

/-! ## Accesses of engines and firmware (08 R147) -/

/-- What an engine's access gives: the addresses, a trap class, or a park. -/
def State.xlatRange (s : State) (ctx : Nat) (x : Xlat) (k : AKind) (va : U64) (n : Nat) : Except XErr (List Nat) :=
  match rangeError va.toNat n with
  | some cls => .error (.trap cls (if cls = cNC then va.toNat else if va.toNat < 2 ^ 56 then 2 ^ 56 else 0) 0 0)
  | none => s.translate ctx x k va.toNat n

end Sys2Proof.Machine
end

