-- ==== Sys2Proof/Machine/Operands.lean ====
section
/-!
DEFINITION. Every operand form: registers, predicates, special registers, immediates and guards as lanes and scalar
forms read them, with poison and full/empty bits (02 R19 to R25, 08 R148, R149, 09 R166, 10 R173, R189, 19 R334).
-/
namespace Sys2Proof.Machine

/-! ## Registers -/

/-- Key of a vector register of a lane. -/
def vKey (lane r : Nat) : Nat := lane * 512 + r
/-- Key of a predicate of a lane. -/
def pKey (lane p : Nat) : Nat := lane * 16 + p
/-- Key of a vector register's full/empty bit in a group word. -/
def eKey (group r : Nat) : Nat := group * 512 + r

/-- A vector register of a lane (02 R20). -/
def Regs.getV (r : Regs) (lane n : Nat) : U32 := NMap.get r.v (vKey lane n) 0
/-- Its poison bit (10 R173). -/
def Regs.badV (r : Regs) (lane n : Nat) : Bool := NSet.mem r.vPoison (vKey lane n)
/-- Writes a vector register with its poison. -/
def Regs.setV (r : Regs) (lane n : Nat) (x : U32) (bad : Bool) : Regs :=
  { r with v := NMap.set 0 r.v (vKey lane n) x, vPoison := NSet.put r.vPoison (vKey lane n) bad }
/-- A scalar register (02 R22). -/
def Regs.getS (r : Regs) (n : Nat) : U64 := NMap.get r.s n 0
def Regs.badS (r : Regs) (n : Nat) : Bool := NSet.mem r.sPoison n
def Regs.setS (r : Regs) (n : Nat) (x : U64) (bad : Bool) : Regs :=
  { r with s := NMap.set 0 r.s n x, sPoison := NSet.put r.sPoison n bad }
/-- A predicate of a lane (02 R19). -/
def Regs.getP (r : Regs) (lane n : Nat) : Bool := NSet.mem r.p (pKey lane n)
def Regs.badP (r : Regs) (lane n : Nat) : Bool := NSet.mem r.pPoison (pKey lane n)
def Regs.setP (r : Regs) (lane n : Nat) (x bad : Bool) : Regs :=
  { r with p := NSet.put r.p (pKey lane n) x, pPoison := NSet.put r.pPoison (pKey lane n) bad }
/-- A future handle's token (13 R236). -/
def Regs.getH (r : Regs) (n : Nat) : U64 := NMap.get r.h n 0
def Regs.setH (r : Regs) (n : Nat) (x : U64) (empty : Bool) : Regs :=
  { r with h := NMap.set 0 r.h n x, hEmpty := NSet.put r.hEmpty n empty }
/-- The link stack of a lane, top first (10 R195). -/
def Regs.link (r : Regs) (lane : Nat) : List U64 := NMap.get r.links lane []
def Regs.setLink (r : Regs) (lane : Nat) (l : List U64) : Regs := { r with links := NMap.set [] r.links lane l }
/-- `$origlane` of a lane. -/
def Regs.orig (r : Regs) (lane : Nat) : Nat := NMap.get r.origlane lane lane
def Regs.setOrig (r : Regs) (lane o : Nat) : Regs :=
  { r with origlane := if o = lane then NMap.erase r.origlane lane else NMap.insert r.origlane lane o }
/-- Sets `$poison` of a set of lanes from two sets: the lanes that read registers, and those of them that read poison. -/
def Regs.setFlag (r : Regs) (read bad : Mask) : Regs := { r with flag := (r.flag &&& ~~~read) ||| (bad &&& read) }

/-- Marks a vector register of a group word empty or full (08 R148). -/
def Regs.markV (r : Regs) (group n : Nat) (empty : Bool) : Regs :=
  { r with vEmpty := NSet.put r.vEmpty (eKey group n) empty }
def Regs.emptyV (r : Regs) (group n : Nat) : Bool := NSet.mem r.vEmpty (eKey group n)
def Regs.markS (r : Regs) (n : Nat) (empty : Bool) : Regs := { r with sEmpty := NSet.put r.sEmpty n empty }
def Regs.emptyS (r : Regs) (n : Nat) : Bool := NSet.mem r.sEmpty n

/-- `k` consecutive vector registers of a lane, the first the lowest 32 bits (02 R22, 13 R223). -/
def Regs.getVs (r : Regs) (lane n : Nat) : Nat → Nat
  | 0 => 0
  | k + 1 => (r.getV lane n).toNat + 2 ^ 32 * r.getVs lane (n + 1) k
/-- Any of them is poisoned. -/
def Regs.badVs (r : Regs) (lane n : Nat) : Nat → Bool
  | 0 => false
  | k + 1 => r.badV lane n || r.badVs lane (n + 1) k
/-- Writes `k` consecutive vector registers of a lane. -/
def Regs.setVs (r : Regs) (lane n : Nat) (bad : Bool) : Nat → Nat → Regs
  | 0, _ => r
  | k + 1, x => (r.setV lane n (.ofNat 32 x) bad).setVs lane (n + 1) bad k (x / 2 ^ 32)

/-- A scalar source of `k` words: the low 32 bits, a register, or a pair of them (02 R22, 13 R223). -/
def Regs.getSs (r : Regs) (n k : Nat) : Nat :=
  if k = 1 then (r.getS n).toNat % 2 ^ 32
  else if k = 2 then (r.getS n).toNat
  else (r.getS n).toNat + 2 ^ 64 * (r.getS (n + 1)).toNat
/-- A scalar destination of `k` words: 32 bits are zero-filled (02 R22). -/
def Regs.setSs (r : Regs) (n k : Nat) (x : Nat) (bad : Bool) : Regs :=
  if k = 1 then r.setS n (.ofNat 64 (x % 2 ^ 32)) bad
  else if k = 2 then r.setS n (.ofNat 64 x) bad
  else (r.setS n (.ofNat 64 x) bad).setS (n + 1) (.ofNat 64 (x / 2 ^ 64)) bad

/-- Scalar registers that a group of `k` words takes. -/
def sCount (k : Nat) : Nat := (k + 1) / 2

/-! ## Immediates (02 R24) -/

/-- The value of the immediate for a type, in the type's width. -/
def immValue (t : Ty) (imm : BitVec 24) : Nat :=
  let x := imm.toNat
  match t with
  | .i32 => (imm.signExtend 32).toNat
  | .i64 => (imm.signExtend 64).toNat
  | .u32 | .u64 => x
  | .i16x2 | .u16x2 | .f16x2 | .bf16x2 => x % 2 ^ 16 + 2 ^ 16 * (x % 2 ^ 16)
  | .i8x4 | .u8x4 => x % 2 ^ 8 * 0x01010101
  | .f32 => x * 2 ^ 8
  | .f64 => x * 2 ^ 40

/-- The value of the immediate for an instruction: R24 by its type, but zero-extended where its description says so
(SHFL and TSHFL's b, WRSP, WAITMON, SLEEP; HFAIL, RESUME, KILL, REPLAY, PCLASS and SCANRUN use low bits). FSCALE's b, a signed integer
of 32 bits, and PACK's 32-bit sources are extended by the instruction's type too (DESIGN CHOICE, logs 69 and 70). -/
def immSrc (i : Instr) (f : Fields) : Nat :=
  match i with
  | .shfl _ | .tshfl _ => if f.sb = .imm then f.imm.toNat else immValue f.ty f.imm
  | .wrsp _ | .waitmon _ | .sleep _ => f.imm.toNat
  | _ => immValue f.ty f.imm

/-! ## Special registers (02 R21, 06 R109, 18 R310) -/

/-- A special register as a lane of split `e` reads it. -/
def Team.special (t : Team) (gts e lane : Nat) : SReg → Nat
  | .lane => lane % 32
  | .group => lane / 32
  | .tlane => lane
  | .team => t.team.toNat
  | .teamdim => t.lanes
  | .cluster => t.cluster.toNat
  | .cpos => t.cpos.toNat
  | .split => e
  | .origlane => t.regs.orig lane
  | .core => t.core
  | .quad => quadOf t.core
  | .ctx => t.ctx
  | .argp => t.argp.toNat
  | .gts => gts % 2 ^ 64
  | .poison => if Mask.has t.regs.flag lane then 1 else 0

/-! ## Sources and destinations -/

/-- What reading operands needs besides the team. -/
structure Rd where
  gts : Nat
  e : Nat
  i : Instr
  f : Fields

/-- The value of a source of `k` words in a lane. -/
def Team.src (t : Team) (r : Rd) (o : Opnd) (k lane : Nat) : Nat :=
  match o with
  | .v n => t.regs.getVs lane n.toNat k
  | .s n => t.regs.getSs n.toNat k
  | .p n => if t.regs.getP lane n.toNat then 1 else 0
  | .sp x => t.special r.gts r.e lane x % 2 ^ (32 * k)
  | .h n => (t.regs.getH n.toNat).toNat
  | .imm => immSrc r.i r.f % 2 ^ (32 * k)
  | .none => 0

/-- The poison of a source in a lane (10 R173). Special registers and the immediate carry none. -/
def Team.bad (t : Team) (o : Opnd) (k lane : Nat) : Bool :=
  match o with
  | .v n => t.regs.badVs lane n.toNat k
  | .s n => t.regs.badS n.toNat || (2 < k && t.regs.badS (n.toNat + 1))
  | .p n => t.regs.badP lane n.toNat
  | _ => false

/-- The operand names a register, so that reading it counts for `$poison` (19 R334). -/
def opndIsReg : Opnd → Bool
  | .v _ | .s _ | .p _ | .h _ => true
  | _ => false

/-- A register group lies inside the team's allocation (02 R22). -/
def Team.holds (t : Team) (k : Nat) : Opnd → Bool
  | .v n => n.toNat + k ≤ t.vregs
  | .s n => n.toNat + sCount k ≤ t.sregs
  | _ => true

/-- The limits an instruction's IMM has from the team that issues it: lanes (10 R190) and safe points (R201). -/
def Team.immOk (t : Team) : Instr → Bool
  | .rdlane f | .wrlane f => f.imm.toNat < t.lanes
  | .safept f => f.imm.toNat < t.spCount
  | _ => true

/-- Every register of the instruction lies inside the team's allocation (02 R22, 13 R223, 16 R300), and its IMM inside
the team's limits. -/
def Team.holdsAll (t : Team) (i : Instr) (f : Fields) : Bool :=
  let w := i.widths
  let payload : Nat := match i, f.sb with
    | .amsg _, .v _ | .cont _, .v _ | .emit _, .v _ => 14
    | .amsg _, .s _ | .cont _, .s _ | .emit _, .s _ => 14
    | _, _ => w.2.2
  t.holds w.1 f.dst && t.holds w.2.1 f.sa && t.holds payload f.sb && t.immOk i

/-! ## Guards (02 R19) -/

/-- The guard holds in a lane. -/
def Team.guard (t : Team) (g : Guard) (lane : Nat) : Bool :=
  match g with
  | .always => true
  | .p n neg => t.regs.getP lane n.toNat != neg
/-- The guard bit is poisoned in a lane. -/
def Team.guardBad (t : Team) (g : Guard) (lane : Nat) : Bool :=
  match g with
  | .always => false
  | .p n _ => t.regs.badP lane n.toNat
/-- The lanes of a mask whose guard holds. -/
def Team.guarded (t : Team) (g : Guard) (m : Mask) : Mask :=
  match g with
  | .always => m
  | _ => Mask.ofList ((Mask.list m).filter (t.guard g))
/-- The lanes of a mask whose guard bit is poisoned. -/
def Team.guardPoison (t : Team) (g : Guard) (m : Mask) : Mask :=
  match g with
  | .always => 0
  | _ => Mask.ofList ((Mask.list m).filter (t.guardBad g))

/-! ## Full and empty bits (02 R25, 08 R148, R149) -/

/-- The `k`-word register is empty in a group word, or the scalar register or pair is. -/
def Team.isEmpty (t : Team) (k group : Nat) : Opnd → Bool
  | .v n => (List.range k).any fun j => t.regs.emptyV group (n.toNat + j)
  | .s n => (List.range (sCount k)).any fun j => t.regs.emptyS (n.toNat + j)
  | _ => false

/-- What the empty registers of an instruction make a group's pass do. -/
inductive Gate where
  | go
  /-- a source or the destination is empty and blocks -/
  | block
  /-- EMPTYRD, with DETAIL 0 for SA or 1 for SB -/
  | trap (detail : Nat)
  deriving DecidableEq, Repr

/-- One operand the instruction reads: words, FE bit, and DETAIL. -/
structure Read where
  o : Opnd
  k : Nat
  fe : Bool
  detail : Nat
  deriving DecidableEq, Repr

/-- The gate of a group's pass (02 R25, 08 R149): EMPTYRD of the first empty source with its FE bit set, SA before SB;
else a block while a source is empty, or one of `also`: a register read through DST, and the destination. -/
def Team.gate (t : Team) (g : Nat) (reads : List Read) (also : List (Opnd × Nat)) : Gate :=
  match reads.find? fun r => r.fe && t.isEmpty r.k g r.o with
  | some r => .trap r.detail
  | none =>
    if reads.any (fun r => t.isEmpty r.k g r.o) || also.any (fun a => t.isEmpty a.2 g a.1) then .block else .go

/-- The first group of a list whose pass does not go, and its gate. -/
def firstGate (gate : Nat → Gate) : List Nat → Option (Nat × Gate)
  | [] => none
  | g :: rest =>
    match gate g with
    | .go => firstGate gate rest
    | x => some (g, x)

/-- The first group of a list that the empty registers of an instruction keep from going. -/
def Team.gates (t : Team) (reads : List Read) (also : List (Opnd × Nat)) (gs : List Nat) : Option (Nat × Gate) :=
  firstGate (fun g => t.gate g reads also) gs

/-- The reads of SA and SB of an instruction. -/
def readsOf (i : Instr) (f : Fields) : List Read :=
  let w := i.widths
  [{ o := f.sa, k := w.2.1, fe := f.feA, detail := 0 }, { o := f.sb, k := w.2.2, fe := f.feB, detail := 1 }]

end Sys2Proof.Machine
end

