-- ==== Sys2Proof/Machine/Retire.lean ====
section
/-!
DEFINITION. Retirement of teams and grids, the release of windows, and the completion log (23 R373 to R376, R385,
12 R207, 13 R247, 14 R250, 19 R344).
-/
namespace Sys2Proof.Machine

/-! ## The log windows (23 R385) -/

/-- Records a window holds, and records the supervisor holds besides. -/
def errWindowSize : Nat := 128
def clWindowSize : Nat := 256
def heldMax : Nat := 65536

/-- Sends LOGVEC when a log goes from empty to nonempty. -/
def State.logSignal (s : State) (wasEmpty : Bool) : State :=
  if wasEmpty && s.logs.logvec ≠ 0xFFFF then s.emit (.msix 0 s.logs.logvec) else s

/-- Queue cores (06 R105). -/
def queueCores : Nat := 6
/-- The queue core that serves a queue. -/
def State.queueCore (s : State) (q : Nat) : Nat := NMap.get s.firmware.moved q (q % queueCores)
def State.queueSrc (s : State) (q : Nat) : Nat := srcQueueCore (s.queueCore q)

/-- What is in a log after a new entry: its window from `rd` on, the index of the next, the entries held besides, and how many are lost. -/
structure LogPut (α : Type) where
  window : NMap α
  wr : Nat
  held : List α
  lost : Nat

/-- Puts an entry into its place among the unconsumed ones of a log, from `rd` to `wr` in a window of `size` and then `held` (00 R4): the
first stand in the window, those after them are held, and what is more than `heldMax` is lost (23 R385). -/
def logPut {α : Type} (before : α → α → Bool) (x : α) (window : NMap α) (rd wr size : Nat) (held : List α) : LogPut α :=
  let n := wr - rd
  let all := insertOrd before x ((List.range n).filterMap (fun k => NMap.find? window (rd + k)) ++ held)
  let m := if held.isEmpty then Nat.min size (n + 1) else n
  { window := ((all.take m).zipIdx rd).foldl (fun w y => NMap.insert w y.2 y.1) window, wr := rd + m
    held := (all.drop m).take heldMax, lost := all.length - m - heldMax }

/-- A completion entry comes before another: its source is the queue core of its queue (DESIGN CHOICE, log 102). -/
def State.doneBefore (s : State) (a b : Completion) : Bool :=
  a.gts < b.gts || (a.gts = b.gts && s.queueSrc a.queue < s.queueSrc b.queue)

/-- Adds an entry to the completion log (19 R344, 23 R385) in report order. -/
def State.logCompletion (s : State) (e : Completion) : State :=
  let l := s.logs
  let p := logPut s.doneBefore e l.clWindow l.clrd l.clwr clWindowSize l.clHeld
  (s.onLogs fun l => { l with
    clWindow := p.window, clwr := p.wr, clHeld := p.held, cllost := (l.cllost + p.lost) % 2 ^ 32 }).logSignal (l.clwr = l.clrd)

/-! ## Windows (12 R207, 13 R247, 14 R250) -/

/-- A copy or walk keeps the team's window allocated. -/
def State.jobKeeps (s : State) (t : Team) : Bool :=
  ((s.core t.core).copies.any fun c => c.uid = t.uid &&
    (c.targets.any (·.uid = t.uid) || c.src.any (·.uid = t.uid))) ||
  ((s.mwe (quadOf t.core)).walks.any fun w => w.2.uid = t.uid)

/-- The teams whose windows are released together with a team's: those of its cluster (12 R207). -/
def State.clusterOf (s : State) (t : Team) : List Team :=
  let clustered := match s.grid? t.grid with
    | some g => t.kind == TeamKind.grid && 1 < g.image.clw * g.image.clh
    | none => false
  if clustered then
    s.allTeams.filter fun x => x.grid = t.grid && x.kind == TeamKind.grid && x.cluster = t.cluster
  else [t]

/-- The reserve entries in use by such teams are free. -/
def Grid.freeReserve (g : Grid) (p : Nat → Bool) : Grid :=
  let free (r : Reserve) : Reserve := if r.user.any p then { r with user := none } else r
  { g with reserves := g.reserves.map free }

/-- A saved team waits for a place in a partition: its context is being restored (18 R325). -/
def State.awaitsPlace (s : State) (t : Team) (p : Nat) : Bool :=
  t.out == .saved && t.slots.isEmpty && !t.retired && (s.ctx? t.ctx).any fun c => c.part = p && !c.out && c.preempt.isNone

/-- Asks for the next grant in a partition's line. -/
def State.kickLine (s : State) (p : Nat) : State :=
  if s.expects (· == .placementGrant p) then s else s.soon (.placementGrant p)

/-- The engine of a quad waits for a team of the supervisor (18 R327): the partition of the quad is to place one. -/
def State.kickSignal (s : State) (q : Nat) : State :=
  if (s.mwe q).signal.isNone then s
  else (List.range 16).foldl (fun s p => if (s.part p).hasQuad q then s.kickLine p else s) s

/-- Resources have freed on a core: the closed batches that wait there, its partition's placement line, the saved teams and a team of the
supervisor are offered them (07 R116, R119, 18 R325, R327). -/
def State.offer (s : State) (core : Nat) : State :=
  let s := (s.core core).batches.foldl (fun s b =>
    if b.closed && !s.expects (· == .batchLaunch core b.id) then s.soon (.batchLaunch core b.id) else s) s
  let s := (List.range 16).foldl (fun s p =>
    if (s.part p).hasQuad (quadOf core) && (!(s.part p).line.isEmpty || s.allTeams.any fun t => s.awaitsPlace t p)
    then s.kickLine p else s) s
  s.kickSignal (quadOf core)

/-- A grid's reserve on a quad is released once it has no team, node home core or running handler there (07 R118), nor a closed batch that
waits for an entry, which the first to free serves (R119, R121). -/
def State.dropReserve (s : State) (id quad : Nat) : State :=
  match s.grid? id with
  | none => s
  | some g =>
    let here (r : Reserve) : Bool := quadOf r.core = quad
    let stays : Bool := s.teams.any (fun t => t.2.grid = id && quadOf t.2.core = quad && !t.2.slots.isEmpty &&
        t.2.kind != .kite && t.2.kind != .trapHandler) ||
      g.nodes.any (fun n => quadOf n.2.home = quad) ||
      s.cores.any (fun c => quadOf c.1 = quad && c.2.batches.any fun b => b.closed && b.grid = id) || g.reserves.any fun r => here r && r.user.isSome
    if stays || !g.reserves.any here then s
    else g.reserves.foldl (fun s r => if here r then s.offer r.core else s)
      (s.setGrid { g with reserves := g.reserves.filter fun r => !here r })

/-- Releases the windows of retired teams that nothing keeps any longer: the teams are gone. The reserve entry of a
handler whose walk kept it frees with them (14 R265). -/
def State.releaseWindows (s : State) (uid : Nat) : State :=
  match s.team? uid with
  | none => s
  | some t =>
    let all := s.clusterOf t
    if all.all fun x => x.retired && !s.jobKeeps x then
      let gone := all.map (·.uid)
      let s := { s with teams := s.teams.filter fun p => !gone.contains p.1 }
      let s := s.onGrid t.grid fun g => g.freeReserve gone.contains
      all.foldl (fun s x => (s.dropReserve t.grid (quadOf x.core)).offer x.core) s
    else s

/-! ## Grids (23 R374, R375) -/

/-- Something of the grid is still under way. -/
def State.gridBusy (s : State) (g : Grid) : Bool :=
  g.placed < g.teams ||
  s.teams.any (fun t => t.2.grid = g.id && !t.2.retired) ||
  s.mwes.any (fun m => m.2.walks.any fun w => w.2.grid = g.id) ||
  s.cores.any (fun c => c.2.copies.any (·.grid = g.id) || c.2.inflight.any (·.grid = g.id) ||
    c.2.batches.any (·.grid = g.id))

/-- A grid retires once its teams, jobs and records are done: its reserves are released, the completion entry is written,
and its queue's core is to write DONE. -/
def State.settleGrid (s : State) (id : Nat) : State :=
  match s.grid? id with
  | none => s
  | some g =>
    if s.gridBusy g then s
    else
      let e : Completion := { gts := s.gts, ctx := g.ctx, queue := g.queue, cstate := 0, pidx := g.pidx, cores := g.ran }
      let s := { s with grids := NMap.erase s.grids id }.logCompletion e
      let s := s.onLogs fun l => { l with provisional := l.provisional ++ [e] }
      let d : Done := { pidx := g.pidx, ctx := g.ctx, addr := g.done, value := g.donev, counts := g.counts, parked := none }
      let s := s.onQueue g.queue fun q => { q with dones := q.dones ++ [d] }
      let s := s.soon (.doneWrite g.queue g.pidx)
      g.reserves.foldl (fun s r => s.offer r.core) s

/-! ## Teams (23 R373, 18 R323) -/

/-- CW_ATTACH of supervisor teams that name a team loses its valid bit (18 R319). -/
def State.detach (s : State) (t : Team) : State :=
  { s with teams := s.teams.map fun p =>
      let a := p.2.attach
      if a[16] && bitsAt a.toNat 0 8 = t.core && some (bitsAt a.toNat 8 6) = t.slots.head? then
        (p.1, { p.2 with attach := a &&& ~~~ (0x10000 : U64) }) else p }

/-- Results on their way to a team's registers are dropped with them. -/
def State.dropPending (s : State) (t : Team) : State :=
  s.onCore t.core fun c => { c with pending := c.pending.filter (·.uid ≠ t.uid) }

/-- Writes back every stash mapping of a team (12 R210). -/
def State.stashesBack (s : State) (t : Team) : State :=
  t.stashes.foldl (fun s m => m.filled.foldl (fun s k => s.stashBack t m k.1) s) s

/-- A team retires: its stash write-backs complete, its group slots, registers, barriers, kite and reserve entry are
released, and its window unless something keeps it. -/
def State.retireTeam (s : State) (t : Team) : State :=
  let s := ((s.stashesBack t).detach t).dropPending t
  let s := { s with teams := s.teams.filter fun p => !(p.2.kind == TeamKind.kite && p.2.kiteOf == t.uid) }
  let s := s.setTeam { t with retired := true, slots := [], regs := {}, barriers := [], stashes := [], crit := 0 }
  let s := s.releaseWindows t.uid
  let s := match s.team? t.uid with
    | some _ =>
      if s.jobKeeps t then s
      else s.onGrid t.grid fun g => g.freeReserve (· == t.uid)
    | none => s
  ((s.dropReserve t.grid (quadOf t.core)).settleGrid t.grid).offer t.core

/-- A job keeps the team's window: one of its own, or of its cluster, whose windows are kept together (13 R247). -/
def State.keepsWindow (s : State) (t : Team) : Bool := (s.clusterOf t).any s.jobKeeps

/-- A saved team releases its group slots, registers and barriers, and its window unless something keeps it (18 R323). -/
def State.releaseSaved (s : State) (t : Team) : State :=
  let s := ((s.stashesBack t).detach t).dropPending t
  let keep := s.keepsWindow t
  let s := s.setTeam { t with slots := [], regs := {}, barriers := [], stashes := [],
                              window := if keep then t.window else {} }
  let s := if keep then s else s.onGrid t.grid fun g => g.freeReserve (· == t.uid)
  (s.dropReserve t.grid (quadOf t.core)).offer t.core

/-- The team is out of a pre-emption: saved or held in place (18 R321). -/
def Team.isOut (t : Team) : Bool := t.out == .saved || t.out == .held

/-- Saved teams release their resources once every team above them in their grid is out (18 R326). -/
def State.releaseBelow (s : State) (grid : Nat) : State :=
  let mine := s.allTeams.filter fun t => t.grid = grid && !t.retired && (t.kind == .grid || t.kind == .upcall || t.kind == .record)
  mine.foldl (fun s t =>
    if t.out = .saved && !t.slots.isEmpty && mine.all (fun x => x.kind != .grid || x.team ≤ t.team || x.isOut) then s.releaseSaved t else s) s

/-- The supervisor is to look at a function's CTX_PREEMPT again. -/
def State.kickPreempt (s : State) (fn : Nat) : State := if s.expects (· == .ctxPreempt fn) then s else s.soon (.ctxPreempt fn)

/-- A team whose every live lane is saved is out (18 R323); the request may be complete (R326). -/
def State.teamOut (s : State) (t : Team) : State :=
  let s := (s.setTeam { t with out := .saved }).releaseBelow t.grid
  match (s.ctx? t.ctx).bind (·.preempt) with
  | some (_, fn) => s.kickPreempt fn
  | none => s

/-- Lanes of a team that operand log entries hold. -/
def State.loggedLanes (s : State) (t : Team) : Mask :=
  ((s.core t.core).oplog.filter (·.uid = t.uid)).foldl (fun m x => m ||| Mask.ofList (x.lanes.map (·.lane))) 0

/-- A team that has no live lane left, no group in TRAP or DEBUG and no lane in an operand log entry retires, or is out if
its lanes were saved. -/
def State.settleTeam (s : State) (uid : Nat) : State :=
  match s.team? uid with
  | none => s
  | some t =>
    if t.retired || t.kind = .kite || t.kind = .trapHandler || t.live ≠ 0 || !t.traps.isEmpty ||
      s.loggedLanes t ≠ 0 || t.out = .saved then s
    else if t.mode = .save && t.savedLanes ≠ 0 then s.teamOut t
    else (s.retireTeam t).releaseBelow t.grid

/-- The windows that teams saved and gone from their cores have kept for a job are released once nothing keeps them. -/
def State.releaseKept (s : State) (uid : Nat) : State :=
  match s.team? uid with
  | none => s
  | some t =>
    (s.clusterOf t).foldl (fun s x =>
      if x.out = .saved && x.slots.isEmpty && !x.retired && x.window.held && !s.keepsWindow x then
        let s := (s.setTeam { x with window := {} }).onGrid x.grid fun g => g.freeReserve (· == x.uid)
        (s.dropReserve x.grid (quadOf x.core)).offer x.core
      else s) s

/-- A job of a team has ended: its window and its grid may go (13 R247, 14 R250). -/
def State.settleJob (s : State) (uid grid : Nat) : State := ((s.releaseKept uid).releaseWindows uid).settleGrid grid

end Sys2Proof.Machine
end

