-- ==== Sys2Proof/Machine/Ops.lean ====
section
/-!
DEFINITION. The shared operations on teams: fetching, dividing and merging splits, killing groups, taking a trap and
returning from one, completing futures, retiring (09 R152 to R163, 18 R309 to R316, 19 R336, 23 R373).
-/
namespace Sys2Proof.Machine

/-! ## Fetching (08 R146, 13 R235) -/

/-- The word at an address as a fetch of the context sees it: the held word, old or new where memory has changed since
it was held (13 R235; the device's choice, DESIGN CHOICE, log 6), else memory's. -/
def State.fetchWord (s : State) (core ctx : Nat) (x : Xlat) (pc : U64) : Except XErr Word96 :=
  match s.xlatRange ctx x .fetch pc 12 with
  | .error e => .error e
  | .ok pas =>
    match (s.core core).icache.find? fun c => c.ctx == ctx && c.pc == pc.toNat with
    | some c => if s.choice / 2 % 2 = 0 then .ok c.word else .ok (word96OfBytes (s.readGlobal pas).2.1)
    | none => .ok (word96OfBytes (s.readGlobal pas).2.1)

/-- The bytes that a fetch reads are recalled from the stashes that hold them (12 R210). -/
def State.recallCode (s : State) (ctx : Nat) (x : Xlat) (pc : U64) : State :=
  match s.xlatRange ctx x .fetch pc 12 with
  | .error _ => s
  | .ok pas => s.recall pas

/-- The core's instruction cache holds the word, unless it lies in the pool (12 R218). -/
def State.keepWord (s : State) (core ctx : Nat) (x : Xlat) (pc : U64) (w : Word96) : State :=
  match s.xlatRange ctx x .fetch pc 12 with
  | .error _ => s
  | .ok pas =>
    if pas.any inPool then s
    else s.onCore core fun c =>
      { c with icache := { ctx := ctx, pc := pc.toNat, word := w } ::
          c.icache.filter fun i => !(i.ctx == ctx && i.pc == pc.toNat) }

/-- The word at an address as a team would fetch it, if it can be fetched. -/
def State.wordAt (s : State) (t : Team) (pc : U64) : Option Word96 :=
  match s.fetchWord t.core t.ctx (t.xlat s) pc with
  | .ok w => some w
  | .error _ => none

/-- The BE hint of the word at an address (02 R28); false where no word can be fetched. -/
def State.beAt (s : State) (t : Team) (pc : U64) : Bool := (s.wordAt t pc).any fun w => w[6]

/-! ## The split table (09 R154 to R163) -/

/-- The lowest free entry. -/
def Team.freeEntry (t : Team) : Option Nat := (List.range t.splits.length).find? fun e => (t.split e).state = .free
/-- The lowest free mask slot. -/
def Team.freeSlot (t : Team) : Nat :=
  let used := t.entries.map fun e => (t.split e).mptr
  ((List.range 16).find? fun k => !used.contains k).getD 0

/-- Bytes of frontier records (09 R162). -/
def frontierBytes (l : List FrontierRec) : Nat :=
  l.foldl (fun n r => n + 24 + 4 * (GMask.list (Mask.groups r.mask)).length) 0

/-- A frontier record as the reserve holds it (09 R162). -/
def FrontierRec.bytes (r : FrontierRec) : List Byte :=
  let gs := GMask.list (Mask.groups r.mask)
  leBytes 8 r.pc.toNat ++ leBytes 8 r.age ++ leBytes 4 (Mask.groups r.mask).toNat ++ leBytes 4 gs.length ++
    gs.flatMap fun g => leBytes 4 (Mask.word r.mask g).toNat

/-- The written part of a team's 4 KiB reserve: the header with FCOUNT and FUSED, and the records, oldest first (09 R162). No program
reaches it, and State holds the records themselves (DESIGN CHOICE, log 83). -/
def Team.reserveBytes (t : Team) : List Byte :=
  leBytes 2 t.frontier.length ++ leBytes 2 (frontierBytes t.frontier) ++ leBytes 60 0 ++ t.frontier.flatMap FrontierRec.bytes

/-- A new READY split in an entry. -/
def Team.addSplit (t : Team) (e : Nat) (pc : U64) (age : Nat) (m : Mask) : Team :=
  t.setSplit e { state := .ready, pc := pc, age := age, mptr := t.freeSlot, mask := m }

/-- Puts a subset in the frontier: into the record with its PC, else as the newest (09 R163). -/
def Team.spill (t : Team) (pc : U64) (age : Nat) (m : Mask) : Team :=
  if t.frontier.any (·.pc = pc) then
    { t with ovf := true, frontier := t.frontier.map fun r =>
        if r.pc = pc then { r with age := Nat.min r.age age, mask := r.mask ||| m } else r }
  else { t with ovf := true, frontier := t.frontier ++ [{ pc := pc, age := age, mask := m }] }

/-- Gives each subset of a divide a place (09 R158, R163); none if the frontier lacks room. -/
def Team.placeSubsets (t : Team) (gts : Nat) : List (U64 × Mask) → Option Team
  | [] => if frontierBytes t.frontier ≤ 4032 then some t else none
  | (pc, m) :: rest =>
    match t.freeEntry with
    | some e => (t.addSplit e pc gts m).placeSubsets gts rest
    | none => (t.spill pc gts m).placeSubsets gts rest

/-- Groups lanes by next PC, rising. -/
def insertPc (pc : U64) (m : Mask) : List (U64 × Mask) → List (U64 × Mask)
  | [] => [(pc, m)]
  | (p, n) :: rest =>
    if pc.toNat < p.toNat then (pc, m) :: (p, n) :: rest
    else if pc = p then (p, n ||| m) :: rest
    else (p, n) :: insertPc pc m rest

/-- The oldest frontier record re-enters in a free entry (09 R163), and HELD splits are told to retry. -/
def Team.reenter (t : Team) : Team :=
  match t.freeEntry, t.frontier with
  | some e, r :: rest => { t.addSplit e r.pc r.age r.mask with frontier := rest }
  | _, _ => t

/-- Frees the entries whose mask has become empty (09 R156), one record re-entering for each (R163). -/
def Team.freeEmpty (t : Team) : Team :=
  (List.range t.splits.length).foldl (fun t e =>
    if (t.split e).state ≠ .free && (t.split e).mask = 0 then (t.setSplit e {}).reenter else t) t

/-- HELD splits retry when an entry frees or records shrink (09 R163). -/
def State.retryHeld (s : State) (uid : Nat) : State :=
  match s.team? uid with
  | none => s
  | some t => t.entries.foldl (fun s e =>
      if (t.split e).state = .held && !s.expects (· == .divideRetry uid e) then s.soon (.divideRetry uid e) else s) s

/-- Removes lanes from every split and frontier record of a team (09 R156). -/
def Team.removeLanes (t : Team) (m : Mask) : Team :=
  let splits := t.splits.map fun x => { x with mask := x.mask &&& ~~~m }
  let frontier := (t.frontier.map fun (r : FrontierRec) => { r with mask := r.mask &&& ~~~m }).filter (·.mask ≠ 0)
  Team.freeEmpty { t with splits := splits, frontier := frontier }

/-- Another READY or WAIT split of the team stands below a split that is at a block entry, and its hold has not ended (09 R160). -/
def State.entryHolds (s : State) (t : Team) (e : Nat) : Bool :=
  let x := t.split e
  !x.holdOver && s.beAt t x.pc &&
    t.entries.any fun k => k ≠ e && ((t.split k).state = .ready || (t.split k).state = .wait) &&
      (t.split k).pc.toNat < x.pc.toNat

/-- The split is held at a block entry, READY (09 R160). -/
def State.heldAtEntry (s : State) (t : Team) (e : Nat) : Bool := (t.split e).state = .ready && s.entryHolds t e

/-- The lanes of `new` come after what the operand log holds for splits with lanes of `old` (15 R280). -/
def Team.widenLog (t : Team) (old new : Mask) : Team :=
  { t with logAfter := t.logAfter.map fun p => if p.2 &&& old ≠ 0 then (p.1, p.2 ||| new) else p }

/-- A split arrives at its PC: at a block entry it merges with the READY splits standing there and the frontier
records with its PC (09 R159); a split whose instruction is just being performed leaves it, and does not stand there (DEDUCED, log 85). Its hold starts
anew, or has ended if it merges (R160). -/
def State.arrive (s : State) (uid e : Nat) : State :=
  let s := s.onSplit uid e fun x => { x with hold := 0, holdOver := false }
  match s.team? uid with
  | none => s
  | some t =>
    let x := t.split e
    if x.state ≠ .ready || !s.beAt t x.pc then s
    else
      let issuing (k : Nat) : Bool := s.cur.any fun c => c.uid = uid && c.e = k && c.pc = x.pc
      let partners := t.entries.filter fun k => k ≠ e && (t.split k).state = .ready && (t.split k).pc = x.pc && !issuing k
      let recs := t.frontier.filter (·.pc = x.pc)
      if partners.isEmpty && recs.isEmpty then s
      else
        let all := (e :: partners)
        let keep := all.foldl (fun b k =>
          if (t.split k).age < (t.split b).age || ((t.split k).age = (t.split b).age && k < b) then k else b) e
        let age := recs.foldl (fun a r => Nat.min a r.age) (t.split keep).age
        let m := recs.foldl (fun m r => m ||| r.mask) (all.foldl (fun m k => m ||| (t.split k).mask) 0)
        let did := all.foldl (fun m k => m ||| (t.split k).did) 0
        let stall := maxList (all.map fun k => (t.split k).stall)
        let t := { t.widenLog m m with frontier := t.frontier.filter (·.pc ≠ x.pc) }
        let word := all.findSome? fun k =>
          if (t.split k).did == (0 : Mask) && (t.split k).passed == (0 : GMask) then none else (t.split k).word
        let stepping := all.any fun k => (t.split k).stepping
        let t := t.onSplit keep fun y => { y with
          mask := m, age := age, hold := 0, holdOver := true, stall := stall, did := did, passed := 0, word := word
          stepping := stepping }
        let t := all.foldl (fun t k => if k = keep then t else (t.setSplit k {}).reenter) t
        (s.setTeam t).retryHeld uid

/-- A READY split whose STALL count has not run out is in WAIT, unless it is held at a block entry (09 R155, R160). -/
def State.restStall (s : State) (uid : Nat) : State :=
  match s.team? uid with
  | none => s
  | some t => t.entries.foldl (fun s e =>
      if (t.split e).state = .ready && (t.split e).stall ≠ 0 && !s.entryHolds t e then
        s.onSplit uid e fun x => { x with state := .wait, waiting := .stall } else s) s

/-- The context names a trap handler image (18 R310). -/
def State.hasHandler (s : State) (ctx : Nat) : Bool := ((s.ctx? ctx).bind (·.trapImage)).isSome

/-- The stop of one group of a split (18 R320): `calls` says that a handler is to serve it. That of a group which has a record of another
split waits for it to go (DESIGN CHOICE, log 98). -/
def Team.stopGroup (t : Team) (cls detail gts : Nat) (word : Word96) (rpc : U64) (calls : Bool) (e g : Nat) (mask : GMask) :
    Team :=
  let x : GTrap :=
    { cls := cls, mask := mask, detail := detail, pc := (t.split e).pc, ea := 0, gts := gts, word := word, rpc := rpc
      split := e, debug := true, handler := if calls then none else some 0 }
  if (NMap.find? t.traps g).isSome then { t with stops := t.stops ++ [(g, x)] } else { t with traps := NMap.insert t.traps g x }

/-- The stops whose groups have no record any longer are their records. -/
def Team.placeStops (t : Team) : Team :=
  t.stops.foldl (fun t p =>
    if (NMap.find? t.traps p.1).isSome then { t with stops := t.stops ++ [p] } else { t with traps := NMap.insert t.traps p.1 p.2 })
    { t with stops := [] }

/-- A split that stands at the start of an instruction: ready, with nothing of it performed. -/
def Split.fresh (x : Split) : Split := { x with state := .ready, waiting := .retry, did := 0, passed := 0, word := none, mon := [] }

/-- A stepped split has issued its instruction: it and the splits it has divided into stop before their next ones, with a
handler for the lowest group of the one that kept the entry (18 R320). -/
def State.stepStop (s : State) (uid : Nat) (es : List Nat) : State :=
  match s.team? uid with
  | none => s
  | some t =>
    let low := (GMask.list (Mask.groups (t.split (es.headD 0)).mask)).headD 0
    let t := es.foldl (fun (t : Team) e =>
      let t := t.onSplit e fun x => { x.fresh with state := .debug, stepping := false, stopped := true }
      let x := t.split e
      (GMask.list (Mask.groups x.mask)).foldl (fun t g =>
        t.stopGroup cSTEP 0 s.gts 0 x.pc (g = low && some e = es.head? && s.hasHandler t.ctx) e g (Mask.word x.mask g)) t) t
    (s.setTeam t).soon (.trapFrameGrant t.core)

/-- Moves a whole split to an address, ready; a stepped one stops there. -/
def State.moveTo (s : State) (uid e : Nat) (pc : U64) : State :=
  let stepping := ((s.team? uid).map fun t => (t.split e).stepping).getD false
  let s := s.onSplit uid e fun x => { x.fresh with pc := pc, stopped := false }
  if stepping then s.stepStop uid [e] else (s.arrive uid e).restStall uid

/-- STALL and YLD of an instruction that a split has ended (02 R28). -/
def State.hints (s : State) (uid e : Nat) (w : Word96) : State :=
  s.onSplit uid e fun x => { x with stall := x.stall + bitsAt w.toNat 8 3, yld := w[7] }

/-- A split has ended the instruction at which it stands, of a word, and moves past it. -/
def State.goOn (s : State) (uid e : Nat) (w : Word96) : State :=
  match s.team? uid with
  | none => s
  | some t => (s.hints uid e w).moveTo uid e ((t.split e).pc + 12)

/-- The same, with the word that the split has begun. -/
def State.pastIt (s : State) (uid e : Nat) : State :=
  match s.team? uid with
  | none => s
  | some t => s.goOn uid e ((t.split e).word.getD 0)

/-- A control transfer's choices (09 R158): the split moves or divides; none if the divide has no room (R163). -/
def State.divide (s : State) (uid e : Nat) (choices : List (U64 × Mask)) : Option State :=
  match s.team? uid with
  | none => some s
  | some t =>
    match choices with
    | [] => some s
    | (pc, m) :: rest =>
      let t' := t.onSplit e fun x => { x.fresh with pc := pc, mask := m, stopped := false }
      match t'.placeSubsets s.gts rest with
      | none => none
      | some t' =>
        let fresh := t'.entries.filter fun k => (t.split k).state = .free
        if (t.split e).stepping then some ((s.setTeam t').stepStop uid (e :: fresh))
        else some (((e :: fresh).foldl (fun s k => s.arrive uid k) (s.setTeam t')).restStall uid)

/-! ## Futures (13 R236, R237) -/

def tokenSrc (k : U64) : Nat := bitsAt k.toNat 48 16
def tokenCtx (k : U64) : Nat := bitsAt k.toNat 36 12
def tokenSeq (k : U64) : Nat := bitsAt k.toNat 0 32
/-- A future token (13 R236). -/
def mkToken (src ctx seq : Nat) : U64 := .ofNat 64 (src * 2 ^ 48 + ctx % 2 ^ 12 * 2 ^ 36 + seq % 2 ^ 32)

/-- The engine a source number names, if it is one. -/
def State.engine? (s : State) (src : Nat) : Option Engine :=
  if 0x0100 ≤ src && src < 0x0130 then some (s.mwe (src - 0x0100)).engine
  else if 0x0200 ≤ src && src < 0x02C0 then some (s.core (src - 0x0200)).bte
  else none

def State.onEngine (s : State) (src : Nat) (f : Engine → Engine) : State :=
  if src < 0x0200 then s.onMwe (src - 0x0100) fun m => { m with engine := f m.engine }
  else s.onCore (src - 0x0200) fun c => { c with bte := f c.bte }

/-- States of a future (13 R237). -/
def fPENDING := 0
def fDONE := 1
def fRETIRED := 2
def fCANCELLED := 3
def fFAULTED := 4
def fREFUSED := 5
def fEXPIRED := 6
def fINVALID := 7

/-- The status ring entry a token names as a team of the context reads it: invalid, expired or the entry (R236, R237). -/
def State.jobStat (s : State) (ctx : Nat) (k : U64) : JobStat :=
  let none_ (st : Nat) : JobStat := { seq := tokenSeq k, ctx := ctx, state := st, count := 0, detail := 0, counters := none }
  match s.engine? (tokenSrc k) with
  | none => none_ fINVALID
  | some g =>
    if tokenCtx k ≠ ctx || g.next ≤ tokenSeq k || tokenSeq k = 0 then none_ fINVALID
    else if tokenSeq k + 1024 < g.next then none_ fEXPIRED
    else (g.ring.find? (·.seq = tokenSeq k)).getD (none_ fEXPIRED)

/-- The job of a token has completed (R237). -/
def State.completed (s : State) (ctx : Nat) (k : U64) : Bool := (s.jobStat ctx k).state ≠ fPENDING

/-- A job's ring entry takes a final state; the h registers that name it become full (08 R148). -/
def State.completeJob (s : State) (src seq state count detail : Nat) : State :=
  let s := s.onEngine src fun g => { g with ring := g.ring.map fun j =>
    if j.seq = seq then { j with state := state, count := count, detail := detail } else j }
  let full (t : Team) : Team := { t with regs := { t.regs with
    hEmpty := t.regs.hEmpty.filter fun n => !(tokenSrc (t.regs.getH n) = src && tokenSeq (t.regs.getH n) = seq) } }
  { s with teams := s.teams.map fun p => (p.1, full p.2) }

/-- The ring allows a further job: the entry it overwrites has completed (13 R236). -/
def Engine.room (g : Engine) : Bool :=
  !g.ring.any fun j => j.state = fPENDING && j.seq + 1024 ≤ g.next

/-- Posts a job: its sequence number and the engine with its entry. -/
def Engine.post (g : Engine) (ctx : Nat) (state detail : Nat) (walk : Bool) : Nat × Engine :=
  (g.next, { next := g.next + 1
             ring := (g.ring.filter fun j => g.next < j.seq + 1024) ++
               [{ seq := g.next, ctx := ctx, state := state, count := 0, detail := detail,
                  counters := if walk then some (List.replicate 8 0) else none }] })

/-! ## Upcalls' returns (14 R258, R264) -/

/-- Asks an engine to go on with a walk. -/
def State.kickWalk (s : State) (q rte : Nat) : State :=
  if s.expects (· == .operandRequest q rte) then s else s.soon (.operandRequest q rte)

/-- Hands a return to the walk that waits for it; the engine takes it up (14 R249, R258). -/
def State.giveReturn (s : State) (g : Grant) (r : Return) : State :=
  (s.onMwe g.quad fun m => { m with walks := m.walks.map fun p =>
    if p.1 = g.rte && p.2.upcalls.any (·.id = g.upcall) then
      (p.1, { p.2 with returns := p.2.returns ++ [(g.upcall, r)] }) else p }).kickWalk g.quad g.rte

/-! ## Kills (18 R312, 19 R336, 16 R297) -/

/-- A kill record's 32 bytes (18 R312). -/
def killRecord (pc : U64) (gts src ctx cls group : Nat) (team : U32) (mask : GMask) : FaultRec :=
  leBytes 8 pc.toNat ++ leBytes 8 gts ++ leBytes 2 src ++ leBytes 2 ctx ++ leBytes 1 4 ++ leBytes 1 cls ++
  leBytes 1 group ++ leBytes 1 0 ++ leBytes 4 team.toNat ++ leBytes 4 mask.toNat

/-- Removes lanes of a team from the operand log (08 R145). -/
def State.unlog (s : State) (t : Team) (m : Mask) : State :=
  let strip (x : LogEntry) : LogEntry :=
    if x.uid = t.uid then { x with lanes := x.lanes.filter fun l => !Mask.has m l.lane
                                   gather := x.gather.filter fun l => !Mask.has m l.1 } else x
  s.onCore t.core fun c => { c with oplog := (c.oplog.map strip).filter fun x => !x.lanes.isEmpty }

/-- The kite of a team ends (09 R172). -/
def State.endKites (s : State) (uid : Nat) : State :=
  { s with teams := s.teams.filter fun p => !(p.2.kind = .kite && p.2.kiteOf = uid) }

/-- Marks a team's barriers and cluster barrier ABANDONED; splits blocked in them leave BLOCKED to trap BARABANDON at
that instruction (16 R297, R298). -/
def State.abandon (s : State) (t : Team) : State :=
  let doom (n : Nat) (x : Split) : Split := { x with state := .wait, waiting := .doomed cBARABANDON n }
  let unblock (named : Bool) (x : Split) : Split :=
    match x.state, x.waiting with
    | .blocked, .bar n _ => if named then doom n x else x
    | .blocked, .cbar _ => doom 0 x
    | _, _ => x
  let free (t : Team) (named : Bool) : Team :=
    { t with splits := t.splits.map (unblock named)
             saved := t.saved.map fun v => { v with splits := v.splits.map (unblock false) } }
  let bars (t : Team) : NMap Barrier := t.barriers.map fun b => (b.1, { b.2 with abandoned := true })
  let s := s.onTeam t.uid fun t =>
    free { t with barriers := bars t, cbar := { t.cbar with abandoned := true } } true
  match s.grid? t.grid with
  | some g =>
    if t.kind = .grid && 1 < g.image.clw * g.image.clh then
      let c := t.cluster.toNat
      let b := NMap.get g.cbars c { arrived := [], phase := 0, abandoned := false }
      let s := s.setGrid { g with cbars := NMap.insert g.cbars c { b with abandoned := true } }
      { s with teams := s.teams.map fun p =>
          if p.2.grid = t.grid && p.2.kind = .grid && p.2.cluster = t.cluster then (p.1, free p.2 false) else p }
    else s
  | none => s

/-- The lanes of a split that have its instruction still to perform. -/
def Split.due (x : Split) : Mask := x.mask &&& ~~~x.did

/-- The split of a trap has no group left in TRAP: its held passes issue, or it moves past the instruction
(18 R310, R315). -/
def State.leaveTrap (s : State) (uid e : Nat) : State :=
  match s.team? uid with
  | none => s
  | some t =>
    let x := t.split e
    if x.state ≠ .trap || t.traps.any (fun g => g.2.split = e && !g.2.debug) then s
    else if x.due = 0 then s.pastIt uid e
    else s.onSplit uid e fun x => { x with state := .ready, waiting := .retry }

/-- A wait at a barrier is over for a split that is in it: it moves past the instruction, or performs it `again`. A saved split does so at its
restore. -/
def State.openWait (s : State) (uid : Nat) (ends : Waiting → Option Bool) : State :=
  match s.team? uid with
  | none => s
  | some t =>
    let hit (x : Split) : Option Bool := if x.state = .blocked then ends x.waiting else none
    let open_ (x : Split) : Split := match hit x with
      | some true => { x with state := .ready, waiting := .retry }
      | some false => { x with state := .ready, waiting := .retry, did := x.mask }
      | none => x
    let s := s.setTeam { t with saved := t.saved.map fun v => { v with splits := v.splits.map open_ } }
    t.entries.foldl (fun s e => match hit (t.split e) with
      | some true => s.onSplit uid e fun x => { x with state := .ready, waiting := .retry }
      | some false => s.pastIt uid e
      | none => s) s

/-- Kills one group of a team that is no trap handler (18 R312): its lanes leave every split, record and log entry; barriers are abandoned; an upcall it
served fails; the kill record is written. -/
def State.killPlain (s : State) (uid g cls : Nat) : State :=
  match s.team? uid with
  | none => s
  | some t =>
    let m := Mask.ofWord g (Mask.word t.live g)
    if m = 0 then s
    else if t.kind = .kite then s.dropTeam uid
    else
      let holder := t.entries.find? fun e => (t.split e).mask &&& m ≠ 0
      let pc := match holder with
        | some e => (t.split e).pc
        | none => ((t.frontier.find? fun r => r.mask &&& m ≠ 0).map (·.pc)).getD 0
      let s := s.unlog t m
      let s := s.endKites uid
      let t' := { t.removeLanes m with
        traps := NMap.erase t.traps g, stops := t.stops.filter (·.1 ≠ g), killed := t.killed ||| GMask.one g,
        grant := t.grant.map fun x => { x with live := x.live && t.returned } }
      let s := s.setTeam t'
      let s := match t.grant with
        | some x => if x.live && !t.returned then s.giveReturn x .killed else s
        | none => s
      let s := s.abandon t'
      let s := t'.entries.foldl (fun s e => s.leaveTrap uid e) s
      let s := s.retryHeld uid
      (s.ringWrite t.ctx (killRecord pc s.gts (srcCore t.core) t.ctx cls g t.team (Mask.word m g))).settleTeam uid

/-! ## Taking a trap (18 R310, R311) -/

/-- The frames of a core in use. -/
def State.frames (s : State) (core : Nat) : List Nat :=
  (s.allTeams.filter fun t => t.kind = .trapHandler && t.core = core).map (·.frame)

/-- The lowest free trap frame of a core. -/
def State.freeFrame (s : State) (core : Nat) : Option Nat :=
  (List.range 8).find? fun k => !(s.frames core).contains k

/-- Word `n` of a group's trap record (18 R310). -/
def trapWord (t : Team) (img : U64) (g : Nat) (x : GTrap) : Nat → U64
  | 0 => .ofNat 64 (x.cls + g * 2 ^ 8 + x.split * 2 ^ 16 + t.ctx * 2 ^ 32)
  | 1 => .ofNat 64 (x.mask.toNat + x.detail % 2 ^ 32 * 2 ^ 32)
  | 2 => x.pc
  | 3 => x.ea
  | 4 => .ofNat 64 t.team.toNat
  | 5 => img
  | 6 => .ofNat 64 x.gts
  | _ => 0

/-- The empty cluster barrier of a team that shares none. -/
def CBar.none_ : CBar := { arrived := [], phase := 0, abandoned := false }

/-- Starts the trap handler group that serves group `g` of a team, in a frame (18 R310). -/
def State.startHandler (s : State) (t : Team) (g frame : Nat) (img : Image) (targ : U64) (x : GTrap) : State :=
  let (uid, s) := s.fresh
  let regs := (List.range 8).foldl (fun r n => r.setS n (trapWord t t.image g x n) false) ({} : Regs)
  let h : Team := {
    uid := uid, kind := .trapHandler, grid := t.grid, ctx := t.ctx, team := t.team, cluster := t.cluster,
    cpos := t.cpos, core := t.core, slots := [64 + frame], lanes := 32, vregs := img.vregs, sregs := img.sregs,
    argp := targ, image := img.base, codeOff := img.codeOff, codeSz := img.codeSz, spCount := 0,
    window := t.window, regs := regs, mode := .trap, prio := t.prio, crit := 0,
    splits := ({ state := .ready, pc := img.base + .ofNat 64 img.entry, age := s.gts, mask := Mask.below 32 } : Split) ::
      List.replicate 15 {},
    frontier := [], ovf := false, hold := false, lastIssue := 0, barriers := [], cbar := .none_,
    debug := 0, attach := 0, traps := [], killed := 0, serves := some (t.uid, g), frame := frame, stashes := [],
    grant := none, returned := false, reserve := false, started := true, savedLanes := 0, saved := none, out := .in_,
    kiteOf := 0, kiteStop := 0, born := s.time, shedAt := none, critOver := false, backstop := false, notify := none,
    retired := false }
  let s := s.setTeam h
  s.onTeam t.uid fun t => { t with traps := NMap.insert t.traps g { x with handler := some uid } }

/-- The team and group that next takes a frame of a core: earliest trap GTS, then lower group slot (18 R310). -/
def State.nextTrap (s : State) (core : Nat) : Option (Team × Nat × GTrap) :=
  let all := (s.allTeams.filter (·.core = core)).flatMap fun t =>
    (t.traps.filter fun p => p.2.handler.isNone).map fun p => (t, p.1, p.2)
  all.foldl (fun b x => match b with
    | none => some x
    | some y =>
      let k (z : Team × Nat × GTrap) := z.1.slots.getD z.2.1 0
      if x.2.2.gts < y.2.2.gts || (x.2.2.gts = y.2.2.gts && k x < k y) then some x else b) none

/-- Grants a free frame to the group that is next, if there are both (18 R310). -/
def State.grantFrame (s : State) (core : Nat) : State :=
  match s.freeFrame core, s.nextTrap core with
  | some f, some (t, g, x) =>
    match (s.ctx? t.ctx).bind fun c => c.trapImage.map fun i => (i, c.targ) with
    | some (img, targ) => s.startHandler t g f img targ x
    | none => s
  | _, _ => s

/-- A handler ends and frees its frame; a group it served that is still in TRAP is killed with its class, and one in DEBUG too
if the handler itself `fails` (18 R311, R316). -/
def State.endHandler (s : State) (h : Team) (fails : Bool) : State :=
  let s := (s.unlog h h.live).dropTeam h.uid
  let s := match h.serves with
    | some (uid, g) =>
      match (s.team? uid).bind fun t => NMap.find? t.traps g with
      | some x =>
        if x.handler = some h.uid && (fails || !x.debug) then s.killPlain uid g x.cls
        else s
      | none => s
    | none => s
  (s.settleGrid h.grid).soon (.trapFrameGrant h.core)

/-- Kills a group (18 R312). A trap handler group that raises a kill class ends as by TRET instead, and the group it
served is killed with its own class (18 R311). -/
def State.killGroup (s : State) (uid g cls : Nat) : State :=
  match s.team? uid with
  | none => s
  | some t => if t.kind = .trapHandler then s.endHandler t true else s.killPlain uid g cls

/-- Kills the groups of a set. -/
def State.killGroups (s : State) (uid : Nat) (gs : List Nat) (cls : Nat) : State :=
  gs.foldl (fun s g => s.killGroup uid g cls) s

/-- Kills a whole team with one record, GROUP 0xFF and MASK 0 (18 R312); saved lanes of a team that is not out die with it
(R326), and a trap handler ends. -/
def State.killTeam (s : State) (uid cls : Nat) : State :=
  match s.team? uid with
  | none => s
  | some t =>
    if t.kind = .trapHandler then s.endHandler t true
    else if t.live = 0 then s
    else
      let pc := match t.entries with
        | e :: _ => (t.split e).pc
        | [] => 0
      let s := (s.unlog t t.live).endKites uid
      let grant := t.grant.map fun (x : Grant) => { x with live := x.live && t.returned }
      let t' : Team := { t with splits := t.splits.map fun _ => {}, traps := [], stops := [], frontier := [], grant := grant,
                                savedLanes := 0, saved := none }
      let s := match t.saved with
        | some v => s.onCtx t.ctx fun x => { x with blocks := NSet.remove x.blocks v.block }
        | none => s
      let s := s.setTeam t'
      let s := match t.grant with
        | some x => if x.live && !t.returned then s.giveReturn x .killed else s
        | none => s
      let s := s.abandon t'
      (s.ringWrite t.ctx (killRecord pc s.gts (srcCore t.core) t.ctx cls 0xFF t.team 0)).settleTeam uid

/-- One group's share of a trap. -/
structure TrapOf where
  group : Nat
  cls : Nat
  mask : GMask
  detail : Nat := 0
  ea : U64 := 0
  deriving DecidableEq, Repr

/-- The lanes for which the passes being performed act: those that have the instruction still to perform, or a replayed group's. -/
def Cur.lanes (c : Cur) (t : Team) : Mask :=
  let x := t.split c.e
  Mask.inGroups (if c.replay.isSome then x.mask else x.due) c.groups

/-- All lanes of the split that have the instruction still to perform, or a replayed group's. -/
def Cur.due (c : Cur) (t : Team) : Mask := if c.replay.isSome then c.lanes t else (t.split c.e).due

/-- The passes of groups have gone by: the instruction is performed for them, or counts so. -/
def State.pass (s : State) (c : Cur) (gs : GMask) : State :=
  if c.replay.isSome then s
  else s.onSplit c.uid c.e fun x =>
    { x with did := x.did ||| Mask.inGroups x.mask gs, passed := x.passed ||| gs, word := some c.word }

/-- Groups trap at the instruction being performed, and the passes of the split's other groups that it has still to perform are held
(18 R310, R311, R315):

- a kite ends (09 R171);
- a trap handler group ends as by TRET, and the group it served is killed with its own class;
- a group that is in TRAP or DEBUG already, with another split, waits with this one until it has left (DEDUCED, log 23);
- under REPLAY the group keeps its handler and takes the new record;
- with TIMG 0 the groups are killed with the class, and the held passes issue;
- else the groups enter TRAP, the split state TRAP, and free frames start their handlers. -/
def State.trapGroups (s : State) (c : Cur) (ts : List TrapOf) : State :=
  match s.team? c.uid with
  | none => s
  | some t =>
    if t.kind = .kite then s.dropTeam c.uid
    else if t.kind = .trapHandler then
      s.endHandler t true
    else
      let s := s.endKites c.uid
      let mk (x : TrapOf) (h : Option Nat) : GTrap :=
        { cls := x.cls, mask := x.mask, detail := x.detail, pc := c.pc, ea := x.ea, gts := s.gts, word := c.word,
          rpc := c.pc + 12, split := c.e, debug := false, handler := h }
      match c.replay with
      | some (_, huid, he) =>
        let s := s.onTeam c.uid fun t => { t with traps := ts.foldl (fun m x =>
          NMap.insert m x.group (mk x ((NMap.find? m x.group).bind (·.handler)))) t.traps }
        match s.team? huid with
        | some _ => s.pastIt huid he
        | none => s
      | none =>
        let mine := ts.foldl (fun a x => a ||| GMask.one x.group) 0
        let stop (st : SplitState) (x : Split) : Split :=
          { x with state := st, waiting := .retry, passed := 0, word := some c.word,
                   did := x.did ||| Mask.inGroups x.mask mine }
        if ts.any fun x => (NMap.find? t.traps x.group).isSome then
          s.onSplit c.uid c.e fun x => { x with state := .wait, waiting := .retry }
        else if !s.hasHandler t.ctx then
          let s := s.onSplit c.uid c.e (stop .wait)
          let s := ts.foldl (fun s x => s.killGroup c.uid x.group x.cls) s
          let stands (t : Team) : Bool := (t.split c.e).state = .wait && (t.split c.e).pc = c.pc
          if (s.team? c.uid).any stands then (s.onSplit c.uid c.e fun x => { x with state := .trap }).leaveTrap c.uid c.e
          else s
        else
          let s := s.onTeam c.uid fun t =>
            { t.onSplit c.e (stop .trap) with traps := ts.foldl (fun m x => NMap.insert m x.group (mk x none)) t.traps }
          ts.foldl (fun s _ => s.grantFrame t.core) s

/-- The groups of a set of lanes trap with one class and effective address (02 R32, 09 R166). -/
def State.trapMask (s : State) (c : Cur) (m : Mask) (cls : Nat) (ea : U64 := 0) (detail : Nat := 0) : State :=
  s.trapGroups c ((GMask.list (Mask.groups m)).map fun g =>
    { group := g, cls := cls, mask := Mask.word m g, detail := detail, ea := ea })

/-- A trap of every group in which the split has lanes that the instruction concerns. -/
def State.trapAll (s : State) (c : Cur) (t : Team) (cls : Nat) (detail : Nat := 0) : State :=
  s.trapMask c (c.due t) cls 0 detail

/-- A trap of the lowest lane of the split alone, as scalar memory accesses take it; the split's other groups have no pass to hold
(09 R166, 13 R227). -/
def State.trapLowest (s : State) (c : Cur) (t : Team) (cls : Nat) (ea : U64) (detail : Nat := 0) : State :=
  match Mask.lowest (c.lanes t) with
  | some l => (s.pass c (.allOnes 32)).trapMask c (Mask.one l) cls ea detail
  | none => s

/-- Group `g` leaves TRAP with its trapped instruction performed (18 R315): on at the next instruction with its split,
or as a subset of its own at its resume PC; none when there is no room for the subset. -/
def State.resumeGroup (s : State) (uid g : Nat) : Option State :=
  match s.team? uid with
  | none => some s
  | some t =>
    match NMap.find? t.traps g with
    | none => some s
    | some x =>
      let sp := t.split x.split
      let gone := { t with traps := NMap.erase t.traps g }
      let mine := Mask.ofWord g (Mask.word sp.mask g)
      if x.rpc = x.pc + 12 then some ((s.setTeam gone).leaveTrap uid x.split)
      else if sp.mask = mine then some ((s.setTeam gone).moveTo uid x.split x.rpc)
      else
        let t' := gone.onSplit x.split fun y => { y with mask := y.mask &&& ~~~mine }
        match t'.placeSubsets s.gts [(x.rpc, mine)] with
        | none => none
        | some t'' =>
          let fresh := t''.entries.filter fun k => (t.split k).state = .free
          some (((fresh.foldl (fun s k => s.arrive uid k) (s.setTeam t'')).restStall uid).leaveTrap uid x.split)

/-! ## Ending an instruction -/

/-- The instruction has no more to do for the split at this time: it waits for something. A kite ends instead, and a replayed group stays
in TRAP while its handler waits (09 R171, 18 R315). -/
def State.wait (s : State) (c : Cur) (st : SplitState) (w : Waiting) : State :=
  match s.team? c.uid with
  | none => s
  | some t =>
    if t.kind = .kite then s.dropTeam c.uid
    else match c.replay with
      | some (g, _, _) => s.onTeam c.uid fun t =>
          { t with traps := t.traps.map fun p => if p.1 = g then (p.1, { p.2 with pend := some w }) else p }
      | none => s.onSplit c.uid c.e fun x => { x with state := st, waiting := w, word := some c.word }

/-- A replayed group has performed its instruction: it goes on as RESUME would have it, and its handler with it; or it waits for room,
and its handler waits (18 R315). -/
def State.endReplay (s : State) (c : Cur) : State :=
  match c.replay with
  | none => s
  | some (g, huid, he) =>
    match s.resumeGroup c.uid g with
    | none => s.onTeam c.uid fun t =>
        { t with traps := t.traps.map fun p => if p.1 = g then (p.1, { p.2 with replayed := true, pend := none }) else p }
    | some s =>
      let s := s.settleTeam c.uid
      match s.team? huid with
      | some _ => s.pastIt huid he
      | none => s

/-- The passes of the groups asked for are over: once the instruction is performed for every lane of the split, it moves past it
(18 R315 for a replayed group). -/
def State.finish (s : State) (c : Cur) : State :=
  match c.replay with
  | some _ => s.endReplay c
  | none =>
    match s.team? c.uid with
    | none => s
    | some t =>
      let x := t.split c.e
      if x.state = .free || x.mask &&& c.mask = 0 then s
      else if x.due &&& ~~~ Mask.inGroups x.mask c.groups = 0 then s.goOn c.uid c.e c.word
      else s.pass c c.groups

/-- The instruction is over for every lane of the split, those of later passes too. -/
def State.finishAll (s : State) (c : Cur) : State := s.finish { c with groups := if c.replay.isSome then c.groups else .allOnes 32 }

/-- Removes lanes that have exited; in save mode they are saved rather than exited (10 R200, 18 R323). -/
def State.exitLanes (s : State) (uid : Nat) (m : Mask) : State :=
  (s.onTeam uid fun t =>
    let t := if t.mode = .save then { t with savedLanes := t.savedLanes ||| m } else t
    t.removeLanes m).retryHeld uid |>.settleTeam uid

/-! ## What an instruction sees -/

/-- The instructions that trap ILLOP in trap mode and in save and restore routines, SAFEPT in trap mode alone
(18 R311, R323). -/
def modeBan (m : Mode) (i : Instr) : Bool :=
  match i with
  | .safept _ => m == .trap
  | .walk _ | .bcopy _ | .btile _ | .bmcast _ | .bfill _ | .bgather _ | .amsg _ | .cont _ | .emit _ | .barInit _
  | .barArrive _ | .barWait _ | .barSync _ | .barx _ | .cbar _ | .critEnter _ | .critExit _ | .hreg _ | .hunreg _
  | .hret _ | .hretf _ | .hfail _ | .regroup _ => m == .trap || m == .save || m == .restore
  | _ => false

/-- The decoder's privilege check (02 R30, R32, 18 R319). -/
def mayRun (m : Mode) (i : Instr) : Bool :=
  match i with
  | .tret _ => m == .trap
  | .inspect _ | .alter _ | .resume _ | .kill _ | .replay _ | .tlbinvCtx _ | .tlbinvVa _ => m == .trap || m == .supervisor
  | .accspill _ | .accfill _ | .scanrun _ | .tlbinvAll _ => m == .supervisor
  | .cwr f => f.imm.toNat != 3 || m == .supervisor
  | .cww f => if f.imm.toNat = 3 then m == .supervisor else m == .trap || m == .supervisor
  | _ => true

/-- An operand a kite may name: its private registers, predicates, the immediate, uniform special registers (09 R171). -/
def kiteOpnd : Opnd → Bool
  | .h _ => false
  | .sp r => match r with
    | .lane | .group | .tlane | .origlane | .poison => false
    | _ => true
  | _ => true

/-- The instructions a kite may issue (09 R171). -/
def kiteMay (i : Instr) (f : Fields) : Bool :=
  match i with
  | .pref _ => true
  | _ => ((i.opc?.getD 0x1FF) < 0x080 ||
      (match i with | .mov _ | .movi _ | .movhi _ | .prmt _ => true | _ => false)) &&
    kiteOpnd f.dst && kiteOpnd f.sa && kiteOpnd f.sb

/-! ## What the operand log holds (08 R142, R143) -/

/-- Entries of an operand log. -/
def logSize : Nat := 32
/-- Every entry of the core's operand log is in use. -/
def State.logFull (s : State) (core : Nat) : Bool := logSize ≤ (s.core core).oplog.length

/-- The split has a lane in an operand log entry (08 R142). -/
def State.splitParked (s : State) (t : Team) (e : Nat) : Bool := s.loggedLanes t &&& (t.split e).mask ≠ 0

/-- The split's accesses come after those of an operand log entry: it has a lane in it, or has divided from or merged with the split that
has (08 R142, 15 R280). -/
def State.splitLogged (s : State) (t : Team) (e : Nat) : Bool :=
  s.splitParked t e || (s.core t.core).oplog.any fun x => x.uid = t.uid && NMap.get t.logAfter x.id 0 &&& (t.split e).mask ≠ 0

/-- The instruction is held behind the accesses of its split that the operand log holds (08 R142, 18 R328). -/
def heldByLog : Instr → Bool
  | .ld _ | .st _ | .lds _ | .sts _ | .ldk _ | .atom _ | .atoms _ | .red _ | .pref _ | .cctl _ | .ldToken _ | .stToken _ | .stash _
  | .unstash _ | .stashwb _ | .iflush _ | .bcopy _ | .btile _ | .bmcast _ | .bfill _ | .bgather _ | .waitmon _ | .walk _ | .amsg _
  | .cont _ | .emit _ | .accspill _ | .accfill _ | .rdts _ => true
  | _ => false

/-- The instruction is held while a lane of its split is in an operand log entry (08 R142, 10 R200, R201, 16 R305). -/
def heldByLanes : Instr → Bool
  | .exit _ | .safept _ | .fenceIo _ | .fencePool _ | .hret _ | .hretf _ | .hfail _ => true
  | _ => false

/-- The instruction may need an operand log entry (08 R143). -/
def needsLog : Instr → Bool
  | .ld _ | .st _ | .atom _ | .red _ | .pref _ | .cctl _ | .ldToken _ | .stToken _ | .stash _ | .bcopy _ | .btile _ | .bmcast _
  | .bfill _ | .bgather _ | .waitmon _ | .walk _ | .accspill _ | .accfill _ => true
  | _ => false

/-- The operand log holds an instruction of a split. -/
def State.logHolds (s : State) (t : Team) (e : Nat) (i : Instr) : Bool :=
  (heldByLog i && s.splitLogged t e) || (heldByLanes i && s.splitParked t e) || (needsLog i && s.logFull t.core)

/-- Runs the meaning of an instruction for the split that issues it. Before it, and whatever the guard: a register outside
the team's allocation, or an instruction the mode bans, traps ILLOP, and one above the mode's privilege PRIV (02 R22, R30,
R32, 18 R311); an instruction that the operand log holds waits (08 R142, R143). A kite ends at an instruction it may not issue
(09 R172). -/
def issue (i : Instr) (f : Fields) (s : State) (body : Cur → Team → State) :
    Host.Outcome State Fault Refusal :=
  match s.cur with
  | none => .fault .noIssuingSplit
  | some c =>
    match s.team? c.uid with
    | none => .fault .noIssuingSplit
    | some t =>
      if t.kind = .kite && !kiteMay i f then .next (s.dropTeam c.uid)
      else if !t.holdsAll i f || modeBan t.mode i then .next (s.trapAll c t cILLOP)
      else if !mayRun t.mode i then .next (s.trapAll c t cPRIV)
      else if s.logHolds t c.e i then .next (s.wait c .wait .log)
      else .next (body c t)

/-- The lowest lane of the issuing split (09 R166). -/
def Cur.low (c : Cur) (t : Team) : Nat := (Mask.lowest (c.lanes t)).getD 0

/-- `$poison` of the lanes for which an instruction has read registers, none of them poisoned (19 R334). -/
def Team.readClean (t : Team) (f : Fields) (m : Mask) : Team :=
  if f.grd ≠ .always || opndIsReg f.sa || opndIsReg f.sb then { t with regs := t.regs.setFlag m 0 } else t

/-- `$poison` of the lanes whose guard an instruction has read and does not consume (19 R334). -/
def Team.readGuard (t : Team) (g : Guard) (m : Mask) : Team :=
  if g = .always then t else { t with regs := t.regs.setFlag m (t.guardPoison g m) }

/-- Ends an instruction whose sources, if it read any, carried no poison. -/
def State.finishRead (s : State) (c : Cur) (f : Fields) : State :=
  (s.onTeam c.uid fun t => t.readClean f (c.lanes t)).finish c

/-- A trap in each group that has an offending lane, before any lane changes, with each group's effective address that of
its lowest offending lane; the other groups' passes are held (10 R195, R198). -/
def State.trapLanes (s : State) (c : Cur) (cls : Nat) (bad : List Nat) (ea : Nat → U64) : State :=
  let m := Mask.ofList bad
  s.trapGroups c ((GMask.list (Mask.groups m)).map fun g =>
    { group := g, cls := cls, mask := Mask.word m g, ea := ea ((Mask.lowest (Mask.ofWord g (Mask.word m g))).getD 0) })

/-- Kills the groups in which a guard bit is poisoned in a lane being performed, and goes on with the rest (19 R334, R336). -/
def State.eatGuard (s : State) (c : Cur) (t : Team) (g : Guard) (body : State → Team → State) : State :=
  let bad := Mask.groups (t.guardPoison g (c.lanes t))
  if bad = 0 then body s t
  else
    let s := s.killGroups c.uid (GMask.list bad) cPOISON
    match s.team? c.uid with
    | some t' => if c.lanes t' &&& c.mask = 0 then s.finish c else body s t'
    | none => s

/-- The registers a pass sees: those of its team, as they stood before the pass when another split shares it
(09 R161, 10 R191). -/
def State.seen (s : State) (t : Team) : Team :=
  match s.shadow with
  | some (uid, r) => if uid = t.uid then { t with regs := r } else t
  | none => t

/-- The gates of the lanes `m` that a pass instruction has still to perform, before a pass of it (02 R25, 08 R149): it waits while
one of them blocks, or `also`; the first group with an empty source whose FE bit is set traps, with none of its lanes affected (DEDUCED,
log 35). What the first split's share of the same pass has just emptied is not empty to the split that shares it (09 R161). -/
def State.gated (s : State) (c : Cur) (t : Team) (gate : Team → Nat → Gate) (m : Mask) (also : Bool) (body : State) : State :=
  let gs := GMask.list (Mask.groups m)
  match (firstGate (gate t) gs).bind fun _ => firstGate (gate (s.seen t)) gs with
  | some (g, .trap d) => s.trapGroups c [{ group := g, cls := cEMPTYRD, mask := Mask.word m g, detail := d }]
  | some _ => s.wait c .wait .regs
  | none => if also then s.wait c .wait .regs else body

/-- PREF, which a kite drops where it would read poison (09 R171). -/
def pref : Instr → Bool
  | .pref _ => true
  | _ => false

/-- The instruction consumes a poisoned guard of its lowest lane (19 R334): it is a control transfer, a memory instruction or of the
UNI class. -/
def eatsGuard (i : Instr) : Bool :=
  match i with
  | .regroup _ | .safept _ | .critEnter _ | .critExit _ => false
  | _ => true

/-- A uniform instruction consumes poison: every group with a live lane of the split is killed (19 R336). -/
def State.consume (s : State) (c : Cur) (t : Team) : State :=
  (s.killGroups c.uid (GMask.list (Mask.groups (t.split c.e).mask)) cPOISON).finish c

/-- A uniform instruction or scalar form (09 R166): the guard is read in the split's lowest lane; poisoned, it is
consumed and every group of the split is killed (19 R334, R336), unless the instruction is none of those that consume it, or a kite's
PREF. -/
def uniform (i : Instr) (f : Fields) (s : State) (body : Cur → Team → Nat → State) :
    Host.Outcome State Fault Refusal :=
  issue i f s fun c t =>
    let l := c.low t
    if t.guardBad f.grd l && eatsGuard i then
      if t.kind = .kite && pref i then s.finish c else s.consume c t
    else if t.guard f.grd l then body c t l
    else
      let m := c.lanes t
      (s.setTeam { t with regs := t.regs.setFlag m (if t.guardBad f.grd l then m else 0) }).finish c

/-- `$poison` of every lane of a uniform instruction's split, from what its lowest lane and its operands have read (DEDUCED, log 20). -/
def Team.flagAll (t : Team) (f : Fields) (m : Mask) (bad : Bool) : Team :=
  if f.grd ≠ .always || opndIsReg f.sa || opndIsReg f.sb then { t with regs := t.regs.setFlag m (if bad then m else 0) } else t

/-- Ends a uniform instruction whose sources or guard carried the poison `bad`. -/
def State.finishFlag (s : State) (c : Cur) (f : Fields) (bad : Bool) : State :=
  (s.onTeam c.uid fun t => t.flagAll f (c.lanes t) bad).finish c

end Sys2Proof.Machine
end

