-- ==== Sys2Proof/Machine/Exec.lean ====
section
/-!
DEFINITION. Performing an instruction lane by lane in passes, or once as a scalar form: gates, guards, poison, `$poison`
and long-latency results, once for every instruction of that shape (09 R152, R166, 10 R173, R176, 19 R334).
-/
namespace Sys2Proof.Machine

/-- What one lane writes: the value of its destination, the poison, and a carry predicate (10 R178). -/
structure LaneOut where
  val : Nat
  bad : Bool
  pred : Option (Nat × Bool) := none
  deriving DecidableEq, Repr

/-- Writes a lane's destination (02 R20, R22). -/
def Regs.put (r : Regs) (dst : Opnd) (k lane : Nat) (x : LaneOut) : Regs :=
  let r := match dst with
    | .v n => r.setVs lane n.toNat x.bad k x.val
    | .p n => r.setP lane n.toNat (x.val % 2 = 1) x.bad
    | _ => r
  match x.pred with
  | some (n, b) => r.setP lane n b x.bad
  | none => r
def Team.putLane (t : Team) (dst : Opnd) (k lane : Nat) (x : LaneOut) : Team :=
  { t with regs := t.regs.put dst k lane x }

/-- A lane whose guard is false but poisoned: the poison of what the instruction would write there rises (19 R334). -/
def Regs.taint (r : Regs) (dst : Opnd) (k lane : Nat) (pred : Option Nat) : Regs :=
  let r := match dst with
    | .v n => r.setVs lane n.toNat true k (r.getVs lane n.toNat k)
    | .p n => r.setP lane n.toNat (r.getP lane n.toNat) true
    | _ => r
  match pred with
  | some n => r.setP lane n (r.getP lane n) true
  | none => r
def Team.taintLane (t : Team) (dst : Opnd) (k lane : Nat) (pred : Option Nat) : Team :=
  { t with regs := t.regs.taint dst k lane pred }

/-- The registers of a destination, in the groups of a list: their keys among the results on their way. -/
def pendingKeys (dst : Opnd) (k : Nat) (groups : List Nat) : List Nat :=
  match dst with
  | .v n => groups.flatMap fun g => (List.range k).map fun j => eKey g (n.toNat + j)
  | .s n => (List.range (sCount k)).map fun j => 2 ^ 16 + n.toNat + j
  | _ => []

/-- Marks a register empty by such a key. -/
def Regs.markKey (r : Regs) (key : Nat) (empty : Bool) : Regs :=
  if key < 2 ^ 16 then { r with vEmpty := NSet.put r.vEmpty key empty }
  else { r with sEmpty := NSet.put r.sEmpty (key - 2 ^ 16) empty }

/-- Marks a destination empty until a result is written, in each of the groups of a pass (08 R148, 10 R176). The results of the
instruction's earlier passes come no sooner, for latencies count from the last pass. A kite's copies keep the bits they had (09 R171). -/
def State.markPending (s : State) (uid : Nat) (dst : Opnd) (k : Nat) (groups : List Nat) (due : Nat)
    (pool : GMask := 0) (earlier : List Nat := []) : State :=
  match s.team? uid with
  | none => s
  | some t =>
    let keys := pendingKeys dst k groups
    let old := pendingKeys dst k earlier
    if t.kind = .kite || (keys.isEmpty && old.isEmpty) then s
    else
      (s.setTeam { t with regs := keys.foldl (fun r n => r.markKey n true) t.regs }).onCore t.core fun c =>
        { c with pending := (c.pending.map fun p =>
            if p.uid = uid && old.contains p.reg then { p with due := Nat.max p.due due } else p) ++
          keys.map fun n => { uid := uid, reg := n, due := due, pool := pool } }

/-- The registers that an operand log entry has still to write. -/
def LogEntry.owes (x : LogEntry) : List Nat :=
  match decode x.word with
  | .ok i => match i.fields? with
    | some f => pendingKeys f.dst i.widths.1 (distinct (x.lanes.map (·.lane / 32)))
    | none => []
  | .error _ => []

/-- A result of another instruction is still to be written to a register: to that of a split which has shared a pass (09 R161). -/
def State.owed (s : State) (core uid key : Nat) : Bool :=
  let c := s.core core
  c.pending.any (fun p => p.uid = uid && p.reg = key) || c.oplog.any fun x => x.uid = uid && x.owes.contains key

/-- Marks registers full to which no other result is still to be written. -/
def State.markFull (s : State) (core uid : Nat) (keys : List Nat) : State :=
  s.onTeam uid fun t => { t with regs := (keys.filter fun k => !s.owed core uid k).foldl (fun r k => r.markKey k false) t.regs }

/-- Latency in cycles of the long-latency instructions of 10 R176, for a split of so many group words; memory and status
instructions give theirs. -/
def longLatency (i : Instr) (f : Fields) (groups : Nat) : Option Nat :=
  let scalar := f.dst.isKind .s
  match i with
  | .frcp _ | .frsq _ | .fsqrt _ | .fexp2 _ | .flog2 _ | .fsin _ | .fcos _ => if scalar then none else some 20
  | .fdiv f => if scalar then none else some (if f.ty = .f64 then 36 else 20)
  | .div f | .rem f => some (if f.ty.words = 2 then 68 else 36)
  | .tshfl _ | .rdlane _ => some (12 + 2 * groups)
  | .vote g => if g.isp[2] then some (12 + 2 * groups) else none
  | .scan g => if g.isp[4] then some (12 + 2 * groups) else none
  | .reduce g => if g.isp[4] || scalar then some (12 + 2 * groups) else none
  | _ => none

/-- Writes the carry predicate of a scalar form in every lane of a mask (10 R178). -/
def Regs.setPs (r : Regs) (m : Mask) (bad : Bool) : Option (Nat × Bool) → Regs
  | some (n, b) => (Mask.list m).foldl (fun q k => q.setP k n b bad) r
  | none => r

/-- A scalar form (02 R33, 09 R166): once for the split. `from_` gives the groups whose registers its vector sources lie
in: none but RDLANE and REDUCE have vector sources. A carry predicate is written in every lane of the split. `$poison` of
every lane of the split follows (DEDUCED, log 20). -/
def scalarFrom (i : Instr) (f : Fields) (readsD : Bool) (from_ : Team → Mask → List Nat)
    (fn : Team → Mask → Rd → Nat → LaneOut) (s : State) : Host.Outcome State Fault Refusal :=
  uniform i f s fun c t l =>
    let w := i.widths
    let m := c.lanes t
    match t.gates (readsOf i f) [(f.dst, w.1)] (from_ t m) with
    | some (_, .trap d) => s.trapAll c t cEMPTYRD d
    | some _ => s.wait c .wait .regs
    | none =>
      let r : Rd := { gts := s.gts, e := c.e, i := i, f := f }
      let o := fn t m r l
      let regs := match f.dst with
        | .s n => t.regs.setSs n.toNat w.1 o.val o.bad
        | _ => t.regs
      let regs := regs.setPs m o.bad o.pred
      let read := opndIsReg f.sa || opndIsReg f.sb || readsD || f.grd ≠ .always
      let regs := if read then regs.setFlag m (if o.bad then m else 0) else regs
      let s := s.setTeam { t with regs := regs }
      let s := match longLatency i f (GMask.list (Mask.groups (t.split c.e).mask)).length with
        | some n => s.markPending c.uid f.dst w.1 [] (s.time + cycles n)
        | none => s
      s.finish c

/-- A scalar form: a per-lane special register among its sources is the split's lowest lane's (DESIGN CHOICE, log 71). -/
def scalarOp (i : Instr) (f : Fields) (readsD : Bool) (fn : Team → Rd → Nat → LaneOut) (s : State) :
    Host.Outcome State Fault Refusal :=
  scalarFrom i f readsD (fun _ m => [(Mask.lowest m).getD 0 / 32]) (fun t _ r l => fn t r l) s

/-- What a lane writes in a pass whose registers are `seen`, with the poison of its guard (10 R173, 19 R334). -/
def Team.laneOut (t seen : Team) (i : Instr) (f : Fields) (gts e : Nat) (fn : Team → Rd → Nat → LaneOut) (l : Nat) :
    LaneOut :=
  let x := fn seen { gts := gts, e := e, i := i, f := f } l
  { x with bad := x.bad || t.guardBad f.grd l }

/-- One pass of a vector form over group `g` (09 R152): every lane reads, from the registers `seen`, before any writes. -/
def Team.pass (t seen : Team) (i : Instr) (f : Fields) (gts e : Nat) (m : Mask) (readsD : Bool) (pred : Option Nat)
    (fn : Team → Rd → Nat → LaneOut) (g : Nat) : Team :=
  let k := i.widths.1
  let all := Mask.lanesOf m g
  let act := all.filter (t.guard f.grd)
  let outs := act.map fun l => (l, t.laneOut seen i f gts e fn l)
  let q := outs.foldl (fun q p => q.put f.dst k p.1 p.2) t.regs
  let q := (all.filter fun l => t.guardBad f.grd l && !t.guard f.grd l).foldl (fun q l => q.taint f.dst k l pred) q
  let read := opndIsReg f.sa || opndIsReg f.sb || readsD
  let reads := if f.grd ≠ .always then all else if read then act else []
  let bads := all.filter (t.guardBad f.grd) ++ (outs.filter (·.2.bad)).map (·.1)
  { t with regs := q.setFlag (Mask.ofList reads) (Mask.ofList bads) }

/-- How a vector form departs from the plain one. -/
structure VecForm where
  /-- the lanes it concerns, of the split's -/
  sel : Team → Mask → Mask := fun _ m => m
  /-- a group's gate, where its pass reads other groups' registers (10 R189) -/
  gate : Option (State → Team → Nat → Gate) := none

/-- The groups of a set in which an instruction's guard holds in a lane of a mask. -/
def Team.activeIn (t : Team) (g : Guard) (m : Mask) (gs : List Nat) : List Nat :=
  gs.filter fun k => (Mask.lanesOf m k).any (t.guard g)

/-- Marks the destination of a long-latency pass (10 R176). -/
def State.markLong (s : State) (c : Cur) (t : Team) (i : Instr) (f : Fields) (now : Mask) : State :=
  let x := t.split c.e
  match longLatency i f (GMask.list (Mask.groups x.mask)).length with
  | none => s
  | some n =>
    let later := (GMask.list (Mask.groups (c.due t &&& ~~~ c.lanes t))).length
    s.markPending c.uid f.dst i.widths.1 (t.activeIn f.grd now (GMask.list (Mask.groups now))) (s.time + cycles (n + later)) 0
      (t.activeIn f.grd x.mask (GMask.list x.passed))

/-- The vector form of an instruction: the passes being performed, in ascending group order, once the gates of all its passes let it
(R25). `fn` gives a lane's result from the team as the passes found it, the registers its pass sees, and the lanes concerned; `pred` is
the carry predicate. -/
def vectorForm (i : Instr) (f : Fields) (sh : VecForm) (readsD : Bool) (pred : Option Nat)
    (fn : Team → Mask → Team → Rd → Nat → LaneOut) (s : State) : Host.Outcome State Fault Refusal :=
  issue i f s fun c t =>
    let w := i.widths
    let due := sh.sel t (c.due t)
    let taints := (GMask.list (Mask.groups (t.guardPoison f.grd due))).any fun g => t.isEmpty w.1 g f.dst
    let gate (u : Team) (g : Nat) : Gate := match sh.gate with
      | some h => h s u g
      | none => u.gate g (readsOf i f) [(f.dst, w.1)]
    s.gated c t gate (t.guarded f.grd due) taints
      (let m := sh.sel t (c.lanes t)
      let start := s.seen t
      let t' := (GMask.list (Mask.groups m)).foldl (fun t' g =>
        t'.pass (s.seen t') i f s.gts c.e m readsD pred (fn start m) g) t
      ((s.setTeam t').markLong c t i f m).finish c)

/-- The vector form of an instruction whose lanes use their own registers. -/
def vectorOp (i : Instr) (f : Fields) (readsD : Bool) (pred : Option Nat) (fn : Team → Rd → Nat → LaneOut)
    (s : State) : Host.Outcome State Fault Refusal :=
  vectorForm i f {} readsD pred (fun _ _ => fn) s

/-- An instruction whose vector and scalar forms compute one function of the lane's own operands: the values of d (if it
is read), a and b give the value of d; the poison is that of the registers read (10 R173). -/
def aluOp (i : Instr) (f : Fields) (readsD : Bool) (op : Nat → Nat → Nat → Nat) (s : State) :
    Host.Outcome State Fault Refusal :=
  let w := i.widths
  let fn : Team → Rd → Nat → LaneOut := fun t r l =>
    { val := op (if readsD then t.src r f.dst w.1 l else 0) (t.src r f.sa w.2.1 l) (t.src r f.sb w.2.2 l)
      bad := (readsD && t.bad f.dst w.1 l) || t.bad f.sa w.2.1 l || t.bad f.sb w.2.2 l }
  if f.dst.isKind .s then scalarOp i f readsD fn s else vectorOp i f readsD none fn s

end Sys2Proof.Machine
end

