-- ==== Sys2Proof/Config.lean ====
section
/-!
DEFINITION. What an implementation of the device fixes and the spec does not: values without a body, of which nothing can
be proved (logs 4, 11, 13, 14, 64, 87 and 105).
-/
namespace Sys2Proof

/-- Free bytes: the layout of a control block, the device's own (18 R323); State.freeCtr numbers them. -/
opaque Config.freeByte : Nat → Byte
/-- What another agent of the CXL pool writes to a line once it has had it invalidated (12 R219, 15 R286): 128 bytes, or anything
else for no write; State.freeCtr numbers them (log 87). -/
opaque Config.poolPeer : Nat → List Byte
/-- The kernel that the supervisor runs on a quad to spill and fill accumulators (18 R327): context, image address and argument (log 64). -/
opaque Config.supervisorKernel : Nat → Nat × U64 × U64
/-- SHA-384 (23 R386, R387). -/
opaque Config.sha384 : List Byte → List Byte
/-- Ed25519 verification of a signature over a message under a public key (23 R386). -/
opaque Config.edVerify : List Byte → List Byte → List Byte → Bool
/-- ML-DSA-65 verification of a signature over a message under a public key (23 R386). -/
opaque Config.mlVerify : List Byte → List Byte → List Byte → Bool
/-- The digests of the two public keys held in fuses (23 R386). -/
opaque Config.fuses : List Byte × List Byte
/-- The answer to an SPDM 1.3 request, from the request and the measurements of the running images with their SVNs; it
holds the device's identity key and certificate chain (23 R387). -/
opaque Config.spdmAnswer : List Byte → List (Nat × List Byte × Nat) → List Byte

/-- The base of the queue table, which the supervisor sets at bring-up (06 R93, 23 R388). -/
opaque Config.tableBase : Nat
/-- The base of the context table, which the supervisor sets at bring-up (08 R128, 23 R388). -/
opaque Config.contextBase : Nat
/-- The firmware images that the flash holds, by FTYPE and queue core (23 R386 to R388; log 105): `fwKey`. -/
opaque Config.flash : Nat → List Byte
/-- The die of a mesh or crossbar link by its number (19 R348): fixed by the chip, and no rule gives it. -/
opaque Config.linkDie : Nat → Nat

end Sys2Proof
end

