-- ==== Sys2Proof/Machine/Preempt.lean ====
section
/-!
DEFINITION. Pre-emption as a team meets it: settled splits, saving at a safe point and the end of a restore
(18 R321 to R326, 14 R268).
-/
namespace Sys2Proof.Machine

/-- A pre-emption request is pending for the context (18 R321, CW_PREEMPT). -/
def State.preempting (s : State) (ctx : Nat) : Bool := (s.ctx? ctx).any (·.preempt.isSome)

/-- Every walk of the context is SAVED. -/
def State.walksSaved (s : State) (ctx : Nat) : Bool :=
  s.mwes.all fun m => m.2.walks.all fun w => w.2.ctx ≠ ctx || w.2.state = .saved

/-- The split is settled (18 R322). -/
def State.settled (s : State) (t : Team) (e : Nat) : Bool :=
  let x := t.split e
  match x.state, x.waiting with
  | .wait, .safept _ => true
  | .blocked, .future _ | .blocked, .chunks _ _ _ | .blocked, .bar _ _ | .blocked, .cbar _ | .blocked, .fetch _ => true
  | .shed, .bar _ _ | .shed, .cbar _ => true
  | .held, _ => true
  | .ready, _ => s.heldAtEntry t e
  | _, _ => false

/-- Every live split of the team is settled. -/
def State.allSettled (s : State) (t : Team) : Bool := t.entries.all (s.settled t)

/-- The splits that wait at a safe point, each with its entry of the safe-point table. -/
def Team.atSafept (t : Team) : List (Nat × Nat) :=
  t.entries.filterMap fun e => match (t.split e).state, (t.split e).waiting with
    | .wait, .safept n => some (e, n)
    | _, _ => none

/-- Bytes of a control block (18 R309). -/
def controlBlockSize : Nat := 48 * 1024

/-- Free bytes of the device's own (DESIGN CHOICE, log 4). -/
def State.freeBytes (s : State) (n : Nat) : List Byte × State :=
  ((List.range n).map fun k => Config.freeByte (s.freeCtr + k), { s with freeCtr := s.freeCtr + n })

/-- Saves a settled team to block `b` (18 R323): the control block, the save block's address in the last scalar register,
and one save split of every live lane. -/
def State.saveTeam (s : State) (t : Team) (x : Context) (b : Nat) : State :=
  let at_ := t.atSafept
  let older (p q : Nat × Nat) : Bool :=
    let a := t.split p.1; let c := t.split q.1
    a.age < c.age || (a.age = c.age && a.pc.toNat < c.pc.toNat)
  let (chosen, n) := at_.foldl (fun p q => if older q p then q else p) (at_.headD (0, 0))
  let last := t.sregs - 1
  let (bytes, s) := s.freeBytes controlBlockSize
  let s := s.physWrite (x.pctl + b * controlBlockSize) bytes
  let s := s.onCtx t.ctx fun x => { x with blocks := NSet.add x.blocks b }
  let pc := t.image + .ofNat 64 ((((s.grid? t.grid).map fun g => g.image.safepts).getD []).getD n (0, 0)).1
  let saved : Saved := { block := b, entry := n, chosen := chosen, splits := t.splits, frontier := t.frontier,
                         origlane := t.regs.origlane, crit := t.crit, prio := t.prio, barriers := t.barriers,
                         lastS := t.regs.getS last, lastSPoison := t.regs.badS last, lanes := t.live }
  let regs := (t.regs.setS last (x.ppool + .ofNat 64 (b * x.pbsz)) false).markS last false
  let split : Split := { state := .ready, pc := pc, age := s.gts, mask := t.live }
  let s := s.setTeam { t with saved := some saved, regs := regs, mode := .save, out := .saving, frontier := [],
                              splits := split :: List.replicate 15 {} }
  s.arrive t.uid 0

/-- A split stands at safe point `n` while a request is pending (18 R322, R323): it waits until its team is settled; then
the team is saved, or, with no block to save it to, its splits at safe points go on. -/
def State.safePoint (s : State) (c : Cur) (n : Nat) : State :=
  let s := s.wait c .wait (.safept n)
  match s.team? c.uid with
  | none => s
  | some t =>
    if !s.allSettled t then s
    else
      let block := (s.ctx? t.ctx).bind fun x =>
        if x.ppool = 0 then none
        else ((List.range x.pbcnt).find? fun b => !NSet.mem x.blocks b).map fun b => (x, b)
      match block with
      | some (x, b) => s.saveTeam t x b
      | none => t.atSafept.foldl (fun s p => s.pastIt c.uid p.1) s

/-- Physical barriers of a core (16 R292). -/
def coreBarriers : Nat := 256
/-- Physical barriers of a core that are bound. -/
def State.boundBarriers (s : State) (core : Nat) : Nat :=
  s.allTeams.foldl (fun n t => if t.core = core then n + t.barriers.length else n) 0

/-- SAFEPT `n` in restore mode ends the restore (18 R325). -/
def State.endRestore (s : State) (c : Cur) (t : Team) (n : Nat) : State :=
  match t.saved with
  | none => s.trapAll c t cILLOP
  | some v =>
    if n ≠ v.entry then s.trapAll c t cILLOP
    else if coreBarriers < s.boundBarriers t.core + v.barriers.length then s.wait c .wait .retry
    else
      let live := t.live
      let wake (x : Split) : Split :=
        let x := { x with mask := x.mask &&& live }
        match x.state, x.waiting with
          | .wait, .safept _ => { x with state := .ready, waiting := .retry }
          | _, _ => x
      let frontier := (v.frontier.map fun (r : FrontierRec) => { r with mask := r.mask &&& live }).filter (·.mask ≠ 0)
      let last := t.sregs - 1
      let t' := Team.freeEmpty { t with
        saved := none, out := .in_, savedLanes := 0, crit := v.crit, prio := v.prio, barriers := v.barriers
        mode := .user
        regs := t.regs.setS last v.lastS v.lastSPoison
        splits := v.splits.map wake, frontier := frontier }
      let s := s.onCtx t.ctx fun x => { x with blocks := NSet.remove x.blocks v.block }
      let s := (s.setTeam t').retryHeld t.uid
      let s := t'.entries.foldl (fun s e => match (t'.split e).state, (t'.split e).waiting with
        | .blocked, .fetch x => s.recheck x
        | _, _ => s) s
      if (t'.split v.chosen).mask &&& (v.splits.getD v.chosen {}).mask = 0 then s else s.pastIt t.uid v.chosen

end Sys2Proof.Machine
end

