-- ==== Sys2Proof/Machine/Control.lean ====
section
/-!
DEFINITION. The instructions of predicates and control (10 R197 to R201) and the retry of a held divide (09 R163).
-/
namespace Sys2Proof.Machine

/-! ## Predicates (R197) -/

/-- PLOP: bit 4a + 2b + c of the truth table. -/
def plopVal (table : Nat) (a b c : Bool) : Bool :=
  table.testBit ((if a then 4 else 0) + (if b then 2 else 0) + (if c then 1 else 0))

/-- PLOP: any function of three predicates; a third of number 15 is the constant 0. -/
def execPlop (f : Fields) (s : State) : Host.Outcome State Fault Refusal :=
  let n := f.imm.toNat % 16
  vectorOp (.plop f) f false none (fun t r l =>
    { val := if plopVal (bitsAt f.imm.toNat 8 8) (t.src r f.sa 1 l = 1) (t.src r f.sb 1 l = 1)
        (n < 12 && t.regs.getP l n) then 1 else 0
      bad := t.bad f.sa 1 l || t.bad f.sb 1 l || (n < 12 && t.regs.badP l n) }) s

/-- PMOV: a predicate copied, bit 0 of a register or the immediate, or a predicate as a U32. -/
def execPmov (f : Fields) (s : State) : Host.Outcome State Fault Refusal :=
  vectorOp (.pmov f) f false none (fun t r l => { val := t.src r f.sa 1 l, bad := t.bad f.sa 1 l }) s

/-! ## Control transfers (R198, R199) -/

/-- The address is that of an instruction of the code section of the team's image (R198). -/
def Team.isCode (t : Team) (pc : U64) : Bool :=
  let base := (t.image + .ofNat 64 t.codeOff).toNat
  base ≤ pc.toNat && (pc.toNat - base) % 12 = 0 && pc.toNat - base + 12 ≤ t.codeSz

/-- The target of BRA, CALL and LOOP (R198). -/
def branchTarget (pc : U64) (imm : BitVec 24) : U64 := pc + 12 + 12 * imm.signExtend 64

/-- A divide has no room: the split is HELD, and a replayed group stays in TRAP (09 R163, 18 R315). -/
def State.holdDivide (s : State) (c : Cur) : State :=
  match c.replay with
  | some _ => s
  | none => s.onTeam c.uid fun t =>
      { t.onSplit c.e (fun x => { x with state := .held, waiting := .retry }) with hold := true }

/-- Performs a control transfer: the lanes being performed take their next addresses and every other lane of the split
the next word; none when the divide has no room. A replayed group goes on as by RESUME, its lanes that branch leaving the
split (18 R315). -/
def State.transfer (s : State) (c : Cur) (t : Team) (choices : List (U64 × Mask)) : Option State :=
  match c.replay with
  | none =>
    let others := (t.split c.e).mask &&& ~~~ c.lanes t
    (s.hints c.uid c.e c.word).divide c.uid c.e (if others = 0 then choices else insertPc (c.pc + 12) others choices)
  | some (g, huid, he) =>
    let gone := { t with traps := NMap.erase t.traps g }
    let on (s : State) : State :=
      match s.team? huid with
      | some _ => s.pastIt huid he
      | none => s
    let mine := c.lanes t
    if (t.split c.e).mask = mine then ((s.setTeam gone).divide c.uid c.e choices).map on
    else
      let away := choices.filter fun p => p.1 ≠ c.pc + 12
      let left := away.foldl (fun m p => m ||| p.2) 0
      let t' := gone.onSplit c.e fun x => { x with mask := x.mask &&& ~~~ left }
      (t'.placeSubsets s.gts away).map fun t'' =>
        let fresh := t''.entries.filter fun k => (t.split k).state = .free
        on (((fresh.foldl (fun s k => s.arrive c.uid k) (s.setTeam t'')).restStall c.uid).leaveTrap c.uid c.e)

/-- Where the lanes of a control transfer that do not branch go: the next word, or with the dividing split (09 R158, BRX). -/
def Cur.restPc (c : Cur) (t : Team) (stay : Bool) (targets : List (U64 × Mask)) : U64 :=
  match stay, targets with
  | true, (pc, _) :: _ =>
    if (t.split c.e).mask &&& ~~~ c.lanes t ≠ 0 && (c.pc + 12).toNat < pc.toNat then c.pc + 12 else pc
  | _, _ => c.pc + 12

/-- A control transfer whose guard is read lane by lane: a poisoned guard is consumed; `target` gives the address of a lane
whose guard holds and `effect` what the transfer does besides, once nothing traps and the divide has room. The lanes whose guard does not
hold go to the next word, or `stay` in the dividing split. -/
def State.branch (s : State) (c : Cur) (t : Team) (f : Fields) (stay : Bool) (target : Nat → U64) (effect : Team → Mask → Team) :
    State :=
  let m := c.lanes t
  let act := t.guarded f.grd m
  match (Mask.list act).filter fun l => !t.isCode (target l) with
  | [] =>
    let t' := (effect t act).readClean f m
    let targets := (Mask.list act).foldl (fun cs l => insertPc (target l) (Mask.one l) cs) []
    let rest := m &&& ~~~ act
    let choices := if rest = 0 then targets else insertPc (c.restPc t stay targets) rest targets
    match (s.setTeam t').transfer c t' choices with
    | some s' => s'
    | none => s.holdDivide c
  | bad => s.trapLanes c cPX bad target

/-- BRA: to the target where the guard holds. -/
def execBra (f : Fields) (s : State) : Host.Outcome State Fault Refusal :=
  issue (.bra f) f s fun c t => s.eatGuard c t f.grd fun s t =>
    s.branch c t f false (fun _ => branchTarget c.pc f.imm) (fun t _ => t)

/-- BRX: each active lane to a; a poisoned address is consumed (R198). A lane whose guard does not hold chooses nothing and stays in
the dividing split, whatever its next address (09 R158). -/
def execBrx (f : Fields) (s : State) : Host.Outcome State Fault Refusal :=
  let i : Instr := .brx f
  issue i f s fun c t => s.eatGuard c t f.grd fun s t =>
    let act := t.guarded f.grd (c.lanes t)
    s.gated c t (fun u g => u.gate g (readsOf i f) []) act false <|
      let bad := Mask.groups (Mask.ofList ((Mask.list act).filter (t.bad f.sa 2)))
      let s := s.killGroups c.uid (GMask.list bad) cPOISON
      match s.team? c.uid with
      | none => s
      | some t =>
        if c.lanes t &&& c.mask = 0 then s.finish c
        else
          let r : Rd := { gts := s.gts, e := c.e, i := i, f := f }
          s.branch c t f true (fun l => .ofNat 64 (t.src r f.sa 2 l)) (fun t _ => t)

/-- CALL: pushes the return address and branches. -/
def execCall (f : Fields) (s : State) : Host.Outcome State Fault Refusal :=
  issue (.call f) f s fun c t => s.eatGuard c t f.grd fun s t =>
    let act := t.guarded f.grd (c.lanes t)
    let target := branchTarget c.pc f.imm
    let full := (Mask.list act).filter fun l => 16 ≤ (t.regs.link l).length
    if t.isCode target && !full.isEmpty then s.trapLanes c cILLOP full (fun _ => 0)
    else s.branch c t f false (fun _ => target) fun t act =>
      { t with regs := (Mask.list act).foldl (fun q l => q.setLink l ((c.pc + 12) :: q.link l)) t.regs }

/-- RET: pops the link stack and branches to the popped address. -/
def execRet (f : Fields) (s : State) : Host.Outcome State Fault Refusal :=
  issue (.ret f) f s fun c t => s.eatGuard c t f.grd fun s t =>
    match (Mask.list (t.guarded f.grd (c.lanes t))).filter fun l => (t.regs.link l).isEmpty with
    | [] => s.branch c t f false (fun l => (t.regs.link l).headD 0) fun t act =>
        { t with regs := (Mask.list act).foldl (fun q l => q.setLink l (q.link l).tail) t.regs }
    | bad => s.trapLanes c cILLOP bad (fun _ => 0)

/-! ## EXIT, YIELD, NOP (R200) -/

/-- EXIT: removes the guarded lanes. A trap handler group whose last
lane exits ends as by TRET (DEDUCED, log 21). -/
def execExit (f : Fields) (s : State) : Host.Outcome State Fault Refusal :=
  issue (.exit f) f s fun c t =>
    let s := s.setTeam (t.readGuard f.grd (c.lanes t))
    let act := t.guarded f.grd (c.lanes t)
    if act = 0 then s.finish c
    else if t.kind = .trapHandler && t.live &&& ~~~ act = 0 then s.endHandler t false
    else if (t.split c.e).mask &&& ~~~ act = 0 then s.exitLanes c.uid act
    else (s.exitLanes c.uid act).finish { c with mask := c.mask &&& ~~~ act }

/-- YIELD: orders the split after every other ready split of its core, as the YLD hint does. -/
def execYield (f : Fields) (s : State) : Host.Outcome State Fault Refusal :=
  issue (.yield f) f s fun c t =>
    let s := s.setTeam (t.readGuard f.grd (c.lanes t))
    if t.guarded f.grd (c.lanes t) = 0 then s.finish c
    else s.finish { c with word := c.word ||| (1 <<< 7) }

/-- NOP: does nothing. -/
def execNop (f : Fields) (s : State) : Host.Outcome State Fault Refusal :=
  issue (.nop f) f s fun c t => (s.setTeam (t.readGuard f.grd (c.lanes t))).finish c

/-! ## Uniform control (R201) -/

/-- LOOP: decrements s; the whole split goes to t while s is nonzero. A poisoned count is consumed. -/
def execLoop (f : Fields) (s : State) : Host.Outcome State Fault Refusal :=
  uniform (.loop f) f s fun c t _ =>
    match f.dst with
    | .s n =>
      if t.regs.emptyS n.toNat then s.wait c .wait .regs
      else if t.regs.badS n.toNat then s.consume c t
      else
        let x := t.regs.getS n.toNat - 1
        let target := branchTarget c.pc f.imm
        let m := c.lanes t
        if x ≠ 0 && !t.isCode target then s.trapMask c m cPX target
        else
          let t' := { t with regs := (t.regs.setS n.toNat x false).setFlag m 0 }
          if x = 0 then (s.setTeam t').finish c
          else match (s.setTeam t').transfer c t' [(target, m)] with
            | some s => s
            | none => s.holdDivide c
    | _ => s.finish c

/-- The team's split status word (09 R157). -/
def Team.statusWord (t : Team) : Nat :=
  t.entries.foldl (fun a e => a + 2 ^ e) 0 + Mask.count t.live * 2 ^ 16 + t.frontier.length * 2 ^ 32 +
    (if t.ovf then 2 ^ 40 else 0) + (if t.hold then 2 ^ 41 else 0)

/-- Writes a scalar destination of a uniform instruction, full and unpoisoned; waits while it is empty (08 R149). -/
def State.putS (s : State) (c : Cur) (t : Team) (f : Fields) (x : U64) : State :=
  match f.dst with
  | .s n =>
    if t.regs.emptyS n.toNat then s.wait c .wait .regs
    else (s.setTeam { t with regs := t.regs.setS n.toNat x false }).finishRead c f
  | _ => s.finishRead c f

/-- SPLITQ: the split status word. -/
def execSplitq (f : Fields) (s : State) : Host.Outcome State Fault Refusal :=
  uniform (.splitq f) f s fun c t _ => s.putS c t f (.ofNat 64 t.statusWord)

/-- SAFEPT: a safe point if a request is pending, the end of a restore
in restore mode, and nothing otherwise. An upcall handler team's safe points count once every walk of its context is SAVED
(18 R322). -/
def execSafept (f : Fields) (s : State) : Host.Outcome State Fault Refusal :=
  uniform (.safept f) f s fun c t l =>
    let n := f.imm.toNat % 256
    let read := t.flagAll f (c.lanes t) (t.guardBad f.grd l)
    match t.mode with
    | .restore => s.endRestore c read n
    | .save => (s.setTeam read).finish c
    | _ =>
      if s.preempting t.ctx && t.kind ≠ .supervisor && (t.kind ≠ .upcall || s.walksSaved t.ctx) then (s.setTeam read).safePoint c n
      else (s.setTeam read).finish c

/-- CRIT.ENTER: adds 1 to the team's nesting count; ILLOP at 255. -/
def execCritEnter (f : Fields) (s : State) : Host.Outcome State Fault Refusal :=
  uniform (.critEnter f) f s fun c t l =>
    if t.crit = 255 then s.trapAll c t cILLOP
    else (s.setTeam { t with crit := t.crit + 1 }).finishFlag c f (t.guardBad f.grd l)

/-- CRIT.EXIT: subtracts 1; ILLOP at 0. -/
def execCritExit (f : Fields) (s : State) : Host.Outcome State Fault Refusal :=
  uniform (.critExit f) f s fun c t l =>
    if t.crit = 0 then s.trapAll c t cILLOP
    else (s.setTeam { t with crit := t.crit - 1 }).finishFlag c f (t.guardBad f.grd l)

/-! ## DIVIDE_RETRY (09 R163) -/

/-- DIVIDE_RETRY: a HELD split leaves HELD to issue its branch again. -/
def execDivideRetry (uid e : Nat) (s : State) : Host.Outcome State Fault Refusal :=
  match s.team? uid with
  | some t =>
    if (t.split e).state = .held then .next (s.onSplit uid e fun x => { x with state := .ready, waiting := .retry })
    else .next s
  | none => .next s

end Sys2Proof.Machine
end

