-- ==== Sys2Proof/Machine/Flags.lean ====
section
/-!
DEFINITION. Elements of packed types, exact integer results fitted to a type, carries, and comparison conditions
(04 R54 to R56, 10 R177, R178, R181, R184).
-/
namespace Sys2Proof.Machine

/-- Bits of an element (04 R54). -/
def elemW : Ty → Nat
  | .i32 | .u32 | .f32 => 32
  | .i64 | .u64 | .f64 => 64
  | .i16x2 | .u16x2 | .f16x2 | .bf16x2 => 16
  | .i8x4 | .u8x4 => 8

/-- Elements of a value (04 R54). -/
def elemN : Ty → Nat
  | .i16x2 | .u16x2 | .f16x2 | .bf16x2 => 2
  | .i8x4 | .u8x4 => 4
  | _ => 1

/-- The type's integers are signed. -/
def isSigned : Ty → Bool
  | .i32 | .i64 | .i16x2 | .i8x4 => true
  | _ => false

/-- Element `e` of a value, as bits: element 0 lowest (04 R54). -/
def elemAt (t : Ty) (x e : Nat) : Nat := bitsAt x (elemW t * e) (elemW t)

/-- The elements of a value. -/
def elems (t : Ty) (x : Nat) : List Nat := (List.range (elemN t)).map (elemAt t x)

/-- A value from its elements, the first lowest. -/
def joinElems (t : Ty) : List Nat → Nat
  | [] => 0
  | x :: rest => x % 2 ^ elemW t + 2 ^ elemW t * joinElems t rest

/-- An element as the integer its type gives it. -/
def intOf (t : Ty) (x : Nat) : Int := if isSigned t then signed (elemW t) x else (x : Int)

/-- The least and greatest integer of a width. -/
def minInt (sgn : Bool) (w : Nat) : Int := if sgn then -((2 ^ (w - 1) : Nat) : Int) else 0
def maxInt (sgn : Bool) (w : Nat) : Int := if sgn then ((2 ^ (w - 1) : Nat) : Int) - 1 else ((2 ^ w : Nat) : Int) - 1

/-- An exact integer fitted to a width: clamped with `.SAT`, else wrapped (04 R56, 10 R177). -/
def fitW (sgn sat : Bool) (w : Nat) (x : Int) : Nat :=
  wrap w (if sat then clampInt (minInt sgn w) (maxInt sgn w) x else x)

/-- An exact integer fitted to an element of a type. -/
def fit (t : Ty) (sat : Bool) (x : Int) : Nat := fitW (isSigned t) sat (elemW t) x

/-- Applies an operation to corresponding elements of d, a and b. -/
def mapElems (t : Ty) (op : Nat → Nat → Nat → Nat) (d a b : Nat) : Nat :=
  joinElems t ((List.range (elemN t)).map fun e => op (elemAt t d e) (elemAt t a e) (elemAt t b e))

/-- ADDC: sum and carry out (10 R178). -/
def addCarry (w a b : Nat) (c : Bool) : Nat × Bool :=
  let x := a + b + (if c then 1 else 0)
  (x % 2 ^ w, 2 ^ w ≤ x)

/-- SUBB: difference and borrow out (10 R178). -/
def subBorrow (w a b : Nat) (c : Bool) : Nat × Bool :=
  let x : Int := (a : Int) - b - (if c then 1 else 0)
  (wrap w x, x < 0)

/-- Integer comparison by ISP code (10 R175, R181). -/
def cmpInt (code : Nat) (a b : Int) : Bool :=
  match code with
  | 0 => a == b
  | 1 => a != b
  | 2 => a < b
  | 3 => a ≤ b
  | 4 => b < a
  | _ => b ≤ a

/-- CMP: for a packed type the condition must hold in every element (10 R181). -/
def cmpElems (t : Ty) (code a b : Nat) : Bool :=
  (List.range (elemN t)).all fun e => cmpInt code (intOf t (elemAt t a e)) (intOf t (elemAt t b e))

end Sys2Proof.Machine
end

