-- ==== Sys2Proof/Machine/Fp.lean ====
section
/-!
DEFINITION. Floating-point numbers as exact values, the formats, rounding, overflow and saturation (04 R54, R55, R57,
R66 to R72), the elementary operations exactly (10 R182 to R185) and shared-exponent blocks (04 R61, R64).
-/
namespace Sys2Proof.Machine

/-- An exact value: NaN, an infinity, or `m × 2^e` with a sign (zero keeps its sign). -/
inductive FV where
  | nan
  | inf (neg : Bool)
  | fin (neg : Bool) (m : Nat) (e : Int)
  deriving DecidableEq, Repr

/-- What the all-ones exponent encodes (04 R57): infinities and NaNs; one NaN code; only numbers. -/
inductive FKind where
  | ieee | oneNan | noNan
  deriving DecidableEq, Repr

/-- A float format: exponent bits, mantissa bits, bias. -/
structure Fmt where
  eb : Nat
  mb : Nat
  bias : Int
  kind : FKind
  deriving DecidableEq, Repr

def fmtF64 : Fmt := ⟨11, 52, 1023, .ieee⟩
def fmtF32 : Fmt := ⟨8, 23, 127, .ieee⟩
def fmtF19 : Fmt := ⟨8, 10, 127, .ieee⟩
def fmtBF16 : Fmt := ⟨8, 7, 127, .ieee⟩
def fmtF16 : Fmt := ⟨5, 10, 15, .ieee⟩
def fmtE5M2 : Fmt := ⟨5, 2, 15, .ieee⟩
def fmtE4M3 : Fmt := ⟨4, 3, 7, .oneNan⟩
def fmtE3M2 : Fmt := ⟨3, 2, 3, .noNan⟩
def fmtE2M3 : Fmt := ⟨2, 3, 1, .noNan⟩
def fmtE2M1 : Fmt := ⟨2, 1, 1, .noNan⟩

/-- The format of a float type's element (04 R54). -/
def tyFmt : Ty → Fmt
  | .f64 => fmtF64
  | .f16x2 => fmtF16
  | .bf16x2 => fmtBF16
  | _ => fmtF32

/-- Bits of a format. -/
def Fmt.width (F : Fmt) : Nat := 1 + F.eb + F.mb
/-- Exponent of the last place of the subnormals and of the least normals. -/
def Fmt.minUlp (F : Fmt) : Int := 1 - F.bias - F.mb
/-- Largest exponent field of a finite value. -/
def Fmt.maxField (F : Fmt) : Nat := if F.kind = .ieee then 2 ^ F.eb - 2 else 2 ^ F.eb - 1
/-- Largest mantissa field at that exponent. -/
def Fmt.maxMan (F : Fmt) : Nat := if F.kind = .oneNan then 2 ^ F.mb - 2 else 2 ^ F.mb - 1
/-- The largest finite value's bits, without sign. -/
def Fmt.maxBits (F : Fmt) : Nat := F.maxField * 2 ^ F.mb + F.maxMan
/-- The sign bit's weight. -/
def Fmt.signBit (F : Fmt) (neg : Bool) : Nat := if neg then 2 ^ (F.eb + F.mb) else 0
/-- The canonical quiet NaN (04 R55); +0 where the format has none (R69). -/
def Fmt.qnan (F : Fmt) : Nat :=
  match F.kind with
  | .ieee => (2 ^ F.eb - 1) * 2 ^ F.mb + 2 ^ (F.mb - 1)
  | .oneNan => 2 ^ (F.eb + F.mb) - 1
  | .noNan => 0
/-- Infinity's bits without sign. -/
def Fmt.infBits (F : Fmt) : Nat := (2 ^ F.eb - 1) * 2 ^ F.mb

/-- The value of a format's bits (04 R54, R57). -/
def Fmt.decode (F : Fmt) (x : Nat) : FV :=
  let man := bitsAt x 0 F.mb
  let ex := bitsAt x F.mb F.eb
  let neg := x.testBit (F.eb + F.mb)
  if ex = 0 then .fin neg man F.minUlp
  else if F.kind = .ieee && ex = 2 ^ F.eb - 1 then (if man = 0 then .inf neg else .nan)
  else if F.kind = .oneNan && ex = 2 ^ F.eb - 1 && man = 2 ^ F.mb - 1 then .nan
  else .fin neg (2 ^ F.mb + man) (ex - F.bias - F.mb)

/-- The overflow outcome of 04 R67 for a mode; with `.SAT` the largest finite value. -/
def Fmt.overflow (F : Fmt) (mode : Rnd) (sat neg : Bool) : Nat :=
  let max := F.signBit neg + F.maxBits
  let inf := match F.kind with
    | .ieee => F.signBit neg + F.infBits
    | .oneNan => F.qnan
    | .noNan => max
  if sat then max
  else match mode with
    | .rne => inf
    | .rtz => max
    | .rdn => if neg then inf else max
    | .rup => if neg then max else inf

/-- The outcome of an infinity (04 R67, R72): with `.SAT` ±max, of E4M3 too (DEDUCED, log 76). -/
def Fmt.infinite (F : Fmt) (sat neg : Bool) : Nat := F.overflow .rne sat neg

/-- Whether a discarded part rounds the kept part up: `half` compares the part with a half (below 0, at 1, above 2;
nothing discarded 3). -/
def roundsUp (mode : Rnd) (neg odd : Bool) (half : Nat) : Bool :=
  if half = 3 then false
  else match mode with
    | .rne => half = 2 || (half = 1 && odd)
    | .rtz => false
    | .rdn => neg
    | .rup => !neg

/-- `m × 2^e` divided by `2^q` and rounded to an integer (04 R66). -/
def roundDiv (mode : Rnd) (neg : Bool) (m : Nat) (e q : Int) : Nat :=
  if q ≤ e then m * 2 ^ (e - q).toNat
  else
    let sh := (q - e).toNat
    if m.log2 + 3 < sh then
      (if roundsUp mode neg false (if m = 0 then 3 else 0) then 1 else 0)
    else
      let k := m / 2 ^ sh
      let rem := m % 2 ^ sh
      let half := if rem = 0 then 3 else if 2 * rem < 2 ^ sh then 0 else if 2 * rem = 2 ^ sh then 1 else 2
      if roundsUp mode neg (k % 2 = 1) half then k + 1 else k

/-- rnd and sat of 04 R72: an exact value to a format's bits. -/
def Fmt.round (F : Fmt) (mode : Rnd) (sat : Bool) : FV → Nat
  | .nan => F.qnan
  | .inf neg => F.infinite sat neg
  | .fin neg 0 _ => F.signBit neg
  | .fin neg m e =>
    let top : Int := (m.log2 : Int) + e
    let q : Int := max (top - F.mb) F.minUlp
    let k := roundDiv mode neg m e q
    -- the exponent field at q, and the carry into it
    let field := (q - F.minUlp).toNat
    let bits := field * 2 ^ F.mb + k
    let mag := if field = 0 then k else bits
    if F.maxBits < mag then F.overflow mode sat neg else F.signBit neg + mag

/-- Bits of a subnormal (04 R54): exponent field zero and mantissa not. -/
def Fmt.isSub (F : Fmt) (x : Nat) : Bool := bitsAt x F.mb F.eb = 0 && bitsAt x 0 F.mb ≠ 0
/-- ftz of 04 R72 on bits. -/
def Fmt.flush (F : Fmt) (ftz : Bool) (x : Nat) : Nat :=
  if ftz && F.isSub x then F.signBit (x.testBit (F.eb + F.mb)) else x

/-! ## Exact operations -/

def FV.isNan : FV → Bool
  | .nan => true
  | _ => false
def FV.neg : FV → FV
  | .nan => .nan
  | .inf b => .inf !b
  | .fin b m e => .fin (!b) m e
def FV.isNeg : FV → Bool
  | .nan => false
  | .inf b | .fin b _ _ => b

/-- A signed integer times a power of two, with the sign an exact zero takes. -/
def FV.ofInt (x : Int) (e : Int) (zeroNeg : Bool) : FV :=
  if x = 0 then .fin zeroNeg 0 e else .fin (x < 0) x.natAbs e

/-- The integer a finite value is at scale `2^e`, for `e` at most its exponent. -/
def scaled (neg : Bool) (m : Nat) (e0 e : Int) : Int :=
  let x : Int := (m : Int) * ((2 ^ (e0 - e).toNat : Nat) : Int)
  if neg then -x else x

/-- Exact sum; an exact zero takes the sign of 10 R182. -/
def FV.add (mode : Rnd) : FV → FV → FV
  | .nan, _ | _, .nan => .nan
  | .inf a, .inf b => if a = b then .inf a else .nan
  | .inf a, _ | _, .inf a => .inf a
  | .fin a m e, .fin b n k =>
    if m = 0 && n = 0 then .fin (if a = b then a else mode == .rdn) 0 e
    else if m = 0 then .fin b n k
    else if n = 0 then .fin a m e
    else
      let g := min e k
      FV.ofInt (scaled a m e g + scaled b n k g) g (mode == .rdn)

/-- Exact product (10 R182: 0 × ∞ is NaN). -/
def FV.mul : FV → FV → FV
  | .nan, _ | _, .nan => .nan
  | .inf a, .inf b => .inf (a != b)
  | .inf a, .fin b n _ | .fin b n _, .inf a => if n = 0 then .nan else .inf (a != b)
  | .fin a m e, .fin b n k => .fin (a != b) (m * n) (e + k)

/-- A quotient of positive integers as `x × 2^e`, with a last bit that is set when it is not exact; `bits` significant
bits at least. -/
def quotient (m n bits : Nat) : Nat × Int :=
  let k := bits + n.log2 + 2
  let x := m * 2 ^ k
  (x / n * 2 + (if x % n = 0 then 0 else 1), -(k : Int) - 1)

/-- Division (10 R185). -/
def FV.div (bits : Nat) : FV → FV → FV
  | .nan, _ | _, .nan => .nan
  | .inf _, .inf _ => .nan
  | .inf a, .fin b _ _ => .inf (a != b)
  | .fin a _ _, .inf b => .fin (a != b) 0 0
  | .fin a m e, .fin b n k =>
    if n = 0 then (if m = 0 then .nan else .inf (a != b))
    else if m = 0 then .fin (a != b) 0 0
    else let q := quotient m n bits; .fin (a != b) q.1 (q.2 + e - k)

/-- Integer square root, bit by bit from bit `n` down. -/
def isqrt (x : Nat) : Nat → Nat → Nat
  | 0, r => if (r + 1) * (r + 1) ≤ x then r + 1 else r
  | n + 1, r => isqrt x n (if (r + 2 ^ (n + 1)) * (r + 2 ^ (n + 1)) ≤ x then r + 2 ^ (n + 1) else r)

/-- Square root of a positive `m × 2^e`, with a last bit that is set when it is not exact. -/
def sqrtFin (m : Nat) (e : Int) (bits : Nat) : FV :=
  let m' := if e % 2 = 0 then m else 2 * m
  let e' := if e % 2 = 0 then e else e - 1
  let x := m' * 4 ^ bits
  let r := isqrt x (x.log2 / 2 + 1) 0
  .fin false (2 * r + (if r * r = x then 0 else 1)) (e' / 2 - bits - 1)

/-- Reciprocal square root of a positive `m × 2^e`. -/
def rsqrtFin (m : Nat) (e : Int) (bits : Nat) : FV :=
  let m' := if e % 2 = 0 then m else 2 * m
  let e' := if e % 2 = 0 then e else e - 1
  let k := bits + m'.log2 + 2
  let x := 4 ^ k / m'
  let r := isqrt x (x.log2 / 2 + 1) 0
  .fin false (2 * r + (if r * r * m' = 4 ^ k then 0 else 1)) (-(k : Int) - 1 - e' / 2)

/-- Order of values for comparisons, −0 equal to +0: -1 less, 0 equal, 1 greater. Neither is NaN. -/
def FV.cmp : FV → FV → Int
  | .inf a, .inf b => if a = b then 0 else if a then -1 else 1
  | .inf a, _ => if a then -1 else 1
  | _, .inf b => if b then 1 else -1
  | .fin a m e, .fin b n k =>
    let g := min e k
    let d := scaled a m e g - scaled b n k g
    if d < 0 then -1 else if 0 < d then 1 else 0
  | .nan, _ | _, .nan => 0

/-- Less, with −0 below +0 (10 R183). -/
def FV.less (x y : FV) : Bool := x.cmp y < 0 || (x.cmp y = 0 && x.isNeg && !y.isNeg)

/-- FMIN's and FMAX's choice under their NaN rules (10 R183). -/
def FV.pick (nanRule greater : Bool) (x y : FV) : FV :=
  if x.isNan || y.isNan then
    if nanRule then .nan else if x.isNan then y else x
  else if greater then (if x.less y then y else x) else (if y.less x then y else x)

/-- FCMP's condition by ISP code (10 R184). -/
def FV.cond (code : Nat) (x y : FV) : Bool :=
  let n := x.isNan || y.isNan
  match code with
  | 0 => !n && x.cmp y = 0
  | 1 => n || x.cmp y ≠ 0
  | 2 => !n && x.cmp y < 0
  | 3 => !n && x.cmp y ≤ 0
  | 4 => !n && 0 < x.cmp y
  | 5 => !n && 0 ≤ x.cmp y
  | 6 => !n
  | _ => n

/-- A value rounded to an integer, with its sign (04 R70, 10 R183). -/
def FV.toInt (mode : Rnd) : FV → Int
  | .fin neg m e => let k : Int := roundDiv mode neg m e 0; if neg then -k else k
  | _ => 0

/-- FRND: an integral value in its own format; infinities and zeros unchanged (10 R183). -/
def FV.integral (mode : Rnd) : FV → FV
  | .fin neg m e => if 0 ≤ e then .fin neg m e else .fin neg (roundDiv mode neg m e 0) 0
  | x => x

/-- FCLASS's mask (10 R183). -/
def Fmt.classMask (F : Fmt) (x : Nat) : Nat :=
  match F.decode x with
  | .inf neg => if neg then 1 else 2 ^ 7
  | .nan => if x.testBit (F.mb - 1) then 2 ^ 9 else 2 ^ 8
  | .fin neg m _ =>
    if m = 0 then (if neg then 2 ^ 3 else 2 ^ 4)
    else if F.isSub x then (if neg then 2 ^ 2 else 2 ^ 5)
    else if neg then 2 else 2 ^ 6

/-! ## Transcendental functions in fixed point (10 R185): exact results rounded once -/

/-- Fraction bits of the fixed-point work (UNVERIFIED, log 66). -/
def fixP : Nat := 640

/-- Sum of `fuel` terms: `term` starts the series, `next k` makes term k + 1 of term k. -/
def seriesFrom (next : Nat → Int → Int) : Nat → Nat → Int → Int
  | 0, _, _ => 0
  | fuel + 1, k, t => t + seriesFrom next fuel (k + 1) (next k t)

/-- atan(1 / n) in fixed point. -/
def atanInv (n : Nat) : Int :=
  let go := seriesFrom (fun k t =>
    -- t_k = ± 1 / ((2k+1) n^(2k+1)); undo the divisor, step, divide again
    -(t * (2 * k + 1) / ((n * n * (2 * k + 3) : Nat) : Int))) 320 0
  go (((2 ^ (fixP + 64) : Nat) : Int) / (n : Int))

/-- π in fixed point. -/
def fixPi : Int := (16 * atanInv 5 - 4 * atanInv 239) / ((2 ^ 64 : Nat) : Int)

/-- 2 atanh(x) of a fixed-point x below a half in magnitude. -/
def fixAtanh2 (x : Int) : Int :=
  let one : Int := ((2 ^ fixP : Nat) : Int)
  let x2 := x * x / one
  2 * ((List.range 320).foldl (fun (acc : Int × Int) (k : Nat) =>
    (acc.1 + acc.2 / ((2 * k + 1 : Nat) : Int), acc.2 * x2 / one)) (0, x)).1

/-- ln 2 in fixed point: 2 atanh(1/3). -/
def fixLn2 : Int := fixAtanh2 (((2 ^ fixP : Nat) : Int) / 3)

/-- exp of a fixed-point number from 0 to 1. -/
def fixExp (x : Int) : Int :=
  let one : Int := ((2 ^ fixP : Nat) : Int)
  seriesFrom (fun k t => t * x / one / ((k + 1 : Nat) : Int)) 130 0 one

/-- sin of a fixed-point number of magnitude at most 1. -/
def fixSin (x : Int) : Int :=
  let one : Int := ((2 ^ fixP : Nat) : Int)
  seriesFrom (fun k t => -(t * x / one * x / one / (((2 * k + 2) * (2 * k + 3) : Nat) : Int))) 70 0 x
/-- cos of a fixed-point number of magnitude at most 1. -/
def fixCos (x : Int) : Int :=
  let one : Int := ((2 ^ fixP : Nat) : Int)
  seriesFrom (fun k t => -(t * x / one * x / one / (((2 * k + 1) * (2 * k + 2) : Nat) : Int))) 70 0 one

/-- A fixed-point result that is not exact, as a value with a sticky last bit. -/
def ofFix (x : Int) : FV := .fin (x < 0) (2 * x.natAbs + 1) (-(fixP : Int) - 1)

/-- A finite value in fixed point; `e` at least `-fixP`. -/
def toFix (neg : Bool) (m : Nat) (e : Int) : Int := scaled neg m e (-(fixP : Int))

/-- 2^a (10 R185). -/
def fexp2 : FV → FV
  | .nan => .nan
  | .inf neg => if neg then .fin false 0 0 else .inf false
  | .fin neg m e =>
    if m = 0 then .fin false 1 0
    else if 12 < (m.log2 : Int) + e then (if neg then .fin false 1 (-100000) else .fin false 1 100000)
    else
      let x := toFix neg m e
      let one : Int := ((2 ^ fixP : Nat) : Int)
      let n := x / one
      let fr := x % one
      if fr = 0 then .fin false 1 n
      else match ofFix (fixExp (fr * fixLn2 / one)) with
        | .fin s k q => .fin s k (q + n)
        | v => v

/-- log2 a (10 R185). -/
def flog2 : FV → FV
  | .nan => .nan
  | .inf neg => if neg then .nan else .inf false
  | .fin neg m e =>
    if m = 0 then .inf true
    else if neg then .nan
    else
      let k := m.log2
      if m = 2 ^ k then FV.ofInt (k + e) 0 false
      else
        -- z = m / 2^j in [2/3, 4/3)
        let up := 4 * 2 ^ k ≤ 3 * m
        let j : Nat := if up then k + 1 else k
        let one : Int := ((2 ^ fixP : Nat) : Int)
        let d : Int := (m : Int) - ((2 ^ j : Nat) : Int)
        let s : Int := (m : Int) + ((2 ^ j : Nat) : Int)
        let ln := fixAtanh2 (d * one / s)
        ofFix (ln * one / fixLn2 + ((j : Int) + e) * one)

/-- sin a, or cos a, in radians (10 R185). -/
def fsincos (cosine : Bool) : FV → FV
  | .nan | .inf _ => .nan
  | .fin neg m e =>
    if m = 0 then (if cosine then .fin false 1 0 else .fin neg 0 0)
    else
      let x := toFix neg m e
      let half := fixPi / 2
      let n := (2 * x + half) / (2 * half)
      -- the reduced argument with π to the same precision
      let r := x - n * half
      let q := (n + (if cosine then 1 else 0)) % 4
      ofFix (if q = 0 then fixSin r else if q = 1 then fixCos r else if q = 2 then -fixSin r else -fixCos r)

/-! ## Shared-exponent blocks (04 R61, R64) -/

/-- floor(log2) of a finite nonzero magnitude. -/
def FV.exp2 : FV → Int
  | .fin _ m e => (m.log2 : Int) + e
  | _ => 0
def FV.isZero : FV → Bool
  | .fin _ m _ => m = 0
  | _ => false
def FV.isFinite : FV → Bool
  | .fin _ _ _ => true
  | _ => false

/-- sxenc: the block exponent and the mantissas (04 R64). -/
def sxEnc (xs : List FV) (m : Nat) : Nat × List Int :=
  if !xs.all FV.isFinite then (0xFF, xs.map fun _ => 0)
  else
    let nz := xs.filter fun x => !x.isZero
    match nz with
    | [] => (0, xs.map fun _ => 0)
    | x :: rest =>
      let emax := rest.foldl (fun a y => max a y.exp2) x.exp2
      let eb : Int := min (max (emax + 127) 0) 254
      let q : Int := eb - 127 - (m - 2 : Int)
      (eb.toNat, xs.map fun y => match y with
        | .fin neg k e =>
          let r : Int := roundDiv .rne neg k e q
          clampInt (minInt true m) (maxInt true m) (if neg then -r else r)
        | _ => 0)

/-- sxdec of one element (04 R61). -/
def sxDec (eb : Nat) (mant : Int) (m : Nat) : FV :=
  if eb = 0xFF then .nan else FV.ofInt mant ((eb : Int) - 127 - (m - 2 : Int)) false

end Sys2Proof.Machine
end

