-- ==== Sys2Proof/Machine/Mem.lean ====
section
/-!
DEFINITION. Lane accesses to global memory and scratchpads: addresses, the checks of 08 R127, one event per lane
(13 R225), stash fills (12 R210, 13 R233), parking in the operand log and replay from it (08 R141 to R145).
-/
namespace Sys2Proof.Machine

/-! ## What a memory instruction does -/

/-- Bytes a lane accesses. -/
def memWidth : Instr → Nat
  | .ld f | .st f | .lds f | .sts f | .ldk f => widthBytes f.isp
  | .atom f | .atoms f | .red f => if f.isp[4] then 8 else 4
  | .waitmon f => if f.isp[0] then 8 else 4
  | .ldToken _ | .stToken _ => 8
  | _ => 1

/-- The access it makes. -/
def memKind : Instr → AKind
  | .st _ | .sts _ | .stToken _ | .accspill _ => .write
  | .atom _ | .atoms _ | .red _ => .atomic
  | _ => .read

/-- Its address must be a multiple of its width (08 R126). -/
def memAligned : Instr → Bool
  | .atom _ | .atoms _ | .red _ | .waitmon _ => true
  | _ => false

/-- It addresses scratchpad. -/
def memScratch : Instr → Bool
  | .lds _ | .sts _ | .atoms _ => true
  | _ => false

/-- The atomic's comparison value is read through DST (13 R226). -/
def isCas : Instr → Bool
  | .atom f | .atoms f => f.isp.toNat % 16 = 7
  | _ => false

/-- The instruction is in its scalar form (02 R33, 13 R224). -/
def scalarForm (f : Fields) : Bool := !(f.dst.isKind .v || f.sa.isKind .v || f.sb.isKind .v)

/-- A lane's access as read at issue: the record, its exact effective address, and whether its address is poisoned. -/
structure LaneAccess where
  rec_ : LogLane
  ea : Int
  badAddr : Bool
  deriving DecidableEq, Repr

/-- The address a lane forms (08 R124, R150). -/
def Team.laneAccess (t : Team) (r : Rd) (lane : Nat) : LaneAccess :=
  let i := r.i; let f := r.f
  let w := i.widths
  let off : Int := match i with
    | .waitmon _ => 0
    | _ => f.imm.toInt
  let ea : Int := (t.src r f.sa w.2.1 lane : Int) + off
  { ea := ea, badAddr := t.bad f.sa w.2.1 lane
    rec_ := { lane := lane, ea := .ofInt 64 (if memScratch i then ea % 2 ^ 32 else ea)
              data := .ofNat 128 (t.src r f.sb w.2.2 lane)
              cmp := .ofNat 64 (if isCas i then t.src r f.dst w.1 lane else 0)
              poison := t.bad f.sb w.2.2 lane } }

/-! ## Scratchpad addresses (08 R150, R151, 12 R206, R207) -/

/-- Where a scratchpad access lands: the team whose window it is, its core and window, and the offset. -/
structure Spot where
  uid : Nat
  core : Nat
  base : Nat
  off : Nat
  /-- through a window other than the issuing team's own -/
  peer : Bool
  deriving DecidableEq, Repr

/-- The team whose window SPACE 0 names: a trap handler's is the trapped team's (18 R310). -/
def State.windowTeam (s : State) (t : Team) : Option Team :=
  match t.serves with
  | some (uid, _) => s.team? uid
  | none => some t

/-- The team at a position of the cluster of a team (12 R206). -/
def State.peerOf (s : State) (t : Team) (cpos : Nat) : Option Team :=
  match s.grid? t.grid with
  | none => none
  | some g =>
    let n := g.image.clw * g.image.clh
    if t.kind ≠ .grid || n ≤ 1 || n ≤ cpos then none
    else s.allTeams.find? fun x =>
      x.kind == TeamKind.grid && x.grid == t.grid && x.cluster == t.cluster && x.cpos.toNat == cpos

/-- The spot a scratchpad address names, for an access of `w` bytes (R150, R151); none is SB. -/
def State.spot (s : State) (t : Team) (ea : Int) (w : Nat) : Option Spot :=
  if ea < 0 || 2 ^ 32 ≤ ea then none
  else
    let a := ea.toNat
    let space := bitsAt a 28 4; let cpos := bitsAt a 24 4; let off := bitsAt a 0 20
    if bitsAt a 20 4 ≠ 0 then none
    else match s.windowTeam t with
      | none => none
      | some o =>
        match space with
        | 0 => if cpos = 0 && off + w ≤ o.window.size then
            some { uid := o.uid, core := o.core, base := o.window.base, off := off, peer := false } else none
        | 1 => (s.peerOf o cpos).bind fun p =>
            if off + w ≤ p.window.size then
              some { uid := p.uid, core := p.core, base := p.window.base, off := off, peer := p.uid ≠ o.uid } else none
        | 2 => match t.grant with
          | some g =>
            if cpos = 0 && g.live && g.ranges.any (fun r => r.1 ≤ off && off + w ≤ r.1 + r.2) then
              (s.team? g.owner).map fun p =>
                { uid := p.uid, core := p.core, base := p.window.base, off := off, peer := p.uid ≠ t.uid }
            else none
          | none => none
        | _ => none

/-- The scratchpad keys of `w` bytes at a spot. -/
def Spot.keys (p : Spot) (w : Nat) : List Nat := (List.range w).map fun k => scratchKey p.core (p.base + p.off + k)

/-! ## Stash fills (12 R210, 13 R233) -/

/-- The mapping and its sector that hold a window sector, if one does. -/
def Team.stashAt (t : Team) (sector : Nat) : Option (Nat × Stash × Nat) :=
  (((List.range t.stashes.length).zip t.stashes).find? fun p =>
    p.2.win ≤ 16 * sector && 16 * sector < p.2.win + 16 * p.2.sectors).map fun p => (p.1, p.2, sector - p.2.win / 16)

/-- The window sectors an access touches. -/
def Spot.sectors (p : Spot) (w : Nat) : List Nat := sectorsOf ((List.range w).map (p.off + ·))

/-- The class of a fill that cannot be made: PF, or PW of a write (13 R233). -/
def fillClass (cls : Nat) : Nat := if cls = cPW then cPW else cPF

/-- The error of the first fill that an access needs and cannot make. -/
def State.fillError (s : State) (p : Spot) (w : Nat) (kind : AKind) : Option XErr :=
  match s.team? p.uid with
  | none => none
  | some o =>
    if o.stashes.isEmpty then none
    else (p.sectors w).findSome? fun k =>
      match o.stashAt k with
      | none => none
      | some (_, m, n) =>
        if (NMap.find? m.filled n).isSome && !p.peer then none
        else match s.translate o.ctx (o.xlat s) (if kind = .read then .read else .write) (m.glob.toNat + 16 * n) 16 with
          | .ok _ => none
          | .error (.trap c va l e) => some (.trap (fillClass c) va l e)
          | .error (.park va l e) => some (.trap cPF va l e)

/-- Fills the sectors an access touches, marking them dirty if it writes. A peer's access recalls a sector first. -/
def State.fill (s : State) (p : Spot) (w : Nat) (kind : AKind) : State :=
  (p.sectors w).foldl (fun s k =>
    match s.team? p.uid with
    | none => s
    | some o =>
      match o.stashAt k with
      | none => s
      | some (i, m, n) =>
        let s := if p.peer then (s.stashBack o m n).onTeam o.uid (·.unfill i n) else s
        let held := !p.peer && (NMap.find? m.filled n).isSome
        let s := if held then s else
          match s.translate o.ctx (o.xlat s) .read (m.glob.toNat + 16 * n) 16 with
          | .ok pas =>
            let (s, bytes, bad) := s.readGlobal pas
            let s := s.swrite ((List.range 16).map fun j => scratchKey p.core (p.base + 16 * k + j)) bytes bad
            s.onTeam o.uid fun t => { t with stashes := t.stashes.zipIdx.map fun q =>
              if q.2 = i then { q.1 with filled := NMap.insert q.1.filled n (pas.headD 0 / 16) } else q.1 }
          | .error _ => s
        if kind = .read then s
        else s.onTeam o.uid fun t => { t with stashes := t.stashes.zipIdx.map fun q =>
          if q.2 = i then { q.1 with dirty := NSet.add q.1.dirty n } else q.1 }) s

/-- The monitors of the global lines behind the stash sectors that a write touches are told of it (13 R233, 15 R279, 16 R303). -/
def State.noteStash (s : State) (p : Spot) (w : Nat) : State :=
  match s.team? p.uid with
  | none => s
  | some o => (distinct ((p.sectors w).filterMap fun k =>
      (o.stashAt k).bind fun q => (NMap.find? q.2.1.filled q.2.2).map (· / 8))).foldl State.noteLine s

/-! ## The checks of R127 -/

/-- The bytes a lane's access names, or the error of its first failing check (08 R127). -/
def State.checkLane (s : State) (t : Team) (i : Instr) (ea : Int) : Except XErr (List Nat) :=
  let w := memWidth i
  if memScratch i then
    if memAligned i && ea % w ≠ 0 then .error (.trap cAL 0 0 0)
    else match s.spot t ea w with
      | none => .error (.trap cSB 0 0 0)
      | some p => match s.fillError p w (memKind i) with
        | some e => .error e
        | none => .ok (p.keys w)
  else
    match rangeError ea w with
    | some cls => .error (.trap cls 0 0 0)
    | none =>
      if memAligned i && ea % w ≠ 0 then .error (.trap cAL 0 0 0)
      else s.translate t.ctx (t.xlat s) (memKind i) ea.toNat w

/-! ## Performing one lane -/

/-- The new value of an atomic's word of `w` bits (13 R229). -/
def atomicNew (op w old b cmp : Nat) : Nat :=
  match op with
  | 0 => (old + b) % 2 ^ w
  | 1 => Nat.min old b
  | 2 => Nat.max old b
  | 3 => old &&& b
  | 4 => old ||| b
  | 5 => old ^^^ b
  | 6 => b
  | 7 => if old = cmp then b else old
  | 8 => if b ≤ old then 0 else old + 1
  | 9 => if old = 0 || b < old then b else old - 1
  | 10 =>
    let F := if w = 64 then fmtF64 else fmtF32
    F.round .rne false ((F.decode old).add .rne (F.decode b))
  | 11 => if signed w b < signed w old then b else old
  | _ => if signed w old < signed w b then b else old

/-- The atomic operation of an instruction. -/
def atomicOp : Instr → Option Nat
  | .atom f | .atoms f | .red f => some (f.isp.toNat % 16)
  | _ => none

/-- Performs one lane's access at the bytes named: the value read, and its poison. -/
def State.performLane (s : State) (t : Team) (i : Instr) (x : LogLane) (keys : List Nat) : State × Nat × Bool :=
  let w := memWidth i
  let spot := if memScratch i then s.spot t x.ea.toNat w else none
  let s := match spot with
    | some p => s.fill p w (memKind i)
    | none => s
  let (s, bytes, bad) : State × List Byte × Bool :=
    if memScratch i then (s, s.sread keys) else s.readGlobal keys
  let old := leNat bytes
  let put (v : Nat) : State :=
    if memScratch i then
      let s := s.swrite keys (leBytes w v) x.poison
      match spot with
      | some p => s.noteStash p w
      | none => s
    else s.gwrite keys (leBytes w v) x.poison
  let done (s : State) : State := if memScratch i then s else s.touch t.core keys (memKind i ≠ .read)
  match atomicOp i with
  | some op => (done (put (atomicNew op (8 * w) old (x.data.toNat % 2 ^ (8 * w)) (x.cmp.toNat % 2 ^ (8 * w)))), old, bad)
  | none => if memKind i = .write then (done (put (x.data.toNat % 2 ^ (8 * w))), old, bad) else (done s, old, bad)

/-- A loaded value as its destination takes it (13 R223, R229). -/
def loadValue (i : Instr) (scalar : Bool) (x : Nat) : Nat :=
  match i with
  | .ld f | .lds f =>
    if f.isp[3] then wrap (if scalar then 64 else 32) (signed (8 * widthBytes f.isp) x) else x
  | _ => x

/-- Writes a lane's loaded value and its poison to the destination. -/
def State.putLoaded (s : State) (uid : Nat) (i : Instr) (f : Fields) (lane v : Nat) (bad : Bool) : State :=
  let k := i.widths.1
  match f.dst with
  | .s n => s.onTeam uid fun t => { t with regs := t.regs.setSs n.toNat (Nat.max k 2) (loadValue i true v) bad }
  | .h n => s.onTeam uid fun t => { t with regs := t.regs.setH n.toNat (.ofNat 64 v) (!s.completed t.ctx (.ofNat 64 v)) }
  | d => s.onTeam uid fun t => t.putLane d k lane { val := loadValue i false v, bad := bad }

/-! ## Latency (12 R220, DESIGN CHOICE, log 3) -/

/-- Typical cycles of a path, unless the device's choice gives others. -/
def State.delay (s : State) (typical : Nat) : Nat := if s.choice / 4 = 0 then typical else s.choice / 4

/-- Cycles of a load of the bytes. -/
def State.loadCycles (s : State) (t : Team) (i : Instr) (keys : List Nat) : Nat :=
  match i, keys with
  | .ldk _, _ => 12
  | _, [] => 20
  | _, k :: _ =>
    if memScratch i then s.delay (if k / 2 ^ 20 = t.core then 20 else 70)
    else if (NMap.find? (s.core t.core).l1 (k / 128)).isSome then s.delay 30
    else if NSet.mem s.llc (k / 128) then s.delay 90
    else s.delay (if inPool k then 1300 else if 0x100000000000 ≤ k then 700 else 520)

/-- An access reads bytes of the pool that the device does not hold. -/
def State.viaFabric (s : State) (i : Instr) (keys : List Nat) : Bool :=
  !memScratch i && keys.any fun k => inPool k && !s.holdsSector (k / 16)

/-! ## The operand log (08 R141 to R145) -/

/-- Marks a destination empty with no result due. -/
def Team.markEmpty (t : Team) (dst : Opnd) (k : Nat) (groups : List Nat) : Team :=
  match dst with
  | .v n => { t with regs := groups.foldl (fun r g => (List.range k).foldl (fun r j => r.markV g (n.toNat + j) true) r) t.regs }
  | .s n => { t with regs := (List.range (sCount k)).foldl (fun r j => r.markS (n.toNat + j) true) t.regs }
  | .h n => { t with regs := t.regs.setH n.toNat 0 true }
  | _ => t

/-- Parks lanes of an instruction in the operand log, with a fault record of the core for each walk that has found an invalid entry (08
R138, R139, R141); its destination is marked empty in their groups. -/
def State.park (s : State) (c : Cur) (t : Team) (i : Instr) (f : Fields) (k : AKind) (lanes : List LogLane) (ws : List Parked)
    (gather : List (Nat × U64) := []) : State :=
  let (id, s) := s.fresh
  let live := (s.core t.core).oplog.map (·.id)
  let s := s.onTeam c.uid fun t =>
    { t.markEmpty f.dst i.widths.1 (distinct (lanes.map (·.lane / 32))) with
      logAfter := NMap.insert (t.logAfter.filter fun p => live.contains p.1) id c.mask }
  let x : LogEntry := { id := id, uid := c.uid, e := c.e, mask := c.mask, word := c.word, pc := c.pc, lanes := lanes, gather := gather
                        entries := distinct (ws.map (·.entry)) }
  (s.onCore t.core fun o => { o with oplog := o.oplog ++ [x] }).parkWalks t.ctx (srcCore t.core) (ws.map fun w => (w, k))

/-- The instruction parks: in the operand log, and its split goes on; a group under REPLAY stays in TRAP, to try again (18 R315). -/
def State.parkOr (s : State) (c : Cur) (t : Team) (i : Instr) (f : Fields) (k : AKind) (lanes : List LogLane) (ws : List Parked)
    (gather : List (Nat × U64) := []) : State :=
  if c.replay.isSome then s.parkWalks t.ctx (srcCore t.core) (ws.map fun w => (w, k))
  else s.park c t i f k lanes ws gather

/-! ## Passes of the vector forms -/

/-- The accesses of the active lanes of a set in a group. -/
def Team.groupAccesses (t : Team) (r : Rd) (m : Mask) (g : Nat) : List LaneAccess :=
  ((Mask.lanesOf m g).filter (t.guard r.f.grd)).map (t.laneAccess r)

/-- The trap of a pass (08 R127): the class of the lowest step found in a lane, and the lanes that have it. -/
def passTrap (g : Nat) (cs : List (LaneAccess × Except XErr (List Nat))) : Option TrapOf :=
  let errs := cs.filterMap fun p => match p.2 with
    | .error (.trap c _ l _) => some (p.1, c, l)
    | _ => none
  match errs with
  | [] => none
  | e :: rest =>
    let cls := rest.foldl (fun b x => if checkStep x.2.1 < checkStep b then x.2.1 else b) e.2.1
    let mine := errs.filter (·.2.1 = cls)
    mine.head?.map fun h =>
      { group := g, cls := cls, detail := h.2.2, ea := h.1.rec_.ea
        mask := mine.foldl (fun m x => m ||| GMask.one (x.1.rec_.lane % 32)) 0 }

/-- Poisoned data bound for the pool window is consumed (13 R226). -/
def poolPoison (i : Instr) (cs : List (LaneAccess × Except XErr (List Nat))) : Bool :=
  !memScratch i && memKind i ≠ .read && cs.any fun p => match p.2 with
    | .ok pas => p.1.rec_.poison && pas.any inPool
    | .error _ => false

/-- A write of the pass meets a page under migration (15 R285). -/
def State.meetsLock (s : State) (i : Instr) (cs : List (LaneAccess × Except XErr (List Nat))) : Bool :=
  !memScratch i && memKind i ≠ .read && cs.any fun p => match p.2 with
    | .ok pas => pas.any s.locked
    | .error _ => false

/-- The split whose instruction holds a lane. -/
def Team.splitOf (t : Team) (lane : Nat) : Option Nat := t.entries.find? fun e => Mask.has (t.split e).mask lane

/-- A lane of WAITMON has read its word: its split watches it; poison is consumed (16 R303). -/
def State.watch (s : State) (uid : Nat) (f : Fields) (x : LogLane) (pa v : Nat) (bad : Bool) : State :=
  match (s.team? uid).bind fun t => (t.splitOf x.lane).map fun e => (t, e) with
  | none => s
  | some (t, e) =>
    if bad then s.killGroups uid (if scalarForm f then GMask.list (Mask.groups (t.split e).mask) else [x.lane / 32]) cPOISON
    else s.onSplit uid e fun y => { y with mon := NMap.insert y.mon x.lane (pa, x.data.setWidth 64, .ofNat 64 v) }

/-- What a lane has read goes to its destination, or to what its split watches. -/
def State.putRead (s : State) (uid : Nat) (i : Instr) (f : Fields) (x : LogLane) (keys : List Nat) (v : Nat) (bad : Bool) : State :=
  match i with
  | .waitmon _ => s.watch uid f x (keys.headD 0) v bad
  | _ => if f.dst = .none then s else s.putLoaded uid i f x.lane v bad

/-- Performs the lanes of a list in order, writing results. -/
def State.performLanes (s : State) (uid : Nat) (i : Instr) (f : Fields) :
    List (LaneAccess × List Nat) → State
  | [] => s
  | (a, keys) :: rest =>
    match s.team? uid with
    | none => s
    | some t =>
      let (s, v, bad) := s.performLane t i a.rec_ keys
      let s := if memScratch i then s else s.keepAccess t.ctx (t.xlat s) (memKind i) a.ea.toNat (memWidth i)
      (s.putRead uid i f a.rec_ keys v bad).performLanes uid i f rest

/-- Performs the lanes of a pass that two splits share, in order (09 R161, 15 R280). -/
def State.performShared (s : State) : List PassLane → State
  | [] => s
  | x :: rest =>
    match s.team? x.uid, decode x.word with
    | some _, .ok i =>
      match i.fields? with
      | some f => (s.performLanes x.uid i f
          [({ rec_ := x.lane, ea := x.ea, badAddr := false }, x.keys)]).performShared rest
      | none => s.performShared rest
    | _, _ => s.performShared rest

/-- Puts a lane into its place by `$tlane`. -/
def insertLane (x : PassLane) : List PassLane → List PassLane
  | [] => [x]
  | y :: rest => if x.lane.lane < y.lane.lane then x :: y :: rest else y :: insertLane x rest

/-- The lanes of a pass perform; those of a pass shared with the split that issues next wait for its lanes, and that split's pass performs
the lanes of both in ascending `$tlane` order (09 R161, 13 R225). -/
def State.performPass (s : State) (c : Cur) (i : Instr) (f : Fields) (oks : List (LaneAccess × List Nat)) : State :=
  let own := oks.map fun p => { uid := c.uid, word := c.word, lane := p.1.rec_, ea := p.1.ea, keys := p.2 : PassLane }
  if c.shared then { s with passLanes := own }
  else if s.passLanes.isEmpty then s.performLanes c.uid i f oks
  else { s with passLanes := [] }.performShared (s.passLanes.foldr insertLane own)

/-- `$poison` of the lanes that read registers for a memory instruction: `act` of the lanes `all` whose guard it reads (19 R334). -/
def Team.readMem (t : Team) (i : Instr) (f : Fields) (all act : Mask) : Team :=
  let w := i.widths
  let bad := (Mask.list act).filter fun l => t.bad f.sb w.2.2 l || (isCas i && t.bad f.dst w.1 l)
  let read : Mask := if f.grd ≠ .always then all else if opndIsReg f.sa || opndIsReg f.sb || isCas i then act else 0
  { t with regs := t.regs.setFlag read (Mask.ofList bad) }

/-- The accesses of a pass that a park leaves to be recorded: of the pass, those from the lowest parked lane on; then those of the
instruction's later passes but for the groups in which a poisoned guard or address is consumed (08 R141, 19 R336). -/
def Team.parkedLanes (t : Team) (c : Cur) (r : Rd) (g : Nat) (now : List LaneAccess) : List LogLane × List Nat :=
  let due := t.split c.e |>.due
  let gs := if c.replay.isSome then [] else (GMask.list (Mask.groups due)).filter (g < ·)
  let later := gs.map fun k => (k, t.groupAccesses r due k)
  let eaten (k : Nat) : Bool := (Mask.lanesOf due k).any (t.guardBad r.f.grd)
  let dead := (later.filter fun p => p.2.any (·.badAddr) || eaten p.1).map (·.1)
  ((now ++ (later.filter fun p => !dead.contains p.1).flatMap (·.2)).map (·.rec_), dead)

/-- The walks of a pass that have found an invalid entry, and the place of the lowest lane that parks. -/
def parkedWalks (cs : List (LaneAccess × Except XErr (List Nat))) : List Parked :=
  cs.filterMap fun p => match p.2 with
    | .error (.park va l e) => some { va := va, level := l, entry := e }
    | _ => none
def firstParked (cs : List (LaneAccess × Except XErr (List Nat))) : Option Nat :=
  cs.findIdx? fun p => match p.2 with
    | .error _ => true
    | .ok _ => false

/-- The accesses of a pass that have passed their checks. -/
def okAccesses (cs : List (LaneAccess × Except XErr (List Nat))) : List (LaneAccess × List Nat) :=
  cs.filterMap fun p => match p.2 with
    | .ok ks => some (p.1, ks)
    | .error _ => none

/-- The walks of a pass' accesses take table entries back from stashes (12 R210). -/
def State.recallWalks (s : State) (t : Team) (i : Instr) (accs : List LaneAccess) : State :=
  if memScratch i then s
  else accs.foldl (fun s a => s.recallWalk t.ctx (t.xlat s) (memKind i) a.ea.toNat (memWidth i)) s

/-- One pass over group `g`: whether the instruction goes on with its later passes. -/
def State.memPass (s : State) (c : Cur) (t : Team) (i : Instr) (f : Fields) (g : Nat) : Bool × State :=
  let r : Rd := { gts := s.gts, e := c.e, i := i, f := f }
  let accs := t.groupAccesses r (c.lanes t) g
  if accs.any (·.badAddr) then (true, s.killGroup c.uid g cPOISON)
  else
    let cs := accs.map fun a => (a, s.checkLane t i a.ea)
    let s := s.recallWalks t i accs
    match passTrap g cs with
    | some x => (false, s.trapGroups c [x])
    | none =>
      if poolPoison i cs then (true, s.killGroup c.uid g cPOISON)
      else if s.meetsLock i cs then (false, s.wait c .wait .retry)
      else
        match firstParked cs with
        | none =>
          let oks := okAccesses cs
          let later := (GMask.list (Mask.groups (c.due t &&& ~~~ c.lanes t))).length
          let n := maxList (oks.map fun p => s.loadCycles t i p.2) + later
          let far := oks.foldl (fun m p => if s.viaFabric i p.2 then m ||| GMask.one (p.1.rec_.lane % 32) else m) 0
          let earlier := t.activeIn f.grd (t.split c.e).mask (GMask.list (t.split c.e).passed)
          let s := s.performPass c i f oks
          (true, if f.dst = .none || oks.isEmpty then s
            else s.markPending c.uid f.dst i.widths.1 [g] (s.time + cycles n) far earlier)
        | some k =>
          if c.replay.isSome then (false, s.parkOr c t i f (memKind i) [] (parkedWalks cs))
          else
            let s := s.performPass c i f (okAccesses (cs.take k))
            let (lanes, dead) := t.parkedLanes c r g (accs.drop k)
            let s := s.parkOr c t i f (memKind i) lanes (parkedWalks cs)
            (false, (s.killGroups c.uid dead cPOISON).finishAll c)

/-- The passes of a memory instruction that are being performed, in ascending group order. -/
def State.memPasses (c : Cur) (i : Instr) (f : Fields) : List Nat → State → State
  | [], s => s.finish c
  | g :: rest, s =>
    match s.team? c.uid with
    | none => s
    | some t =>
      match s.memPass c t i f g with
      | (true, s) => (s.pass c (GMask.one g)).memPasses c i f rest
      | (false, s) => s

/-- The groups of a set of lanes in which no lane's guard bit is poisoned, with the lanes whose guard holds: those whose registers a
memory instruction reads. -/
def Team.readers (t : Team) (g : Guard) (m : Mask) : Mask :=
  let eaten := Mask.groups (t.guardPoison g m)
  t.guarded g (Mask.inGroups m (Mask.groups m &&& ~~~ eaten))

/-- The vector form of a memory instruction. -/
def memVector (i : Instr) (f : Fields) (s : State) : Host.Outcome State Fault Refusal :=
  issue i f s fun c t => s.eatGuard c t f.grd fun s t =>
    let m := t.guarded f.grd (c.lanes t)
    s.gated c t (fun u g => u.gate g (readsOf i f) [(f.dst, i.widths.1)]) (t.readers f.grd (c.due t)) false <|
      (s.setTeam (t.readMem i f (c.lanes t) m)).memPasses c i f (GMask.list (Mask.groups m))

/-! ## Scalar forms -/

/-- A trap of every group of the split at a uniform instruction, with an effective address (09 R166). -/
def State.trapUniform (s : State) (c : Cur) (t : Team) (cls : Nat) (ea : U64) (detail : Nat) : State :=
  s.trapMask c (c.due t) cls ea detail

/-- What a uniform access of the lowest lane meets: its bytes, or the state in which it has trapped, or has read its registers and
parked. -/
def State.uniformAccess (s : State) (c : Cur) (t : Team) (i : Instr) (f : Fields) (a : LaneAccess) : State ⊕ List Nat :=
  match s.checkLane t i a.ea with
  | .error (.trap cls _ l _) => .inl ((s.recallWalks t i [a]).trapLowest c t cls a.rec_.ea l)
  | .error (.park va l e) =>
    let ws : List Parked := [{ va := va, level := l, entry := e }]
    .inl (if c.replay.isSome then s.parkOr c t i f (memKind i) [] ws
      else ((s.setTeam (t.readMem i f (c.lanes t) (c.lanes t))).parkOr c t i f (memKind i) [a.rec_] ws).finish c)
  | .ok keys => .inr keys

/-- The scalar form of a memory instruction: one access of the split's lowest lane (09 R166, 13 R227). -/
def memScalar (i : Instr) (f : Fields) (s : State) : Host.Outcome State Fault Refusal :=
  uniform i f s fun c t l =>
    let emptyH : Bool := match f.dst with
      | .h n => NSet.mem t.regs.hEmpty n.toNat
      | _ => false
    match t.gate (l / 32) (readsOf i f) [(f.dst, i.widths.1)] with
    | .trap d => s.trapAll c t cEMPTYRD d
    | .block => s.wait c .wait .regs
    | .go =>
      if emptyH then s.wait c .wait .regs
      else
        let r : Rd := { gts := s.gts, e := c.e, i := i, f := f }
        let a := t.laneAccess r l
        if a.badAddr then s.consume c t
        else match s.uniformAccess c t i f a with
          | .inl s => s
          | .inr keys =>
            let cs := [(a, (.ok keys : Except XErr (List Nat)))]
            if poolPoison i cs then s.consume c t
            else if s.meetsLock i cs then s.wait c .wait .retry
            else
              let n := s.loadCycles t i keys
              let far : GMask := if s.viaFabric i keys then 1 else 0
              let s := s.setTeam (t.readMem i f (c.lanes t) (c.lanes t))
              let s := s.performPass c i f [(a, keys)]
              let s := if f.dst = .none then s else s.markPending c.uid f.dst i.widths.1 [] (s.time + cycles n) far
              s.finish c

/-- A memory instruction in its vector or scalar form. -/
def memOp (i : Instr) (f : Fields) (s : State) : Host.Outcome State Fault Refusal :=
  if scalarForm f then memScalar i f s else memVector i f s

end Sys2Proof.Machine
end

