-- ==== Sys2Proof/Machine/MemInstr.lean ====
section
/-!
DEFINITION. The memory instructions: loads, stores, atomics, prefetch and cache control, stash and IFLUSH
(13 R227 to R235, R239).
-/
namespace Sys2Proof.Machine

/-- LD (R227). -/
def execLd (f : Fields) (s : State) := memOp (.ld f) f s
/-- ST (R227). -/
def execSt (f : Fields) (s : State) := memOp (.st f) f s
/-- LDS (R227). -/
def execLds (f : Fields) (s : State) := memOp (.lds f) f s
/-- STS (R227). -/
def execSts (f : Fields) (s : State) := memOp (.sts f) f s
/-- ATOM (R229). -/
def execAtom (f : Fields) (s : State) := memOp (.atom f) f s
/-- ATOMS (R229). -/
def execAtoms (f : Fields) (s : State) := memOp (.atoms f) f s
/-- RED (R229). -/
def execRed (f : Fields) (s : State) := memOp (.red f) f s
/-- LD.64 of a future token into an h register (R239): full if its job has completed or the token is invalid. -/
def execLdToken (f : Fields) (s : State) := memScalar (.ldToken f) f s

/-- ST.64 of an h register's token (R239): never waits; with FE set it traps EMPTYRD while the job is pending (DEDUCED, log 22). -/
def execStToken (f : Fields) (s : State) : Host.Outcome State Fault Refusal :=
  let i : Instr := .stToken f
  uniform i f s fun c t l =>
    let pending : Bool := match f.sb with
      | .h n => f.feB && !s.completed t.ctx (t.regs.getH n.toNat)
      | _ => false
    match t.gate (l / 32) [{ o := f.sa, k := 2, fe := f.feA, detail := 0 }] [] with
    | .trap d => s.trapAll c t cEMPTYRD d
    | .block => s.wait c .wait .regs
    | .go =>
      if pending then s.trapAll c t cEMPTYRD 1
      else
        let a := t.laneAccess { gts := s.gts, e := c.e, i := i, f := f } l
        if a.badAddr then s.consume c t
        else match s.uniformAccess c t i f a with
          | .inl s => s
          | .inr keys =>
            if s.meetsLock i [(a, .ok keys)] then s.wait c .wait .retry
            else ((s.setTeam (t.readClean f (c.lanes t))).performPass c i f [(a, keys)]).finish c

/-! ## LDK (R228) -/

/-- Device addresses of `w` bytes of a grid's constant section at an offset, through the frames kept since the launch. -/
def Grid.constBytes (g : Grid) (off w : Nat) : List Nat :=
  (List.range w).map fun k =>
    let a := g.image.constOff + off + k
    g.constFrames.getD (a / 2 ^ 16 - g.image.constOff / 2 ^ 16) 0 + a % 2 ^ 16

/-- The offset that LDK may use: not negative, a multiple of 4, inside the section. -/
def ldkOk (size : Nat) (imm : BitVec 24) (w : Nat) : Bool :=
  0 ≤ imm.toInt && imm.toInt % 4 = 0 && imm.toInt + w ≤ size

/-- LDK: one read of the constant section for the split, written to s or to every lane of the split. A trap handler group reads the
constants of the trapped team's grid, though its image has a section of its own (DESIGN CHOICE, log 67). Of the contents of a sector that
is written while grids run, old or new (01 R16), it reads the new ones (DESIGN CHOICE, log 68). -/
def execLdk (f : Fields) (s : State) : Host.Outcome State Fault Refusal :=
  let i : Instr := .ldk f
  let w := memWidth i
  uniform i f s fun c t l =>
    let m := c.lanes t
    let groups := GMask.list (Mask.groups m)
    match s.grid? t.grid with
    | none => s.trapAll c t cILLOP
    | some g =>
      if !ldkOk g.image.constSz f.imm w then s.trapAll c t cILLOP
      else if (t.gates [] [(f.dst, i.widths.1)] (if f.dst.isKind .v then groups else [l / 32])).isSome then
        s.wait c .wait .regs
      else
        let (s, bytes, bad) := s.readGlobal (g.constBytes f.imm.toNat w)
        let s := (if f.dst.isKind .v then Mask.list m else [l]).foldl
          (fun s k => s.putLoaded c.uid i f k (leNat bytes) bad) s
        (s.markPending c.uid f.dst i.widths.1 groups (s.time + cycles 12)).finishRead c f

/-! ## PREF and CCTL (R230, R231) -/

/-- Brings a line into the core's L1 data cache or its home slice; not from the pool while the fabric port's link is down. -/
def State.prefetch (s : State) (core : Nat) (llc : Bool) (pa : Nat) : State :=
  let line := pa / 128
  if inPool pa && !s.fabricUp then s
  else if llc then
    let s := if inPool pa then s.track line else s
    { s with llc := NSet.add s.llc line }
  else s.touchLine core line 0xFF 0

/-- CCTL on a line of the core's L1 data cache: .WB cleans it, .INV and .WBINV remove it. -/
def State.cacheControl (s : State) (core : Nat) (remove : Bool) (pa : Nat) : State :=
  s.onCore core fun c =>
    if remove then { c with l1 := NMap.erase c.l1 (pa / 128) }
    else match NMap.find? c.l1 (pa / 128) with
      | some x => { c with l1 := NMap.insert c.l1 (pa / 128) (x.1, 0) }
      | none => c

/-- One lane of PREF or CCTL: an invalid or trapping translation makes it do nothing. -/
def State.lineLane (s : State) (t : Team) (i : Instr) (act : State → Nat → Nat → State) (a : LaneAccess) : State :=
  match s.checkLane t i a.ea with
  | .ok (pa :: _) => act s t.core pa
  | _ => s

/-- One pass of PREF or CCTL over group `g` of the lanes `m`: whether the instruction goes on. -/
def State.linePass (s : State) (c : Cur) (t : Team) (i : Instr) (f : Fields) (trapping : Bool) (act : State → Nat → Nat → State)
    (m : Mask) (g : Nat) : Bool × State :=
  let accs := t.groupAccesses { gts := s.gts, e := c.e, i := i, f := f } m g
  if t.kind ≠ .kite && accs.any (·.badAddr) then (true, s.killGroup c.uid g cPOISON)
  else match (if trapping then passTrap g (accs.map fun a => (a, s.checkLane t i a.ea)) else none) with
    | some x => (false, s.trapGroups c [x])
    | none => (true, (accs.filter fun a => !a.badAddr).foldl (fun s a => s.lineLane t i act a) s)

def State.linePasses (c : Cur) (i : Instr) (f : Fields) (trapping : Bool) (act : State → Nat → Nat → State) (m : Mask) :
    List Nat → State → State
  | [], s => s.finish c
  | g :: rest, s =>
    match s.team? c.uid with
    | none => s
    | some t =>
      match s.linePass c t i f trapping act m g with
      | (true, s) => (s.pass c (GMask.one g)).linePasses c i f trapping act m rest
      | (false, s) => s

/-- PREF and CCTL lane by lane: `trapping` of CCTL; PREF drops a lane that would fault, park or, for a kite, read poison. -/
def lineOp (i : Instr) (f : Fields) (trapping : Bool) (act : State → Nat → Nat → State) (s : State) :
    Host.Outcome State Fault Refusal :=
  if scalarForm f then
    uniform i f s fun c t l =>
      match t.gate (l / 32) (readsOf i f) [] with
      | .trap d => s.trapAll c t cEMPTYRD d
      | .block => s.wait c .wait .regs
      | .go =>
        let a := t.laneAccess { gts := s.gts, e := c.e, i := i, f := f } l
        if a.badAddr then (if t.kind = .kite then s.finish c else s.consume c t)
        else
          let read := s.setTeam (t.readClean f (c.lanes t))
          match s.checkLane t i a.ea with
          | .error (.trap cls _ lv _) => if trapping then s.trapLowest c t cls a.rec_.ea lv else read.finish c
          | _ => (read.lineLane t i act a).finish c
  else
    issue i f s fun c t =>
      let body (s : State) (t : Team) : State :=
        let m := t.guarded f.grd (c.lanes t) &&& ~~~ t.guardPoison f.grd (c.lanes t)
        s.gated c t (fun u g => u.gate g (readsOf i f) []) (t.readers f.grd (c.due t)) false <|
          (s.setTeam (t.readMem i f (c.lanes t) m)).linePasses c i f trapping act m (GMask.list (Mask.groups m))
      if t.kind = .kite then body s t else s.eatGuard c t f.grd body

/-- PREF (R230). -/
def execPref (f : Fields) (s : State) := lineOp (.pref f) f false (fun s core pa => s.prefetch core f.isp[0] pa) s
/-- CCTL (R231). -/
def execCctl (f : Fields) (s : State) := lineOp (.cctl f) f true (fun s core pa => s.cacheControl core (f.isp ≠ 1) pa) s

/-! ## Stash (R232 to R234) -/

/-- Ranges overlap. -/
def overlaps (a n b m : Nat) : Bool := a < b + m && b < a + n

/-- STASH's checks before translation, in the order of R127: the class, and the address it reports. The window is that of the team which
SPACE 0 names (18 R310). -/
def stashError (t : Team) (a b n : Nat) : Option (Nat × Nat) :=
  let off := a % 2 ^ 20
  match rangeError b (16 * n) with
  | some cls => some (cls, b)
  | none =>
    if b % 16 ≠ 0 then some (cAL, b)
    else if a / 2 ^ 20 ≠ 0 || off % 16 ≠ 0 || t.window.size < off + 16 * n || 8 ≤ t.stashes.length ||
      t.stashes.any (fun m => overlaps off (16 * n) m.win (16 * m.sectors) ||
        overlaps b (16 * n) m.glob.toNat (16 * m.sectors)) then some (cSB, a)
    else none

/-- Translates a page of each 64 KiB of a range: the error of the lowest step, if any. -/
def State.rangeFault (s : State) (ctx : Nat) (x : Xlat) (k : AKind) (va n : Nat) : Option XErr :=
  let pages := (List.range ((va % 2 ^ 16 + n - 1) / 2 ^ 16 + 1)).map fun p => Nat.max va ((va / 2 ^ 16 + p) * 2 ^ 16)
  pages.foldl (fun e p =>
    match (s.walk ctx x k p).1, e with
    | .ok _, e => e
    | .error x, none => some x
    | .error x, some y => some (firstErr y x)) none

/-- A mapping goes live (R232): it holds no filled sector. -/
def Team.mapStash (t : Team) (a b n : Nat) : Team :=
  { t with stashes := t.stashes ++ [{ win := a % 2 ^ 20, glob := .ofNat 64 b, sectors := n, filled := [], dirty := [] }] }

/-- STASH: maps n sectors of the team's window onto the global range at b; its walks take table entries back from stashes (R210). -/
def execStash (f : Fields) (s : State) : Host.Outcome State Fault Refusal :=
  let i : Instr := .stash f
  uniform i f s fun c t l =>
    match t.gate (l / 32) (readsOf i f) [] with
    | .trap d => s.trapAll c t cEMPTYRD d
    | .block => s.wait c .wait .regs
    | .go =>
      if t.bad f.sa 1 l || t.bad f.sb 2 l then s.consume c t
      else
        let o := (s.windowTeam t).getD t
        let r : Rd := { gts := s.gts, e := c.e, i := i, f := f }
        let a := t.src r f.sa 1 l; let b := t.src r f.sb 2 l; let n := f.imm.toNat
        if 32512 < n then s.trapUniform c t cSB (.ofNat 64 a) 0
        else match stashError o a b n with
          | some (cls, ea) => s.trapUniform c t cls (.ofNat 64 ea) 0
          | none =>
            let s := s.recallWalk t.ctx (t.xlat s) .read b (16 * n)
            let read := s.onTeam c.uid (·.readClean f (c.lanes t))
            match s.rangeFault t.ctx (t.xlat s) .read b (16 * n) with
            | some (.trap cls va lv _) => s.trapUniform c t cls (.ofNat 64 va) lv
            | some (.park va lv e) =>
              let ws : List Parked := [{ va := va, level := lv, entry := e }]
              let x : LogLane := { lane := l, ea := .ofNat 64 b, data := .ofNat 128 a, cmp := 0, poison := false }
              if c.replay.isSome then s.parkOr c t i f .read [] ws else (read.parkOr c t i f .read [x] ws).finish c
            | none => (read.onTeam o.uid fun t => t.mapStash a b n).finish c

/-- The number of the team's mapping whose first scratchpad address is a. -/
def Team.stashNamed (t : Team) (a : Nat) : Option (Nat × Stash) :=
  ((t.stashes.zipIdx).find? fun p => p.1.win = a).map fun p => (p.2, p.1)

/-- Writes back the dirty sectors of a mapping (R234). -/
def State.stashClean (s : State) (uid i : Nat) : State :=
  match s.team? uid with
  | none => s
  | some t =>
    match t.stashes[i]? with
    | none => s
    | some m =>
      let s := m.filled.foldl (fun s k => s.stashBack t m k.1) s
      s.onTeam uid fun t => { t with stashes := t.stashes.zipIdx.map fun q =>
        if q.2 = i then { q.1 with dirty := [] } else q.1 }

/-- UNSTASH and STASHWB (R234): the mapping's dirty sectors are written back; `ends` ends it and zeroes its window range. -/
def stashOp (i : Instr) (f : Fields) (ends : Bool) (s : State) : Host.Outcome State Fault Refusal :=
  uniform i f s fun c t l =>
    match t.gate (l / 32) (readsOf i f) [] with
    | .trap d => s.trapAll c t cEMPTYRD d
    | .block => s.wait c .wait .regs
    | .go =>
      if t.bad f.sa 1 l then s.consume c t
      else
        let a := t.src { gts := s.gts, e := c.e, i := i, f := f } f.sa 1 l
        let o := (s.windowTeam t).getD t
        match o.stashNamed a with
        | none => s.trapUniform c t cSB (.ofNat 64 a) 0
        | some (k, m) =>
          let s := (s.setTeam (t.readClean f (c.lanes t))).stashClean o.uid k
          let s := if ends then
              let keys := (List.range (16 * m.sectors)).map fun j => scratchKey o.core (o.window.base + m.win + j)
              (s.swrite keys (keys.map fun _ => 0) false).onTeam o.uid fun t => { t with stashes := t.stashes.eraseIdx k }
            else s
          s.finish c
def execUnstash (f : Fields) (s : State) := stashOp (.unstash f) f true s
def execStashwb (f : Fields) (s : State) := stashOp (.stashwb f) f false s

/-! ## IFLUSH (R235) -/

/-- IFLUSH: the covered lines leave the instruction caches that hold words of the context. -/
def execIflush (f : Fields) (s : State) : Host.Outcome State Fault Refusal :=
  let i : Instr := .iflush f
  uniform i f s fun c t l =>
    match t.gate (l / 32) (readsOf i f) [] with
    | .trap d => s.trapAll c t cEMPTYRD d
    | .block => s.wait c .wait .regs
    | .go =>
      if t.bad f.sa 2 l then s.consume c t
      else
        let a := t.src { gts := s.gts, e := c.e, i := i, f := f } f.sa 2 l
        let n := f.imm.toNat
        match rangeError a n with
        | some cls => s.trapUniform c t cls (.ofNat 64 a) 0
        | none =>
          let hit (x : ICell) : Bool := x.ctx = t.ctx && overlaps (x.pc / 128 * 128) (x.pc % 128 + 12)
            (a / 128 * 128) (a % 128 + n)
          let drop (k : Core) : Core := { k with icache := k.icache.filter fun x => !hit x }
          let cores : NMap Core := s.cores.map fun (k : Nat × Core) => (k.1, drop k.2)
          let s : State := { s with cores := cores }
          (s.onTeam c.uid fun t => t.readClean f (c.lanes t)).finish c

end Sys2Proof.Machine
end

