-- ==== Sys2Proof/Machine/Jobs.lean ====
section
/-!
DEFINITION. What engine jobs share: their order by footprints (15 R281, R282), the phases of the barriers they report to
(16 R292, R295), and posting (13 R236, R240).
-/
namespace Sys2Proof.Machine

/-! ## Shed classes and the cut class (20 R355, R361) -/

/-- The class is shed at the current level. -/
def State.classShed (s : State) (cls : Nat) : Bool := 8 ≤ cls + s.power.level

/-- The cut class that an allowance gives (20 R361). -/
def QuadPower.cutOf (p : QuadPower) (step : Nat) : Nat :=
  if 0 ≤ p.alw then 7 else 7 - Nat.min 7 ((p.alw.natAbs + step - 1) / Nat.max 1 step)

/-- The cut class of a quad in this cycle. -/
def State.cutClass (s : State) (quad : Nat) : Nat := (s.quadPower quad).cut

/-! ## Footprints (R281) -/

/-- A later job's range meets an earlier one's: both touch a byte and one of them writes it. -/
def Foot.meets (e j : Foot) : Bool := (e.write || j.write) && overlaps e.base e.len j.base j.len

/-- An earlier job's footprint holds up a later one's. -/
def meetsAny (es js : List Foot) : Bool := es.any fun e => js.any e.meets

/-- The footprints of a context's uncompleted jobs, each with its place in the order of posts. -/
def State.jobs (s : State) (ctx : Nat) : List (Nat × List Foot) :=
  (s.cores.flatMap fun c => (c.2.copies.filter (·.ctx = ctx)).map fun k => (k.order, k.foot)) ++
  (s.mwes.flatMap fun m => (m.2.walks.filter (·.2.ctx = ctx)).map fun w => (w.2.order, w.2.prob.foot)) ++
  (s.functions.filterMap fun f => match f.2.migrating with
    | some m => if m.ctx = ctx then
        some (m.order, [{ base := m.page, len := m.size, write := true }]) else none
    | none => none)

/-- A job waits for an earlier job of its context (R281). -/
def State.jobBlocked (s : State) (ctx order : Nat) (foot : List Foot) : Bool :=
  (s.jobs ctx).any fun e => e.1 < order && meetsAny e.2 foot

/-- Footprints the task scheduler holds for each context (R282). -/
def jobMax : Nat := 1024

/-- The chunks of a copy whose bit is not set, rising. -/
def Copy.undone (k : Copy) : List Nat := (List.range k.chunks).filter fun c => !NSet.mem k.done c

/-- A copy's next chunk is to be performed: any that is not done (R243; DESIGN CHOICE, log 3). -/
def State.pushCopy (s : State) (core : Nat) (k : Copy) (delay : Nat) : State :=
  let waits := s.expects fun i => match i with
    | .copyChunkDone c j _ => c = core && j = k.seq
    | _ => false
  if waits || !k.parked.isEmpty then s
  else
    let open_ := k.undone
    s.later (s.time + cycles delay) (.copyChunkDone core k.seq (open_.getD (s.choice % Nat.max 1 open_.length) 0))

/-- A job of a context has completed: the jobs that waited for it are offered to their engines, and a migration too. -/
def State.pushJobs (s : State) (ctx : Nat) : State :=
  let s := s.cores.foldl (fun s c => (c.2.copies.filter (·.ctx = ctx)).foldl (fun s k => s.pushCopy c.1 k 1) s) s
  let s := s.mwes.foldl (fun s m => (m.2.walks.filter fun w => w.2.ctx = ctx && w.2.state = .queued).foldl (fun s w =>
    if s.expects (· == .walkActivate m.1 w.1) then s else s.soon (.walkActivate m.1 w.1)) s) s
  s.functions.foldl (fun s f => match f.2.migrating with
    | some m => if m.ctx = ctx && !s.expects (· == .migrationDone f.1) then s.soon (.migrationDone f.1) else s
    | none => s) s

/-! ## Barriers (16 R292, R295) -/

/-- Enough lanes have arrived and no bytes are pending. -/
def Barrier.complete (b : Barrier) : Bool := b.count ≤ Mask.count b.arrived && b.pbytes = 0

/-- The barrier with further lanes arrived and further pending bytes, 64 bits of two's complement. -/
def Barrier.join (b : Barrier) (m : Mask) (x : Int) : Barrier :=
  { b with arrived := b.arrived ||| m, pbytes := signed 64 (wrap 64 (b.pbytes + x)) }

/-- A phase completes when enough lanes have arrived and no bytes are pending: the splits blocked in it go on. -/
def State.testBarrier (s : State) (uid n : Nat) : State :=
  match (s.team? uid).bind fun t => NMap.find? t.barriers n with
  | none => s
  | some b =>
    if b.complete then
      let s := s.onTeam uid fun t =>
        { t with barriers := NMap.insert t.barriers n { b with arrived := 0, pbytes := 0, phase := b.phase + 1 } }
      s.openWait uid fun w => match w with
        | .bar m again => if m = n then some again else none
        | _ => none
    else s

/-- Adds to the pending bytes of a bound barrier, and tests its completion; a report to an unbound barrier is discarded. -/
def State.addBytes (s : State) (uid n : Nat) (x : Int) : State :=
  match (s.team? uid).bind fun t => NMap.find? t.barriers n with
  | none => s
  | some b =>
    (s.onTeam uid fun t => { t with barriers := NMap.insert t.barriers n (b.join 0 x) }).testBarrier uid n

end Sys2Proof.Machine
end

