-- ==== Sys2Proof/Machine/Copies.lean ====
section
/-!
DEFINITION. The bulk copies (13 R240 to R247): the descriptor and its checks, posting, chunks, reports and completion.
-/
namespace Sys2Proof.Machine

/-! ## The descriptor (R241) -/

/-- The zero fields of a kind: offset and length. -/
def copyZeros (kind : Nat) (sscr dscr : Bool) : List (Nat × Nat) :=
  let src := if sscr then [(0x0C, 4)] else []
  let dst := if dscr then [(0x14, 4)] else []
  if kind = 1 then (0x18, 40) :: src ++ dst
  else if kind = 2 then [(0x04, 4), (0x34, 12)]
  else if kind = 3 then (0x16, 42) :: src
  else if kind = 4 then (0x18, 40) :: dst
  else [(0x04, 4), (0x0C, 52)]

/-- Reads the fields of a descriptor of a kind. -/
def readCopy (kind : Nat) (d : List Byte) : CopyDesc :=
  let f := leAt d
  let fl := f 1 1
  { kind := f 0 1, barv := fl.testBit 2, sscr := fl.testBit 1, dscr := fl.testBit 0, barn := f 2 1, esz := f 3 1
    len := f 4 4, src := .ofNat 64 (f 8 8)
    dst := .ofNat 64 (if kind = 2 then f 0x2C 4 else if kind = 3 then f 0x10 4 else if kind = 5 then f 8 4 else f 0x10 8)
    pat := .ofNat 64 (f 8 8), ext0 := f 0x10 4, ext1 := f 0x14 4, pitch := .ofNat 64 (f 0x18 8)
    org0 := signed 32 (f 0x20 4), org1 := signed 32 (f 0x24 4), w0 := f 0x28 2, w1 := f 0x2A 2, dpitch := f 0x30 4
    cmask := f 0x14 2 }

/-- A limit of 1 to 16,777,216. -/
def upTo16M (x : Nat) : Bool := 1 ≤ x && x ≤ 2 ^ 24

/-- Checks 0x03 and 0x04 of R246. -/
def copyFields (kind : Nat) (d : List Byte) : Except Nat CopyDesc :=
  let x := readCopy kind d
  let zero := x.kind = kind && leAt d 1 1 / 8 = 0 && (x.barv || x.barn = 0) &&
    (copyZeros kind x.sscr x.dscr).all fun r => leAt d r.1 r.2 = 0
  let bytes := 2 ^ x.esz
  let limits : Bool :=
    if kind = 2 then !x.sscr && x.dscr && x.esz ≤ 4 && upTo16M x.ext0 && upTo16M x.ext1 && x.ext0 * bytes ≤ x.pitch.toNat &&
      1 ≤ x.w0 && 1 ≤ x.w1 && x.w0 * bytes ≤ x.dpitch && x.w1 * x.dpitch ≤ 2 ^ 24
    else if kind = 5 then !x.sscr && x.dscr && x.esz ≤ 7
    else x.esz = 0 && upTo16M x.len && (kind ≠ 4 || !x.sscr) && (kind ≠ 3 || (x.dscr && x.cmask ≠ 0))
  if !zero then .error 0x03
  else if !limits || (x.barv && !x.dscr) then .error 0x04
  else .ok x

/-! ## What a copy reads and writes (R242) -/

/-- Bytes of a copy's span, from its first destination byte on. -/
def CopyDesc.span (x : CopyDesc) (lanes : List (Nat × U64)) : Nat :=
  if x.kind = 2 then x.w1 * x.dpitch
  else if x.kind = 5 then (maxList (lanes.map (·.1)) + 1) * 2 ^ x.esz
  else x.len

/-- Bytes the descriptor names for each target. -/
def CopyDesc.named (x : CopyDesc) (lanes : List (Nat × U64)) : Nat :=
  if x.kind = 2 then x.w0 * x.w1 * 2 ^ x.esz
  else if x.kind = 5 then lanes.length * 2 ^ x.esz
  else x.len

/-- Where the byte written at a place of the span comes from. -/
inductive ByteFrom where
  /-- no element lies there, or it is skipped -/
  | nothing
  /-- a global address, or none that the lane can form: the class -/
  | glob (va : Nat)
  | bad (cls : Nat) (va : Nat)
  /-- byte `k` of a scratchpad source -/
  | scratch (k : Nat)
  | pattern (b : Byte)
  deriving DecidableEq, Repr

/-- The source of place `p` of the span. -/
def Copy.from_ (k : Copy) (p : Nat) : ByteFrom :=
  let x := k.desc
  let glob (va : Int) : ByteFrom :=
    if 0 ≤ va && canonical va.toNat then .glob va.toNat else .bad cNC va.toNat
  if x.kind = 4 then .pattern (.ofNat 8 (bitsAt x.pat.toNat (8 * (p % 8)) 8))
  else if x.kind = 2 then
    let y := p / x.dpitch; let o := p % x.dpitch
    let c0 := x.org0 + (o / 2 ^ x.esz : Nat); let c1 := x.org1 + (y : Nat)
    if o < x.w0 * 2 ^ x.esz && 0 ≤ c0 && c0 < x.ext0 && 0 ≤ c1 && c1 < x.ext1 then
      glob (x.src.toNat + c1 * x.pitch.toNat + c0 * 2 ^ x.esz + (o % 2 ^ x.esz : Nat))
    else .nothing
  else if x.kind = 5 then
    match NMap.find? k.lanes (p / 2 ^ x.esz) with
    | some a =>
      match rangeError a.toNat (2 ^ x.esz) with
      | some cls => .bad cls a.toNat
      | none => .glob (a.toNat + p % 2 ^ x.esz)
    | none => .nothing
  else if x.sscr then .scratch p
  else .glob (x.src.toNat + p)

/-- The sector of the destination that place `p` lies in. -/
def Copy.sector (k : Copy) (p : Nat) : Nat :=
  match k.targets with
  | t :: _ => (t.base + t.off + p) / 16
  | [] => (k.desc.dst.toNat + p) / 16

/-- The places of a chunk at which something is written, in its destination sectors, in order. -/
def Copy.chunkSectors (k : Copy) (c : Nat) : List (List (Nat × ByteFrom)) :=
  let span := k.desc.span k.lanes
  let ps := ((List.range 512).map (512 * c + ·)).filter (· < span)
  let named := (ps.map fun p => (p, k.from_ p)).filter (·.2 ≠ .nothing)
  (distinct (named.map fun p => k.sector p.1)).map fun sec => named.filter fun p => k.sector p.1 = sec

/-- The window of a target is still the one the copy was posted to (R247). -/
def State.targetLives (s : State) (t : Target) : Bool :=
  (s.team? t.uid).any fun x => x.core = t.core && x.window.held && x.window.tag = t.tag && x.window.base = t.base

/-! ## Completion (R237, R243, R247) -/

/-- Reports bytes to the barrier of a target. -/
def State.report (s : State) (k : Copy) (t : Target) (n : Nat) : State :=
  if k.desc.barv && n ≠ 0 && s.targetLives t then s.addBytes t.uid k.desc.barn (-(n : Int)) else s

/-- A copy ends: the final reports, its future, its window. `why` is the state and DETAIL of one that stopped. -/
def State.finishCopy (s : State) (core : Nat) (k : Copy) (why : Option (Nat × Nat)) : State :=
  let named := k.desc.named k.lanes
  let s := k.targets.zipIdx.foldl (fun s p => s.report k p.1 (named - k.accounted.getD p.2 0)) s
  let s := s.onCore core fun c => { c with copies := c.copies.filter (·.seq ≠ k.seq) }
  let s := match why with
    | some (st, detail) =>
      let bits (j : JobStat) : JobStat := if j.seq = k.seq then { j with bits := some (k.chunks, k.done) } else j
      (s.onCore core fun c => { c with bte := { c.bte with ring := c.bte.ring.map bits } }).completeJob (srcBte core) k.seq st
        k.written detail
    | none =>
      if k.discarded ≠ 0 then s.completeJob (srcBte core) k.seq fRETIRED k.discarded 0
      else s.completeJob (srcBte core) k.seq fDONE k.written 0
  (s.settleJob k.uid k.grid).pushJobs k.ctx

/-! ## One chunk (R242 to R245) -/

/-- A byte of a chunk with its source and destinations resolved. -/
structure ByteMove where
  place : Nat
  /-- device address or scratchpad key, with which of them; or the pattern's byte -/
  src : Option (Bool × Nat)
  pat : Byte
  /-- device address of a global destination -/
  dst : Option Nat
  deriving DecidableEq, Repr

/-- The source window's key of byte `p`. -/
def Copy.srcKey (k : Copy) (p : Nat) : Nat :=
  match k.src with
  | some t => scratchKey t.core (t.base + t.off + p)
  | none => 0

/-- Place `p` of a window side, as an access from outside the team reaches it: through its stash mappings (13 R233). -/
def Target.spot (t : Target) (p : Nat) : Spot := { uid := t.uid, core := t.core, base := t.base, off := t.off + p, peer := true }

/-- The error of a fill that an engine's access to a place of a window needs and cannot make (13 R233). -/
def State.windowError (s : State) (t : Target) (p : Nat) (k : AKind) : Option (XErr × AKind) :=
  (s.fillError (t.spot p) 1 k).map (·, k)

/-- Resolves a source: where it lies, or the pattern's byte. -/
def State.resolveSrc (s : State) (k : Copy) (x : Xlat) : ByteFrom → Except (XErr × AKind) (Option (Bool × Nat) × Byte)
  | .glob va => match (s.walk k.ctx x .read va).1 with
    | .ok pa => .ok (some (true, pa), 0)
    | .error e => .error (e, .read)
  | .bad cls va => .error (.trap cls va 0 0, .read)
  | .scratch n => match (k.src.filter s.targetLives).bind fun t => s.windowError t n .read with
    | some e => .error e
    | none => .ok (some (false, k.srcKey n), 0)
  | .pattern b => .ok (none, b)
  | .nothing => .ok (none, 0)

/-- Resolves a place: the move, or the error with the access that met it. -/
def State.resolve (s : State) (k : Copy) (x : Xlat) (p : Nat × ByteFrom) : Except (XErr × AKind) ByteMove :=
  let dst : Except (XErr × AKind) (Option Nat) :=
    if k.targets.isEmpty then
      match (s.walk k.ctx x .write (k.desc.dst.toNat + p.1)).1 with
      | .ok pa => .ok (some pa)
      | .error e => .error (e, .write)
    else match (k.targets.filter s.targetLives).findSome? fun t => s.windowError t p.1 .write with
      | some e => .error e
      | none => .ok none
  match s.resolveSrc k x p.2, dst with
  | .error e, .error e' => if e'.1.step < e.1.step then .error e' else .error e
  | .error e, _ => .error e
  | _, .error e => .error e
  | .ok (a, b), .ok d => .ok { place := p.1, src := a, pat := b, dst := d }

/-- Resolves a sector: its bytes, or its first error. -/
def State.resolveAll (s : State) (k : Copy) (x : Xlat) : List (Nat × ByteFrom) → Except (XErr × AKind) (List ByteMove)
  | [] => .ok []
  | p :: rest =>
    match s.resolve k x p, s.resolveAll k x rest with
    | .ok m, .ok ms => .ok (m :: ms)
    | .error e, .error e' => if e'.1.step < e.1.step then .error e' else .error e
    | .error e, _ => .error e
    | _, .error e => .error e

/-- Reads a byte of a move, as it stood before the copy (R242), with its sector's poison. A byte of a window that has been released since
the post, which no agent reads through a new window (23 R376), is a free value (DESIGN CHOICE, log 104). -/
def State.readMove (s : State) (k : Copy) (m : ByteMove) : Byte × Bool :=
  match NMap.find? k.before m.place with
  | some b => (b, NSet.mem k.beforePoison m.place)
  | none => match m.src with
    | some (true, pa) => ((s.gread [pa]).1.headD 0, (s.gread [pa]).2)
    | some (false, key) =>
      if k.src.all s.targetLives then (Memory.read s.scratch key, NSet.mem s.scratchPoison (key / 16))
      else (Config.freeByte (s.freeCtr + m.place), false)
    | none => (m.pat, false)

/-- The places of the source at which a copy that writes place `p` of a destination in the same space overwrites it. -/
def Copy.overwrites (k : Copy) (p : Nat) : List Nat :=
  let x := k.desc
  let at_ (d s : Nat) : List Nat := if s ≤ d + p && d + p < s + x.len then [d + p - s] else []
  if x.kind ≠ 1 && x.kind ≠ 3 then []
  else match k.src with
    | some t => k.targets.flatMap fun d => at_ (scratchKey d.core (d.base + d.off)) (scratchKey t.core (t.base + t.off))
    | none => if k.targets.isEmpty then at_ x.dst.toNat x.src.toNat else []

/-- Keeps the source bytes that writing these places overwrites and that later chunks still read. -/
def State.keepBefore (s : State) (k : Copy) (x : Xlat) (chunk : Nat) (ms : List ByteMove) : Copy :=
  ms.foldl (fun k m => (k.overwrites m.place).foldl (fun k j =>
    if j / 512 = chunk || NSet.mem k.done (j / 512) || (NMap.find? k.before j).isSome then k
    else match s.resolveSrc k x (k.from_ j) with
      | .ok (a, pat) =>
        let (b, bad) := s.readMove k { place := j, src := a, pat := pat, dst := none }
        { k with before := NMap.insert k.before j b
                 beforePoison := if bad then NSet.add k.beforePoison j else k.beforePoison }
      | .error _ => k) k) k

/-- Writes one sector of a chunk to every destination; gives the bytes written, and those discarded by target. -/
def State.writeSector (s : State) (k : Copy) (ms : List (ByteMove × Byte)) (bad : Bool) : State × Nat × List Nat :=
  let bytes := ms.map (·.2)
  let n := ms.length
  if k.targets.isEmpty then (s.gwrite (ms.filterMap (·.1.dst)) bytes bad, n, [])
  else k.targets.foldl (fun (acc : State × Nat × List Nat) t =>
    if acc.1.targetLives t then
      let keys := ms.map fun m => scratchKey t.core (t.base + t.off + m.1.place)
      let place := ms.foldl (fun p m => Nat.min p m.1.place) ((ms.map (·.1.place)).headD 0)
      let s := (acc.1.fill (t.spot place) 1 .write).swrite keys bytes bad
      (s.noteStash (t.spot place) 1, acc.2.1 + n, acc.2.2 ++ [0])
    else (acc.1, acc.2.1, acc.2.2 ++ [n])) (s, 0, [])

/-- Adds two lists of sums by place. -/
def addLists : List Nat → List Nat → List Nat
  | a :: as, b :: bs => (a + b) :: addLists as bs
  | [], bs => bs
  | as, [] => as

/-- The sum of a list. -/
def sumList (l : List Nat) : Nat := l.foldl (· + ·) 0

/-- Performs a chunk whose sectors are resolved. -/
def State.doChunk (s : State) (core : Nat) (k : Copy) (x : Xlat) (chunk : Nat)
    (secs : List (Except (XErr × AKind) (List ByteMove))) : State :=
  let oks := secs.filterMap fun r => match r with | .ok ms => some ms | .error _ => none
  let kept := oks.flatten.flatMap fun m => k.overwrites m.place
  let globals := (oks.flatten.filterMap fun m => match m.src with | some (true, pa) => some pa | _ => none) ++
    kept.filterMap fun j => match s.resolveSrc k x (k.from_ j) with
      | .ok (some (true, pa), _) => some pa
      | _ => none
  let s := k.foot.foldl (fun s r => s.recallWalk k.ctx x .read r.base r.len) s
  let s := (s.recall globals).obtain globals
  let locals := (oks.flatten.filterMap fun m => match m.src with | some (false, _) => some m.place | _ => none) ++ kept
  let s := match k.src.filter s.targetLives with
    | some t => (distinct (locals.map fun p => (t.off + p) / 16)).foldl (fun s n => s.fill (t.spot (16 * n - t.off)) 1 .read) s
    | none => s
  let data := oks.map fun ms => ms.map fun m => (m, s.readMove k m)
  let isBad (ms : List (ByteMove × Byte × Bool)) : Bool := ms.any (·.2.2)
  let toPool (ms : List (ByteMove × Byte × Bool)) : Bool := isBad ms && ms.any fun m => m.1.dst.any inPool
  let writes := data.filter fun ms => !toPool ms
  let k := s.keepBefore k x chunk (writes.flatten.map (·.1))
  let (s, written, lost) := writes.foldl (fun (acc : State × Nat × List Nat) ms =>
    let r := acc.1.writeSector k (ms.map fun m => (m.1, m.2.1)) (isBad ms)
    (r.1, acc.2.1 + r.2.1, addLists acc.2.2 r.2.2)) (s, 0, [])
  let trap : Option Nat := match secs.findSome? fun r => match r with
      | .error (.trap cls _ _ _, _) => some cls
      | _ => none with
    | some cls => some cls
    | none => if data.any toPool then some cPOISON else none
  let s : State := if k.src.all s.targetLives then s else { s with freeCtr := s.freeCtr + 512 * k.chunks }
  let bytes := sumList (writes.map (·.length))
  let k := { k with written := k.written + written, discarded := k.discarded + sumList lost }
  match trap with
  | some cls =>
    let k := { k with accounted := addLists k.accounted (k.targets.map fun _ => bytes) }
    (s.onCore core fun c => { c with copies := c.copies.map fun y => if y.seq = k.seq then k else y }).finishCopy core k
      (some (fFAULTED, cls))
  | none =>
    let k := { k with done := NSet.add k.done chunk, accounted := addLists k.accounted (k.targets.map fun _ => bytes) }
    let s := s.onCore core fun c => { c with copies := c.copies.map fun y => if y.seq = k.seq then k else y }
    let s := k.targets.zipIdx.foldl (fun s p => s.report k p.1 (bytes - lost.getD p.2 0)) s
    if k.undone.isEmpty then s.finishCopy core k none else s.pushCopy core k (s.delay 8)

/-- COPY_CHUNK_DONE: a copy that no earlier job holds up performs one chunk; an invalid entry parks it, with a record of
the BTE (R245), and a destination under migration holds it (15 R285). -/
def execCopyChunkDone (core job chunk : Nat) (s : State) : Host.Outcome State Fault Refusal :=
  match (s.core core).copies.find? (·.seq = job) with
  | none => .next s
  | some k =>
    if !k.parked.isEmpty || k.chunks ≤ chunk || NSet.mem k.done chunk || s.jobBlocked k.ctx k.order k.foot then .next s
    else
      let x := s.xlatOf k.ctx k.grid
      let secs := (k.chunkSectors chunk).map (s.resolveAll k x)
      let ws : List (Parked × AKind) := secs.filterMap fun r => match r with
        | .error (.park va l e, kind) => some ({ va := va, level := l, entry := e }, kind)
        | _ => none
      if !ws.isEmpty then
        let s := s.onCore core fun c => { c with copies := c.copies.map fun y =>
          if y.seq = job then { y with parked := distinct (ws.map (·.1.entry)) } else y }
        .next (s.parkWalks k.ctx (srcBte core) ws)
      else
        let locked := secs.any fun r => match r with
          | .ok ms => ms.any fun m => m.dst.any s.locked
          | .error _ => false
        if locked then .next s else .next (s.doChunk core k x chunk secs)

/-- A copy stops at once with a state and DETAIL: cancelled (R245) or ended by a reset (19 R347, 23 R382). -/
def State.stopCopy (s : State) (core seq : Nat) (st detail : Nat) : State :=
  match (s.core core).copies.find? (·.seq = seq) with
  | some k => s.finishCopy core k (some (st, detail))
  | none => s

/-! ## Posting (R240, R246) -/

/-- What a post comes to. -/
inductive PostResult where
  | wait
  | park (va level entry : Nat)
  | done (s : State)

/-- The window side of a scratchpad address of a descriptor, of `w` bytes from it on (check 0x05). -/
def State.copySide (s : State) (t : Team) (a w : Nat) : Option Target :=
  if 2 ≤ bitsAt a 28 4 then none
  else (s.spot t a w).bind fun p => (s.team? p.uid).map fun o =>
    { uid := p.uid, core := p.core, base := p.base, size := o.window.size, tag := o.window.tag, off := p.off }

/-- The bytes that BTILE's and BGATHER's destinations name, from DST on. -/
def CopyDesc.destLen (x : CopyDesc) (lanes : List (Nat × U64)) : Nat :=
  if x.kind = 2 then (x.w1 - 1) * x.dpitch + x.w0 * 2 ^ x.esz else x.span lanes

/-- Sequence of a list of options. -/
def allSome {α : Type} : List (Option α) → Option (List α)
  | [] => some []
  | some a :: rest => (allSome rest).map (a :: ·)
  | none :: _ => none

/-- The scratchpad sides of a copy: its source and its targets (check 0x05). -/
def State.copySides (s : State) (t : Team) (x : CopyDesc) (lanes : List (Nat × U64)) :
    Option (Option Target × List Target) :=
  let src : Option (Option Target) :=
    if x.sscr then (s.copySide t (x.src.toNat % 2 ^ 32) x.len).map some else some none
  let dst : Option (List Target) :=
    if x.kind = 3 then
      match s.grid? t.grid with
      | none => none
      | some g =>
        let n := g.image.clw * g.image.clh
        if t.kind ≠ .grid || n ≤ 1 || x.cmask / 2 ^ n ≠ 0 || 2 ^ 20 ≤ x.dst.toNat then none
        else allSome (((List.range n).filter x.cmask.testBit).map fun c =>
          s.copySide t (0x10000000 + c * 2 ^ 24 + x.dst.toNat) x.len)
    else if x.kind = 5 then
      -- only the bytes of active lanes are named
      let low := lanes.foldl (fun m l => Nat.min m l.1) 1023 * 2 ^ x.esz
      (s.copySide t (x.dst.toNat + low) (x.span lanes - low)).map fun d => [{ d with off := d.off - low }]
    else if x.dscr then (s.copySide t (x.dst.toNat % 2 ^ 32) (x.destLen lanes)).map fun d => [d]
    else some []
  match src, dst with
  | some a, some b => some (a, b)
  | _, _ => none

/-- The global ranges of a copy: start as an integer, length, and whether it writes (R240, R281). -/
def CopyDesc.ranges (x : CopyDesc) (lanes : List (Nat × U64)) : List (Int × Nat × Bool) :=
  if x.kind = 2 then
    let bytes := 2 ^ x.esz
    let lo : Int := max x.org0 0; let hi : Int := min (x.org0 + x.w0) x.ext0
    let len : Nat := Int.toNat (hi - lo) * bytes
    if hi ≤ lo then []
    else ((List.range x.w1).filter fun y => 0 ≤ x.org1 + (y : Nat) && x.org1 + (y : Nat) < x.ext1).map fun y =>
      ((x.src.toNat : Int) + (x.org1 + (y : Nat)) * x.pitch.toNat + lo * bytes, len, false)
  else if x.kind = 5 then lanes.map fun l => ((l.2.toNat : Int), 2 ^ x.esz, false)
  else
    (if x.kind = 4 || x.sscr then [] else [((x.src.toNat : Int), x.len, false)]) ++
    (if x.kind = 3 || x.dscr then [] else [((x.dst.toNat : Int), x.len, true)])

/-- The first or last byte of a global range breaks R124 or R125 (check 0x06): of a tile, of all its rows together. -/
def rangesBad (kind : Nat) (rs : List (Int × Nat × Bool)) : Bool :=
  let bad (a : Int) (n : Nat) : Bool := (rangeError a n).isSome
  if kind = 5 then false
  else if kind = 2 then
    match rs with
    | [] => false
    | r :: _ => let l := rs.getLastD r; bad r.1 1 || bad (l.1 + l.2.1 - 1) 1
  else rs.any fun r => bad r.1 r.2.1

/-- Copies in flight on a BTE (R240). -/
def copyMax : Nat := 96

/-- Posts a copy of a kind for a team, with the descriptor's address and BGATHER's lanes; h names it (R240, R246). -/
def State.postCopy (s : State) (t : Team) (kind h addr : Nat) (lanes : List (Nat × U64)) : PostResult :=
  let b := (s.core t.core).bte
  if copyMax ≤ (s.core t.core).copies.length || !b.room || jobMax ≤ (s.jobs t.ctx).length then .wait
  else
    let name (s : State) (st detail : Nat) : Nat × State :=
      let (seq, b) := b.post t.ctx st detail false
      (seq, (s.onCore t.core fun c => { c with bte := b }).onTeam t.uid fun t =>
        { t with regs := t.regs.setH h (mkToken (srcBte t.core) t.ctx seq) (st = fPENDING) })
    let refuse (s : State) (code : Nat) : PostResult := .done (name s fREFUSED code).2
    if addr % 64 ≠ 0 then refuse s 0x01
    else match s.xlatRange t.ctx (t.xlat s) .read (.ofNat 64 addr) 64 with
      | .error (.park va l e) => .park va l e
      | .error (.trap _ _ _ _) => refuse s 0x02
      | .ok pas =>
        let (s, d, bad) := s.readGlobal pas
        if bad then refuse s 0x02
        else match copyFields kind d with
          | .error code => refuse s code
          | .ok x =>
            match s.copySides t x lanes with
            | none => refuse s 0x05
            | some (src, targets) =>
              let rs := x.ranges lanes
              if rangesBad kind rs then refuse s 0x06
              else
                let (order, s) := s.fresh
                let (seq, s) := name s fPENDING 0
                let k : Copy := {
                  seq := seq, order := order, uid := t.uid, grid := t.grid, ctx := t.ctx, prio := t.prio, desc := x
                  lanes := lanes, src := src, targets := targets, chunks := (x.span lanes + 511) / 512, done := []
                  written := 0, discarded := 0, accounted := targets.map fun _ => 0, before := [], beforePoison := []
                  parked := []
                  foot := rs.map fun r => { base := r.1.toNat, len := r.2.1, write := r.2.2 } }
                let s := s.onCore t.core fun c => { c with copies := c.copies ++ [k] }
                .done (s.pushCopy t.core k (s.delay 8))

/-- Ends the issue of a post: it waits, parks as one lane, or is done. -/
def State.endPost (s : State) (c : Cur) (t : Team) (i : Instr) (f : Fields) (addr : Nat) (lanes : List (Nat × U64))
    (lane : Nat) (r : PostResult) : State :=
  match r with
  | .wait => s.wait c .wait .retry
  | .park va l e =>
    let ws : List Parked := [{ va := va, level := l, entry := e }]
    if c.replay.isSome then s.parkOr c t i f .read [] ws
    else
      let x : LogLane := { lane := lane, ea := .ofNat 64 addr, data := 0, cmp := 0, poison := false }
      (s.parkOr c t i f .read [x] ws lanes).finish c
  | .done s => s.finish c

/-- The h register of DST. -/
def hOf (o : Opnd) : Nat := match o with | .h n => n.toNat | _ => 0

/-- BCOPY, BTILE, BMCAST and BFILL: one copy for the split. -/
def copyUniform (i : Instr) (f : Fields) (kind : Nat) (s : State) : Host.Outcome State Fault Refusal :=
  uniform i f s fun c t l =>
    match t.gate (l / 32) (readsOf i f) [] with
      | .trap d => s.trapAll c t cEMPTYRD d
      | .block => s.wait c .wait .regs
      | .go =>
        if t.bad f.sa 2 l then s.consume c t
        else
          let addr := t.src { gts := s.gts, e := c.e, i := i, f := f } f.sa 2 l
          let s := s.setTeam (t.readClean f (c.lanes t))
          s.endPost c t i f addr [] l (s.postCopy (t.readClean f (c.lanes t)) kind (hOf f.dst) addr [])

def execBcopy (f : Fields) (s : State) := copyUniform (.bcopy f) f 1 s
def execBtile (f : Fields) (s : State) := copyUniform (.btile f) f 2 s
def execBmcast (f : Fields) (s : State) := copyUniform (.bmcast f) f 3 s
def execBfill (f : Fields) (s : State) := copyUniform (.bfill f) f 4 s

/-- BGATHER: one copy for the active lanes of the split; a lane's poisoned address is consumed at issue. -/
def execBgather (f : Fields) (s : State) : Host.Outcome State Fault Refusal :=
  let i : Instr := .bgather f
  issue i f s fun c t => s.eatGuard c t f.grd fun s t =>
      let all := c.lanes t
      let act := t.guarded f.grd all
      s.gated c t (fun u g => u.gate g (readsOf i f) []) act false <|
        let bad := Mask.groups (Mask.ofList ((Mask.list act).filter fun l => t.bad f.sa 2 l || t.bad f.sb 2 l))
        let s := s.killGroups c.uid (GMask.list bad) cPOISON
        match s.team? c.uid with
        | none => s
        | some t =>
          let act := t.guarded f.grd (c.lanes t)
          match Mask.lowest act with
          | none => s.finishRead c f
          | some low =>
            let r : Rd := { gts := s.gts, e := c.e, i := i, f := f }
            let addr := t.src r f.sa 2 low
            let lanes := (Mask.list act).map fun l => (l, BitVec.ofNat 64 (t.src r f.sb 2 l))
            let t := t.readMem i f (c.lanes t) act
            let s := s.setTeam t
            s.endPost c t i f addr lanes low (s.postCopy t 5 (hOf f.dst) addr lanes)

end Sys2Proof.Machine
end

