-- ==== Sys2Proof/Machine/Reports.lean ====
section
/-!
DEFINITION. Error records and the error log (19 R338, R339, 23 R385).
-/
namespace Sys2Proof.Machine

/-- The 32 bytes of an error record (R339). -/
def errorBytes (loc gts src : Nat) (ctx : Option Nat) (ecls action info : Nat) : List Byte :=
  leBytes 8 loc ++ leBytes 8 gts ++ leBytes 2 src ++ leBytes 2 (ctx.getD 0x8000) ++ leBytes 1 5 ++ leBytes 1 ecls ++
  leBytes 1 action ++ leBytes 1 0 ++ leBytes 8 info

/-- Adds a record to the error log (23 R385) in report order (00 R4). -/
def State.logError (s : State) (r : List Byte) : State :=
  let l := s.logs
  let p := logPut recBefore r l.errWindow l.errrd l.errwr errWindowSize l.errHeld
  (s.onLogs fun l => { l with
    errWindow := p.window, errwr := p.wr, errHeld := p.held, errlost := (l.errlost + p.lost) % 2 ^ 32 }).logSignal (l.errwr = l.errrd)

/-- The classes that R338 calls uncorrectable: AER reports them to the host as device errors (23 R377; DEDUCED, log 103). -/
def uncorrectable (ecls : Nat) : Bool := (1 ≤ ecls && ecls ≤ 5) || ecls = 0x09 || ecls = 0x0A

/-- Reports an error: to the error log, to the host if it is uncorrectable and, if it names a context, to that context's fault ring. -/
def State.errorRecord (s : State) (loc src : Nat) (ctx : Option Nat) (ecls action : Nat) (info : Nat := 0) : State :=
  let r := errorBytes loc s.gts src ctx ecls action info
  let s := s.logError r
  let s := if uncorrectable ecls then s.emit (.deviceError ecls) else s
  match ctx with
  | some c => s.ringWrite c r
  | none => s

/-- SRC of a memory controller or a link. -/
def srcNone : Nat := 0xFFFF

/-- SRC of an error of a memory line: the memory controller's, or the fabric port's for a pool line (00 R4). -/
def srcLine (pa : Nat) : Nat := if inPool pa then srcFabric else srcNone

/-- Reports an error of a unit whose LOC the spec does not give, nor its SRC where none is passed: free values (DESIGN CHOICE, log 4). -/
def State.errorFree (s : State) (src : Option Nat) (ctx : Option Nat) (ecls action : Nat) : State :=
  let (b, s) := s.freeBytes 10
  s.errorRecord (leAt b 0 8) (src.getD (leAt b 8 2)) ctx ecls action

/-- The device stops, and every context is lost (R338, ECLASS 0x0C). -/
def State.stopDevice (s : State) : State := { (s.errorFree none none 0x0C 9) with stopped := true, contexts := [] }

end Sys2Proof.Machine
end

