-- ==== Sys2Proof/Machine/TileMath.lean ====
section
/-!
DEFINITION. How a matrix walk engine reads operand tiles and sums an output tile (04 R57 to R63, R65, R73 to R76,
05 R82, R84, R88): functions of the bytes alone.
-/
namespace Sys2Proof.Machine

/-! ## Operand formats (04 R57) -/

def isIntFmt (fmt : Nat) : Bool := 9 ≤ fmt && fmt ≤ 12
def isSxFmt (fmt : Nat) : Bool := 13 ≤ fmt && fmt ≤ 19

/-- Bits an element takes in storage (R58, R62). -/
def fmtBits (fmt : Nat) : Nat :=
  if fmt ≤ 1 then 32 else if fmt ≤ 3 then 16 else if fmt ≤ 7 then 8 else if fmt = 8 then 4
  else if fmt ≤ 10 then 8 else if fmt ≤ 12 then 4 else fmt - 11

/-- Serial width w. -/
def fmtSerial (fmt : Nat) : Nat :=
  if 13 ≤ fmt then fmt - 10 else [25, 12, 9, 12, 5, 4, 4, 5, 3, 8, 9, 4, 5].getD fmt 0

/-- Block length of an SX operand. -/
def Operand.block (o : Operand) : Nat := if o.blen = 1 then 32 else 16

/-- The value of a float or SX element, with its block exponent. -/
def elemVal (fmt bits eb : Nat) : FV :=
  if isSxFmt fmt then sxDec eb (signed (fmt - 11) bits) (fmt - 11)
  else match fmt with
    | 0 => fmtF32.decode bits
    | 1 => fmtF19.decode (bits / 2 ^ 13)
    | 2 => fmtBF16.decode bits
    | 3 => fmtF16.decode bits
    | 4 => fmtE4M3.decode bits
    | 5 => fmtE5M2.decode bits
    | 6 => fmtE3M2.decode (bits % 64)
    | 7 => fmtE2M3.decode (bits % 64)
    | _ => fmtE2M1.decode bits

/-- The value of an integer element. -/
def elemInt (fmt bits : Nat) : Int :=
  match fmt with
  | 9 => signed 8 bits
  | 11 => signed 4 bits
  | _ => bits

/-! ## Tiles in slots (05 R84, R88) -/

/-- Elements a row of a tile stores. -/
def Operand.stored (o : Operand) (tk : Nat) : Nat :=
  match o.sparse with
  | some (_, 1) => tk / 2
  | some _ => tk / 4
  | none => tk

/-- Bytes of a tile's elements, and of the tile with its block exponents. -/
def Operand.elemBytes (o : Operand) (rows tk : Nat) : Nat := (rows * o.stored tk * fmtBits o.fmt + 7) / 8
def Operand.tileBytes (o : Operand) (rows tk : Nat) : Nat :=
  o.elemBytes rows tk + (if isSxFmt o.fmt then rows * (tk / o.block) else 0)

/-- Bytes of a metadata tile, rounded up to 256. -/
def metaBytes (mlay tm tk : Nat) : Nat :=
  let n := if mlay = 1 then tm * tk / 8 else tm * tk / 16
  (n + 255) / 256 * 256

/-- The two positions of a 2:4 field, or the position of a 1:4 field, of group `g` of a row. -/
def metaField (mlay tk meta_ row g : Nat) : List Nat :=
  let per := tk / 4
  if mlay = 1 then
    let x := bitsAt meta_ (row * per * 4 + g * 4) 4
    [x % 4, x / 4]
  else [bitsAt meta_ (row * per * 2 + g * 2) 2]

/-- Every field of a metadata tile obeys the order rule. -/
def metaOk (mlay tm tk meta_ : Nat) : Bool :=
  mlay ≠ 1 || (List.range tm).all fun r => (List.range (tk / 4)).all fun g =>
    match metaField mlay tk meta_ r g with
    | [a, b] => a < b
    | _ => true

/-- Where position `kk` of a row is stored, if it is. -/
def Operand.place (o : Operand) (tk meta_ row kk : Nat) : Option Nat :=
  match o.sparse with
  | none => some kk
  | some (_, mlay) =>
    let g := kk / 4
    let ps := metaField mlay tk meta_ row g
    (ps.findIdx? (· = kk % 4)).map fun x => g * ps.length + x

/-- The element bits and block exponent of position `kk` of a row of a tile. -/
def Operand.elem (o : Operand) (rows tk data meta_ row kk : Nat) : Option (Nat × Nat) :=
  (o.place tk meta_ row kk).map fun n =>
    (bitsAt data ((row * o.stored tk + n) * fmtBits o.fmt) (fmtBits o.fmt),
     if isSxFmt o.fmt then bitsAt data (8 * (o.elemBytes rows tk + row * (tk / o.block) + kk / o.block)) 8 else 0)

/-! ## Sums (04 R73 to R76) -/

/-- Length of a K-group. -/
def kGroup (a b : Operand) : Nat :=
  if (isSxFmt a.fmt && a.blen = 1) || (isSxFmt b.fmt && b.blen = 1) then 32 else 16

/-- A group's products share one scale and sum exactly. -/
def sumsExactly (a b : Operand) : Bool := isSxFmt a.fmt && isSxFmt b.fmt && a.blen = b.blen

/-- `p` truncated toward −∞ to a multiple of 2^q, in units of 2^q. -/
def truncAt (q : Int) : FV → Int
  | .fin neg m e =>
    if q ≤ e then scaled neg m e q
    else
      let d : Int := ((2 ^ (q - e).toNat : Nat) : Int)
      Int.fdiv (if neg then -(m : Int) else m) d
  | _ => 0

/-- A K-group's sum from its unmasked products (R73, R74), before it is rounded. -/
def groupSum (exact : Bool) (ps : List FV) : FV :=
  if ps.any FV.isNan then .nan
  else
    let infs := ps.filter fun p => !p.isFinite
    match infs with
    | x :: rest => if rest.any fun y => y.isNeg ≠ x.isNeg then .nan else x
    | [] =>
      match ps.filter fun p => !p.isZero with
      | [] => .fin false 0 0
      | p :: rest =>
        let q : Int := if exact then
            rest.foldl (fun a x => match x with | .fin _ _ e => min a e | _ => a)
              (match p with | .fin _ _ e => e | _ => 0)
          else rest.foldl (fun a x => max a x.exp2) p.exp2 - 48
        FV.ofInt ((p :: rest).foldl (fun a x => a + truncAt q x) 0) q false

/-- acc := rne(acc + g, FP32), with g rounded to FP32 first (R74, R75). -/
def addGroup (acc : U32) (g : FV) : U32 :=
  let g := fmtF32.decode (fmtF32.round .rne false g)
  .ofNat 32 (fmtF32.round .rne false ((fmtF32.decode acc.toNat).add .rne g))

/-- An integer accumulator takes a group sum (R76). -/
def addInt (sat : Bool) (acc : U32) (g : Int) : U32 :=
  let x := acc.toInt + g
  .ofInt 32 (if sat then clampInt (-2 ^ 31) (2 ^ 31 - 1) x else x)

/-- One operand tile as the array reads it: its bytes and metadata as numbers. -/
structure TileData where
  o : Operand
  rows : Nat
  data : Nat
  meta_ : Nat

/-- One element of the accumulator after the slab whose K positions start at `k0` (R75). -/
def slabElem (p : Problem) (a b : TileData) (k0 i j : Nat) (acc : U32) : U32 :=
  let gl := kGroup p.a p.b
  (List.range (p.tk / gl)).foldl (fun acc g =>
    let ks := ((List.range gl).map (g * gl + ·)).filter fun kk => k0 + kk < p.k
    if isIntFmt p.a.fmt then
      addInt p.intsat acc (ks.foldl (fun t kk =>
        match a.o.elem a.rows p.tk a.data a.meta_ i kk, b.o.elem b.rows p.tk b.data b.meta_ j kk with
        | some x, some y => t + elemInt a.o.fmt x.1 * elemInt b.o.fmt y.1
        | _, _ => t) 0)
    else
      let val (t : TileData) (r kk : Nat) : FV := match t.o.elem t.rows p.tk t.data t.meta_ r kk with
        | some x => elemVal t.o.fmt x.1 x.2
        | none => .fin false 0 0
      addGroup acc (groupSum (sumsExactly p.a p.b) (ks.map fun kk => (val a i kk).mul (val b j kk)))) acc

/-- The accumulator tile after a slab; rows at or beyond M and columns at or beyond N stay zero (05 R82). -/
def slabTile (p : Problem) (a b : TileData) (i0 j0 k0 : Nat) (acc : List U32) : List U32 :=
  let tn := 2 ^ p.tnlog
  acc.zipIdx.map fun x =>
    let i := x.2 / tn; let j := x.2 % tn
    if i0 + i < p.m && j0 + j < p.n then slabElem p a b k0 i j x.1 else x.1

/-- The value of a scale (04 R65). -/
def scaleVal (senc raw : Nat) : FV :=
  if senc = 0 then (if raw = 0xFF then .nan else .fin false 1 ((raw : Int) - 127)) else fmtF32.decode raw

/-- The scaled result of an element (04 R75, R76). -/
def scaleElem (p : Problem) (acc : U32) (sr sc : FV) : U32 :=
  let x : FV := if isIntFmt p.a.fmt then FV.ofInt acc.toInt 0 false else fmtF32.decode acc.toNat
  if p.sr.sbase = 0 && p.sc.sbase = 0 then
    if isIntFmt p.a.fmt then acc else .ofNat 32 (fmtF32.round .rne false x)
  else
    let x := if isIntFmt p.a.fmt then fmtF32.decode (fmtF32.round .rne false x) else x
    let t := fmtF32.decode (fmtF32.round .rne false (x.mul sr))
    .ofNat 32 (fmtF32.round .rne false (t.mul sc))

/-! ## Walk order (05 R82) -/

def ceilDiv (a b : Nat) : Nat := (a + b - 1) / b
def Problem.mt (p : Problem) : Nat := ceilDiv p.m (2 ^ p.tmlog)
def Problem.nt (p : Problem) : Nat := ceilDiv p.n (2 ^ p.tnlog)
def Problem.ksn (p : Problem) : Nat := ceilDiv p.k p.tk
def Problem.tiles (p : Problem) : Nat := p.mt * p.nt

/-- Tile (ti, tj) of walk-order index q. -/
def Problem.tile (p : Problem) (q : Nat) : Nat × Nat :=
  if p.order = 1 then (q % p.mt, q / p.mt)
  else
    let ti := q / p.nt; let tj := q % p.nt
    (ti, if p.order = 2 && ti % 2 = 1 then p.nt - 1 - tj else tj)

/-- The operand ordinals of slab ks of tile q: A's and B's (14 R269). -/
def Problem.ordA (p : Problem) (q ks : Nat) : Nat := (p.tile q).1 * p.ksn + ks
def Problem.ordB (p : Problem) (q ks : Nat) : Nat := ks * p.nt + (p.tile q).2

/-- The origin word of an operand (05 R87). -/
def Problem.origin (p : Problem) (sideB : Bool) (ord : Nat) : Nat × Nat :=
  if sideB then (ord / p.nt * p.tk, ord % p.nt * 2 ^ p.tnlog)
  else (ord / p.ksn * 2 ^ p.tmlog, ord % p.ksn * p.tk)

/-- Cycles of a slab pass (14 R252). -/
def Problem.passCycles (p : Problem) : Nat := ceilDiv (p.a.stored p.tk * fmtSerial p.a.fmt) 16

/-- Bytes of a consumer slot (05 R83). -/
def Problem.csz (p : Problem) : Nat := (2 ^ p.tmlog * 2 ^ p.tnlog * 4 + 255) / 256 * 256
/-- Rows of a side's tile. -/
def Problem.rows (p : Problem) (sideB : Bool) : Nat := 2 ^ (if sideB then p.tnlog else p.tmlog)
def Problem.side (p : Problem) (sideB : Bool) : Operand := if sideB then p.b else p.a
/-- Window offsets of operand slot `n`, of its metadata tile, and of consumer slot `n`. -/
def Problem.slotAt (p : Problem) (n : Nat) : Nat := p.slotOff + n * p.slotSz
def Problem.consAt (p : Problem) (n : Nat) : Nat := p.slotOff + p.slots * p.slotSz + n * p.csz
def Problem.metaAt (p : Problem) (n : Nat) : Option (Nat × Nat) :=
  p.a.sparse.map fun x =>
    let sz := metaBytes x.2 (2 ^ p.tmlog) p.tk
    (x.1 + n * sz, sz)
/-- Self-check period (05 R80), 0 for off. -/
def Problem.checkPeriod (p : Problem) : Nat :=
  if p.schk = 0xFF then 0 else if p.schk = 0 then 64 else 2 ^ (p.schk - 1)

end Sys2Proof.Machine
end

