-- ==== Sys2Proof/Machine/Walks.lean ====
section
/-!
DEFINITION. The matrix walk engine's shared operations: shape records (05 R85, R86), walks and their counters, upcalls, the
operand fetcher, scales, delivery to consumer slots, failures, stopping and ending (14 R248 to R272).
-/
namespace Sys2Proof.Machine

/-! ## Shape records (05 R85, R86) -/

/-- A tensor shape record for an operand; none if it breaks R85. -/
def parseTensor (o : Operand) (imgBase : U64) (b : List Byte) : Option Shape :=
  let f := leAt b
  let bits := fmtBits o.fmt
  let layout := f 2 1
  let base : U64 := .ofNat 64 (f 8 8)
  let pitch := f 0x18 8
  let contiguous := if layout = 0 then f 0x14 4 else f 0x10 4
  let ok := f 0 1 = 1 && f 1 1 = o.fmt && layout ≤ 1 && (layout = 0 || !(isSxFmt o.fmt || bits = 4)) && f 3 1 ≤ 1 &&
    f 4 4 = 0 && f 0x20 32 = 0 && upTo16M (f 0x10 4) && upTo16M (f 0x14 4) && (contiguous * bits + 7) / 8 ≤ pitch &&
    (!isSxFmt o.fmt || pitch * 8 % (bits * o.block) = 0)
  if ok then
    some { kind := 1, fmt := o.fmt, layout := layout, base := if f 3 1 = 1 && base ≠ 0 then base + imgBase else base
           extn := f 0x10 4, extk := f 0x14 4, pitch := .ofNat 64 pitch }
  else none

/-- A convolution shape record for A; none if it breaks R86. A 6-bit format's PADV takes its whole byte (DESIGN CHOICE, log 99). -/
def parseConv (o : Operand) (m k : Nat) (imgBase : U64) (b : List Byte) : Option Shape :=
  let f := leAt b
  let bits := fmtBits o.fmt
  let base : U64 := .ofNat 64 (f 8 8)
  let within (lo hi x : Nat) : Bool := lo ≤ x && x ≤ hi
  let ok := f 0 1 = 2 && f 1 1 = o.fmt && !(isSxFmt o.fmt || bits = 4) && f 2 1 = 0 && f 3 1 ≤ 1 &&
    within 1 65535 (f 4 4) && within 1 65535 (f 0x10 2) && within 1 65535 (f 0x12 2) && within 1 65535 (f 0x14 2) &&
    within 1 32 (f 0x1A 1) && within 1 32 (f 0x1B 1) && within 1 16 (f 0x1C 1) && within 1 16 (f 0x1D 1) &&
    within 1 16 (f 0x1E 1) && within 1 16 (f 0x1F 1) && f 0x22 2 = 0 && f 0x24 4 / 2 ^ bits = 0 && f 0x28 24 = 0 &&
    m = f 0x10 2 * f 0x16 2 * f 0x18 2 && k = f 0x1A 1 * f 0x1B 1 * f 4 4
  if ok then
    some { kind := 2, fmt := o.fmt, layout := 0, base := if f 3 1 = 1 && base ≠ 0 then base + imgBase else base
           extn := 0, extk := 0, pitch := 0, ic := f 4 4, in_ := f 0x10 2, ih := f 0x12 2, iw := f 0x14 2
           oh := f 0x16 2, ow := f 0x18 2, fh := f 0x1A 1, fw := f 0x1B 1, sh := f 0x1C 1, sw := f 0x1D 1
           dh := f 0x1E 1, dw := f 0x1F 1, ph := f 0x20 1, pw := f 0x21 1, padv := .ofNat 32 (f 0x24 4) }
  else none

/-- The input coordinates that row i and column k of a convolution's A read (R86): batch, height, width, channel. -/
def Shape.convAt (h : Shape) (i k : Nat) : Nat × Int × Int × Nat :=
  let oh := i / h.ow % h.oh; let ow := i % h.ow
  let fh := k / (h.fw * h.ic); let fw := k / h.ic % h.fw
  (i / (h.oh * h.ow), ((oh * h.sh + fh * h.dh : Nat) : Int) - h.ph, ((ow * h.sw + fw * h.dw : Nat) : Int) - h.pw, k % h.ic)

/-- The address of element (n, k) of a shape, as an integer, with a bit offset: of one in a convolution's padding, too, by the same formula,
though it is not read there (DESIGN CHOICE, log 94). -/
def Shape.addr (h : Shape) (n k : Nat) : Int × Nat :=
  let bits := fmtBits h.fmt
  if h.kind = 2 then
    let (nb, ih, iw, c) := h.convAt n k
    ((h.base.toNat : Int) + ((((nb * h.ih : Nat) + ih) * h.iw + iw) * h.ic + c) * (bits / 8 : Nat), 0)
  else if h.layout = 0 then (((h.base.toNat + n * h.pitch.toNat + k * bits / 8 : Nat) : Int), k * bits % 8)
  else (((h.base.toNat + k * h.pitch.toNat + n * (bits / 8) : Nat) : Int), 0)

/-- A piece of a tile: its bit place in the slot, its width, and where it is read or else its constant. -/
structure Piece where
  at_ : Nat
  bits : Nat
  addr : Option (Int × Nat)
  const : Nat
  deriving DecidableEq, Repr

/-- Element (n, k) of a shape: outside its extents zero, and in a convolution's padding PADV, neither of which is read. -/
def Shape.piece (h : Shape) (p : Problem) (at_ n k : Nat) : Piece :=
  let bits := fmtBits h.fmt
  let const (x : Nat) : Piece := { at_ := at_, bits := bits, addr := none, const := x }
  if h.kind = 2 then
    if p.m ≤ n || p.k ≤ k then const 0
    else
      let (_, ih, iw, _) := h.convAt n k
      if 0 ≤ ih && ih < h.ih && 0 ≤ iw && iw < h.iw then { at_ := at_, bits := bits, addr := some (h.addr n k), const := 0 }
      else const h.padv.toNat
  else if h.extn ≤ n || h.extk ≤ k then const 0
  else { at_ := at_, bits := bits, addr := some (h.addr n k), const := 0 }

/-- The pieces of the tile of a side at an origin: the non-K index n0 and the K index k0 (R84, R85, R87). Where the K origin is no multiple
of the block length, a block of the slot takes the exponent of its first element's block (DESIGN CHOICE, log 96). -/
def Shape.pieces (h : Shape) (p : Problem) (sideB : Bool) (n0 k0 : Nat) : List Piece :=
  let o := p.side sideB
  let rows := p.rows sideB
  let bits := fmtBits o.fmt
  let elems := (List.range rows).flatMap fun r => (List.range (o.stored p.tk)).map fun kk =>
    h.piece p ((r * o.stored p.tk + kk) * bits) (n0 + r) (k0 + kk)
  let exps := if isSxFmt o.fmt then
      (List.range rows).flatMap fun r => (List.range (p.tk / o.block)).map fun kb =>
        let n := n0 + r; let k := k0 + kb * o.block
        let place := 8 * (o.elemBytes rows p.tk + r * (p.tk / o.block) + kb)
        if h.extn ≤ n || h.extk ≤ k then { at_ := place, bits := 8, addr := none, const := 0 }
        else
          let q := n * (h.pitch.toNat * 8 / bits) + k
          { at_ := place, bits := 8, addr := some (((o.xbase.toNat + q / 2 ^ o.xshift : Nat) : Int), 0), const := 0 }
    else []
  elems ++ exps

/-! ## Walks -/

def State.walkAt (s : State) (q rte : Nat) : Option Walk := NMap.find? (s.mwe q).walks rte
def State.setWalk (s : State) (q rte : Nat) (w : Walk) : State :=
  s.onMwe q fun m => { m with walks := NMap.insert m.walks rte w }
def State.onWalk (s : State) (q rte : Nat) (f : Walk → Walk) : State :=
  match s.walkAt q rte with
  | some w => s.setWalk q rte (f w)
  | none => s

def Walk.token (w : Walk) (q : Nat) : U64 := mkToken (srcMwe q) w.ctx w.seq

/-- The engine goes on with a walk at a later time. -/
def State.askWalk (s : State) (q rte at_ : Nat) : State :=
  if s.expects (· == .operandRequest q rte) then s else s.later at_ (.operandRequest q rte)
/-- Asks an engine's arbiter to look at the array. -/
def State.kickArray (s : State) (q : Nat) : State :=
  if s.expects (· == .tileBegin q) then s else s.soon (.tileBegin q)
/-- Offers live sets to the engine's QUEUED walks. -/
def State.kickQueued (s : State) (q : Nat) : State :=
  (s.mwe q).walks.foldl (fun s w =>
    if w.2.state = .queued && !s.expects (· == .walkActivate q w.1) then s.soon (.walkActivate q w.1) else s) s

/-- Adds to a counter (R275). -/
def Walk.count (w : Walk) (n k : Nat) : Walk := { w with counters := w.counters.set n (w.counters.getD n 0 + k) }
/-- Keeps a failure's cause and HFAIL code (counter 7). -/
def Walk.noteFailure (w : Walk) (cause code : Nat) : Walk :=
  { w with counters := w.counters.set 7 (code % 2 ^ 16 + cause * 2 ^ 16) }

/-- The operand of a side and ordinal, if the engine has requested it. -/
def Walk.op? (w : Walk) (sideB : Bool) (ord : Nat) : Option OpSlot := w.ops.find? fun o => o.sideB = sideB && o.ordinal = ord
def Walk.onOp (w : Walk) (p : OpSlot → Bool) (f : OpSlot → OpSlot) : Walk :=
  { w with ops := w.ops.map fun o => if p o then f o else o }
/-- An operand is held. -/
def Walk.holds (w : Walk) (sideB : Bool) (ord : Nat) : Bool := (w.op? sideB ord).any fun o => 2 ≤ o.st
/-- Slab ks of tile q lacks its A, or its B, operand. -/
def Walk.lacksA (w : Walk) (q ks : Nat) : Bool := !w.holds false (w.prob.ordA q ks)
def Walk.lacksB (w : Walk) (q ks : Nat) : Bool := !w.holds true (w.prob.ordB q ks)

/-- The lowest-numbered free operand slot. -/
def Walk.freeSlot (w : Walk) : Nat := ((List.range w.prob.slots).find? fun n => !w.ops.any (·.slot = some n)).getD 0
/-- The highest-numbered free consumer slot. -/
def Walk.freeCons (w : Walk) : Option Nat :=
  ((List.range w.prob.cslots).reverse).find? fun n => !NSet.mem w.cons n

/-- The accumulator belongs to the walk. -/
def Acc.of (a : Acc) (rte : Nat) (w : Walk) : Bool := a.st ≠ 0 && a.ctx = w.ctx && a.rte = rte && a.seq = w.seq
/-- A finished tile of the walk waits in an accumulator: its number and the tile of least index. -/
def Mwe.waitingAcc (m : Mwe) (rte : Nat) (w : Walk) : Option (Nat × Acc) :=
  (m.accs.zipIdx.filter fun p => p.1.of rte w && p.1.st = 2).foldl (fun b p => match b with
    | some x => if p.1.q < x.2.q then some (p.2, p.1) else b
    | none => some (p.2, p.1)) none
def State.setAcc (s : State) (q n : Nat) (a : Acc) : State := s.onMwe q fun m => { m with accs := m.accs.set n a }

/-- Brings the cycle counters of an engine's walks up to now (R254). -/
def State.account (s : State) (q : Nat) : State :=
  let m := s.mwe q
  if m.walks.isEmpty then s.setMwe q { m with since := s.time }
  else
    let n := (s.time - m.since) / 10
    if n = 0 then s
    else
      let idle : Bool := match m.array with
        | some a => !a.busy && a.ks < ((NMap.find? m.walks a.rte).map (·.prob.ksn)).getD 0
        | none => true
      let one (rte : Nat) (w : Walk) : Walk :=
        if !w.began || w.state = .saved || w.state = .stopping then w
        else
          let (t, ks) := match m.array with
            | some a => if a.rte = rte then (a.q, a.ks) else (w.next, 0)
            | none => (w.next, 0)
          let w := if idle && t < w.prob.tiles then
              (if w.lacksA t ks then w.count 1 n else if w.lacksB t ks then w.count 2 n else w) else w
          if (m.waitingAcc rte w).isSome && w.freeCons.isNone then w.count 3 n else w
      s.setMwe q { m with since := m.since + 10 * n, walks := m.walks.map fun p => (p.1, one p.1 p.2) }

/-! ## Upcalls (R255, R256, 06 R110, 07 R119) -/

/-- Records of the upcall share of a core's RG, and its entry points. -/
def State.upcallRecords (s : State) (core : Nat) : List Record :=
  ((s.core core).inflight ++ (s.core core).batches.flatMap (·.records)).filter (·.origin = 3)

/-- The upcall share has room for a record of an entry point. -/
def State.upcallRoom (s : State) (core grid hidx : Nat) : Bool :=
  let rs := s.upcallRecords core
  let points := distinct (rs.map fun r => r.grid * 64 + r.hidx)
  rs.length < 256 && (points.contains (grid * 64 + hidx) || points.length < 8)

/-- The core an upcall of a grid goes to (07 R119); one that is drained or scanned is passed over (19 R343). -/
def State.upcallCore (s : State) (q grid : Nat) : Nat :=
  let up := (coresOf q).filter fun c => (s.core c).scan = .inService
  let free (c : Nat) : Bool := (s.grid? grid).any fun g => g.reserves.any fun r => r.core = c && r.user.isNone
  (up.find? free).getD (up.headD ((coresOf q).headD 0))

/-- The words of a record's bytes 8 to 63. -/
def recordWords (bytes : List Byte) : List U32 := (List.range 14).map fun k => .ofNat 32 (leAt bytes (4 * k) 4)

/-- Raises an upcall (R255). -/
def State.raiseUpcall (s : State) (q rte : Nat) (w : Walk) (core : Nat) (u : Upcall) (ks : Nat) (checked : Bool) : State :=
  let p := w.prob
  let (o1, o2) := if u.ukind = 3 then let t := p.tile u.ordinal; (t.1 * 2 ^ p.tmlog, t.2 * 2 ^ p.tnlog)
    else p.origin (u.ukind = 2) u.ordinal
  let saddr := match u.slot with
    | some n => 0x20000000 + (if u.ukind = 3 then p.consAt n else p.slotAt n)
    | none => 0
  let maddr := match u.ukind, u.slot, u.slot.bind p.metaAt with
    | 1, some _, some (m, _) => 0x20000000 + m
    | _, _, _ => 0
  let flags := (if u.bad then 1 else 0) + (if w.resumed then 2 else 0) + (if checked then 4 else 0)
  let hidx := if u.ukind = 3 then p.cons else (p.side (u.ukind = 2)).hidx
  let bytes := leBytes 4 o1 ++ leBytes 4 o2 ++ leBytes 4 saddr ++ leBytes 4 maddr ++ leBytes 8 p.user.toNat ++
    leBytes 8 (w.token q).toNat ++ leBytes 4 u.tseq ++ leBytes 4 ks ++ leBytes 16 0
  let r : Record := {
    grid := w.grid, origin := 3, hidx := hidx
    ospec := .ofNat 32 (u.ukind + u.slot.getD 0xFF * 2 ^ 8 + rte * 2 ^ 16 + flags * 2 ^ 24)
    src := srcMwe q, payload := recordWords bytes, poison := List.replicate 14 false, upcall := some (q, rte, u.id) }
  let s := s.onWalk q rte fun w => { w with upcalls := w.upcalls ++ [u] }.count 4 1
  (s.onCore core fun c => { c with inflight := c.inflight ++ [r] }).soon (.recordArrival core)

/-- The slot and metadata ranges granted to the handler of an upcall that is still outstanding (R256). -/
def State.grantOf (s : State) (q rte id : Nat) : Grant :=
  match s.walkAt q rte with
  | some w =>
    match w.upcalls.find? (·.id = id) with
    | some u =>
      let p := w.prob
      let ranges := match u.slot with
        | some n => if u.ukind = 3 then [(p.consAt n, p.csz)]
          else (p.slotAt n, p.slotSz) :: (if u.ukind = 1 then (p.metaAt n).toList else [])
        | none => []
      { quad := q, rte := rte, upcall := id, owner := w.uid, ranges := ranges, live := w.state ≠ .stopping }
    | none => { quad := q, rte := rte, upcall := id, owner := w.uid, ranges := [], live := false }
  | none => { quad := q, rte := rte, upcall := id, owner := 0, ranges := [], live := false }

/-! ## Ending a walk (R249, R250, R263, R266) -/

/-- A walk's entry becomes FREE and its future completes. -/
def State.endWalk (s : State) (q rte st detail : Nat) : State :=
  let s := s.account q
  match s.walkAt q rte with
  | none => s
  | some w =>
    let src := srcMwe q
    let s := s.onMwe q fun m => { m with
      accs := m.accs.map fun a => if a.of rte w then {} else a
      walks := NMap.erase m.walks rte
      array := m.array.filter fun a => a.rte ≠ rte
      late := m.late.filter fun a => a.rte ≠ rte
      engine := { m.engine with ring := m.engine.ring.map fun j =>
        if j.seq = w.seq then { j with counters := some w.counters } else j } }
    let s := s.cancel fun i => match i with
      | .operandHeld a b _ | .fetcherFillDone a b _ => a = q && b = rte
      | _ => false
    let s := s.completeJob src w.seq st w.donec detail
    (((s.settleJob w.uid w.grid).pushJobs w.ctx).kickQueued q).kickArray q

/-- Ends the grants of the handler teams of a walk. -/
def State.revoke (s : State) (q rte : Nat) : State :=
  { s with teams := s.teams.map fun p => (p.1, { p.2 with
      grant := p.2.grant.map fun g => if g.quad = q && g.rte = rte then { g with live := false } else g }) }

/-- A walk stops: cancelled, failed under FPOL 0 or by an engine reset. -/
def State.stopWalk (s : State) (q rte st detail : Nat) : State :=
  let s := s.account q
  match s.walkAt q rte with
  | none => s
  | some w =>
    if w.state = .stopping then s
    else
      let s := s.revoke q rte
      let quiet (o : OpSlot) : OpSlot := { o with fetch := none, parked := none }
      let s := s.setWalk q rte { w with state := .stopping, ending := some (st, detail), parked := none
                                        ops := w.ops.map quiet }
      let s := if (s.mwe q).array.any (·.rte = rte) then s.cancel (· == .tileFinish q) else s
      (s.onMwe q fun m => { m with array := m.array.filter fun a => a.rte ≠ rte, late := m.late.filter fun a => a.rte ≠ rte }).soon (.walkStopDone q rte)

/-! ## Failures (R262, R263) -/

/-- The walk stops FAULTED with a cause, whatever its fault policy, and keeps the cause for WSTAT (R249, R275). -/
def State.faultWalk (s : State) (q rte cause : Nat) : State :=
  if (s.walkAt q rte).any (·.state = .stopping) then s
  else (s.onWalk q rte (·.noteFailure cause 0)).stopWalk q rte fFAULTED cause

/-- Ends a walk at once, FAULTED with cause 0x08, but as it was to end if it is STOPPING already (R249, 19 R348). -/
def State.abortWalk (s : State) (q rte : Nat) : State :=
  let s := s.faultWalk q rte 0x08
  let e := ((s.walkAt q rte).bind (·.ending)).getD (fFAULTED, 0x08)
  s.endWalk q rte e.1 e.2

/-- Where a place of the posting team's window lies, for the engine (13 R233). -/
def Walk.spot (w : Walk) (off : Nat) : Spot := { uid := w.uid, core := w.core, base := w.window.base, off := off, peer := true }
/-- The engine's access to bytes of the window recalls and fills their stash sectors (12 R210, 13 R233). -/
def State.slotFill (s : State) (w : Walk) (off n : Nat) (k : AKind) : State :=
  if (s.team? w.uid).any fun t => !t.stashes.isEmpty then s.fill (w.spot off) n k else s
/-- Writes bytes into the posting team's window. -/
def State.slotWrite (s : State) (w : Walk) (off : Nat) (bytes : List Byte) (bad : Bool) : State :=
  let s := (s.slotFill w off bytes.length .write).swrite
    ((List.range bytes.length).map fun k => scratchKey w.core (w.window.base + off + k)) bytes bad
  s.noteStash (w.spot off) bytes.length
/-- Bytes of the posting team's window, with their poison, once filled. -/
def State.slotRead (s : State) (w : Walk) (off n : Nat) : List Byte × Bool :=
  s.sread ((List.range n).map fun k => scratchKey w.core (w.window.base + off + k))
/-- A sector of an operand slot is poisoned (R261). -/
def State.slotBad (s : State) (w : Walk) (slot : Nat) : Bool := (s.slotRead w (w.prob.slotAt slot) w.prob.slotSz).2

/-- A failure of the walk: under FPOL 0 it stops; under FPOL 1 `onward` follows. -/
def State.failWalk (s : State) (q rte cause code : Nat) (onward : State → State) : State :=
  let s := s.onWalk q rte (·.noteFailure cause code)
  match s.walkAt q rte with
  | some w => if w.prob.fpol = 0 then s.stopWalk q rte fFAULTED cause else onward s
  | none => s

/-- A producer or operand has failed under FPOL 1: held, poisoned; without a slot it is given one, zeroed (R263). -/
def State.holdFailed (q rte : Nat) (sideB : Bool) (ord : Nat) (s : State) : State :=
  match s.walkAt q rte with
  | none => s
  | some w =>
    let mine (o : OpSlot) : Bool := o.sideB = sideB && o.ordinal = ord
    match w.op? sideB ord with
    | none => s
    | some o =>
      let n := o.slot.getD w.freeSlot
      let s := s.setWalk q rte (w.onOp mine fun o => { o with slot := some n, st := 3, fetch := none, parked := none })
      let s := if o.slot.isSome then s
        else s.slotWrite w (w.prob.slotAt n) (List.replicate w.prob.slotSz 0) true
      s.kickArray q

/-- A consumer upcall has failed under FPOL 1: its tile is dropped and its slot frees. -/
def State.dropTile (q rte : Nat) (u : Upcall) (s : State) : State :=
  s.onWalk q rte fun w => { w with cons := NSet.remove w.cons (u.slot.getD 0) }.count 5 (if u.bad then 0 else 1)

/-! ## Engine reads (14 R259, 05 R90) -/

/-- Why a read of the fetcher does not give bytes. -/
inductive FetchErr where
  | fail (cause : Nat)
  | park (va level entry : Nat)
  deriving DecidableEq, Repr

/-- The addresses of a read of the fetcher, checked against the footprint (R90). -/
def State.footRead (s : State) (w : Walk) (a : Int) (n : Nat) : Except FetchErr (List Nat) :=
  let inside (b : Int) : Bool := w.prob.foot.any fun e => !e.write && (e.base : Int) ≤ b && b < e.base + e.len
  if !(List.range n).all fun k => inside (a + (k : Nat)) then .error (.fail 0x06)
  else match rangeError a n with
    | some _ => .error (.fail 0x05)
    | none => match s.translate w.ctx (s.xlatOf w.ctx w.grid) .read a.toNat n with
      | .ok pas => .ok pas
      | .error (.trap _ _ _ _) => .error (.fail 0x05)
      | .error (.park va l e) => .error (.park va l e)

/-- The addresses of the pieces of a tile, or the first error. -/
def State.pieceAddrs (s : State) (w : Walk) : List Piece → Except FetchErr (List (List Nat))
  | [] => .ok []
  | p :: rest =>
    let this : Except FetchErr (List Nat) := match p.addr with
      | some (a, off) => s.footRead w a ((off + p.bits + 7) / 8)
      | none => .ok []
    match this with
    | .error e => .error e
    | .ok pas => (s.pieceAddrs w rest).map (pas :: ·)

/-- Reads a tile's pieces into the number of its bytes, with poison. -/
def State.readPieces (s : State) (ps : List (Piece × List Nat)) : Nat × Bool :=
  ps.foldl (fun acc p =>
    match p.1.addr with
    | some (_, off) =>
      let (bytes, bad) := s.gread p.2
      (acc.1 + bitsAt (leNat bytes) off p.1.bits * 2 ^ p.1.at_, acc.2 || bad)
    | none => (acc.1 + p.1.const * 2 ^ p.1.at_, acc.2)) (0, false)

/-- Parks an access of an engine: the fault record of its source (08 R138, R147). -/
def State.parkWalk (s : State) (q rte : Nat) (w : Walk) (k : AKind) (va l e : Nat) : State :=
  ((s.onWalk q rte fun w => { w with parked := some e }).parkRecord w.ctx (srcMwe q) k va l e).recheck e

/-- The device addresses of the scale of row or column n of a side (05 R89), if it has one. A reference below TBASE gives a negative distance,
which is shifted as such (DESIGN CHOICE, log 95). -/
def State.scaleAddrs (s : State) (w : Walk) (sideB : Bool) (n : Nat) : Except FetchErr (Option (List Nat)) :=
  let p := w.prob
  let o := p.side sideB
  let d := if sideB then p.sc else p.sr
  if d.sbase = 0 then .ok none
  else
    let size := if d.senc = 0 then 1 else 4
    let ref : Int := match o.kind, o.shape with
      | 2, some h => (h.addr n 0).1
      | _, _ => ((d.tbase.toNat + n * size * 2 ^ d.shift : Nat) : Int)
    let a : Int := d.sbase.toNat + Int.fdiv (ref - d.tbase.toNat) ((2 ^ d.shift : Nat) : Int)
    let a := if size = 4 then a - a % 4 else a
    (s.footRead w a size).map some

/-- A place of the scale cache: an address and a width. -/
def scaleKey (pas : List Nat) : Nat := 8 * pas.headD 0 + pas.length

/-- A scale as the engine reads it through its scale cache: of the old and the new value of one that has changed since the walk read
it, the device's choice (05 R89; DESIGN CHOICE, log 6). -/
def State.scaleBytes (s : State) (w : Walk) (pas : List Nat) : List Byte × Bool :=
  match NMap.find? w.scales (scaleKey pas) with
  | some x => if s.choice % 2 = 0 then x else s.gread pas
  | none => s.gread pas

/-- A scale's value and poison, once its sector has been recalled. -/
def State.readScale (s : State) (w : Walk) (sideB : Bool) (n : Nat) : Except FetchErr (FV × Bool) :=
  (s.scaleAddrs w sideB n).map fun
    | none => (.fin false 1 0, false)
    | some pas =>
      let (bytes, bad) := s.scaleBytes w pas
      (scaleVal (if sideB then w.prob.sc else w.prob.sr).senc (leNat bytes), bad)

/-- The rows or columns of a tile that lie inside C. -/
def insideC (n0 lim : Nat) (ks : List Nat) : List Nat := ks.filter (n0 + · < lim)

/-- The engine is to read the scales of a tile's rows or columns: their sectors are recalled, and its cache holds them, but for those
of the pool (12 R210, R218). -/
def State.holdScales (s : State) (q rte : Nat) (sideB : Bool) (n0 lim : Nat) (ks : List Nat) : State :=
  (insideC n0 lim ks).foldl (fun s k =>
    match s.walkAt q rte with
    | none => s
    | some w => match s.scaleAddrs w sideB (n0 + k) with
      | .ok (some pas) =>
        let (s, x) := s.readGlobal pas
        if pas.any inPool || (NMap.find? w.scales (scaleKey pas)).isSome then s
        else s.setWalk q rte { w with scales := NMap.insert w.scales (scaleKey pas) x }
      | _ => s) s

/-- The scales of the rows or columns of a tile that lie inside C; a failed one is 1.0 and poisoned, with its cause. -/
def State.readScales (s : State) (w : Walk) (sideB : Bool) (n0 lim : Nat) :
    List Nat → Except FetchErr (List (FV × Bool) × Option Nat)
  | [] => .ok ([], none)
  | k :: rest =>
    match (if n0 + k < lim then s.readScale w sideB (n0 + k) else .ok (.fin false 1 0, false)),
        s.readScales w sideB n0 lim rest with
    | .error (.park va l e), _ => .error (.park va l e)
    | _, .error e => .error e
    | .error (.fail c), .ok (xs, _) => .ok ((.fin false 1 0, true) :: xs, some c)
    | .ok x, .ok (xs, c) => .ok (x :: xs, c)

/-! ## Delivery (R252, R261) -/

/-- Writes a finished tile into a consumer slot; all of the slot is poisoned where every element is (R261). -/
def State.writeTile (s : State) (w : Walk) (slot : Nat) (a : Acc) : State :=
  let at_ := w.prob.consAt slot
  let bytes := a.data.flatMap fun x => leBytes 4 x.toNat
  if a.data.length ≤ a.poison.length then
    (s.slotWrite w at_ bytes true).slotWrite w (at_ + bytes.length) (List.replicate (w.prob.csz - bytes.length) (0 : Byte)) true
  else
    let s := s.slotWrite w at_ bytes false
    a.poison.foldl (fun s n => s.slotWrite w (at_ + 4 * n) (leBytes 4 (a.data.getD n 0).toNat) true) s

/-- Delivers finished tiles of a walk that wait in accumulators, while a consumer slot is free and upcalls may be raised. A tile whose
upcall finds no room in the record gatherer waits for it (06 R110). -/
def State.deliver (q rte : Nat) : Nat → State → State
  | 0, s => s
  | n + 1, s =>
    match s.walkAt q rte with
    | none => s
    | some w =>
      let core := s.upcallCore q w.grid
      if w.state ≠ .active || s.classShed w.prio then s
      else match (s.mwe q).waitingAcc rte w, w.freeCons with
        | some (k, a), some slot =>
          if !s.upcallRoom core w.grid w.prob.cons then
            s.askWalk q rte (s.time + cycles 1)
          else
            let s := (s.writeTile w slot a).setAcc q k {}
            let s := s.onWalk q rte fun w =>
              ({ w with cons := NSet.add w.cons slot }.count 0 1).count 5 (if a.poison.isEmpty then 0 else 1)
            let (id, s) := s.fresh
            let u : Upcall := { id := id, ukind := 3, slot := some slot, ordinal := a.q, tseq := a.q
                                bad := a.data.length ≤ a.poison.length }
            let s := match s.walkAt q rte with
              | some w => s.raiseUpcall q rte w core u 0 a.checked
              | none => s
            s.kickArray q |>.deliver q rte n
        | _, _ => s

/-! ## Returns (R258, R263) -/

/-- The base of the image of a walk's grid (05 R79). -/
def State.imageBase (s : State) (grid : Nat) : U64 := ((s.grid? grid).map (·.image.base)).getD 0

/-- The addresses of the shape record a handle names (05 R87, 14 R258). A trap-class fault there has cause 0x05 (DESIGN CHOICE, log 97). -/
def State.handleAddrs (s : State) (w : Walk) (a : U64) : Except FetchErr (List Nat) :=
  if a.toNat % 64 ≠ 0 then .error (.fail 0x04)
  else match s.xlatRange w.ctx (s.xlatOf w.ctx w.grid) .read a 64 with
    | .error (.park va l e) => .error (.park va l e)
    | .error (.trap _ _ _ _) => .error (.fail 0x05)
    | .ok pas => .ok pas

/-- An operand's fetch meets an invalid entry: it is parked there, with the engine's source number (R259). -/
def State.parkFetch (s : State) (q rte : Nat) (w : Walk) (slot va l e : Nat) : State :=
  let park (x : OpSlot) : OpSlot := { x with parked := some e }
  let s := s.onWalk q rte fun w => w.onOp (·.slot = some slot) park
  (s.parkRecord w.ctx (srcMwe q) .read va l e).recheck e

/-- The engine reads and checks the shape record of the handle that an operand's fetch has, when the handle arrives (R258, 05 R87); the
fetcher goes on from there. -/
def State.readHandle (s : State) (q rte slot : Nat) : State :=
  match s.walkAt q rte with
  | none => s
  | some w =>
    let mine (x : OpSlot) : Bool := x.slot = some slot
    match w.ops.find? mine with
    | none => s
    | some o => match o.fetch with
      | none => s
      | some f => match f.handle with
        | none => s.later (s.time + cycles (s.delay 180)) (.fetcherFillDone q rte slot)
        | some a =>
          match s.handleAddrs w a with
          | .error (.fail c) => s.failWalk q rte c 0 (State.holdFailed q rte o.sideB o.ordinal)
          | .error (.park va l e) => s.parkFetch q rte w slot va l e
          | .ok pas =>
            let (s, bytes, bad) := s.readGlobal pas
            match parseTensor (w.prob.side o.sideB) (s.imageBase w.grid) bytes with
            | none => s.failWalk q rte 0x04 0 (State.holdFailed q rte o.sideB o.ordinal)
            | some h =>
              let keep (x : OpSlot) : OpSlot := { x with fetch := some { f with handle := none, shape := some h, bad := bad } }
              (s.onWalk q rte fun w => w.onOp mine keep).later (s.time + cycles (s.delay 180)) (.fetcherFillDone q rte slot)

/-- Starts a fetch of an operand. -/
def State.startFetch (s : State) (q rte : Nat) (sideB : Bool) (ord : Nat) (f : Fetch) : State :=
  match s.walkAt q rte with
  | none => s
  | some w =>
    let n := ((w.op? sideB ord).bind (·.slot)).getD w.freeSlot
    (s.setWalk q rte (w.onOp (fun o => o.sideB = sideB && o.ordinal = ord) fun o =>
      { o with slot := some n, fetch := some f })).readHandle q rte n

/-- The engine takes up the first return of an upcall. -/
def State.takeReturn (s : State) (q rte : Nat) (x : Nat × Return) : State :=
  match s.walkAt q rte with
  | none => s
  | some w =>
    match w.upcalls.find? (·.id = x.1) with
    | none => s
    | some u =>
      let s := s.setWalk q rte { w with upcalls := w.upcalls.filter (·.id ≠ x.1) }
      if u.ukind = 3 then
        match x.2 with
        | .hret => s.onWalk q rte fun w => { w with cons := NSet.remove w.cons (u.slot.getD 0), donec := w.donec + 1 }
        | .hretf _ _ => s.failWalk q rte 0x03 0 (State.dropTile q rte u)
        | .hfail code => s.failWalk q rte 0x01 code (State.dropTile q rte u)
        | .killed => s.failWalk q rte 0x02 0 (State.dropTile q rte u)
      else
        let sideB := u.ukind = 2
        let fail (cause code : Nat) : State := s.failWalk q rte cause code (State.holdFailed q rte sideB u.ordinal)
        match x.2 with
        | .hret => match u.slot with
          | some n => s.later (s.time + cycles 20) (.operandHeld q rte n)
          | none => fail 0x03 0
        | .hretf a o => s.startFetch q rte sideB u.ordinal { handle := some a, shape := none, origin := o, bad := false }
        | .hfail code => fail 0x01 code
        | .killed => fail 0x02 0

/-! ## Requests (R251) -/

/-- The tiles of the window. -/
def Walk.window_ (w : Walk) : List Nat :=
  ((List.range w.prob.look).map (w.finished + ·)).filter (· < w.prob.tiles)

/-- The first slab of a tile that is still to be passed. -/
def Mwe.firstSlab (m : Mwe) (rte t : Nat) : Nat :=
  match m.array with
  | some a => if a.rte = rte && a.q = t then a.ks else 0
  | none => 0

/-- The operands the window needs, in the order of requests: side, ordinal, tile and slab. -/
def Walk.needs (w : Walk) (m : Mwe) (rte : Nat) : List (Bool × Nat × Nat × Nat) :=
  w.window_.flatMap fun t => ((List.range w.prob.ksn).filter (m.firstSlab rte t ≤ ·)).flatMap fun ks =>
    [(false, w.prob.ordA t ks, t, ks), (true, w.prob.ordB t ks, t, ks)]

/-- Releases the slots whose operand no window tile needs any longer. -/
def State.releaseSlots (s : State) (q rte : Nat) : State :=
  match s.walkAt q rte with
  | none => s
  | some w =>
    let needs := w.needs (s.mwe q) rte
    let keeps (o : OpSlot) : Bool := o.st < 2 || needs.any fun n => n.1 = o.sideB && n.2.1 = o.ordinal
    s.setWalk q rte { w with ops := w.ops.filter keeps }

/-- Makes the next request, if there is one and a slot is free: the engine makes at most one a cycle. A walk that is SAVING
raises no upcall, but fetches KIND 2 operands of its tile in progress (R268; DEDUCED, log 42). -/
def State.request (s : State) (q rte : Nat) : State :=
  match s.walkAt q rte with
  | none => s
  | some w =>
    let due (n : Bool × Nat × Nat × Nat) : Bool := (w.op? n.1 n.2.1).isNone && (w.state = .active ||
      ((w.prob.side n.1).kind = 2 && (s.mwe q).array.any fun a => a.rte = rte && a.q = n.2.2.1))
    if w.state ≠ .active && w.state ≠ .saving then s
    else if s.time < (s.mwe q).nextAsk then s.askWalk q rte (s.mwe q).nextAsk
    else match (w.needs (s.mwe q) rte).find? due with
      | none => s
      | some (sideB, ord, t, ks) =>
        let o := w.prob.side sideB
        let core := s.upcallCore q w.grid
        let next (s : State) : State :=
          let at_ := s.time + cycles 1
          (s.onMwe q fun m => { m with nextAsk := at_ }).askWalk q rte at_
        if w.prob.slots ≤ w.ops.length then s
        else if o.kind = 2 then
          let (o1, o2) := w.prob.origin sideB ord
          let n := w.freeSlot
          let s := s.setWalk q rte { w with ops := w.ops ++
            [{ slot := some n, sideB := sideB, ordinal := ord, st := 1, fetch := none, parked := none }] }
          next (s.startFetch q rte sideB ord
            { handle := none, shape := o.shape, origin := .ofNat 64 (o1 + o2 * 2 ^ 32), bad := false })
        else if s.classShed w.prio then s
        else if !s.upcallRoom core w.grid o.hidx then s.askWalk q rte (s.time + cycles 1)
        else
          let slot := if o.kind = 0 then some w.freeSlot else none
          let (id, s) := s.fresh
          let w := { w with ops := w.ops ++
            [{ slot := slot, sideB := sideB, ordinal := ord, st := 1, fetch := none, parked := none }] }
          let u : Upcall := { id := id, ukind := if sideB then 2 else 1, slot := slot, ordinal := ord, tseq := t, bad := false }
          next ((s.setWalk q rte w).raiseUpcall q rte w core u ks false)

/-- Every output tile has been delivered or dropped and every consumer upcall has completed. -/
def State.walkDone (s : State) (q rte : Nat) (w : Walk) : Bool :=
  w.state = .active && w.finished = w.prob.tiles && !(s.mwe q).late.any (·.rte = rte) && ((s.mwe q).waitingAcc rte w).isNone && !w.upcalls.any (·.ukind = 3)

end Sys2Proof.Machine
end

