-- ==== Sys2Proof/Machine/WalkEvents.lean ====
section
/-!
DEFINITION. The events of the matrix walk engines (14 R249 to R253, R258, R259, R268, R271, R272, 19 R340, R341).
-/
namespace Sys2Proof.Machine

/-! ## Entering ACTIVE, and the cursor (R249, R269, R271) -/

/-- Walks an engine interleaves (R248). -/
def liveSets : Nat := 4

/-- Walk `a` ranks before `b` (R248). -/
def Walk.before (a b : Nat × Walk) : Bool :=
  a.2.prio < b.2.prio || (a.2.prio = b.2.prio && (a.2.age < b.2.age || (a.2.age = b.2.age && a.1 < b.1)))

/-- The best-ranked of a list. -/
def bestWalk (l : List (Nat × Walk)) : Option (Nat × Walk) :=
  l.foldl (fun b w => match b with
    | some x => if Walk.before w x then some w else b
    | none => some w) none

/-- The 256 bytes of a walk's cursor (R269). -/
def State.cursorBytes (s : State) (q rte : Nat) (w : Walk) : List Byte :=
  let slotWord (n : Nat) : Nat := match w.ops.find? (·.slot = some n) with
    | some o => (if o.st = 2 && s.slotBad w n then 3 else o.st) + (if o.sideB then 4 else 0) + o.ordinal * 2 ^ 8
    | none => 0
  let accWord (a : Acc) : Nat := if a.of rte w && a.st = 2 then a.q + 2 ^ 32 + a.ctx * 2 ^ 36 else 0
  leBytes 4 0x57534B43 ++ leBytes 1 rte ++ leBytes 1 0 ++ leBytes 2 (srcMwe q) ++ leBytes 4 w.next ++ leBytes 4 w.donec ++
  leBytes 8 s.gts ++ (List.range 16).flatMap (fun n => leBytes 4 (slotWord n)) ++
  (s.mwe q).accs.flatMap (fun a => leBytes 8 (accWord a)) ++
  (List.range 8).flatMap (fun n => leBytes 8 (w.counters.getD n 0)) ++ leBytes 72 0

/-- WALK_ACTIVATE: the QUEUED walk that ranks first takes a free live set, once no earlier job holds it up (15 R281); on
resume it reads its cursor, and an altered one stops it. A pending pre-emption request meets it at once. -/
def execWalkActivate (q rte : Nat) (s : State) : Host.Outcome State Fault Refusal :=
  let s := s.account q
  match s.walkAt q rte with
  | none => .next s
  | some w =>
    let ws := (s.mwe q).walks
    let live := (ws.filter fun x => x.2.state = .active || x.2.state = .saving || x.2.state = .stopping).length
    let ready := ws.filter fun x => x.2.state = .queued && x.2.parked.isNone &&
      !s.jobBlocked x.2.ctx x.2.order x.2.prob.foot
    if liveSets ≤ live || (bestWalk ready).map (·.1) ≠ some rte then .next s
    else
      let go (s : State) : State :=
        let st : WalkState := if s.preempting w.ctx then .saving else .active
        let s := s.onWalk q rte fun w => { w with state := st, began := true, cursor := [] }
        let s := if st = .saving then s.soon (.walkSave q rte) else s
        ((s.kickWalk q rte).kickArray q).kickQueued q
      if w.cursor.isEmpty then .next (go s)
      else match s.xlatRange w.ctx (s.xlatOf w.ctx w.grid) .read w.prob.save 256 with
        | .error (.park va l e) => .next (s.parkWalk q rte w .read va l e)
        | .error (.trap _ _ _ _) => .next (s.faultWalk q rte 0x05)
        | .ok pas =>
          let (s, bytes, bad) := s.readGlobal pas
          if bad || bytes ≠ w.cursor then .next (s.faultWalk q rte 0x08) else .next (go s)

/-- WALK_SAVE: with no tile in progress the cursor is written to SAVE and the live set released (R268). -/
def execWalkSave (q rte : Nat) (s : State) : Host.Outcome State Fault Refusal :=
  let s := s.account q
  match s.walkAt q rte with
  | none => .next s
  | some w =>
    if w.state ≠ .saving || w.parked.isSome || (s.mwe q).array.any (·.rte = rte) || (s.mwe q).late.any (·.rte = rte) then .next s
    else match s.xlatRange w.ctx (s.xlatOf w.ctx w.grid) .write w.prob.save 256 with
      | .error (.park va l e) => .next (s.parkWalk q rte w .write va l e)
      | .error (.trap _ _ _ _) => .next (s.faultWalk q rte 0x05)
      | .ok pas =>
        if pas.any s.locked then .next (s.later (s.time + cycles 8) (.walkSave q rte))
        else
          let bytes := s.cursorBytes q rte w
          let s := (s.gwrite pas bytes false).setWalk q rte { w with state := .saved, cursor := bytes }
          let s := (s.kickQueued q).kickArray q
          match (s.ctx? w.ctx).bind (·.preempt) with
          | some (_, fn) => .next (s.kickPreempt fn)
          | none => .next s

/-! ## Requests, returns and completion (R251, R258) -/

/-- OPERAND_REQUEST: the engine takes up the returns of a walk that is ACTIVE or SAVING, delivers its waiting tiles, makes
at most one request, and ends it when nothing is left. -/
def execOperandRequest (q rte : Nat) (s : State) : Host.Outcome State Fault Refusal :=
  let s := s.account q
  match s.walkAt q rte with
  | none => .next s
  | some w =>
    if w.state ≠ .active && w.state ≠ .saving then .next s
    else
      let s := s.setWalk q rte { w with returns := [] }
      let s := w.returns.foldl (fun s x => s.takeReturn q rte x) s
      let s := s.deliver q rte 4
      match s.walkAt q rte with
      | none => .next s
      | some w => if s.walkDone q rte w then .next (s.endWalk q rte fDONE 0) else .next (s.request q rte)

/-! ## The array (R252, R253) -/

/-- The accumulator tile that the engine names to the supervisor when none is free (R270). -/
def Mwe.spillTile (m : Mwe) (ctx : Nat) : Option Nat :=
  (m.accs.zipIdx.filter fun p => p.1.st = 2 && p.1.ctx ≠ ctx &&
    m.walks.any fun w => w.1 = p.1.rte && w.2.seq = p.1.seq && w.2.state = .saved).foldl (fun b p => match b with
      | some k => if p.1.gts < (m.accs.getD k {}).gts then some p.2 else b
      | none => some p.2) none

/-- Is tile t of a walk self-checked (R272)? -/
def Problem.checks (p : Problem) (t : Nat) : Bool := p.checkPeriod ≠ 0 && (t + 1) % p.checkPeriod = 0

/-- Starts the slab pass due next of the tile that has the array, if its operands are held. -/
def State.startPass (s : State) (q : Nat) : State :=
  match (s.mwe q).array with
  | none => s
  | some a =>
    match s.walkAt q a.rte with
    | none => s
    | some w =>
      if a.busy || w.prob.ksn ≤ a.ks || w.lacksA a.q a.ks || w.lacksB a.q a.ks then s
      else
        let n := w.prob.passCycles * (if w.prob.checks a.q then 2 else 1) + (if a.ks + 1 = w.prob.ksn then 30 else 0)
        (s.onMwe q fun m => { m with array := some { a with busy := true } }).later (s.time + cycles n) (.tileFinish q)

/-- The scales of a tile whose passes have ended, then its delivery (R75, R76, R252). A scale that fails is a failure of the walk, and the
tile counts (R263). -/
def State.finishTile (s : State) (q : Nat) (a : ArrayUse) (w : Walk) : State :=
  let p := w.prob
  let t := p.tile a.q
  let i0 := t.1 * 2 ^ p.tmlog; let j0 := t.2 * 2 ^ p.tnlog
  let rows := List.range (2 ^ p.tmlog); let cols := List.range (2 ^ p.tnlog)
  let s := (s.holdScales q a.rte false i0 p.m rows).holdScales q a.rte true j0 p.n cols
  match s.readScales w false i0 p.m rows, s.readScales w true j0 p.n cols with
  | .error (.park va l e), _ | .ok _, .error (.park va l e) => s.parkWalk q a.rte w .read va l e
  | .error (.fail c), _ | .ok _, .error (.fail c) => s.failWalk q a.rte c 0 id
  | .ok (sr, c1), .ok (sc, c2) =>
    let finish (s : State) : State :=
      let acc := (s.mwe q).accs.getD a.acc {}
      let tn := 2 ^ p.tnlog
      let data := acc.data.zipIdx.map fun x =>
        let i := x.2 / tn; let j := x.2 % tn
        if i0 + i < p.m && j0 + j < p.n then
          scaleElem p x.1 (sr.getD i (.nan, false)).1 (sc.getD j (.nan, false)).1
        else x.1
      let poison := if (sr ++ sc).any (·.2) then List.range data.length else acc.poison
      let s := s.setAcc q a.acc { acc with st := 2, data := data, poison := poison, gts := s.gts }
      let s := (s.onMwe q fun m => { m with late := m.late.erase a }).deliver q a.rte 4
      let s := if w.state = .saving then s.soon (.walkSave q a.rte) else s
      (s.kickWalk q a.rte).kickArray q
    match c1.or c2 with
    | some c => (if p.fpol = 0 then s.onWalk q a.rte (·.count 5 1) else s).failWalk q a.rte c 0 finish
    | none => finish s

/-- A tile's last slab pass has ended: it is finished, the array is free, and its scales are read once those of the walk's earlier tiles
have been (R251, R253). -/
def State.endTile (s : State) (q : Nat) (a : ArrayUse) : State :=
  let s := s.onMwe q fun m => { m with array := none, late := m.late ++ [a] }
  let s := (s.onWalk q a.rte fun w => { w with finished := w.finished + 1 }).releaseSlots q a.rte
  let s := match (s.mwe q).late.find? (·.rte = a.rte), s.walkAt q a.rte with
    | some b, some w => if w.parked.isSome then s else s.finishTile q b w
    | _, _ => s
  s.kickArray q

/-- TILE_BEGIN: a tile whose scales could not be read goes on; a stalled tile goes on; else the arbiter grants the array to the best-ranked ACTIVE walk, of a class
neither shed nor cut, whose next tile's first slab has both operands, if an accumulator is free. -/
def execTileBegin (q : Nat) (s : State) : Host.Outcome State Fault Refusal :=
  let s := s.account q
  let m := s.mwe q
  match m.late.findSome? fun a => (s.walkAt q a.rte).bind fun w => if w.parked.isSome then none else some (a, w) with
  | some (a, w) => .next ((s.finishTile q a w).kickArray q)
  | none =>
  match m.array with
  | some a =>
    .next (if a.busy then s else s.startPass q)
  | none =>
    let ready := m.walks.filter fun x => x.2.state = .active && x.2.next < x.2.prob.tiles && !s.classShed x.2.prio &&
      x.2.prio ≤ s.cutClass q && !x.2.lacksA x.2.next 0 && !x.2.lacksB x.2.next 0
    match bestWalk ready with
    | none => .next s
    | some (rte, w) =>
      match m.accs.findIdx? (·.st = 0) with
      | none => .next ((s.onMwe q fun m => { m with signal := m.spillTile w.ctx }).kickSignal q)
      | some k =>
        let n := 2 ^ w.prob.tmlog * 2 ^ w.prob.tnlog
        let s := s.setAcc q k { st := 1, ctx := w.ctx, rte := rte, seq := w.seq, q := w.next
                                data := List.replicate n 0, checked := w.prob.checks w.next }
        let s := s.onMwe q fun m => { m with signal := none
                                             array := some { rte := rte, q := w.next, acc := k, ks := 0, busy := false } }
        .next ((s.setWalk q rte { w with next := w.next + 1 }).startPass q)

/-- The engine is to read an operand's slot and metadata tile: their stash sectors are filled (13 R233). -/
def State.fillOperand (s : State) (w : Walk) (sideB : Bool) (ord : Nat) : State :=
  match w.op? sideB ord with
  | none => s
  | some x =>
    let n := x.slot.getD 0
    let s := s.slotFill w (w.prob.slotAt n) w.prob.slotSz .read
    match (w.prob.side sideB).sparse, w.prob.metaAt n with
    | some _, some (at_, sz) => s.slotFill w at_ sz .read
    | _, _ => s

/-- An operand as the array reads it from its slot: its data, its poison, and whether its metadata obeys R88. -/
def State.readOperand (s : State) (w : Walk) (sideB : Bool) (ord : Nat) : TileData × Bool × Bool :=
  let p := w.prob
  let o := p.side sideB
  let rows := p.rows sideB
  match w.op? sideB ord with
  | none => ({ o := o, rows := rows, data := 0, meta_ := 0 }, true, true)
  | some x =>
    let n := x.slot.getD 0
    let bytes := (s.slotRead w (p.slotAt n) (o.tileBytes rows p.tk)).1
    let bad := s.slotBad w n
    let (mbytes, mbad) := match o.sparse, p.metaAt n with
      | some _, some (at_, sz) => s.slotRead w at_ sz
      | _, _ => ([], false)
    let meta_ := leNat mbytes
    let ok := match o.sparse with
      | some (_, mlay) => metaOk mlay rows p.tk meta_
      | none => true
    ({ o := o, rows := rows, data := leNat bytes, meta_ := meta_ }, bad || mbad || x.st = 3, ok)

/-! ## The self-check (R272, 19 R340, R341) -/

/-- What pass ρ of the array makes of a tile: element row i is computed on PE row (i + ρ) mod 256 and column j on PE column j;
what a faulty PE computes is a free value (DESIGN CHOICE, log 4). -/
def State.arrayPass (s : State) (q rho tn : Nat) (good : List U32) : List U32 × State :=
  let bad := (s.mwe q).badPes
  if bad.isEmpty then (good, s)
  else
    let (bytes, s) := s.freeBytes (4 * good.length)
    (good.zipIdx.map fun x =>
      if bad.contains ((x.2 / tn + rho) % 256, x.2 % tn) then .ofNat 32 (leAt bytes (4 * x.2) 4) else x.1, s)

/-- The value that at least two of three passes agree on, and the pass that lost where the third decides. -/
def vote (x y z : U32) : Option (U32 × Option Nat) :=
  if x = y then some (x, none) else if x = z then some (x, some 1) else if y = z then some (y, some 0) else none

/-- The votes of a slab's three passes, and the suspect PEs in the form of LOC: the row, and the column in bits 15:8. -/
def votes (r0 r1 r2 : List U32) : List (Option (U32 × Option Nat)) :=
  (r0.zip (r1.zip r2)).map fun x => vote x.1 x.2.1 x.2.2
def suspects (tn : Nat) (vs : List (Option (U32 × Option Nat))) : List Nat :=
  distinct (vs.zipIdx.filterMap fun x => match x.1 with
    | some (_, some rho) => some ((x.2 / tn + rho) % 256 + x.2 % tn * 2 ^ 8)
    | _ => none)

/-- Reports the outcome of a third pass: each suspect PE (ECLASS 0x06), and a tile with no majority (0x07), whose LOC no rule
gives (log 4). -/
def State.reportCheck (s : State) (q : Nat) (w : Walk) (sus : List Nat) (split : Bool) : State :=
  let info := (w.token q).toNat
  let s := sus.foldl (fun s p =>
    s.errorRecord (p + q * 2 ^ 16) (srcMwe q) (some w.ctx) 0x06 0 info) s
  if split then
    let (b, s) := s.freeBytes 8
    s.errorRecord (leNat b) (srcMwe q) (some w.ctx) 0x07 1 info
  else s

/-- The end of a slab's passes: the tile after the slab, and whether it lacks a majority somewhere; none while a third pass is
to run. An element without a majority is a free value (log 4). -/
def State.slabEnd (s : State) (q : Nat) (a : ArrayUse) (w : Walk) (good : List U32) : Option (List U32 × Bool) × State :=
  let tn := 2 ^ w.prob.tnlog
  match a.passes with
  | some (r0, r1) =>
    let (r2, s) := s.arrayPass q 2 tn good
    let vs := votes r0 r1 r2
    let split := vs.any Option.isNone
    let s := s.reportCheck q w (suspects tn vs) split
    let (bytes, s) := if split then s.freeBytes (4 * vs.length) else ([], s)
    (some (vs.zipIdx.map fun x => match x.1 with
      | some (v, _) => v
      | none => .ofNat 32 (leAt bytes (4 * x.2) 4), split), s)
  | none =>
    let (r0, s) := s.arrayPass q 0 tn good
    if !w.prob.checks a.q then (some (r0, false), s)
    else
      let (r1, s) := s.arrayPass q 1 tn good
      if r0 = r1 then (some (r0, false), s)
      else
        let s := s.onMwe q fun m => { m with array := some { a with passes := some (r0, r1) } }
        let s := s.onWalk q a.rte (·.count 6 1)
        (none, s.later (s.time + cycles w.prob.passCycles) (.tileFinish q))

/-- TILE_FINISH: a slab's passes end; after the tile's last, with its drain, the tile is finished. Metadata out of order fails
the operand: under FPOL 1 it is held, poisoned (R263), the tile is poisoned and its results inside C are free (DESIGN CHOICE, log 4). -/
def execTileFinish (q : Nat) (s : State) : Host.Outcome State Fault Refusal :=
  let s := s.account q
  match (s.mwe q).array with
  | none => .next s
  | some a =>
    match s.walkAt q a.rte with
    | none => .next s
    | some w =>
      if !a.busy then .next s
      else
        let p := w.prob
        let t := p.tile a.q
        let s := (s.fillOperand w false (p.ordA a.q a.ks)).fillOperand w true (p.ordB a.q a.ks)
        let (da, badA, ok) := s.readOperand w false (p.ordA a.q a.ks)
        let (db, badB, _) := s.readOperand w true (p.ordB a.q a.ks)
        let done (data : List U32) (bad : Bool) (s : State) : State :=
          let acc := (s.mwe q).accs.getD a.acc {}
          let s := s.setAcc q a.acc { acc with data := data, poison := if bad then List.range data.length else acc.poison }
          let a' := { a with ks := a.ks + 1, busy := false, passes := none }
          let s := s.onMwe q fun m => { m with array := some a' }
          match s.walkAt q a.rte with
          | none => s
          | some _ =>
            if p.ksn ≤ a'.ks then s.endTile q a'
            else ((s.releaseSlots q a.rte).kickWalk q a.rte).startPass q
        let acc := (s.mwe q).accs.getD a.acc {}
        if ok then
          match s.slabEnd q a w (slabTile p da db (t.1 * 2 ^ p.tmlog) (t.2 * 2 ^ p.tnlog) (a.ks * p.tk) acc.data) with
          | (some (data, split), s) => .next (done data (badA || badB || split) s)
          | (none, s) => .next s
        else .next (s.failWalk q a.rte 0x07 0 fun s =>
          let (bytes, s) := s.freeBytes (4 * acc.data.length)
          let tn := 2 ^ p.tnlog
          let inC (n : Nat) : Bool := t.1 * 2 ^ p.tmlog + n / tn < p.m && t.2 * tn + n % tn < p.n
          done (acc.data.zipIdx.map fun x => if inC x.2 then .ofNat 32 (leAt bytes (4 * x.2) 4) else x.1) true
            (State.holdFailed q a.rte false (p.ordA a.q a.ks) s))

/-! ## Operands become held (R258, R259) -/

/-- OPERAND_HELD: 20 cycles after a producer's HRET its slot counts as held, poisoned if a sector of it is (R261, R269). -/
def execOperandHeld (q rte slot : Nat) (s : State) : Host.Outcome State Fault Refusal :=
  let s := s.account q
  match s.walkAt q rte with
  | none => .next s
  | some w =>
    let s := s.slotFill w (w.prob.slotAt slot) w.prob.slotSz .read
    let held (o : OpSlot) : OpSlot := { o with st := if s.slotBad w slot then 3 else 2 }
    .next ((s.onWalk q rte fun w => w.onOp (fun o => o.slot = some slot && o.st = 1) held).kickArray q)

/-- FETCHER_FILL_DONE: the fetcher reads the tile and fills the slot, all of it (DEDUCED, log 84); a fetch parked on its handle's shape record reads that first. -/
def execFetcherFillDone (q rte slot : Nat) (s : State) : Host.Outcome State Fault Refusal :=
  let s := s.account q
  match s.walkAt q rte with
  | none => .next s
  | some w =>
    match w.ops.find? fun o => o.slot = some slot with
    | none => .next s
    | some o =>
      match o.fetch with
      | none => .next s
      | some f =>
        if o.parked.isSome then .next s
        else match f.handle, f.shape with
          | some _, _ => .next (s.readHandle q rte slot)
          | none, none => .next (s.failWalk q rte 0x04 0 (State.holdFailed q rte o.sideB o.ordinal))
          | none, some h =>
            let p := w.prob
            let x := bitsAt f.origin.toNat 0 32; let y := bitsAt f.origin.toNat 32 32
            let pieces := h.pieces p o.sideB (if o.sideB then y else x) (if o.sideB then x else y)
            match s.pieceAddrs w pieces with
            | .error (.fail c) => .next (s.failWalk q rte c 0 (State.holdFailed q rte o.sideB o.ordinal))
            | .error (.park va l e) => .next (s.parkFetch q rte w slot va l e)
            | .ok pas =>
              let s := w.prob.foot.foldl (fun s r => s.recallWalk w.ctx (s.xlatOf w.ctx w.grid) .read r.base r.len) s
              let s := s.recall pas.flatten
              let (data, bad') := s.readPieces (pieces.zip pas)
              let s := s.obtain pas.flatten
              let bad := f.bad || bad'
              let n := (p.side o.sideB).tileBytes (p.rows o.sideB) p.tk
              let s := s.slotWrite w (p.slotAt slot) (leBytes n data ++ List.replicate (p.slotSz - n) 0) bad
              let done (x : OpSlot) : OpSlot := { x with fetch := none, st := if bad then 3 else 2 }
              .next ((s.onWalk q rte fun w => w.onOp (·.slot = some slot) done).kickArray q)

/-- WALK_STOP_DONE: the walk's resources are freed and its future completes (R249). -/
def execWalkStopDone (q rte : Nat) (s : State) : Host.Outcome State Fault Refusal :=
  let s := s.account q
  match s.walkAt q rte with
  | some w =>
    match w.state, w.ending with
    | .stopping, some (st, detail) => .next (s.endWalk q rte st detail)
    | _, _ => .next s
  | none => .next s

end Sys2Proof.Machine
end

