-- ==== Sys2Proof/Machine/WalkInstr.lean ====
section
/-!
DEFINITION. The instructions of futures and walks: FWAIT, FTEST, FSTAT, FCANCEL, CHKT, CHKW (13 R237, R238, R244, R245),
WALK, WSTAT, HREG, HUNREG and the handler returns (14 R257, R265, R273 to R276, 05 R78 to R91).
-/
namespace Sys2Proof.Machine

/-! ## Futures (13 R237, R238, R244) -/

/-- The token of an h register, and whether its job is pending: a register left empty by a post that is still parked in
the operand log counts as pending (13 R240). -/
def State.hPending (s : State) (t : Team) (o : Opnd) : U64 × Bool :=
  let n := hOf o
  let k := t.regs.getH n
  (k, !s.completed t.ctx k || (k = 0 && NSet.mem t.regs.hEmpty n))

/-- Chunk `c` of a token's job counts as present (R244). -/
def State.chunkThere (s : State) (ctx : Nat) (k : U64) (c : Nat) : Bool :=
  let j := s.jobStat ctx k
  if j.state = fPENDING then
    0x0200 ≤ tokenSrc k && ((s.core (tokenSrc k - 0x0200)).copies.find? (·.seq = tokenSeq k)).any fun x =>
      x.chunks ≤ c || NSet.mem x.done c
  else match j.bits with
    | some (n, done) => n ≤ c || NSet.mem done c
    | none => true

/-- Every chunk named in a mask is present. -/
def State.chunksThere (s : State) (ctx : Nat) (k : U64) (n : Nat) (mask : U64) : Bool :=
  (List.range 64).all fun i => !mask.getLsbD i || s.chunkThere ctx k (64 * n + i)

/-- An upcall handler team waits on its own engine (14 R265). -/
def Team.reenters (t : Team) (k : U64) : Bool := t.kind = .upcall && tokenSrc k = srcMwe (quadOf t.core)

/-- FWAIT: BLOCKED until the job completes; with FE set it traps EMPTYRD instead (R238). -/
def execFwait (f : Fields) (s : State) : Host.Outcome State Fault Refusal :=
  uniform (.fwait f) f s fun c t _ =>
    let (k, pending) := s.hPending t f.sa
    if t.reenters k then s.trapAll c t cHREENTRY
    else if !pending then s.finishRead c f
    else if f.feA then s.trapAll c t cEMPTYRD
    else (s.setTeam (t.readClean f (c.lanes t))).wait c .blocked (.future k)

/-- Writes a predicate in every lane of the split (R238, R244). -/
def State.putP (s : State) (c : Cur) (t : Team) (f : Fields) (x bad : Bool) : State :=
  let n := match f.dst with | .p n => n.toNat | _ => 0
  let m := c.lanes t
  let regs := (Mask.list m).foldl (fun r l => r.setP l n x bad) t.regs
  (s.setTeam { t with regs := regs.setFlag m (if bad then m else 0) }).finish c

/-- FTEST: 1 when the job has completed. -/
def execFtest (f : Fields) (s : State) : Host.Outcome State Fault Refusal :=
  uniform (.ftest f) f s fun c t _ => s.putP c t f (!(s.hPending t f.sa).2) false

/-- The future status word (R237). -/
def JobStat.word (j : JobStat) : U64 := .ofNat 64 (j.count % 2 ^ 32 * 2 ^ 32 + j.detail * 2 ^ 16 + j.state)

/-- FSTAT: the status word. -/
def execFstat (f : Fields) (s : State) : Host.Outcome State Fault Refusal :=
  uniform (.fstat f) f s fun c t _ =>
    let (k, pending) := s.hPending t f.sa
    s.putS c t f (if pending then 0 else (s.jobStat t.ctx k).word)

/-- FCANCEL: asks a pending job to stop (R238, R245, 14 R266). -/
def execFcancel (f : Fields) (s : State) : Host.Outcome State Fault Refusal :=
  uniform (.fcancel f) f s fun c t _ =>
    let k := t.regs.getH (hOf f.sa)
    let s := if s.completed t.ctx k then s
      else if tokenSrc k < 0x0200 then
        let q := tokenSrc k - 0x0100
        let s := s.account q
        match List.find? (fun (w : Nat × Walk) => w.2.seq = tokenSeq k && w.2.ctx = t.ctx) (s.mwe q).walks with
        | some w => s.stopWalk q w.1 fCANCELLED 0
        | none => s
      else s.stopCopy (tokenSrc k - 0x0200) (tokenSeq k) fCANCELLED 0
    s.finishRead c f

/-- The chunk mask of CHKT and CHKW waits for its register. -/
def maskGate (t : Team) (f : Fields) (l : Nat) : Bool :=
  t.gate (l / 32) [{ o := f.sb, k := 2, fe := false, detail := 1 }] [] == .go

/-- CHKT: 1 when every named chunk is present. -/
def execChkt (f : Fields) (s : State) : Host.Outcome State Fault Refusal :=
  let i : Instr := .chkt f
  uniform i f s fun c t l =>
    if !maskGate t f l then s.wait c .wait .regs
    else
      let (k, pending) := s.hPending t f.sa
      let mask : U64 := .ofNat 64 (t.src { gts := s.gts, e := c.e, i := i, f := f } f.sb 2 l)
      let there := if pending && k = 0 then mask = 0 else s.chunksThere t.ctx k f.imm.toNat mask
      s.putP c t f there (t.bad f.sb 2 l)

/-- CHKW: BLOCKED until every named chunk is present or the job is in a terminal state. -/
def execChkw (f : Fields) (s : State) : Host.Outcome State Fault Refusal :=
  let i : Instr := .chkw f
  uniform i f s fun c t l =>
    let (k, pending) := s.hPending t f.sa
    if t.reenters k then s.trapAll c t cHREENTRY
    else if !maskGate t f l then s.wait c .wait .regs
    else
      let mask : U64 := .ofNat 64 (t.src { gts := s.gts, e := c.e, i := i, f := f } f.sb 2 l)
      let m := c.lanes t
      let bad := if t.bad f.sb 2 l then m else 0
      let s := s.setTeam { t with regs := t.regs.setFlag m bad }
      if pending && (k = 0 || !s.chunksThere t.ctx k f.imm.toNat mask) then s.wait c .blocked (.chunks k f.imm.toNat mask)
      else s.finish c

/-! ## The problem record (05 R80 to R91) -/

/-- An operand block at an offset of the record (R81), with its shape and sparsity fields still addresses. -/
structure RawOperand where
  o : Operand
  pad : Nat
  shapeAt : Nat
  sparseAt : Nat

/-- An address field of the record (R79). -/
def relField (rel : Bool) (base : U64) (x : Nat) : Nat := if rel && x ≠ 0 then (x + base.toNat) % 2 ^ 64 else x

def rawOperand (b : List Byte) (at_ : Nat) (rel : Bool) (base : U64) : RawOperand :=
  let f := leAt b
  { o := { fmt := f at_ 1, blen := f (at_ + 1) 1, xshift := f (at_ + 2) 1, kind := f (at_ + 3) 1, hidx := f (at_ + 4) 1
           xbase := .ofNat 64 (relField rel base (f (at_ + 8) 8)), shape := none, sparse := none }
    pad := f (at_ + 5) 3, shapeAt := relField rel base (f (at_ + 0x10) 8), sparseAt := relField rel base (f (at_ + 0x18) 8) }

def rawScale (b : List Byte) (at_ : Nat) (rel : Bool) (base : U64) : Scale :=
  let f := leAt b
  { sbase := .ofNat 64 (relField rel base (f at_ 8)), tbase := .ofNat 64 (relField rel base (f (at_ + 8) 8))
    senc := f (at_ + 0x10) 1, shift := f (at_ + 0x11) 1 }

/-- The footprint entries of a record: base, length, ACC and the zero byte. -/
def rawFoot (b : List Byte) (rel : Bool) (base : U64) : List (Nat × Nat × Nat × Nat) :=
  (List.range 5).map fun k =>
    let a := 0xB0 + 16 * k
    (relField rel base (leAt b a 8), leAt b (a + 8) 6, leAt b (a + 14) 1, leAt b (a + 15) 1)

/-- The record's problem, before its shape and sparsity records. -/
def rawProblem (b : List Byte) (base : U64) : Problem :=
  let f := leAt b
  let rel := (f 0x17 1).testBit 1
  let foot := (rawFoot b rel base).flatMap fun e =>
    if e.2.1 = 0 then [] else
      (if e.2.2.1.testBit 0 then [({ base := e.1, len := e.2.1, write := false } : Foot)] else []) ++
      (if e.2.2.1.testBit 1 then [({ base := e.1, len := e.2.1, write := true } : Foot)] else [])
  { m := f 0 4, n := f 4 4, k := f 8 4, tmlog := f 0x0C 1, tnlog := f 0x0D 1, tk := f 0x0E 2, order := f 0x10 1
    look := f 0x11 1, slots := f 0x12 1, cslots := f 0x13 1, cons := f 0x14 1, fpol := f 0x15 1, schk := f 0x16 1
    intsat := (f 0x17 1).testBit 0, slotOff := f 0x18 4, slotSz := f 0x1C 4, a := (rawOperand b 0x20 rel base).o
    b := (rawOperand b 0x40 rel base).o, sr := rawScale b 0x60 rel base, sc := rawScale b 0x78 rel base
    save := .ofNat 64 (relField rel base (f 0x90 8)), user := .ofNat 64 (f 0x98 8), foot := foot }

/-- Zero fields and unused values of the problem record (check 0x02); those of a copied shape or sparsity record give 0x09 or 0x0A
(DEDUCED, log 77). -/
def zerosBad (b : List Byte) (p : Problem) : Bool :=
  let f := leAt b
  f 0x17 1 / 4 ≠ 0 || f 0x25 3 ≠ 0 || f 0x45 3 ≠ 0 || f 0x72 6 ≠ 0 || f 0x8A 6 ≠ 0 || f 0xA0 16 ≠ 0 ||
  (0x11 ≤ p.schk && p.schk ≤ 0xFE) || (List.range 5).any fun k => f (0xBE + 16 * k) 1 / 4 ≠ 0 || f (0xBF + 16 * k) 1 ≠ 0

/-- A value lies within limits. -/
def within (lo hi x : Nat) : Bool := lo ≤ x && x ≤ hi

/-- Check 0x03. -/
def limitsBad (p : Problem) : Bool :=
  !(upTo16M p.m && upTo16M p.n && upTo16M p.k && within 1 8 p.tmlog && within 1 8 p.tnlog && within 16 1024 p.tk &&
    p.tk % kGroup p.a p.b = 0 && p.order ≤ 2 && within 1 8 p.look && within 2 16 p.slots && within 1 4 p.cslots && p.fpol ≤ 1)

/-- Check 0x04 of one operand block. -/
def formatBad (o : Operand) : Bool :=
  let sx := isSxFmt o.fmt
  19 < o.fmt || (if sx then 1 < o.blen || !within (if o.blen = 1 then 5 else 4) 20 o.xshift else o.blen ≠ 0 || o.xshift ≠ 0) ||
    (decide (o.xbase ≠ 0) != (sx && (o.kind = 1 || o.kind = 2)))

/-- Check 0x06. -/
def kindBad (a b : RawOperand) (convB : Bool) : Bool :=
  let one (x : RawOperand) : Bool :=
    2 < x.o.kind || (decide (x.shapeAt ≠ 0) != decide (x.o.kind = 2)) || (x.o.kind = 2 && x.o.hidx ≠ 0)
  one a || one b || convB || b.sparseAt ≠ 0 || (a.sparseAt ≠ 0 && a.o.kind ≠ 0)

/-- Check 0x07. -/
def handlersBad (p : Problem) (live : U64) : Bool :=
  let bad (n : Nat) : Bool := 63 < n || !live.getLsbD n
  bad p.cons || (p.a.kind ≤ 1 && bad p.a.hidx) || (p.b.kind ≤ 1 && bad p.b.hidx)

/-- Check 0x08, with the multiples of 256 of SLOTOFF and SLOTSZ (DEDUCED, log 78), for a window whose program part has `size` bytes and sparse A's metadata tiles, if any. -/
def slotsBad (p : Problem) (size : Nat) : Bool :=
  let endAt := p.slotOff + p.slots * p.slotSz + p.cslots * p.csz
  let metas : Bool := match p.a.sparse with
    | some (moff, mlay) =>
      if mlay = 1 || mlay = 2 then
        let n := p.slots * metaBytes mlay (2 ^ p.tmlog) p.tk
        size < moff + n || overlaps moff n p.slotOff (endAt - p.slotOff)
      else false
    | none => false
  p.slotOff % 256 ≠ 0 || p.slotSz % 256 ≠ 0 || size < endAt ||
    p.slotSz < Nat.max (p.a.tileBytes (2 ^ p.tmlog) p.tk) (p.b.tileBytes (2 ^ p.tnlog) p.tk) || metas

/-- Check 0x0D. -/
def footBad (b : List Byte) (base : U64) : Bool :=
  (rawFoot b ((leAt b 0x17 1).testBit 1) base).any fun e =>
    (e.2.1 ≠ 0 && e.2.2.1 % 4 = 0) || 2 ^ 57 < e.1 + e.2.1

/-- The checks of R91 that follow the reads, in its order: the code, or the problem. `shapeA`, `shapeB` and `sparse` are the
bytes of the records it names, empty for a misaligned one: a sparsity record that is not aligned is refused as 0x0A (DESIGN CHOICE, log
93). -/
def checkProblem (b : List Byte) (base : U64) (live : U64) (size : Nat) (shapeA shapeB sparse : Option (List Byte)) :
    Except Nat Problem :=
  let rel := (leAt b 0x17 1).testBit 1
  let ra := rawOperand b 0x20 rel base
  let rb := rawOperand b 0x40 rel base
  let p := rawProblem b base
  let conv (x : Option (List Byte)) : Bool := x.any fun y => leAt y 0 1 = 2
  let shape (o : Operand) (allowConv : Bool) (x : Option (List Byte)) : Option (Option Shape) := match x with
    | none => some none
    | some y =>
      if y.isEmpty then none
      else if allowConv && leAt y 0 1 = 2 then (parseConv o p.m p.k base y).map some
      else (parseTensor o base y).map some
  let meta_ : Option (Nat × Nat) := sparse.map fun y => (leAt y 0 4, leAt y 4 1)
  let pm := { p with a := { p.a with sparse := meta_ } }
  if zerosBad b p then .error 0x02
  else if limitsBad p then .error 0x03
  else if formatBad p.a || formatBad p.b then .error 0x04
  else if isIntFmt p.a.fmt != isIntFmt p.b.fmt then .error 0x05
  else if kindBad ra rb (conv shapeB) then .error 0x06
  else if handlersBad p live then .error 0x07
  else if slotsBad pm size then .error 0x08
  else match shape p.a true shapeA, shape p.b false shapeB with
    | some ha, some hb =>
      let sparseBad : Bool := sparse.any fun y =>
        y.isEmpty || leAt y 0 4 % 256 ≠ 0 || !within 1 2 (leAt y 4 1) || leAt y 5 11 ≠ 0
      if sparseBad then .error 0x0A
      else if 1 < p.sr.senc || 63 < p.sr.shift || 1 < p.sc.senc || 63 < p.sc.shift then .error 0x0B
      else if p.save = 0 || p.save.toNat % 256 ≠ 0 then .error 0x0C
      else if footBad b base then .error 0x0D
      else .ok { pm with a := { pm.a with shape := ha }, b := { pm.b with shape := hb } }
    | _, _ => .error 0x09

/-! ## WALK (14 R273, R274) -/

/-- A record copied at WALK: its bytes, or the error; poison counts as a fault (R78). -/
def State.copyRecord (s : State) (t : Team) (a n : Nat) : Except XErr (List Byte) :=
  match s.xlatRange t.ctx (t.xlat s) .read (.ofNat 64 a) n with
  | .error e => .error e
  | .ok pas =>
    let (bytes, bad) := (s.recall pas).gread pas
    if bad then .error (.trap cPF a 0 0) else .ok bytes

/-- A record that an address field names, if it names one; empty where it is misaligned. -/
def State.copyNamed (s : State) (t : Team) (use : Bool) (a n : Nat) : Except XErr (Option (List Byte)) :=
  if !use || a = 0 then .ok none
  else if a % n ≠ 0 then .ok (some [])
  else (s.copyRecord t a n).map some

/-- The reads of WALK, in order, and the checks of R91. -/
def State.readProblem (s : State) (t : Team) (addr : Nat) : Except XErr (Except Nat Problem) :=
  if addr % 256 ≠ 0 then .ok (.error 0x01)
  else
    let live := ((s.grid? t.grid).map (·.live)).getD 0
    match s.copyRecord t addr 256 with
    | .error e => .error e
    | .ok b =>
      let rel := (leAt b 0x17 1).testBit 1
      let base := s.imageBase t.grid
      let ra := rawOperand b 0x20 rel base
      let rb := rawOperand b 0x40 rel base
      match s.copyNamed t (ra.o.kind = 2) ra.shapeAt 64, s.copyNamed t (rb.o.kind = 2) rb.shapeAt 64,
          s.copyNamed t (ra.o.kind = 0) ra.sparseAt 16 with
      | .ok x, .ok y, .ok z => .ok (checkProblem b base live t.window.size x y z)
      | .error e, _, _ => .error e
      | _, .error e, _ => .error e
      | _, _, .error e => .error e

/-- The bytes of a record that WALK reads are recalled from the stashes that hold them (12 R210). -/
def State.recallRecord (s : State) (t : Team) (use : Bool) (a n : Nat) : State :=
  if !use || a % n ≠ 0 then s
  else match s.xlatRange t.ctx (t.xlat s) .read (.ofNat 64 a) n with
    | .error _ => s
    | .ok pas => (s.recall pas).obtain pas

/-- Those of the records that it names, likewise. -/
def State.recallProblem (s : State) (t : Team) (addr : Nat) : State :=
  let s := s.recallRecord t true addr 256
  match (if addr % 256 = 0 then s.copyRecord t addr 256 else .ok []) with
  | .error _ => s
  | .ok b =>
    let rel := (leAt b 0x17 1).testBit 1
    let ra := rawOperand b 0x20 rel (s.imageBase t.grid)
    let rb := rawOperand b 0x40 rel (s.imageBase t.grid)
    ((s.recallRecord t (ra.o.kind = 2) ra.shapeAt 64).recallRecord t (rb.o.kind = 2) rb.shapeAt 64).recallRecord t
      (ra.o.kind = 0) ra.sparseAt 16

/-- Posts a walk for a team (R273). -/
def State.postWalk (s : State) (t : Team) (h addr : Nat) : PostResult :=
  let q := quadOf t.core
  let s := s.account q
  let m := s.mwe q
  let entry := (List.range 16).find? fun e => (NMap.find? m.walks e).isNone
  let name (s : State) (st detail : Nat) : Nat × State :=
    let (seq, g) := (s.mwe q).engine.post t.ctx st detail true
    (seq, (s.onMwe q fun m => { m with engine := g }).onTeam t.uid fun t =>
      { t with regs := t.regs.setH h (mkToken (srcMwe q) t.ctx seq) (st = fPENDING) })
  match entry with
  | none => if t.kind = .upcall then .done (name s fREFUSED 0x0E).2 else .wait
  | some rte =>
    if !m.engine.room || jobMax ≤ (s.jobs t.ctx).length then .wait
    else
      let s := s.recallProblem t addr
      match s.readProblem t addr with
        | .error (.park va l e) => .park va l e
        | .error (.trap _ _ _ _) => .done (name s fREFUSED 0x0F).2
        | .ok (.error code) => .done (name s fREFUSED code).2
        | .ok (.ok p) =>
          let (order, s) := s.fresh
          let (seq, s) := name s fPENDING 0
          let prio := ((s.grid? t.grid).map (·.prio)).getD t.prio
          let w : Walk := {
            state := .queued, seq := seq, order := order, ctx := t.ctx, grid := t.grid, uid := t.uid, core := t.core
            window := t.window, prio := prio, age := s.gts, prob := p, ops := [], cons := [], upcalls := [], returns := []
            next := 0, finished := 0, donec := 0, counters := List.replicate 8 0, resumed := false, began := false
            cursor := [], parked := none, ending := none }
          .done ((s.setWalk q rte w).later (s.time + cycles (s.delay 24)) (.walkActivate q rte))

/-- WALK. -/
def execWalk (f : Fields) (s : State) : Host.Outcome State Fault Refusal :=
  let i : Instr := .walk f
  uniform i f s fun c t l =>
    match t.gate (l / 32) (readsOf i f) [] with
      | .trap d => s.trapAll c t cEMPTYRD d
      | .block => s.wait c .wait .regs
      | .go =>
        if t.bad f.sa 2 l then s.consume c t
        else
          let addr := t.src { gts := s.gts, e := c.e, i := i, f := f } f.sa 2 l
          let t := t.readClean f (c.lanes t)
          let s := s.setTeam t
          s.endPost c t i f addr [] l (s.postWalk t (hOf f.dst) addr)

/-! ## WSTAT (14 R275) -/

/-- Counter n of the walk a token names; 0 of anything else. -/
def State.walkCounter (s : State) (ctx : Nat) (k : U64) (n : Nat) : Nat :=
  let j := s.jobStat ctx k
  if !(0x0100 ≤ tokenSrc k && tokenSrc k < 0x0130) || j.state = fINVALID || j.state = fEXPIRED || j.state = fREFUSED then 0
  else match List.find? (fun (w : Nat × Walk) => w.2.seq = tokenSeq k) (s.mwe (tokenSrc k - 0x0100)).walks with
    | some w => w.2.counters.getD n 0
    | none => (j.counters.getD []).getD n 0

/-- WSTAT. -/
def execWstat (f : Fields) (s : State) : Host.Outcome State Fault Refusal :=
  uniform (.wstat f) f s fun c t _ =>
    match f.dst with
    | .s n =>
      if t.regs.emptyS n.toNat then s.wait c .wait .regs
      else
        let k := t.regs.getH (hOf f.sa)
        let s := if 0x0100 ≤ tokenSrc k && tokenSrc k < 0x0130 then s.account (tokenSrc k - 0x0100) else s
        let x := s.walkCounter t.ctx k (f.imm.toNat % 8)
        let s := s.setTeam { t with regs := t.regs.setS n.toNat (.ofNat 64 x) false }
        (s.markPending c.uid f.dst 2 [] (s.time + cycles 24)).finishRead c f
    | _ => s.finishRead c f

/-! ## HREG and HUNREG (14 R276) -/

/-- Sets or clears bit n of the grid's live-handler mask. -/
def liveOp (i : Instr) (f : Fields) (set : Bool) (s : State) : Host.Outcome State Fault Refusal :=
  uniform i f s fun c t _ =>
    let n := f.imm.toNat % 64
    match s.grid? t.grid with
    | none => s.trapAll c t cILLOP
    | some g =>
      if g.image.htCount ≤ n then s.trapAll c t cILLOP
      else
        let bit : U64 := 1 <<< n
        (s.setGrid { g with live := if set then g.live ||| bit else g.live &&& ~~~ bit }).finishRead c f
def execHreg (f : Fields) (s : State) := liveOp (.hreg f) f true s
def execHunreg (f : Fields) (s : State) := liveOp (.hunreg f) f false s

/-! ## Handler returns (14 R257) -/

/-- The mould of HRET, HRETF and HFAIL: the first return of an upcall handler team ends its grants and completes its upcall;
every return removes the split's lanes. -/
def handlerReturn (i : Instr) (f : Fields) (ret : Team → Rd → Nat → Return) (s : State) : Host.Outcome State Fault Refusal :=
  uniform i f s fun c t l =>
    if t.kind ≠ .upcall then s.trapAll c t cILLOP
    else match t.gate (l / 32) (readsOf i f) [] with
      | .trap d => s.trapAll c t cEMPTYRD d
      | .block => s.wait c .wait .regs
      | .go =>
        if t.bad f.sa 2 l || t.bad f.sb 2 l then s.consume c t
        else
          let r : Rd := { gts := s.gts, e := c.e, i := i, f := f }
          let s := if t.returned then s
            else
              let s := s.onTeam c.uid fun t => { t with
                returned := true, grant := t.grant.map fun g => { g with live := false } }
              match t.grant with
              | some g => if g.live then s.giveReturn g (ret t r l) else s
              | none => s
          let s := s.exitLanes c.uid (c.lanes t)
          match c.replay with
          | some _ => s.endReplay c
          | none => s

def execHret (f : Fields) (s : State) := handlerReturn (.hret f) f (fun _ _ _ => .hret) s
def execHretf (f : Fields) (s : State) :=
  handlerReturn (.hretf f) f (fun t r l => .hretf (.ofNat 64 (t.src r f.sa 2 l)) (.ofNat 64 (t.src r f.sb 2 l))) s
def execHfail (f : Fields) (s : State) :=
  handlerReturn (.hfail f) f (fun t r l => .hfail (t.src r f.sa 1 l % 2 ^ 16)) s

end Sys2Proof.Machine
end

