-- ==== Sys2Proof/Machine/Sync.lean ====
section
/-!
DEFINITION. Barriers, records, fences and waits (16 R292 to R305), with parking at a barrier (16 R299, 20 R356, R357).
-/
namespace Sys2Proof.Machine

/-! ## Shed teams (20 R356, R357, R364) -/

/-- The team is shed, from the cycle after a PCLASS into a shed class on, under no CRIT deferral and no notify-only grant: it parks, and may
be withheld. -/
def State.parks (s : State) (t : Team) : Bool :=
  s.classShed t.prio && !t.shedAt.any (s.time < ·) && (t.crit = 0 || t.critOver) && t.notify.isNone

/-- The wait at a barrier, which ends at once unless a lane is `inPhase`, and then `go`; or parking there, waiting or not (16 R299). The
split then goes on, or performs the instruction `again` because its lanes have still to arrive: at the phase's end, or at restore. -/
def State.barWait (s : State) (c : Cur) (t : Team) (w : Waiting) (inPhase : Bool) (go : State → State) : State :=
  if s.parks t && c.replay.isNone then
    s.onSplit c.uid c.e fun x => { x with state := .shed, former := .ready, waiting := w, word := some c.word }
  else if inPhase then s.wait c .blocked w
  else go s

/-! ## Named barriers (R292 to R297) -/

/-- BAR.INIT (R293). -/
def execBarInit (f : Fields) (s : State) : Host.Outcome State Fault Refusal :=
  let i : Instr := .barInit f
  uniform i f s fun c t l =>
    match t.gate (l / 32) (readsOf i f) [] with
    | .trap d => s.trapAll c t cEMPTYRD d
    | .block => s.wait c .wait .regs
    | .go =>
      if t.bad f.sa 1 l then s.consume c t
      else
        let a := t.src { gts := s.gts, e := c.e, i := i, f := f } f.sa 1 l
        let n := f.imm.toNat % 256
        let put (b : NMap Barrier) : State := (s.setTeam { t with barriers := b }).finishRead c f
        if 1024 < a then s.trapAll c t cILLOP
        else match NMap.find? t.barriers n with
          | some b =>
            if b.arrived ≠ 0 || b.pbytes ≠ 0 then s.trapAll c t cILLOP
            else if a = 0 then put (NMap.erase t.barriers n)
            else put (NMap.insert t.barriers n { b with count := a, abandoned := false })
          | none =>
            if a = 0 then s.finishRead c f
            else if coreBarriers ≤ s.boundBarriers t.core then s.wait c .wait .retry
            else put (NMap.insert t.barriers n { count := a, arrived := 0, pbytes := 0, phase := 0, abandoned := false })

/-- What the arriving and waiting forms need: a bound barrier that is not ABANDONED (R294, R297). -/
def State.onBarrier (s : State) (c : Cur) (t : Team) (n : Nat) (body : Barrier → State) : State :=
  match NMap.find? t.barriers n with
  | none => s.trapAll c t cILLOP
  | some b => if b.abandoned then s.trapAll c t cBARABANDON n else body b

/-- The split's lanes arrive, as the barrier's new value `b` says; the split does what its form does then, and the phase is tested (DEDUCED,
log 85). -/
def State.arriveBar (s : State) (c : Cur) (t : Team) (n : Nat) (b : Barrier) (go : State → Team → State) : State :=
  let t := { t with barriers := NMap.insert t.barriers n b }
  (go (s.setTeam t) t).testBarrier c.uid n

/-- BAR.ARRIVE and BARX: one arrival, which waits while a lane of the split is still in the current phase. -/
def arriveForm (i : Instr) (f : Fields) (bytes : Team → Rd → Nat → Nat) (s : State) : Host.Outcome State Fault Refusal :=
  uniform i f s fun c t l =>
    match t.gate (l / 32) (readsOf i f) [] with
    | .trap d => s.trapAll c t cEMPTYRD d
    | .block => s.wait c .wait .regs
    | .go =>
      let n := f.imm.toNat % 256
      s.onBarrier c t n fun b =>
        if b.arrived &&& c.lanes t ≠ 0 then s.wait c .blocked (.bar n true)
        else
          let m := c.lanes t
          let bad := if t.bad f.sa 1 l then m else 0
          let t := if opndIsReg f.sa || f.grd ≠ .always then { t with regs := t.regs.setFlag m bad } else t
          s.arriveBar c t n (b.join m (bytes t { gts := s.gts, e := c.e, i := i, f := f } l)) fun s _ => s.finish c

def execBarArrive (f : Fields) (s : State) := arriveForm (.barArrive f) f (fun _ _ _ => 0) s
/-- BARX: arrives and adds a to the pending bytes. -/
def execBarx (f : Fields) (s : State) := arriveForm (.barx f) f (fun t r l => t.src r f.sa 1 l) s

/-- BAR.WAIT: waits while a lane of the split is in the current phase. -/
def execBarWait (f : Fields) (s : State) : Host.Outcome State Fault Refusal :=
  uniform (.barWait f) f s fun c t _ =>
    let n := f.imm.toNat % 256
    s.onBarrier c t n fun b =>
      (s.setTeam (t.readClean f (c.lanes t))).barWait c t (.bar n false) (b.arrived &&& c.lanes t ≠ 0) fun s => s.finish c

/-- BAR.SYNC: arrives, then waits. -/
def execBarSync (f : Fields) (s : State) : Host.Outcome State Fault Refusal :=
  uniform (.barSync f) f s fun c t _ =>
    let n := f.imm.toNat % 256
    s.onBarrier c t n fun b =>
      if b.arrived &&& c.lanes t ≠ 0 then s.barWait c t (.bar n true) true id
      else
        let b := b.join (c.lanes t) 0
        s.arriveBar c (t.readClean f (c.lanes t)) n b fun s t => s.barWait c t (.bar n false) (!b.complete) fun s => s.finish c

/-! ## The cluster barrier (R298) -/

/-- The team shares the barrier of a cluster. -/
def State.clustered (s : State) (t : Team) : Bool :=
  t.kind = .grid && (s.grid? t.grid).any fun g => 1 < g.image.clw * g.image.clh

/-- The teams a CBAR acts on. -/
def State.cbarTeams (s : State) (t : Team) : List Team :=
  if s.clustered t then
    s.allTeams.filter fun x => x.kind == TeamKind.grid && x.grid == t.grid && x.cluster == t.cluster
  else [t]

/-- The cluster barrier of a team. -/
def State.cbarOf (s : State) (t : Team) : CBar :=
  if s.clustered t then
    match s.grid? t.grid with
    | some g => NMap.get g.cbars t.cluster.toNat .none_
    | none => .none_
  else t.cbar

def State.setCbar (s : State) (t : Team) (b : CBar) : State :=
  if s.clustered t then s.onGrid t.grid fun g => { g with cbars := NMap.insert g.cbars t.cluster.toNat b }
  else s.onTeam t.uid fun t => { t with cbar := b }

/-- The lanes of a team that a phase awaits: live ones, and those of a team that is out (18 R323). -/
def Team.awaited (t : Team) : Mask := match t.saved with
  | some v => t.live ||| v.lanes
  | none => t.live

/-- Some lane has arrived, and every awaited lane of every team. -/
def CBar.complete (b : CBar) (ts : List Team) : Bool :=
  !b.arrived.isEmpty && ts.all fun x => x.awaited &&& ~~~ NMap.get b.arrived x.uid 0 = 0

/-- Completes the phase when every live lane of every team has arrived; the blocked splits go on. -/
def State.testCbar (s : State) (uid : Nat) : State :=
  match s.team? uid with
  | none => s
  | some t =>
    let b := s.cbarOf t
    let ts := s.cbarTeams t
    if b.complete ts then
      let s := s.setCbar t { b with arrived := [], phase := b.phase + 1 }
      ts.foldl (fun s x => s.openWait x.uid fun w => match w with
        | .cbar again => some again
        | _ => none) s
    else s

/-- CBAR: .ARRIVE 1, .WAIT 2, .SYNC 3. -/
def execCbar (f : Fields) (s : State) : Host.Outcome State Fault Refusal :=
  uniform (.cbar f) f s fun c t _ =>
    let s := s.testCbar c.uid
    match s.team? c.uid with
    | none => s
    | some t' =>
      let t := { t with cbar := t'.cbar }
      let b := s.cbarOf t
      let mine := NMap.get b.arrived c.uid 0
      let inPhase := mine &&& c.lanes t ≠ 0
      let form := f.isp.toNat % 4
      if b.abandoned then s.trapAll c t cBARABANDON
      else if form = 2 then
        (s.onTeam c.uid fun t => t.readClean f (c.lanes t)).barWait c t (.cbar false) inPhase fun s => s.finish c
      else if inPhase then s.barWait c t (.cbar true) true id
      else
        let b : CBar := { b with arrived := NMap.insert b.arrived c.uid (mine ||| c.lanes t) }
        let s := (s.setCbar t b).onTeam c.uid fun t => t.readClean f (c.lanes t)
        let now := b.complete (s.cbarTeams t)
        (if form = 1 then
          -- an arrival alone: a parked one has nothing to wait for at restore
          (if s.parks t && c.replay.isNone then (s.pass c (.allOnes 32)).barWait c t (.cbar false) true id else s.finish c)
        else s.barWait c t (.cbar false) (!now) fun s => s.finish c).testCbar c.uid

/-! ## Records (R300, R301, 06 R110) -/

/-- A core's RG has room for a record of an entry point that is no upcall's: 1,792 records and 56 entry points. -/
def State.recordRoom (s : State) (core grid origin hidx : Nat) : Bool :=
  let rs := ((s.core core).inflight ++ (s.core core).batches.flatMap (·.records)).filter (·.origin ≠ 3)
  let key (r : Record) : Nat := (r.grid * 8 + r.origin) * 64 + r.hidx
  let points := distinct (rs.map key)
  rs.length < 1792 && (points.contains ((grid * 8 + origin) * 64 + hidx) || points.length < 56)

/-- Where a record of a lane goes: core, origin, handler index and OSPEC; none if the instruction may not send. -/
structure Dest where
  origin : Nat
  hidx : Nat
  ospec : U32
  deriving DecidableEq, Repr

/-- The destination of AMSG, CONT or EMIT, the core aside (R301). -/
def State.destOf (s : State) (t : Team) (i : Instr) (f : Fields) : Option Dest :=
  let n := f.imm.toNat % 64
  match s.grid? t.grid with
  | none => none
  | some g =>
    match i with
    | .amsg _ => if g.live.getLsbD n then some { origin := 2, hidx := n, ospec := 0 } else none
    | .cont _ => if g.live.getLsbD n then some { origin := 1, hidx := n, ospec := 0 } else none
    | _ => (NMap.find? g.nodes n).map fun x => { origin := 4, hidx := x.hidx, ospec := .ofNat 32 n }

/-- The core a lane's record goes to; none outside the grid's partition. -/
def State.destCore (s : State) (t : Team) (i : Instr) (r : Rd) (lane : Nat) : Option Nat :=
  match i with
  | .amsg f =>
    let a := t.src r f.sa 1 lane
    if a < 192 && ((s.grid? t.grid).any fun g => (s.part g.part).hasQuad (quadOf a)) then some a else none
  | .cont _ => some t.core
  | _ => (s.grid? t.grid).bind fun g => (NMap.find? g.nodes (r.f.imm.toNat % 64)).map (·.home)

/-- The payload words of a lane with their poison: of a scalar payload of AMSG, the same for every lane of a vector form (DESIGN CHOICE, log
92). -/
def Team.payload (t : Team) (o : Opnd) (lane : Nat) : List (U32 × Bool) :=
  match o with
  | .v b => (List.range 14).map fun k => (t.regs.getV lane (b.toNat + k), t.regs.badV lane (b.toNat + k))
  | .s b => (List.range 14).map fun k =>
      (.ofNat 32 ((t.regs.getS (b.toNat + k / 2)).toNat / 2 ^ (32 * (k % 2))), t.regs.badS (b.toNat + k / 2))
  | _ => []

/-- The record of a lane, as read at issue (R300). -/
def Team.recordOf (t : Team) (d : Dest) (o : Opnd) (lane : Nat) : Record :=
  let ws := t.payload o lane
  { grid := t.grid, origin := d.origin, hidx := d.hidx, ospec := d.ospec, src := srcCore t.core
    payload := ws.map (·.1), poison := ws.map (·.2), upcall := none }

/-- Sends records of lanes, each to its core, in ascending order up to the first that finds no room: those left (R300). -/
def State.sendSome (s : State) : List (Nat × Nat × Record) → State × List (Nat × Nat × Record)
  | [] => (s, [])
  | (l, core, r) :: rest =>
    if s.recordRoom core r.grid r.origin r.hidx then
      ((s.onCore core fun c => { c with inflight := c.inflight ++ [r] }).soon (.recordArrival core)).sendSome rest
    else (s, (l, core, r) :: rest)

/-- Sends the records of lanes; the first that finds no room holds the split in WAIT, and the lanes before it stay sent (R300). -/
def State.sendAll (s : State) (c : Cur) (rs : List (Nat × Nat × Record)) : State :=
  match s.sendSome rs with
  | (s, []) => s.finish c
  | (s, rest) => s.wait c .wait (.send rest)

/-- The reads of a record instruction: its target, and its payload registers under FE[47] (R290). -/
def recordReads (f : Fields) : List Read :=
  [{ o := f.sa, k := 1, fe := f.feA, detail := 0 }, { o := f.sb, k := 14, fe := f.feB, detail := 1 }]

/-- AMSG, CONT and EMIT in both forms. -/
def recordForm (i : Instr) (f : Fields) (s : State) : Host.Outcome State Fault Refusal :=
  let bad (t : Team) (l : Nat) : Bool := (t.payload f.sb l).any (·.2)
  if f.sa.isKind .v || f.sb.isKind .v then
    issue i f s fun c t => s.eatGuard c t f.grd fun s t =>
      s.gated c t (fun u g => u.gate g (recordReads f) []) (t.readers f.grd (c.due t)) false <|
        let all := c.lanes t
        let dead := Mask.groups (Mask.ofList ((Mask.list (t.guarded f.grd all)).filter (t.bad f.sa 1)))
        let s := s.killGroups c.uid (GMask.list dead) cPOISON
        match s.team? c.uid with
        | none => s
        | some t =>
          let all := c.lanes t
          let act := t.guarded f.grd all
          if act = 0 then s.finishRead c f
          else match s.destOf t i f with
            | none => s.trapLanes c cILLOP (Mask.list act) (fun _ => 0)
            | some d =>
              let r : Rd := { gts := s.gts, e := c.e, i := i, f := f }
              let sent := (Mask.list act).map fun l => (l, s.destCore t i r l)
              match (sent.filter (·.2.isNone)).map (·.1) with
              | [] =>
                let flags := Mask.ofList ((Mask.list act).filter (bad t))
                let s := s.setTeam { t with regs := t.regs.setFlag (if f.grd ≠ .always then all else act) flags }
                s.sendAll c (sent.map fun p => (p.1, p.2.getD 0, t.recordOf d f.sb p.1))
              | out => s.trapLanes c cILLOP out (fun _ => 0)
  else
    uniform i f s fun c t l =>
      match t.gate (l / 32) (recordReads f) [] with
      | .trap d => s.trapAll c t cEMPTYRD d
      | .block => s.wait c .wait .regs
      | .go =>
        if t.bad f.sa 1 l then s.consume c t
        else match s.destOf t i f, s.destCore t i { gts := s.gts, e := c.e, i := i, f := f } l with
          | some d, some core =>
            (s.setTeam (t.flagAll f (c.lanes t) (bad t l))).sendAll c [(l, core, t.recordOf d f.sb l)]
          | _, _ => s.trapAll c t cILLOP

def execAmsg (f : Fields) (s : State) := recordForm (.amsg f) f s
def execCont (f : Fields) (s : State) := recordForm (.cont f) f s
def execEmit (f : Fields) (s : State) := recordForm (.emit f) f s

/-! ## Fences (R305, 23 R380) -/

/-- A fence is held behind a parked write of its lanes; no other write of a lane is ever outstanding, for a write is visible as soon as
it is performed (15 R286) and none leaves through the host port (23 R380). -/
def fence (i : Instr) (f : Fields) (s : State) : Host.Outcome State Fault Refusal :=
  uniform i f s fun c _ _ => s.finishRead c f
def execFenceIo (f : Fields) (s : State) := fence (.fenceIo f) f s
def execFencePool (f : Fields) (s : State) := fence (.fencePool f) f s

/-! ## WAITMON (R303) -/

/-- A lane of a split waits for its word: it has the instruction still to perform, or its group is replayed and waits (18 R315). -/
def Team.watches (t : Team) (e lane : Nat) : Bool :=
  let x := t.split e
  Mask.has x.mask lane && (!Mask.has x.did lane || (NMap.find? t.traps (lane / 32)).any fun y =>
    y.split = e && match y.pend with
      | some (.monitor _) => true
      | _ => false)

/-- Every lane of a set that has read has a word that differs. -/
def monDone (m : Mask) (ws : NMap (Nat × U64 × U64)) : Bool :=
  ws.all fun w => !Mask.has m w.1 || w.2.2.1 ≠ w.2.2.2

/-- The lanes of WAITMON have read: it ends, or waits. -/
def State.endMonitor (s : State) (c : Cur) (wide : Bool) : State :=
  match s.team? c.uid with
  | none => s
  | some t =>
    if c.lanes t &&& c.mask = 0 then s.finish c
    else if s.preempting t.ctx || monDone (c.lanes t) (t.split c.e).mon then s.finish c
    else s.wait c .blocked (.monitor wide)

/-- What the passes of WAITMON come to: the accesses that perform; the groups whose poisoned address is consumed; a trap; or the walks
that park and the accesses to be recorded. -/
structure MonScan where
  oks : List (LaneAccess × List Nat) := []
  dead : List Nat := []
  trap : Option TrapOf := none
  walks : List Parked := []
  rest : List LogLane := []
  deriving DecidableEq, Repr

/-- The passes of WAITMON over the lanes `m` of the groups of a list, up to the first that traps or parks (08 R127, R141). -/
def State.monScan (s : State) (c : Cur) (t : Team) (r : Rd) (m : Mask) : List Nat → MonScan → MonScan
  | [], x => x
  | g :: gs, x =>
    let accs := t.groupAccesses r m g
    if accs.any (·.badAddr) then s.monScan c t r m gs { x with dead := x.dead ++ [g] }
    else
      let cs := accs.map fun a => (a, s.checkLane t r.i a.ea)
      match passTrap g cs, firstParked cs with
      | some p, _ => { x with trap := some p }
      | none, some k =>
        let (rest, dead) := t.parkedLanes c r g (accs.drop k)
        { x with oks := x.oks ++ okAccesses (cs.take k), walks := parkedWalks cs, rest := rest, dead := x.dead ++ dead }
      | none, none => s.monScan c t r m gs { x with oks := x.oks ++ okAccesses cs }

/-- WAITMON once its operands are ready: its passes in order, for the lanes that have not read. -/
def State.monitor (s : State) (c : Cur) (t : Team) (i : Instr) (f : Fields) (lanes : Mask) : State :=
  let r : Rd := { gts := s.gts, e := c.e, i := i, f := f }
  let wide := memWidth i = 8
  let m := lanes &&& ~~~ Mask.ofList ((t.split c.e).mon.map (·.1))
  let x := s.monScan c t r m (GMask.list (Mask.groups m)) {}
  let s := s.killGroups c.uid x.dead cPOISON
  let stays (s : State) : Bool := (s.team? c.uid).any fun t => c.lanes t &&& c.mask ≠ 0
  if !stays s then s.finish c
  else
    let s := if c.replay.isSome then s else s.wait c .wait (.monitor wide)
    let s := s.performPass c i f x.oks
    match x.trap with
    | some p => s.trapGroups c [p]
    | none =>
      if !x.walks.isEmpty then
        if stays s || c.replay.isSome then s.parkOr c t i f .read x.rest x.walks else s.finish c
      else if c.shared then s
      else s.endMonitor c wide

/-- The reads of WAITMON. -/
def monReads (f : Fields) : List Read :=
  [{ o := f.sa, k := 2, fe := f.feA, detail := 0 }, { o := f.sb, k := if f.isp[0] then 2 else 1, fe := f.feB, detail := 1 }]

/-- WAITMON (R303). -/
def execWaitmon (f : Fields) (s : State) : Host.Outcome State Fault Refusal :=
  let i : Instr := .waitmon f
  let k := if f.isp[0] then 2 else 1
  let reads := monReads f
  if f.sa.isKind .v || f.sb.isKind .v then
    issue i f s fun c t => s.eatGuard c t f.grd fun s t =>
      s.gated c t (fun u g => u.gate g reads []) (t.readers f.grd (c.due t)) false <|
        let act := t.guarded f.grd (c.lanes t)
        if act = 0 then s.finishRead c f
        else
          let t := t.readMem i f (c.lanes t) act
          (s.setTeam t).monitor c t i f act
  else
    uniform i f s fun c t l =>
      match t.gate (l / 32) reads [] with
      | .trap d => s.trapAll c t cEMPTYRD d
      | .block => s.wait c .wait .regs
      | .go =>
        let a := t.laneAccess { gts := s.gts, e := c.e, i := i, f := f } l
        if a.badAddr then s.consume c t
        else match s.checkLane t i a.ea with
          | .error (.trap cls _ lv _) => s.trapLowest c t cls a.rec_.ea lv
          | _ =>
            let t := t.flagAll f (c.lanes t) (t.bad f.sb k l)
            (s.setTeam t).monitor c t i f (Mask.one l)

/-- The device address of a context's NWR word (20 R363), if its page is valid. -/
def State.nwrAt (s : State) (ctx : Nat) : Option Nat :=
  match s.ctx? ctx with
  | some x => if x.nqbase = 0 then none else match s.xlatRange ctx x.xlat .read x.nqbase 8 with
    | .ok (pa :: _) => some pa
    | _ => none
  | none => none

/-- Slots and time of a notify-only grant (20 R364). -/
def notifySlots : Nat := 64
def notifyTime : Nat := ns 100000

/-- A blocked WAITMON whose words all differ, or whose context is being pre-empted, goes on. -/
def State.monitorCheck (s : State) (uid e : Nat) : State :=
  match s.team? uid with
  | none => s
  | some t =>
    let x := t.split e
    match x.state, x.waiting with
    | .blocked, .monitor _ => if s.preempting t.ctx || monDone (x.mask &&& ~~~ x.did) x.mon then s.pastIt uid e else s
    | _, _ => s

/-- A lane of a split reads its word again; poison is consumed. -/
def State.watchAgain (s : State) (uid e : Nat) (w : Nat × Nat × U64 × U64) : State :=
  match s.team? uid with
  | none => s
  | some t =>
    let replayed := (NMap.find? t.traps (w.1 / 32)).filter fun y => y.split = e && y.pend.isSome
    match ((replayed.map (·.word)) <|> (t.split e).word).map decode with
    | some (.ok i) =>
      match i.fields? with
      | some f =>
        if !t.watches e w.1 then s
        else
          let keys := (List.range (memWidth i)).map (w.2.1 + ·)
          let l : LogLane := { lane := w.1, ea := 0, data := w.2.2.1.setWidth 128, cmp := 0, poison := false }
          let (s, bytes, bad) := s.readGlobal keys
          (s.touch t.core keys false).watch uid f l w.2.1 (leNat bytes) bad
      | none => s
    | _ => s

/-- WAITMON_WAKE: the words on a written line that have not differed are read again, and the wait may end. A wake by NWR grants its team
issue slots (20 R364). -/
def execWaitmonWake (uid e line : Nat) (s : State) : Host.Outcome State Fault Refusal :=
  match s.team? uid with
  | none => .next s
  | some t =>
    let x := t.split e
    let s := (x.mon.filter fun w => w.2.1 / 128 = line && w.2.2.1 = w.2.2.2).foldl (fun s w => s.watchAgain uid e w) s
    let blocked (t : Team) : Bool := match (t.split e).waiting with
      | .monitor _ => (t.split e).state == .blocked
      | _ => false
    let s := s.monitorCheck uid e
    let nwr := s.nwrAt t.ctx
    if blocked t && !(s.team? uid).any blocked && x.mon.any (fun w => some w.2.1 = nwr) then
      let expiry (i : Instr) : Bool := i == .notifyGrantExpiry uid
      let s := s.onTeam uid fun t => { t with notify := some (notifySlots, s.time + notifyTime) }
      .next ((s.cancel expiry).later (s.time + notifyTime) (.notifyGrantExpiry uid))
    else .next s

/-! ## SLEEP (R304) -/

/-- SLEEP: BLOCKED for a ns of GTS time, or until a pre-emption request is pending. -/
def execSleep (f : Fields) (s : State) : Host.Outcome State Fault Refusal :=
  let i : Instr := .sleep f
  uniform i f s fun c t l =>
    match t.gate (l / 32) (readsOf i f) [] with
    | .trap d => s.trapAll c t cEMPTYRD d
    | .block => s.wait c .wait .regs
    | .go =>
      if t.bad f.sa 1 l then s.consume c t
      else
        let a := t.src { gts := s.gts, e := c.e, i := i, f := f } f.sa 1 l
        let s := s.setTeam (t.readClean f (c.lanes t))
        if a = 0 || s.preempting t.ctx then s.finish c
        else
          let u := s.time + ns a
          (s.wait c .blocked (.sleep u)).later u (.sleepExpiry c.uid c.e)

/-- SLEEP_EXPIRY: the sleeping split goes on. -/
def execSleepExpiry (uid e : Nat) (s : State) : Host.Outcome State Fault Refusal :=
  match s.team? uid with
  | none => .next s
  | some t =>
    match (t.split e).state, (t.split e).waiting with
    | .blocked, .sleep u => if u ≤ s.time then .next (s.pastIt uid e) else .next s
    | _, _ => .next s

end Sys2Proof.Machine
end

