-- ==== Sys2Proof/Machine/Power.lean ====
section
/-!
DEFINITION. Power: the shelf telemetry port, the droop controller and its registers, shedding, notify records, clock
stretch, sensors and idle states (20 R349 to R369, 22 R371).
-/
namespace Sys2Proof.Machine

/-! ## Times -/

/-- Units of State.time in `n` µs. -/
def us (n : Nat) : Nat := ns (1000 * n)
/-- Time without a frame after which the link is lost (R350). -/
def lossTime : Nat := us 5000
/-- Time of a decision after its frame's arrival: the longest that R354 allows (DESIGN CHOICE, log 3). -/
def decisionTime : Nat := us 20
/-- Time of a fall (R355). -/
def fallTime : Nat := us 100

/-! ## Registers (R352, R353) -/

/-- The bytes of the power registers from 0x2000 on. -/
def Power.image (p : Power) : List Byte :=
  p.curve.flatMap (fun x => leBytes 4 x.fdev ++ leBytes 4 x.vmin ++ leBytes 4 x.hys ++ leBytes 1 x.lvl ++ leBytes 3 0) ++
  leBytes 4 p.fnom ++ leBytes 4 p.backstop ++ leBytes 4 p.critcap ++ leBytes 1 p.losslvl ++ leBytes 1 p.tlvl ++
  leBytes 2 (wrap 16 p.ttrip) ++ p.rate.flatMap (leBytes 2) ++ leBytes 2 0 ++ leBytes 4 p.cap ++ leBytes 4 p.step ++
  leBytes 4 p.stprej ++ leBytes 8 (wrap 16 p.temp + p.sid * 2 ^ 16 + p.scount * 2 ^ 32) ++ leBytes 8 0

/-- A droop point read from its bytes, if it keeps its limits. -/
def readPoint (b : List Byte) : Option Point :=
  let x : Point := { fdev := leAt b 0 4, vmin := leAt b 4 4, hys := leAt b 8 4, lvl := leAt b 12 1 }
  if x.lvl ≤ 8 && leAt b 13 3 = 0 && (x.fdev = 0 || x.hys < x.fdev) then some x else none

/-- A value if it is inside its limits, else the one in force (DEDUCED, log 24). -/
def keepIn (lo hi old x : Nat) : Nat := if lo ≤ x && x ≤ hi then x else old

/-- The pending register writes take effect. -/
def Power.apply (p : Power) : Power :=
  let b := p.image.zipIdx.map fun x => NMap.get p.pending x.2 x.1
  let at_ := leAt b
  let level (off old : Nat) : Nat := keepIn 0 8 old (at_ off 1)
  { p with
    curve := p.curve.zipIdx.map fun x => (readPoint ((b.drop (16 * x.2)).take 16)).getD x.1
    fnom := if at_ 0x100 4 = 50000 || at_ 0x100 4 = 60000 then at_ 0x100 4 else p.fnom
    backstop := keepIn 100 10000 p.backstop (at_ 0x104 4)
    critcap := keepIn 0 10000 p.critcap (at_ 0x108 4)
    losslvl := if at_ 0x10C 1 = 0xFF then 0xFF else level 0x10C p.losslvl
    tlvl := level 0x10D p.tlvl
    ttrip := signed 16 (at_ 0x10E 2)
    rate := (List.range 9).map fun k => at_ (0x110 + 2 * k) 2
    cap := keepIn 1 (2 ^ 30) p.cap (at_ 0x124 4)
    step := keepIn 1 (2 ^ 20) p.step (at_ 0x128 4)
    pending := [] }

/-! ## Shedding teams (R356 to R359) -/

/-- Teams and handler teams; a trap handler group and a kite are neither (DEDUCED, log 25). -/
def Team.sheds (t : Team) : Bool := t.kind != .kite && t.kind != .trapHandler && !t.retired

/-- BACKSTOP has passed since the team's class, or the team, became shed. -/
def State.backstopDue (s : State) (t : Team) : Bool := t.shedAt.any fun x => x + us s.power.backstop ≤ s.time

/-- The time a team that has a shed class became shed: its class's, unless it entered the class later. -/
def State.shedSince (s : State) (cls : Nat) : Nat := NMap.get s.power.deadlines cls s.time - us s.power.backstop

/-- The CRIT deferral of a shed team ends CRITCAP after the moment it became shed (R357). -/
def State.startCritcap (s : State) (uid : Nat) : State :=
  match (s.team? uid).bind (·.shedAt) with
  | none => s
  | some x => (s.cancel (· == .critcapExpiry uid)).later (Nat.max s.time (x + us s.power.critcap)) (.critcapExpiry uid)

/-- A split in SHED returns to the state it would otherwise have (R359): a parked one performs its wait as it stands now, or the whole
instruction where its lanes have not arrived (16 R299). -/
def State.unshed (s : State) (uid e : Nat) : State :=
  match s.team? uid with
  | none => s
  | some t =>
    let x := t.split e
    let ready : State := s.onSplit uid e fun x => { x with state := x.former, waiting := .retry }
    let stay (inPhase abandoned : Bool) (n : Nat) : State :=
      if !inPhase then s.pastIt uid e
      else s.onSplit uid e fun x =>
        if abandoned then { x with state := .wait, waiting := .doomed cBARABANDON n } else { x with state := .blocked }
    if x.due = 0 && x.did ≠ 0 then s.pastIt uid e
    else match x.waiting with
      | .bar n false => match NMap.find? t.barriers n with
        | some b => stay (b.arrived &&& x.mask ≠ 0) b.abandoned n
        | none => s.pastIt uid e
      | .cbar false =>
        let b := s.cbarOf t
        stay (NMap.get b.arrived uid 0 &&& x.mask ≠ 0) b.abandoned 0
      | _ => ready

/-- Brings a team's splits into line with shedding: parked and withheld splits return once the team neither parks nor is
withheld, and ready ones are withheld at the backstop, but for those whose instruction has begun. -/
def State.shedTeam (s : State) (uid : Nat) : State :=
  match s.team? uid with
  | none => s
  | some t =>
    if !t.sheds then s
    else
      let shed := s.classShed t.prio
      let s := if shed && t.shedAt.isNone then
          (s.onTeam uid fun t => { t with shedAt := some (s.shedSince t.prio) }).startCritcap uid
        else if !shed && t.shedAt.isSome then
          (s.onTeam uid fun t => { t with shedAt := none, critOver := false, backstop := false }).cancel
            (· == .critcapExpiry uid)
        else s
      match s.team? uid with
      | none => s
      | some t =>
        let s := s.setTeam { t with backstop := s.backstopDue t }
        if !s.parks t then
          (t.entries.filter fun e => (t.split e).state = .shed).foldl (fun s e => s.unshed uid e) s
        else if s.backstopDue t then
          s.onTeam uid fun t => { t with splits := t.splits.map fun x =>
            if x.state = .ready && x.did = 0 && x.passed = 0
            then { x with state := .shed, former := .ready, waiting := .retry } else x }
        else s

/-- Every team, in ascending `$team` where that shows (R359). -/
def State.shedTeams (s : State) : State := s.teams.foldl (fun s p => s.shedTeam p.1) s

/-! ## Notify records (R362, R363) -/

/-- The classes of a list in which a context is denied, as a bit set: with a resident team, or a walk. -/
def State.deniedIn (s : State) (ctx : Nat) (cls : List Nat) : Nat :=
  cls.foldl (fun b k =>
    if s.allTeams.any (fun t => t.ctx = ctx && t.sheds && !t.slots.isEmpty && t.prio = k) ||
      s.mwes.any (fun m => m.2.walks.any fun w => w.2.ctx = ctx && w.2.prio = k) then b + 2 ^ k else b) 0

/-- The split has parked at a barrier boundary (16 R299); one withheld at the backstop has not. -/
def Split.parked (x : Split) : Bool :=
  x.state = .shed && match x.waiting with
    | .bar _ _ | .cbar _ => true
    | _ => false

/-- The contexts with a split of the class that has not parked. -/
def State.unparkedIn (s : State) (ctx cls : Nat) : Bool :=
  s.allTeams.any fun t => t.ctx = ctx && t.sheds && !t.slots.isEmpty && t.prio = cls &&
    (!t.frontier.isEmpty || t.entries.any fun e => !(t.split e).parked)

/-- A 64-bit word of the notify area as the supervisor accesses it. -/
def State.notifyWord (s : State) (ctx : Nat) (x : Context) (off : Nat) (k : AKind) : Option (List Nat) :=
  match s.xlatRange ctx x.xlat k (x.nqbase + .ofNat 64 off) 8 with
  | .ok pas => some pas
  | .error _ => none

/-- NLOST counts a record, if its page can be written. -/
def State.notifyLost (s : State) (ctx : Nat) (x : Context) : State :=
  match s.notifyWord ctx x 8 .write with
  | some pas =>
    let (s, b, _) := s.readGlobal pas
    s.gwrite pas (leBytes 8 (leNat b + 1)) false
  | none => s

/-- A write of the notify area that cannot be made: its fault record, KIND 1, and no park. -/
def State.notifyFault (s : State) (ctx : Nat) (va : Nat) (e : XErr) : State :=
  match e with
  | .trap _ v l a => s.faultRec ctx srcSupervisor .write (if v = 0 then va else v) l a
  | .park v l a => s.faultRec ctx srcSupervisor .write v l a

/-- Writes a notify record to a context. -/
def State.notifyOne (s : State) (ctx kind classes : Nat) : State :=
  match s.ctx? ctx with
  | none => s
  | some x =>
    if x.nqbase = 0 then s
    else
      let f := s.power.behind
      let rec_ := leBytes 8 s.gts ++ leBytes 1 kind ++ leBytes 1 s.power.level ++ leBytes 1 classes ++ leBytes 1 0 ++
        leBytes 2 f.seq ++ leBytes 2 0 ++ leBytes 4 f.freq ++ leBytes 4 f.vbus ++ leBytes 8 0
      match s.xlatRange ctx x.xlat .read x.nqbase 8, s.notifyWord ctx x 0x20 .read with
      | .ok wr, some rd =>
        let (s, bw, _) := s.readGlobal wr
        let (s, br, _) := s.readGlobal rd
        let nwr := leNat bw; let nrd := leNat br
        if nwr - nrd = 2 ^ x.nqlog then s.notifyLost ctx x
        else
          let va := x.nqbase + .ofNat 64 (64 + nwr % 2 ^ x.nqlog * 32)
          match s.xlatRange ctx x.xlat .write va 32, s.xlatRange ctx x.xlat .write x.nqbase 8 with
          | .ok pas, .ok wr => (s.gwrite pas rec_ false).gwrite wr (leBytes 8 (nwr + 1)) false
          | .error e, _ => (s.notifyFault ctx va.toNat e).notifyLost ctx x
          | _, .error e => (s.notifyFault ctx x.nqbase.toNat e).notifyLost ctx x
      | .error e, _ => (s.notifyFault ctx x.nqbase.toNat e).notifyLost ctx x
      | .ok _, none => s.notifyLost ctx x

/-- Notifies every context that a level change denies. -/
def State.notifyAll (s : State) (kind : Nat) (cls : List Nat) : State :=
  s.contexts.foldl (fun s c =>
    let b := s.deniedIn c.1 cls
    if b = 0 then s else s.notifyOne c.1 kind b) s

/-! ## The shed level (R355) -/

/-- Classes shed at level `n`. -/
def shedAtLevel (n : Nat) : List Nat := (List.range 8).filter fun k => 8 ≤ k + n

/-- The level changes to `n`: classes are shed or restored, denied contexts notified, and walks compete again. -/
def State.setLevel (s : State) (n : Nat) : State :=
  let old := s.power.level
  if n = old then s
  else
    let up := old < n
    let cls := if up then (shedAtLevel n).filter fun k => !(shedAtLevel old).contains k
      else (shedAtLevel old).filter fun k => !(shedAtLevel n).contains k
    let s := s.onPower fun p => { p with
      level := n, changes := (p.changes + (n - old) + (old - n)) % 2 ^ 32, changeGts := s.gts }
    let s := cls.foldl (fun s k =>
      if up then
        let due := s.time + us s.power.backstop
        (s.onPower fun p => { p with deadlines := NMap.insert p.deadlines k due }).later due (.backstopExpiry k)
      else
        (s.onPower fun p => { p with deadlines := NMap.erase p.deadlines k }).cancel (· == .backstopExpiry k)) s
    let s := (s.notifyAll (if up then 1 else 3) cls).shedTeams
    if up then s
    else s.mwes.foldl (fun s m => m.2.walks.foldl (fun s w => s.kickWalk m.1 w.1) (s.kickArray m.1)) s

/-- The controller moves the level toward a target (R355). -/
def State.decide_ (s : State) (target : Nat) : State :=
  let l := s.power.level
  let noFall (s : State) : State := (s.onPower fun p => { p with fall := none }).cancel (· == .shedLevelFall)
  let s := s.onPower fun p => { p with target := target }
  if l < target then (noFall s).setLevel target
  else if target = l then noFall s
  else if s.power.fall.isSome then s
  else (s.onPower fun p => { p with fall := some (s.time + fallTime) }).later (s.time + fallTime) .shedLevelFall

/-- A target while the device is hot is never less than TLVL (R354). -/
def Power.floor (p : Power) (t : Nat) : Nat := if p.hot then Nat.max t p.tlvl else t

/-- A point trips, stays tripped or releases (R354). -/
def pointTrips (p : Power) (x : Point) (was : Bool) : Bool :=
  let dev := (p.frame.freq - p.fnom) + (p.fnom - p.frame.freq)
  if x.lvl = 0 then false
  else if was then
    !((x.fdev = 0 || dev < x.fdev - x.hys) && (x.vmin = 0 || x.vmin + x.hys < p.frame.vbus))
  else (x.fdev ≠ 0 && x.fdev ≤ dev) || (x.vmin ≠ 0 && p.frame.vbus ≤ x.vmin)

/-- The pending register writes take effect; a changed BACKSTOP moves the deadlines that have not lapsed, and a changed CRITCAP the ends of
the deferrals that run (R352, R357, R358). -/
def State.applyPower (s : State) : State :=
  let old := s.power.backstop
  let s := s.onPower Power.apply
  let s := (s.teams.filter fun p => s.expects (· == .critcapExpiry p.1)).foldl (fun s p => s.startCritcap p.1) s
  let new := s.power.backstop
  if new = old then s
  else s.power.deadlines.foldl (fun s d =>
    let due := d.2 + us new - us old
    let s := s.onPower fun p => { p with deadlines := NMap.insert p.deadlines d.1 due }
    if s.expects (· == .backstopExpiry d.1) then
      (s.cancel (· == .backstopExpiry d.1)).later (Nat.max s.time due) (.backstopExpiry d.1)
    else s) s

/-- The decision that follows an accepted frame (R352, R354). -/
def State.frameDecision (s : State) : State :=
  let s := s.applyPower.onPower fun p => { p with deciding := none, behind := p.frame }
  let p := s.power
  let trips := p.curve.zipIdx.map fun x => pointTrips p x.1 (p.tripped.getLsbD x.2)
  let bits := trips.zipIdx.foldl (fun (b : BitVec 16) x => if x.1 then b ||| ((1 : BitVec 16) <<< x.2) else b) 0
  let t := maxList ((p.curve.zip trips).map fun x => if x.2 then x.1.lvl else 0)
  State.decide_ { s with power := { p with tripped := bits } } (p.floor t)

/-- DROOP_DECISION. -/
def execDroopDecision (s : State) : Host.Outcome State Fault Refusal :=
  .next (if s.power.deciding.isSome then s.frameDecision else s)

/-- SHED_LEVEL_FALL: the level falls by one, and falls again 100 µs later while the target is lower. A level that the target has
come up to since, for the device has become hot, does not fall (DEDUCED, log 80). -/
def execShedLevelFall (s : State) : Host.Outcome State Fault Refusal :=
  if s.power.fall.isNone then .next s
  else
    let s := s.onPower fun p => { p with fall := none }
    let s := if s.power.target < s.power.level then s.setLevel (s.power.level - 1) else s
    if s.power.target < s.power.level then
      .next ((s.onPower fun p => { p with fall := some (s.time + fallTime) }).later (s.time + fallTime) .shedLevelFall)
    else .next s

/-! ## Frames (R349 to R351, R371) -/

/-- CRC-16 of bytes (R349). -/
def crc16 (l : List Byte) : Nat :=
  l.foldl (fun c b => (List.range 8).foldl (fun c _ =>
    if c / 2 ^ 15 % 2 = 1 then (2 * c % 2 ^ 16) ^^^ 0x1021 else 2 * c % 2 ^ 16) (c ^^^ (b.toNat * 2 ^ 8))) 0xFFFF

/-- The loss timer starts again (R350); it stands still under a replay grant (R351). -/
def State.armLoss (s : State) : State :=
  let s := s.cancel (· == .stpLinkLoss)
  if s.power.replay.isSome then s else s.later (s.time + lossTime) .stpLinkLoss

/-- The STP checks a frame: accepted, it is followed by a decision; else it is counted. A decision still due is made first. -/
def State.takeFrame (s : State) (d : List Byte) : State :=
  let p := s.power
  let seq := leAt d 2 2
  let fresh := p.first || (1 ≤ (seq + 2 ^ 16 - p.frame.seq) % 2 ^ 16 && (seq + 2 ^ 16 - p.frame.seq) % 2 ^ 16 ≤ 32767)
  if d.length = 16 && leAt d 0 1 = 0x5A && leAt d 12 2 = 0 && leAt d 14 2 = crc16 (d.take 14) && fresh then
    let s := if p.deciding.isSome then (s.cancel (· == .droopDecision)).frameDecision else s
    let f : Frame := { flags := leAt d 1 1, seq := seq, freq := leAt d 4 4, vbus := leAt d 8 4, gts := s.gts }
    let s := s.onPower fun p => { p with frame := f, first := false, lost := false, deciding := some s.time }
    (s.later (s.time + decisionTime) .droopDecision).armLoss
  else s.onPower fun p => { p with stprej := (p.stprej + 1) % 2 ^ 32 }

/-- THEZEN_FRAME: a frame on the wire; ignored while a replay grant stands. -/
def execThezenFrame (d : List Byte) (s : State) : Host.Outcome State Fault Refusal :=
  .next (if s.power.replay.isSome then s else s.takeFrame d)

/-- STP_LINK_LOSS: no frame accepted for 5 ms. The declaration is a decision: pending register writes take effect; the
target is LOSSLVL, or the level as it stands. -/
def execStpLinkLoss (s : State) : Host.Outcome State Fault Refusal :=
  if s.power.replay.isSome then .next s
  else
    let s := s.applyPower.onPower fun p => { p with lost := true, first := true }
    .next (s.decide_ (s.power.floor (if s.power.losslvl = 0xFF then s.power.level else s.power.losslvl)))

/-- The replay slot of the granted context: the device addresses of its 16 bytes, or why they cannot be had. -/
def State.replaySlot (s : State) : Option (Nat × Except XErr (List Nat)) :=
  match s.power.replay with
  | none => none
  | some c => match s.ctx? c with
    | none => none
    | some x => if x.nqbase = 0 then none else some (c, s.xlatRange c x.xlat .read (x.nqbase + 0x10) 16)

/-- The STP arms its monitor on the replay slot's line, or parks (R351); where no line is known because a table entry is bad, it tries
again when that entry is rewritten (DESIGN CHOICE, log 100). -/
def State.armSlot (s : State) : State :=
  match s.replaySlot with
  | none => s
  | some (_, .ok pas) => s.onPower fun p => { p with slotLine := some (pas.headD 0 / 128), slotParked := none }
  | some (c, .error (.park va l e)) =>
    (((s.onPower fun p => { p with slotParked := some e }).parkRecord c srcSupervisor .read va l e)).recheck e
  | some (c, .error (.trap _ va l e)) =>
    let wait (p : Power) : Power := { p with slotParked := if p.slotLine.isNone && e ≠ 0 then some e else p.slotParked }
    (s.onPower wait).faultRec c srcSupervisor .read va l e

/-- REPLAY_SLOT_READ: a write to the slot's line: the 16 bytes are read and checked, unless they equal the previous ones. -/
def execReplaySlotRead (s : State) : Host.Outcome State Fault Refusal :=
  match s.replaySlot with
  | some (_, .ok pas) =>
    let s := (s.armSlot).recall pas
    let d := (s.gread pas).1
    if s.power.previous = some d then .next s
    else .next ((s.onPower fun p => { p with previous := some d }).takeFrame d)
  | _ => .next s.armSlot

/-- A grant of telemetry replay begins (R351, R371). -/
def State.grantReplay (s : State) (ctx : Nat) : State :=
  let s := s.onPower fun p => { p with replay := some ctx, previous := none, first := true }
  (s.armLoss).armSlot

/-- A grant ends: the STP resumes with the wire, whose next frame counts as the first after a loss. -/
def State.endReplayGrant (s : State) : State :=
  (s.onPower fun p => { p with replay := none, previous := none, first := true, slotLine := none, slotParked := none }).armLoss

/-! ## Timers of shedding (R357, R358, R364) -/

/-- BACKSTOP_EXPIRY: the class's unparked splits are withheld, and the contexts that have one are notified. -/
def execBackstopExpiry (cls : Nat) (s : State) : Host.Outcome State Fault Refusal :=
  if !s.classShed cls then .next s
  else
    let s := s.contexts.foldl (fun s c => if s.unparkedIn c.1 cls then s.notifyOne c.1 2 (2 ^ cls) else s) s
    .next s.shedTeams

/-- CRITCAP_EXPIRY: the team is treated as if its CRIT count were 0. -/
def execCritcapExpiry (uid : Nat) (s : State) : Host.Outcome State Fault Refusal :=
  .next ((s.onTeam uid fun t => { t with critOver := t.shedAt.isSome }).shedTeam uid)

/-- NOTIFY_GRANT_EXPIRY: the grant's 100 µs are over. -/
def execNotifyGrantExpiry (uid : Nat) (s : State) : Host.Outcome State Fault Refusal :=
  .next ((s.onTeam uid fun t => { t with notify := t.notify.filter fun x => s.time < x.2 }).shedTeam uid)

/-! ## Clock, sensors (R365, R367) -/

/-- DROOP_DETECTOR_TRIP: the quad's clock stretches; when the supply is back the stretch still holds for 64 cycles (DESIGN CHOICE, log 3). -/
def execDroopDetectorTrip (quad : Nat) (s : State) : Host.Outcome State Fault Refusal :=
  let s := (s.onQuadPower quad fun q => { q with stretched := true }).cancel (· == .clockStretchEnd quad)
  .next (s.later (s.time + cycles (64 + s.choice)) (.clockStretchEnd quad))

/-- CLOCK_STRETCH_END. -/
def execClockStretchEnd (quad : Nat) (s : State) : Host.Outcome State Fault Refusal :=
  .next (s.onQuadPower quad fun q => { q with stretched := false })

/-- SENSOR_SWEEP: the hottest of the 384 sensors, the hot state, which holds the target at TLVL or above, and the stop at 125 °C. -/
def execSensorSweep (temps : List Int) (s : State) : Host.Outcome State Fault Refusal :=
  let top := (temps.take 384).zipIdx.foldl (fun (b : Int × Nat) x => if b.1 < x.1 then x else b) (temps.headD 0, 0)
  let s := s.onPower fun p => { p with
    scount := (p.scount + 1) % 2 ^ 32, sid := top.2, temp := top.1
    hot := if p.hot then !(top.1 < p.ttrip - 80) else p.ttrip ≤ top.1 }
  let s := s.onPower fun p => { p with target := p.floor p.target }
  .next (if 2000 ≤ top.1 then s.stopDevice else s)

/-! ## Idle states (R368, R369) -/

/-- A quad is idle. -/
def State.quadIdle (s : State) (q : Nat) : Bool :=
  let mine := coresOf q
  !s.allTeams.any (fun t => mine.contains t.core && !t.retired && t.kind != .kite && (t.kind == .trapHandler || !t.slots.isEmpty)) && (s.mwe q).walks.isEmpty &&
  mine.all fun c => (s.core c).copies.isEmpty && (s.core c).inflight.isEmpty && (s.core c).batches.isEmpty

/-- Idle time after which A1, A2 and A3 are entered, and their exits. -/
def a1Time : Nat := us 10
def a2Time : Nat := us 1000
def a3Time : Nat := us 100000
def a1Exit : Nat := us 2
def a2Exit : Nat := us 40
def a3Exit : Nat := us 2000

/-- Notes when a quad has become idle or ceased to be, with the entries that may follow. -/
def State.noteIdle (s : State) (q : Nat) : State :=
  let p := s.quadPower q
  match s.quadIdle q, p.idleSince with
  | true, none =>
    ((s.onQuadPower q fun p => { p with idleSince := some s.time }).later (s.time + a1Time) (.a1Entry q)).later
      (s.time + a2Time) (.a2Entry q)
  | false, some _ =>
    (s.onQuadPower q fun p => { p with idleSince := none }).cancel fun i => i == .a1Entry q || i == .a2Entry q
  | _, _ => s

/-- The quad has been idle for a time, and the exit of a state fits the tolerance. -/
def State.mayIdle (s : State) (q time exit : Nat) : Bool :=
  let p := s.quadPower q
  s.quadIdle q && !p.exiting && (p.idleSince.any fun x => x + time ≤ s.time) && exit ≤ ns s.power.ltr

/-- A1_ENTRY. -/
def execA1Entry (q : Nat) (s : State) : Host.Outcome State Fault Refusal :=
  .next (if s.mayIdle q a1Time a1Exit && (s.quadPower q).idle = .a0 then s.onQuadPower q fun p => { p with idle := .a1 }
    else s)

/-- A2_ENTRY. A3 may follow 100 ms after the last quad's. -/
def execA2Entry (q : Nat) (s : State) : Host.Outcome State Fault Refusal :=
  .next (if s.mayIdle q a2Time a2Exit && (s.quadPower q).idle ≠ .a2 then
    ((s.onQuadPower q fun p => { p with idle := .a2 }).cancel (· == .a3Entry)).later (s.time + a3Time) .a3Entry
  else s)

/-- Every quad is in A2, no queue has a packet to read or a WAITVAL waiting, and the exit of A3 fits the tolerance. -/
def State.mayA3 (s : State) : Bool :=
  (List.range 48).all (fun q => (s.quadPower q).idle = .a2 && s.quadIdle q) &&
    (s.queues.all fun q => q.2.wridx ≤ q.2.rdidx && q.2.waiting.isNone) && a3Exit ≤ ns s.power.ltr

/-- A3_ENTRY: with every quad in A2, no packet to read and no WAITVAL waiting. -/
def execA3Entry (s : State) : Host.Outcome State Fault Refusal :=
  .next (if s.mayA3 then s.onPower fun p => { p with a3 := true } else s)

/-- Once the 100 ms of every quad in A2 are over, A3 follows as soon as the rest allows it. -/
def State.tryA3 (s : State) : State :=
  if !s.power.a3 && s.mayA3 && !s.expects (· == .a3Entry) then s.soon .a3Entry else s

/-- Units of IDLE_EXIT_COMPLETE: a quad, or the device. -/
def unitDevice : Nat := 48

/-- Begins the exit of a quad, for a placement (R369). -/
def State.wakeQuad (s : State) (q : Nat) : State :=
  let p := s.quadPower q
  if p.idle = .a0 || p.exiting then s
  else (s.onQuadPower q fun p => { p with exiting := true }).later
    (s.time + (if p.idle = .a1 then a1Exit else a2Exit)) (.idleExitComplete q)

/-- Begins the device's exit from A3 (R369, R381). -/
def State.wakeDevice (s : State) : State :=
  if !s.power.a3 || s.expects (· == .idleExitComplete unitDevice) then s
  else s.later (s.time + a3Exit) (.idleExitComplete unitDevice)

/-- An idle state is tried when its idle time has run, at once if it has. -/
def State.tryIdle (s : State) (at_ : Nat) (i : Instr) : State :=
  if s.expects (· == i) then s else s.later (Nat.max s.time at_) i

/-- LTR: the lesser of the two values of the latest message, or 0 when LTR is not enabled; a quad that is idle may enter a state when its
idle time has run. -/
def execLtr (enabled : Bool) (snoop noSnoop : Nat) (s : State) : Host.Outcome State Fault Refusal :=
  let s := s.onPower fun p => { p with ltr := if enabled then Nat.min snoop noSnoop else 0 }
  .next ((List.range 48).foldl (fun s q => match (s.quadPower q).idleSince with
    | some x => (s.tryIdle (x + a1Time) (.a1Entry q)).tryIdle (x + a2Time) (.a2Entry q)
    | none => s) s)

end Sys2Proof.Machine
end

