-- ==== Sys2Proof/Machine/System.lean ====
section
/-!
DEFINITION. Traps, debug, control words, time, class, power, translation, accumulators and the scan as instructions reach
them (18 R307 to R332).
-/
namespace Sys2Proof.Machine

/-! ## Operands (R307) -/

/-- A scalar operand, whole. -/
def Team.word (t : Team) (r : Rd) (o : Opnd) (lane : Nat) : Nat :=
  match o with
  | .s n => (t.regs.getS n.toNat).toNat
  | _ => t.src r o 1 lane

/-- A uniform instruction of this family, once its registers are full: the body has the team, the lanes and what reads
operands. -/
def sysForm (i : Instr) (f : Fields) (s : State) (body : Cur → Team → Rd → Nat → State) : Host.Outcome State Fault Refusal :=
  uniform i f s fun c t l =>
    match t.gates (readsOf i f) [(f.dst, i.widths.1)] (GMask.list (Mask.groups (c.lanes t))) with
    | some (_, .trap d) => s.trapAll c t cEMPTYRD d
    | some _ => s.wait c .wait .regs
    | none => body c t { gts := s.gts, e := c.e, i := i, f := f } l

/-- Ends an instruction of this family, with `$poison` from the operands it read: `bad` are the lanes that read poison. -/
def State.finishSys (s : State) (c : Cur) (f : Fields) (bad : Mask) : State :=
  let m := Mask.inGroups c.mask c.groups
  let read := f.grd ≠ .always || opndIsReg f.sa || opndIsReg f.sb
  (if read then s.onTeam c.uid fun t => { t with regs := t.regs.setFlag m bad } else s).finish c

/-- The lanes of the split, if a scalar operand is poisoned. -/
def Cur.badIf (c : Cur) (t : Team) (o : Opnd) : Mask := if t.bad o 1 0 then c.lanes t else 0

/-- The team that CW_ATTACH names (R319). -/
def State.attached (s : State) (t : Team) : Option Team :=
  if t.attach[16] then s.allTeams.find? fun x =>
    x.core == bitsAt t.attach.toNat 0 8 && x.slots.head? == some (bitsAt t.attach.toNat 8 6) && x.kind != .kite
  else none

/-- What INSPECT, ALTER, RESUME, KILL and REPLAY act on: a group of the trapped team, or of the one attached (R307, R319). -/
inductive Aim where
  | illop
  /-- a trapped team that is no more: nothing is done -/
  | gone
  | group (t : Team) (g : Nat)

def State.aim (s : State) (t : Team) (a : Nat) : Aim :=
  let on (x : Team) : Aim := if a < x.groupCount then .group x a else .illop
  match t.serves with
  | some (uid, _) =>
    match s.team? uid with
    | some x => on x
    | none => if a < 32 then .gone else .illop
  | none => match s.attached t with
    | some x => on x
    | none => .illop

/-! ## TRAP, TRET (R316, R317) -/

/-- TRAP n: each group with a lane whose guard holds traps; the others move past it. -/
def execTrap (f : Fields) (s : State) : Host.Outcome State Fault Refusal :=
  issue (.trap f) f s fun c t =>
    let all := c.lanes t
    let act := t.guarded f.grd all
    let s := s.setTeam (t.readGuard f.grd all)
    if act = 0 then s.finish c
    else (s.pass c (Mask.groups all &&& ~~~ Mask.groups act)).trapGroups c
      ((GMask.list (Mask.groups act)).map fun g =>
        { group := g, cls := cTRAP, mask := Mask.word act g, detail := f.imm.toNat % 2 ^ 16 })

/-- TRET: the handler ends, its frame is free, and a group it served that is still in TRAP is killed. It waits for the handler's own
parked accesses (DESIGN CHOICE, log 81). -/
def execTret (f : Fields) (s : State) : Host.Outcome State Fault Refusal :=
  uniform (.tret f) f s fun c t _ =>
    if (s.core t.core).oplog.any (·.uid = t.uid) then s.wait c .wait .retry else s.endHandler t false

/-! ## Breakpoints and steps (R320) -/

/-- A split of the team is stopped, or is being stepped. -/
def Team.isStopped (t : Team) : Bool := t.splits.any fun x => x.stepping || (x.state = .debug && x.stopped)

/-- The split is at an instruction boundary: nothing of the instruction it stands at has been performed. -/
def Split.atBoundary (x : Split) : Bool :=
  x.did = 0 && x.passed = 0 && x.mon.isEmpty && match x.waiting with
    | .send _ | .monitor _ => false
    | _ => true

/-- STOPTEAM: the other splits of a stopped team stop at their next instruction boundary, and return when it goes on. -/
def Team.stopOthers (t : Team) : Team :=
  if t.isStopped then
    if t.debug[1] then
      { t with splits := t.splits.map fun x =>
          if (x.state = .ready || x.state = .wait || x.state = .held) && x.atBoundary && !x.stepping
          then { x with state := .debug, former := x.state, stopped := false } else x }
    else t
  else
    { t with splits := t.splits.map fun x => if x.state = .debug then { x with state := x.former } else x }

/-- Some split of the team is in DEBUG. -/
def Team.hasDebug (t : Team) : Bool := t.splits.any fun x => x.state = .debug

/-- Stops or returns the other splits of a team in debug. -/
def State.stopTeam (s : State) (uid : Nat) : State :=
  match s.team? uid with
  | none => s
  | some t => if t.hasDebug || t.isStopped then (s.setTeam t.stopOthers).retryHeld uid else s

/-- Stops that have waited for a group's record count, and a handler may start. -/
def State.owedStops (s : State) (uid : Nat) : State :=
  match s.team? uid with
  | none => s
  | some t => if t.stops.all fun p => (NMap.find? t.traps p.1).isSome then s else (s.setTeam t.placeStops).soon (.trapFrameGrant t.core)

/-- BKPT n: with DEN set and a lane whose guard holds, the split stops, and a handler starts for the lowest such group. Under REPLAY it
does nothing (DEDUCED, log 45). -/
def execBkpt (f : Fields) (s : State) : Host.Outcome State Fault Refusal :=
  issue (.bkpt f) f s fun c t =>
    let all := c.lanes t
    let act := t.guarded f.grd all
    let t := t.readGuard f.grd all
    if t.mode = .trap || !t.debug[0] || act = 0 || c.replay.isSome then (s.setTeam t).finish c
    else
      let low := (Mask.lowest act).getD 0 / 32
      let t := (GMask.list (Mask.groups all)).foldl (fun t g =>
        t.stopGroup cBKPT (f.imm.toNat % 2 ^ 16) s.gts c.word (c.pc + 12) (g = low && s.hasHandler t.ctx) c.e g
          (Mask.word act g)) t
      let t := t.onSplit c.e fun x => { x.fresh with state := .debug, stepping := false, stopped := true }
      (((s.endKites c.uid).setTeam t).grantFrame t.core).stopTeam c.uid

/-- RESUME or REPLAY of a group in DEBUG releases each stopped split that holds lanes of it: past a breakpoint, or on at the
instruction a step has stopped before; one instruction only if STEP is set. -/
def State.releaseDebug (s : State) (uid g : Nat) : State :=
  match s.team? uid with
  | none => s
  | some t =>
    let es := t.entries.filter fun e =>
      (t.split e).state = .debug && (t.split e).stopped && Mask.word (t.split e).mask g ≠ 0
    let s := es.foldl (fun s e =>
      let past := List.find? (fun p : Nat × GTrap => p.2.debug && p.2.split == e && p.2.cls == cBKPT) (t.traps ++ t.stops)
      let pc := if past.isSome then (t.split e).pc + 12 else (t.split e).pc
      let s := match past with
        | some p => s.hints uid e p.2.word
        | none => s
      let s := s.onTeam uid fun t => 
        let others (p : Nat × GTrap) : Bool := !(p.2.debug && p.2.split = e)
        { t with traps := t.traps.filter others, stops := t.stops.filter others }
      if t.debug[2] then
        (s.onSplit uid e fun x => { x.fresh with pc := pc, stepping := true, stopped := false }).restStall uid
      else s.moveTo uid e pc) s
    s.stopTeam uid

/-! ## RESUME, REPLAY, KILL (R315) -/

/-- The group is in TRAP or DEBUG. -/
def Team.isHeld (t : Team) (g : Nat) : Bool :=
  (NMap.find? t.traps g).isSome || t.splits.any fun x => x.state = .debug && Mask.word x.mask g ≠ 0

/-- RESUME a. A trapped group goes on as if its instruction were performed; without room for its subset the handler waits. -/
def execResume (f : Fields) (s : State) : Host.Outcome State Fault Refusal :=
  sysForm (.resume f) f s fun c t r l =>
    let bad := c.badIf t f.sa
    match s.aim t (t.word r f.sa l) with
    | .illop => s.trapAll c t cILLOP
    | .gone => s.finishSys c f bad
    | .group x g =>
      match NMap.find? x.traps g with
      | some y =>
        if y.debug then (s.releaseDebug x.uid g).finishSys c f bad
        else match s.resumeGroup x.uid g with
          | none => s.wait c .wait .retry
          | some s => (s.settleTeam x.uid).finishSys c f bad
      | none => (s.releaseDebug x.uid g).finishSys c f bad

/-- REPLAY a. The trapped instruction issues again for the group, and the handler waits until that pass has ended. -/
def execReplay (f : Fields) (s : State) : Host.Outcome State Fault Refusal :=
  sysForm (.replay f) f s fun c t r l =>
    let bad := c.badIf t f.sa
    match s.aim t (t.word r f.sa l) with
    | .illop => s.trapAll c t cILLOP
    | .gone => s.finishSys c f bad
    | .group x g =>
      match NMap.find? x.traps g with
      | some y =>
        if y.debug then (s.releaseDebug x.uid g).finishSys c f bad
        else
          let m := Mask.inGroups c.mask c.groups
          let read := f.grd ≠ .always || opndIsReg f.sa
          let s := if read then s.onTeam c.uid fun t => { t with regs := t.regs.setFlag m bad } else s
          let s := s.wait c .wait (.replay x.uid g)
          { s with issueQ := s.issueQ ++ [{ uid := x.uid, e := y.split, joined := false, replay := some (g, c.uid, c.e) }] }
      | none => (s.releaseDebug x.uid g).finishSys c f bad

/-- KILL a: with the class of the group's trap, 0 for one not in TRAP (R306). -/
def execKill (f : Fields) (s : State) : Host.Outcome State Fault Refusal :=
  sysForm (.kill f) f s fun c t r l =>
    let bad := c.badIf t f.sa
    match s.aim t (t.word r f.sa l) with
    | .illop => s.trapAll c t cILLOP
    | .gone => s.finishSys c f bad
    | .group x g =>
      let cls := (((NMap.find? x.traps g).filter fun y => !y.debug).map (·.cls)).getD 0
      ((s.killGroup x.uid g cls).stopTeam x.uid).finishSys c f bad

/-! ## INSPECT and ALTER (R313, R314) -/

/-- State code of R155. -/
def SplitState.code : SplitState → Nat
  | .free => 0 | .ready => 1 | .wait => 2 | .blocked => 3 | .trap => 4 | .debug => 5 | .shed => 6 | .held => 7

/-- Eight bytes of a split table entry (R154). -/
def Split.entryWord (x : Split) (part : Nat) : Nat :=
  if x.state = .free then 0
  else match part with
    | 0 => x.pc.toNat
    | 1 => x.age
    | 2 => x.state.code + x.mptr * 2 ^ 8 + Mask.count x.mask * 2 ^ 16 + Nat.min x.waitc 65535 * 2 ^ 32
    | _ => 0

/-- A number whose bit k is set where a test of `n` numbers holds. -/
def bitsWhere (n : Nat) (p : Nat → Bool) : Nat := (List.range n).foldl (fun a k => if p k then a + 2 ^ k else a) 0

/-- FULL of R313. Registers that the team does not have read 0 (DEDUCED, log 26). -/
def Team.fullBits (t : Team) (g idx : Nat) : Nat :=
  if idx < 4 then bitsWhere 64 fun k => 64 * idx + k < t.vregs && !t.regs.emptyV g (64 * idx + k)
  else if idx < 6 then bitsWhere 64 fun k => 64 * (idx - 4) + k < t.sregs && !t.regs.emptyS (64 * (idx - 4) + k)
  else bitsWhere 16 fun k => !NSet.mem t.regs.hEmpty k

/-- LANE of R313. -/
def State.laneWord (s : State) (t : Team) (lane : Nat) : Nat :=
  let bit (b : Bool) (k : Nat) : Nat := if b then 2 ^ k else 0
  let entry := (t.entries.find? fun e => Mask.has (t.split e).mask lane).getD 0
  let fault := (NMap.find? t.traps (lane / 32)).any fun x => x.mask.getLsbD (lane % 32)
  (t.regs.link lane).length + bit (Mask.has t.live lane) 8 + bit fault 9 + bit (Mask.has t.regs.flag lane) 10 +
  bit (Mask.has (s.loggedLanes t) lane) 11 + entry * 2 ^ 12 + t.regs.orig lane * 2 ^ 16

/-- A vector kind's value of a lane with its poison. -/
def State.inspectLane (s : State) (t : Team) (kind idx lane : Nat) : Nat × Bool :=
  match kind with
  | 0 => ((t.regs.getV lane idx).toNat, t.regs.badV lane idx)
  | 2 => (if t.regs.getP lane idx then 1 else 0, t.regs.badP lane idx)
  | 5 => (((t.regs.link lane).reverse.getD idx 0).toNat, false)
  | _ => (s.laneWord t lane, false)

/-- A scalar kind's value with its poison. Kind 10 gives the spare bits of HINT as they stand in the word (DESIGN CHOICE, log 88). -/
def Team.inspectScalar (t : Team) (g kind idx part : Nat) : Nat × Bool :=
  let x := NMap.find? t.traps g
  match kind with
  | 1 => ((t.regs.getS idx).toNat, t.regs.badS idx)
  | 3 => ((t.regs.getH idx).toNat, false)
  | 4 => (t.fullBits g idx, false)
  | 7 => ((t.split idx).entryWord part, false)
  | 8 =>
    let m := ((t.splits.find? fun x => x.state ≠ .free && x.mptr = idx).map (·.mask)).getD 0
    (if part = 0 then (Mask.groups m).toNat else (Mask.word m g).toNat, false)
  | 9 => ((x.map fun x => (trapWord t t.image g x idx).toNat).getD 0, false)
  | 10 => ((x.map fun x => bitsAt x.word.toNat (32 * part) 32).getD 0, false)
  | 11 => (t.crit % 2 ^ 8 + t.prio * 2 ^ 8 + bitsWhere 32 t.isHeld * 2 ^ 32, false)
  | _ => ((x.map (·.rpc.toNat)).getD 0, false)

/-- The index of a selector is one that the team has. -/
def Team.hasIndex (t : Team) (kind idx : Nat) : Bool :=
  match kind with
  | 0 => idx < t.vregs
  | 1 => idx < t.sregs
  | _ => true

/-- INSPECT d, a, n. Of a team that is no more every value is free (DESIGN CHOICE, log 4). -/
def execInspect (f : Fields) (s : State) : Host.Outcome State Fault Refusal :=
  sysForm (.inspect f) f s fun c t r l =>
    let bad := c.badIf t f.sa
    let kind := selKind f.imm; let idx := selIndex f.imm; let part := selPart f.imm
    let k := (Instr.inspect f).widths.1
    let put (s : State) (lane : Nat → Nat × Bool) (scalar : Nat × Bool) : State :=
      let s := match f.dst with
        | .s n => s.onTeam c.uid fun t => { t with regs := t.regs.setS n.toNat (.ofNat 64 scalar.1) scalar.2 }
        | _ => (Mask.list (c.lanes t)).foldl (fun s lane' =>
            let x := lane lane'
            s.onTeam c.uid fun t => t.putLane f.dst k lane' { val := x.1, bad := x.2 }) s
      s.finishSys c f bad
    match s.aim t (t.word r f.sa l) with
    | .illop => s.trapAll c t cILLOP
    | .gone =>
      let (b, s) := s.freeBytes 8192
      put s (fun lane' => (leAt b (8 * lane') 8, false)) (leAt b 0 8, false)
    | .group x g =>
      if !x.hasIndex kind idx then s.trapAll c t cILLOP
      else put s (fun lane' => if lane' < 32 && 32 * g + lane' < x.lanes then s.inspectLane x kind idx (32 * g + lane')
          else (0, false))
        (x.inspectScalar g kind idx part)

/-- What ALTER writes into a team; none is ILLOP. -/
def Team.alter (x t : Team) (r : Rd) (lanes : List Nat) (g kind idx : Nat) (o : Opnd) : Option Team :=
  let on := (lanes.filter fun l => l < 32 && 32 * g + l < x.lanes).map fun l => (l, 32 * g + l)
  let b := t.word r o 0
  match kind with
  | 0 => some { x with regs := on.foldl (fun q p =>
      q.setV p.2 idx (.ofNat 32 (t.src r o 1 p.1)) (t.bad o 1 p.1)) x.regs }
  | 1 => some { x with regs := x.regs.setS idx (.ofNat 64 b) (t.bad o 1 0) }
  | 2 => some { x with regs := on.foldl (fun q p =>
      q.setP p.2 idx (t.src r o 1 p.1 % 2 = 1) (t.bad o 1 p.1)) x.regs }
  | 3 => some { x with regs := x.regs.setH idx (.ofNat 64 b) false }
  | 4 =>
    let ks := (List.range 64).filter b.testBit
    if idx < 4 then some { x with regs := ks.foldl (fun q k => q.markV g (64 * idx + k) false) x.regs }
    else if idx < 6 then some { x with regs := ks.foldl (fun q k => q.markS (64 * (idx - 4) + k) false) x.regs }
    else some { x with regs := { x.regs with hEmpty := x.regs.hEmpty.filter fun h => !ks.contains h } }
  | 5 => some { x with regs := on.foldl (fun q p =>
      let s := q.link p.2
      if idx < s.length then q.setLink p.2 (s.set (s.length - 1 - idx) (.ofNat 64 (t.src r o 2 p.1))) else q) x.regs }
  | _ =>
    if !x.isCode (.ofNat 64 b) then none
    else some { x with traps := match NMap.find? x.traps g with
      | some y => NMap.insert x.traps g { y with rpc := .ofNat 64 b }
      | none => x.traps }

/-- ALTER a, b, n. A poisoned token or resume PC is consumed (19 R335). -/
def execAlter (f : Fields) (s : State) : Host.Outcome State Fault Refusal :=
  sysForm (.alter f) f s fun c t r l =>
    let kind := selKind f.imm; let idx := selIndex f.imm
    let k := (Instr.alter f).widths.2.2
    let bad := c.badIf t f.sa ||| Mask.ofList ((Mask.list (c.lanes t)).filter (t.bad f.sb k))
    match s.aim t (t.word r f.sa l) with
    | .illop => s.trapAll c t cILLOP
    | .gone => s.trapAll c t cILLOP
    | .group x g =>
      if !x.hasIndex kind idx || !x.isHeld g then s.trapAll c t cILLOP
      else if (kind = 3 || kind = 12) && t.bad f.sb 1 0 then s.consume c t
      else match x.alter t r (Mask.list (c.lanes t)) g kind idx f.sb with
        | none => s.trapAll c t cILLOP
        | some x => (s.setTeam x).finishSys c f bad

/-! ## Control words (R318, R319) -/

/-- The team whose CW_STATUS and CW_DEBUG an instruction names. -/
def State.wordTeam (s : State) (t : Team) (n : Nat) : Team :=
  match t.serves with
  | some (uid, _) => (s.team? uid).getD t
  | none => if n = 1 && t.mode = .supervisor then (s.attached t).getD t else t

/-- The mode field of CW_STATUS. -/
def Mode.code : Mode → Nat
  | .user => 0 | .trap => 1 | .supervisor => 2 | .save => 3 | .restore => 3

/-- A control word as a team reads it. -/
def State.controlWord (s : State) (t : Team) (n : Nat) : U64 :=
  let x := s.wordTeam t n
  match n with
  | 0 => .ofNat 64 (x.mode.code + x.prio * 2 ^ 8 + x.crit % 2 ^ 8 * 2 ^ 16)
  | 1 => x.debug
  | 2 => if s.preempting t.ctx then 1 else 0
  | _ => t.attach

/-- CWR d, n. -/
def execCwr (f : Fields) (s : State) : Host.Outcome State Fault Refusal :=
  uniform (.cwr f) f s fun c t _ => s.putS c t f (s.controlWord t (f.imm.toNat % 256))

/-- The defined bits of CW_DEBUG and CW_ATTACH. -/
def debugBits : U64 := 0x7
def attachBits : U64 := 0x13FFF

/-- CWW a, n: CW_DEBUG, or CW_ATTACH, which must name a team. -/
def execCww (f : Fields) (s : State) : Host.Outcome State Fault Refusal :=
  sysForm (.cww f) f s fun c t r l =>
    let x : U64 := .ofNat 64 (t.word r f.sa l)
    let bad := c.badIf t f.sa
    if f.imm.toNat % 256 = 1 then
      let o := s.wordTeam t 1
      (s.onTeam o.uid fun o => { o with debug := x &&& debugBits }).finishSys c f bad
    else
      let t' := { t with attach := x &&& attachBits }
      if t'.attach[16] && (s.attached t').isNone then s.trapAll c t cILLOP
      else (s.setTeam t').finishSys c f bad

/-! ## Time, class and power (R328 to R330) -/

/-- RDTS d: once every earlier memory instruction of the split has placed its events. -/
def execRdts (f : Fields) (s : State) : Host.Outcome State Fault Refusal :=
  sysForm (.rdts f) f s fun c t _ _ =>
    let s := match f.dst with
      | .s n => s.onTeam c.uid fun t => { t with regs := t.regs.setS n.toNat (.ofNat 64 s.gts) false }
      | _ => s.onTeam c.uid fun t => (Mask.list (c.lanes t)).foldl (fun t l =>
          t.putLane f.dst 2 l { val := s.gts % 2 ^ 64, bad := false }) t
    let s := s.markPending c.uid f.dst 2 (GMask.list (Mask.groups (c.lanes t))) (s.time + cycles 12)
    s.finishSys c f 0

/-- The priority classes the image of a team allows: its grid's, or a trap handler's own image's; all of them for a team of
neither (DEDUCED, log 27). -/
def State.prioRange (s : State) (t : Team) : Nat × Nat :=
  let image := if t.kind = .trapHandler then (s.ctx? t.ctx).bind (·.trapImage) else (s.grid? t.grid).map (·.image)
  match image with
  | some i => (i.prioMin, i.prioMax)
  | none => (0, 7)

/-- PCLASS a. A team that enters a shed class is shed from the next cycle (20 R356). -/
def execPclass (f : Fields) (s : State) : Host.Outcome State Fault Refusal :=
  sysForm (.pclass f) f s fun c t r l =>
    if t.bad f.sa 1 l then s.consume c t
    else
      let a := t.word r f.sa l
      let (lo, hi) := s.prioRange t
      if a < lo || hi < a then s.trapAll c t cILLOP
      else
        let into := s.classShed a && a ≠ t.prio
        let t := { t with prio := a, shedAt := if into then some (s.time + cycles 1) else t.shedAt }
        let s := s.setTeam t
        let s := if into && !s.expects (· == .critcapExpiry c.uid) && !t.critOver then s.startCritcap c.uid else s
        s.finishSys c f 0

/-- PWRQ n as a team reads it. -/
def State.powerWord (s : State) (t : Team) (n : Nat) : U64 :=
  let p := s.power
  let bit (b : Bool) (k : Nat) : Nat := if b then 2 ^ k else 0
  .ofNat 64 (match n with
    | 0 => p.level + t.prio * 2 ^ 8 + bit (s.classShed t.prio) 11 + bit (t.splits.any (·.state = .shed)) 12 +
        bit ((s.quadPower (quadOf t.core)).alw < 0) 13 + p.changes * 2 ^ 32
    | 1 => p.changeGts
    | 2 => p.frame.freq + p.frame.vbus * 2 ^ 32
    | 3 => p.frame.seq + p.frame.flags * 2 ^ 16
    | _ => p.frame.gts)

/-- PWRQ d, n. -/
def execPwrq (f : Fields) (s : State) : Host.Outcome State Fault Refusal :=
  uniform (.pwrq f) f s fun c t _ => s.putS c t f (s.powerWord t (f.imm.toNat % 16))

/-! ## Accumulators of saved walks (R327) -/

/-- Bytes of a spill image. -/
def spillSize : Nat := 64 + 262144

/-- The header of a spill image. -/
def spillHeader (q : Nat) (a : Acc) : List Byte :=
  leBytes 4 a.q ++ leBytes 2 a.ctx ++ leBytes 1 a.rte ++ leBytes 1 1 ++ leBytes 2 (srcMwe q) ++ leBytes 54 0

/-- Rows and columns of a walk's tiles. -/
def State.tileSize (s : State) (q rte : Nat) : Nat × Nat :=
  match s.walkAt q rte with
  | some w => (2 ^ w.prob.tmlog, 2 ^ w.prob.tnlog)
  | none => (256, 256)

/-- What an accumulator's spill or fill comes to: a trap with its class and DETAIL, a wait, a park, or its end. -/
inductive SpillResult where
  | trap (cls level : Nat)
  | wait
  | park (va level entry : Nat)
  | done (s : State)

/-- The bytes of an aligned spill image, in the order of R127. -/
def State.spillAccess (s : State) (t : Team) (k : AKind) (b : U64) : Except XErr (List Nat) :=
  match rangeError b.toNat spillSize with
  | some cls => .error (.trap cls 0 0 0)
  | none => if b.toNat % 256 ≠ 0 then .error (.trap cAL 0 0 0) else s.translate t.ctx (t.xlat s) k b.toNat spillSize

/-- Spills tile `a` of the engine of a team's quad: the tile of a SAVED walk goes to memory with each element's poison, and is free.
Places outside the walk's tile are free bytes (DESIGN CHOICE, log 4). -/
def State.accSpill (s : State) (t : Team) (a : Nat) (b : U64) : SpillResult :=
  let q := quadOf t.core
  let x := (s.mwe q).accs.getD a {}
  let saved := (s.walkAt q x.rte).any fun w => w.state = .saved && w.seq = x.seq
  if 3 < a || x.st ≠ 2 || !saved then .trap cILLOP 0
  else match s.spillAccess t .write b with
    | .error (.trap cls _ l _) => .trap cls l
    | .error (.park va l e) => .park va l e
    | .ok pas =>
      if pas.any s.locked then .wait
      else
        let (tm, tn) := s.tileSize q x.rte
        let (rest, s) := s.freeBytes 262144
        let elem (k : Nat) : List Byte :=
          let i := k / 256; let j := k % 256
          if i < tm && j < tn then leBytes 4 (x.data.getD (i * tn + j) 0).toNat else (rest.drop (4 * k)).take 4
        let s := s.gwrite pas (spillHeader q x ++ (List.range 65536).flatMap elem) false
        let bad := x.poison.map fun k => pas.getD (64 + 4 * (k / tn * 256 + k % tn)) 0 / 16
        let s : State := { s with poison := bad.foldl NSet.add s.poison }
        .done (((s.setAcc q a {}).onMwe q fun m => { m with signal := none }).kickArray q)

/-- Fills tile `a` from a spill image: it rejoins its walk's entry as a finished tile. -/
def State.accFill (s : State) (t : Team) (a : Nat) (b : U64) : SpillResult :=
  let q := quadOf t.core
  if 3 < a || ((s.mwe q).accs.getD a {}).st ≠ 0 then .trap cILLOP 0
  else match s.spillAccess t .read b with
    | .error (.trap cls _ l _) => .trap cls l
    | .error (.park va l e) => .park va l e
    | .ok pas =>
      let (s, bytes, _) := s.readGlobal pas
      let rte := leAt bytes 6 1
      match s.walkAt q rte with
      | none => .trap cILLOP 0
      | some w =>
        if leAt bytes 8 2 ≠ srcMwe q || leAt bytes 4 2 ≠ w.ctx then .trap cILLOP 0
        else
          let (tm, tn) := s.tileSize q rte
          let at_ (k : Nat) : Nat := 64 + 4 * (k / tn * 256 + k % tn)
          let tq := leAt bytes 0 4
          let x : Acc := { st := 2, ctx := w.ctx, rte := rte, seq := w.seq, q := tq, checked := w.prob.checks tq, gts := s.gts
                           data := (List.range (tm * tn)).map fun k => BitVec.ofNat 32 (leAt bytes (at_ k) 4)
                           poison := (List.range (tm * tn)).filter fun k => (s.gread [pas.getD (at_ k) 0]).2 }
          .done ((s.setAcc q a x).kickWalk q rte)

/-- ACCSPILL and ACCFILL: an invalid entry parks one in the operand log as one lane, with its split BLOCKED until it has performed. -/
def spillForm (i : Instr) (f : Fields) (k : AKind) (act : State → Team → Nat → U64 → SpillResult) (s : State) :
    Host.Outcome State Fault Refusal :=
  sysForm i f s fun c t r l =>
    let a := t.word r f.sa l
    let b : U64 := .ofNat 64 (t.word r f.sb l)
    if t.bad f.sb 1 l then s.consume c t
    else match act s t a b with
      | .trap cls d => if cls = cILLOP then s.trapAll c t cILLOP else s.trapLowest c t cls b d
      | .wait => s.wait c .wait .retry
      | .done s => s.finishSys c f (c.badIf t f.sa)
      | .park va lv e =>
        let ws : List Parked := [{ va := va, level := lv, entry := e }]
        if c.replay.isSome then s.parkOr c t i f k [] ws
        else
          let m := c.lanes t
          let s := s.setTeam (t.flagAll f m (t.bad f.sa 1 0))
          let rec_ : LogLane := { lane := l, ea := b, data := .ofNat 128 a, cmp := 0, poison := false }
          (s.wait c .blocked .spill).parkOr c t i f k [rec_] ws

/-- ACCSPILL a, b. -/
def execAccspill (f : Fields) (s : State) : Host.Outcome State Fault Refusal := spillForm (.accspill f) f .write State.accSpill s
/-- ACCFILL a, b. -/
def execAccfill (f : Fields) (s : State) : Host.Outcome State Fault Refusal := spillForm (.accfill f) f .read State.accFill s

/-! ## Translation (R331, 08 R136, R137) -/

/-- Drops held entries from every TLB and walker cache. -/
def State.dropHeld (s : State) (p : Held → Bool) : State := { s with tlb := s.tlb.filter fun h => !p h }

/-- The held entry is a leaf that covers an address, one of the same 2 MiB page included (08 R135, R137), or lies on its page's path. -/
def Held.covers (h : Held) (va : Nat) : Bool :=
  let path := va % 2 ^ 57 / 2 ^ levelShift h.level
  h.path = path || (h.level = 3 && pteCont h.entry && h.path / 32 = path / 32)

/-- In trap mode, TLBINV names the trapped team's context alone. -/
def State.invalidate (s : State) (c : Cur) (t : Team) (f : Fields) (ctx : Option Nat) (p : Held → Bool) : State :=
  if t.mode = .trap && ctx ≠ some t.ctx then s.trapAll c t cPRIV
  else (s.dropHeld p).finishSys c f (c.badIf t f.sa)

/-- TLBINV.ALL. -/
def execTlbinvAll (f : Fields) (s : State) : Host.Outcome State Fault Refusal :=
  sysForm (.tlbinvAll f) f s fun c t _ _ => s.invalidate c t f none fun _ => true

/-- TLBINV.CTX a. -/
def execTlbinvCtx (f : Fields) (s : State) : Host.Outcome State Fault Refusal :=
  sysForm (.tlbinvCtx f) f s fun c t r l =>
    let x := t.word r f.sa l % 2 ^ 12
    s.invalidate c t f (some x) fun h => h.ctx = x

/-- TLBINV.VA a: a poisoned address is consumed. -/
def execTlbinvVa (f : Fields) (s : State) : Host.Outcome State Fault Refusal :=
  sysForm (.tlbinvVa f) f s fun c t r l =>
    let x := f.imm.toNat % 2 ^ 12
    if t.bad f.sa 1 l then s.consume c t
    else s.invalidate c t f (some x) fun h => h.ctx = x && h.covers (t.word r f.sa l)

/-! ## The rotation scan (R332, 19 R343) -/

/-- A core is being drained or scanned. -/
def State.scanBusy (s : State) : Bool := s.cores.any fun c => c.2.scan = .draining || c.2.scan = .scanning

/-- Queues a scan of a core, ahead of the rotation. -/
def State.queueScan (s : State) (core : Nat) : State :=
  let s := { s with scanQueue := s.scanQueue ++ [core] }
  if s.scanBusy then s else (s.cancel (· == .rotationScanStart)).soon .rotationScanStart

/-- SCANRUN a. -/
def execScanrun (f : Fields) (s : State) : Host.Outcome State Fault Refusal :=
  sysForm (.scanrun f) f s fun c t r l =>
    let a := t.word r f.sa l
    if 191 < a then s.trapAll c t cILLOP else (s.queueScan a).finishSys c f (c.badIf t f.sa)

/-! ## UDF (02 R32) -/

/-- UDF: traps ILLOP in every group of the split. -/
def execUdf (_raw : BitVec 87) (s : State) : Host.Outcome State Fault Refusal :=
  match s.cur with
  | none => .fault .noIssuingSplit
  | some c =>
    match s.team? c.uid with
    | none => .fault .noIssuingSplit
    | some t => .next (s.trapAll c t cILLOP)

end Sys2Proof.Machine
end

