-- ==== Sys2Proof/Machine/Image.lean ====
section
/-!
DEFINITION. Kernel images: the accesses of the queue cores and the supervisor, the header and tables, their checks and the
CRC, and the constant section (01 R5 to R16, 06 R103, R104, 13 R228, 18 R309).
-/
namespace Sys2Proof.Machine

/-! ## Accesses of the firmware complex (06 R103, 08 R147) -/

/-- Why such an access does not go on. -/
inductive Stop where
  /-- a trap class, with what its fault record names -/
  | fault (va level entry : Nat)
  | poisoned (pa : Nat)
  | park (va level entry : Nat)
  deriving DecidableEq, Repr

/-- The device addresses of an access of the firmware, recalled from the stashes that hold any (12 R210), or why it stops. -/
def State.fwAddrs (s : State) (ctx : Nat) (x : Xlat) (k : AKind) (va : U64) (n : Nat) : State × Except Stop (List Nat) :=
  let s := s.recallWalk ctx x k va.toNat n
  match s.xlatRange ctx x k va n with
  | .error (.park va l e) => (s, .error (.park va l e))
  | .error (.trap _ va l e) => (s, .error (.fault va l e))
  | .ok pas =>
    let s := s.recall pas
    let mine := pas.find? fun a => NSet.mem s.poison (a / 16)
    if mine.isSome || (k ≠ .write && (s.gread pas).2) then (s, .error (.poisoned (mine.getD (pas.headD 0)))) else (s, .ok pas)

/-- Reads bytes as the firmware: the state after any recall, and the bytes. -/
def State.fwRead (s : State) (ctx : Nat) (x : Xlat) (va : U64) (n : Nat) : State × Except Stop (List Byte) :=
  match s.fwAddrs ctx x .read va n with
  | (s, .error e) => (s, .error e)
  | (s, .ok pas) => (s.obtain pas, .ok (s.gread pas).1)

/-! ## The header (R6, R7) -/

/-- The fields of a header, without its tables. -/
def readHeader (base : U64) (b : List Byte) : Image :=
  let f := leAt b
  { base := base, hflags := f 6 2, lanes := f 8 2, clw := f 0xA 1, clh := f 0xB 1, vregs := f 0xC 2, sregs := f 0xE 2
    scratch := f 0x10 4, prioMin := f 0x14 1, prioMax := f 0x15 1, maxrun := f 0x18 4, entry := f 0x1C 4
    codeOff := f 0x20 4, codeSz := f 0x24 4, constOff := f 0x28 4, constSz := f 0x2C 4, dataOff := f 0x30 4
    dataSz := f 0x34 4, htOff := f 0x38 4, htCount := f 0x3C 2, spCount := f 0x3E 2, spOff := f 0x40 4, slOff := f 0x44 4
    slCount := f 0x48 2, imgSz := f 0x4C 4, handlers := [], safepts := [], slices := [] }

/-- MAGIC, VMINOR and VMAJOR are right. -/
def versionOk (b : List Byte) : Bool := leAt b 0 4 = 0x1A494B49 && leAt b 4 1 = 0 && leAt b 5 1 = 1

/-- The parts after the header in order: offset, size, alignment (R5). -/
def Image.parts (i : Image) : List (Nat × Nat × Nat) :=
  [(i.htOff, 8 * i.htCount, 8), (i.spOff, 8 * i.spCount, 8), (i.slOff, 8 * i.slCount, 8), (i.codeOff, i.codeSz, 64),
   (i.constOff, i.constSz, 64), (i.dataOff, i.dataSz, 64)]

/-- Order and alignment from an end offset on: the end of the last part that is not empty, or none. -/
def partsEnd (at_ : Nat) : List (Nat × Nat × Nat) → Option Nat
  | [] => some at_
  | (off, size, al) :: rest =>
    if size = 0 then (if off = 0 then partsEnd at_ rest else none)
    else if at_ ≤ off && off % al = 0 then partsEnd (off + size) rest
    else none

/-- An offset that names an instruction (R5). -/
def Image.isInstr (i : Image) (off : Nat) : Bool :=
  i.codeOff ≤ off && (off - i.codeOff) % 12 = 0 && off < i.codeOff + i.codeSz

/-- Limits, zero fields, order and alignment of the header (R5 to R7). -/
def Image.headerOk (i : Image) (b : List Byte) : Bool :=
  let reg (lo hi x : Nat) : Bool := within lo hi x && x % 8 = 0
  i.hflags ≤ 1 && (i.hflags = 1) == (i.slCount ≠ 0) && within 1 1024 i.lanes && within 1 8 i.clw && within 1 6 i.clh &&
  i.clw * i.clh ≤ 12 && reg 8 256 i.vregs && reg 8 128 i.sregs && i.scratch % 256 = 0 && i.scratch ≤ 520192 &&
  i.prioMin ≤ i.prioMax && i.prioMax ≤ 7 && leAt b 0x16 2 = 0 && i.codeSz ≠ 0 && i.codeSz % 12 = 0 && 8 ≤ i.constSz &&
  i.htCount ≤ 64 && i.spCount ≤ 256 && i.slCount ≤ 16 && leAt b 0x4A 2 = 0 && i.imgSz ≤ 2 ^ 30 && leAt b 0x54 12 = 0 &&
  partsEnd 96 i.parts = some i.imgSz && i.isInstr i.entry

/-! ## The tables (R9, R11, R12) -/

/-- Entries of a table of pairs of 32-bit words. -/
def tablePairs (b : List Byte) (off count : Nat) : List (Nat × Nat) :=
  (List.range count).map fun k => (leAt b (off + 8 * k) 4, leAt b (off + 8 * k + 4) 4)

/-- An image with its tables, from its bytes. -/
def Image.readTables (i : Image) (b : List Byte) : Image :=
  { i with handlers := tablePairs b i.htOff i.htCount, safepts := tablePairs b i.spOff i.spCount
           slices := tablePairs b i.slOff i.slCount }

/-- Slices do not overlap. -/
def slicesApart : List (Nat × Nat) → Bool
  | [] => true
  | a :: rest => rest.all (fun b => a.2 ≤ b.1 || b.2 ≤ a.1) && slicesApart rest

/-- The tables obey R5, R9, R11, R12 and R15. -/
def Image.tablesOk (i : Image) : Bool :=
  i.handlers.all (fun h => i.isInstr h.1 && h.2 ≤ 2 && (h.2 ≠ 0 || 16 ≤ i.vregs)) &&
  i.safepts.all (fun p => i.isInstr p.1 && i.isInstr p.2) &&
  i.slices.all (fun p => i.isInstr p.1 && p.1 < p.2 && p.2 ≤ i.codeOff + i.codeSz && (p.2 - i.codeOff) % 12 = 0) &&
  slicesApart i.slices

/-- End of the tables. -/
def Image.tablesEnd (i : Image) : Nat :=
  Nat.max 96 (Nat.max (i.htOff + 8 * i.htCount) (Nat.max (i.spOff + 8 * i.spCount) (i.slOff + 8 * i.slCount)))

/-! ## CRC-32 (R6) -/

/-- One byte of the reflected CRC. -/
def crc32Byte (c : BitVec 32) (b : Byte) : BitVec 32 :=
  (List.range 8).foldl (fun c _ => if c.getLsbD 0 then (c >>> 1) ^^^ 0xEDB88320 else c >>> 1) (c ^^^ b.setWidth 32)

/-- CRC-32 of bytes. -/
def crc32 (l : List Byte) : Nat := ((l.foldl crc32Byte 0xFFFFFFFF) ^^^ 0xFFFFFFFF).toNat

/-- Bytes that the CRC covers. -/
def Image.crcLen (i : Image) : Nat := if i.dataOff = 0 then i.imgSz else i.dataOff

/-- The CRC of the covered bytes, with its field taken as zero, is the one stated. -/
def crcOk (b : List Byte) : Bool := crc32 (b.take 0x50 ++ List.replicate 4 0 ++ b.drop 0x54) = leAt b 0x50 4

/-! ## Reading an image (R15, R16) -/

/-- Why an image is not accepted: a refusal code of 06 R104, or a read that stopped. -/
inductive Verdict where
  | refuse (code : Nat)
  | stop (x : Stop)
  deriving DecidableEq, Repr

/-- Reads and checks the header and tables, in the order of 06 R104 up to the CRC; `fits` is the check that follows those
of the header's fields (TEAMS, code 0x01). The bytes that the CRC covers are read as the header and tables are: a fault or a poisoned line
among them stops the reading, and an invalid entry parks it (DESIGN CHOICE, log 89). -/
def State.readImage (s : State) (ctx : Nat) (x : Xlat) (base : U64) (fits : Image → Bool) : State × Except Verdict Image :=
  match s.fwRead ctx x base 96 with
  | (s, .error e) => (s, .error (.stop e))
  | (s, .ok b) =>
    let i := readHeader base b
    if !versionOk b then (s, .error (.refuse 0x02))
    else if !i.headerOk b then (s, .error (.refuse 0x03))
    else match s.fwRead ctx x base i.tablesEnd with
      | (s, .error e) => (s, .error (.stop e))
      | (s, .ok tb) =>
        let i := i.readTables tb
        if !i.tablesOk then (s, .error (.refuse 0x03))
        else if !fits i then (s, .error (.refuse 0x01))
        else match s.fwRead ctx x base i.crcLen with
          | (s, .error e) => (s, .error (.stop e))
          | (s, .ok all) => (s, if crcOk all then .ok i else .error (.refuse 0x04))

/-- A context's deadline in cycles, none if unbounded (18 R309). -/
def Context.deadline (c : Context) : Option Nat := if c.pdl = 2 ^ 64 - 1 then none else some (c.pdl * 13 / 10)

/-- MAXRUN is above a context's deadline (R15). -/
def Image.runsLong (i : Image) (c : Context) : Bool :=
  match c.deadline with
  | none => false
  | some d => i.maxrun = 0xFFFFFFFF || d < i.maxrun

/-- Limits of a trap handler image (18 R309). -/
def Image.trapOk (i : Image) (c : Context) : Bool :=
  i.lanes = 32 && i.vregs ≤ 64 && i.sregs ≤ 32 && i.scratch = 0 && i.htCount = 0 && i.spCount = 0 && i.slCount = 0 &&
  !i.runsLong c

/-- The frames of the pages of the constant section (13 R228), or the first stop. -/
def State.constPages (s : State) (ctx : Nat) (x : Xlat) (i : Image) : Except Stop (List Nat) :=
  let first := i.constOff / 2 ^ 16
  let last := (i.constOff + i.constSz - 1) / 2 ^ 16
  (List.range (last - first + 1)).foldr (fun k acc =>
    match s.xlatRange ctx x .read (i.base + .ofNat 64 ((first + k) * 2 ^ 16)) 1 with
    | .error (.park va l e) => .error (.park va l e)
    | .error (.trap _ va l e) => .error (.fault va l e)
    | .ok pas => acc.map (pas.headD 0 :: ·)) (.ok [])

end Sys2Proof.Machine
end

