-- ==== Sys2Proof/Machine/Place.lean ====
section
/-!
DEFINITION. Placement: what a team costs, free resources, the handler reserve, windows, new teams, and the cores and
rectangles the MD chooses (07 R111 to R119, 12 R205, 19 R343, R346, 20 R369).
-/
namespace Sys2Proof.Machine

/-! ## Resources (R112) -/

/-- What a team or reserve entry costs: group slots, bytes of vector registers, bytes of scratchpad. -/
structure Need where
  groups : Nat
  bytes : Nat
  win : Nat
  deriving DecidableEq, Repr

def Image.need (i : Image) (lanes : Nat) : Need :=
  { groups := (lanes + 31) / 32, bytes := (lanes + 31) / 32 * 32 * i.vregs * 4, win := i.scratch + 4096 }

/-- RL of R118. -/
def Image.reserveLanes (i : Image) : Nat := if i.handlers.any (·.2 = 2) then i.lanes else 32

/-- Resources of a core: group slots, bytes of vector registers, bytes of scratchpad (00 R1, R112). -/
def coreSlots : Nat := 64
def coreBytes : Nat := 2 ^ 20
def coreScratch : Nat := 2 ^ 19

/-- A team that holds resources of its core: of a grid, a handler team or a supervisor team. -/
def Team.costs (t : Team) : Bool := t.kind != .kite && t.kind != .trapHandler

/-- The reserve entries of every grid on a core, with the grid. -/
def State.reservesOn (s : State) (core : Nat) : List (Grid × Reserve) :=
  s.grids.flatMap fun g => (g.2.reserves.filter (·.core = core)).map fun r => (g.2, r)

/-- The free group slots of a core, rising. -/
def State.freeSlots (s : State) (core : Nat) : List Nat :=
  let used := (s.allTeams.filter fun t => t.core = core && t.costs).flatMap (·.slots) ++
    (s.reservesOn core).flatMap (·.2.slots)
  (List.range coreSlots).filter fun k => !used.contains k

/-- Bytes of vector registers in use on a core. A team in a reserve entry uses the entry's. -/
def State.usedBytes (s : State) (core : Nat) : Nat :=
  sumList ((s.allTeams.filter fun t => t.core = core && t.costs && !t.reserve).map fun t => t.slots.length * 128 * t.vregs) +
  sumList ((s.reservesOn core).map fun p => p.2.slots.length * 128 * p.1.image.vregs)

/-- The windows of a core in use: start and size, overflow reserve included. -/
def State.usedWindows (s : State) (core : Nat) : List (Nat × Nat) :=
  ((s.allTeams.filter fun t => t.core = core && t.costs && t.window.held).map fun t =>
    (t.window.base, t.window.size + 4096)) ++
  (s.reservesOn core).map fun p => (p.2.base, p.1.image.scratch + 4096)

/-- The lowest place for a window: sizes are multiples of 256, so starts are too (12 R205). -/
def windowPlace (used : List (Nat × Nat)) (size : Nat) : Option Nat :=
  let ok (b : Nat) : Bool := b + size ≤ coreScratch && used.all fun u => b + size ≤ u.1 || u.1 + u.2 ≤ b
  ((0 :: used.map fun u => u.1 + u.2).filter ok).foldl (fun m b => match m with
    | some x => some (Nat.min x b)
    | none => some b) none

/-- The lowest free slots and a window for a need on a core, if everything is free. -/
def State.room (s : State) (core : Nat) (n : Need) : Option (List Nat × Nat) :=
  let free := s.freeSlots core
  if n.groups ≤ free.length && s.usedBytes core + n.bytes ≤ coreBytes then
    (windowPlace (s.usedWindows core) n.win).map fun b => (free.take n.groups, b)
  else none

/-- The MD may place on the core: it is neither drained, scanned nor removed (19 R343, R346). -/
def State.coreUp (s : State) (core : Nat) : Bool := (s.core core).scan = .inService

/-! ## The handler reserve (R118) -/

/-- The grid holds a reserve on the quad, or needs none. -/
def Grid.hasReserve (g : Grid) (quad : Nat) : Bool := g.image.htCount = 0 || g.reserves.any fun r => quadOf r.core = quad

/-- Takes the reserve of a grid on cores, one entry on each. -/
def State.takeEntries (id : Nat) : List Nat → State → Option State
  | [], s => some s
  | c :: rest, s =>
    match s.grid? id with
    | none => some s
    | some g =>
      match s.room c (g.image.need g.image.reserveLanes) with
      | none => none
      | some (slots, base) =>
        (s.setGrid { g with reserves := g.reserves ++ [{ core := c, slots := slots, base := base, user := none }] }).takeEntries
          id rest

/-- Takes the reserve of a grid on a quad if it has none there; a removed core has no entry (19 R346). -/
def State.takeReserve (s : State) (id quad : Nat) : Option State :=
  match s.grid? id with
  | none => some s
  | some g =>
    if g.hasReserve quad then some s
    else s.takeEntries id ((coresOf quad).filter fun c => (s.core c).scan ≠ .removed)

/-- Takes the reserve on each of a list of quads. -/
def State.takeReserves (id : Nat) : List Nat → State → Option State
  | [], s => some s
  | q :: rest, s => (s.takeReserve id q).bind (State.takeReserves id rest)

/-! ## Windows and new teams (12 R205, R112) -/

/-- Zeroes a window of `n` bytes with its reserve. -/
def State.zeroWindow (s : State) (core base n : Nat) : State :=
  let lo := scratchKey core base
  { s with scratch := Memory.clear s.scratch lo (lo + n)
           scratchPoison := s.scratchPoison.filter fun k => k < lo / 16 || (lo + n) / 16 ≤ k }

/-- Cycles of a window's zeroing. -/
def zeroCycles (n : Nat) : Nat := (n + 511) / 512

/-- Allocates a window: the next tag of the core's counter, zeroed bytes. -/
def State.newWindow (s : State) (core base scratch : Nat) : Window × State :=
  let tag := (s.core core).tagCtr + 1
  ({ base := base, size := scratch, tag := tag, held := true },
   (s.onCore core fun c => { c with tagCtr := tag }).zeroWindow core base (scratch + 4096))

/-- What distinguishes a new team. -/
structure NewTeam where
  kind : TeamKind
  team : U32
  cluster : U32
  cpos : U32
  core : Nat
  slots : List Nat
  base : Nat
  lanes : Nat
  entry : Nat
  regs : Regs
  mask : Mask
  grant : Option Grant
  reserve : Bool

/-- A new team of a grid: its window zeroed and tagged, its one initial split, its quad on its way out of an idle state. -/
def State.newTeam (s : State) (g : Grid) (n : NewTeam) : Nat × State :=
  let (uid, s) := s.fresh
  let (w, s) := s.newWindow n.core n.base g.image.scratch
  let i := g.image
  let debug := ((s.ctx? g.ctx).map (·.dbginit)).getD 0
  let split : Split := { state := .ready, pc := i.base + .ofNat 64 n.entry, age := s.gts, mask := n.mask }
  let t : Team := {
    uid := uid, kind := n.kind, grid := g.id, ctx := g.ctx, team := n.team, cluster := n.cluster, cpos := n.cpos
    core := n.core, slots := n.slots, lanes := n.lanes, vregs := i.vregs, sregs := i.sregs, argp := g.argp, image := i.base
    codeOff := i.codeOff, codeSz := i.codeSz, spCount := i.spCount, window := w, regs := n.regs, mode := .user
    prio := g.prio, crit := 0, splits := split :: List.replicate 15 {}, frontier := [], ovf := false, hold := false
    lastIssue := 0, barriers := [], cbar := .none_, debug := .ofNat 64 debug, attach := 0, traps := [], killed := 0
    serves := none, frame := 0, stashes := [], grant := n.grant, returned := false, reserve := n.reserve, started := false
    savedLanes := 0, saved := none, out := .in_, kiteOf := 0, kiteStop := 0, born := s.time, shedAt := none
    critOver := false, backstop := false, notify := none, retired := false }
  let s := (s.setTeam t).onGrid g.id fun g => { g with ran := NSet.add g.ran n.core }
  (uid, (s.later (s.time + cycles (zeroCycles (i.scratch + 4096))) (.windowZeroingDone uid)).wakeQuad (quadOf n.core))

/-- WINDOW_ZEROING_DONE: the team's first instruction may issue, unless its quad is still on its way out of an idle state
(20 R369). -/
def execWindowZeroingDone (uid : Nat) (s : State) : Host.Outcome State Fault Refusal :=
  match s.team? uid with
  | none => .next s
  | some t => .next (if (s.quadPower (quadOf t.core)).exiting then s else s.setTeam { t with started := true })

/-! ## Where the MD puts a team or cluster (R115, R117) -/

/-- Inserts by falling key, after those of the same key. -/
def insertBy {α : Type} (key : α → Nat) (x : α) : List α → List α
  | [] => [x]
  | y :: rest => if key y < key x then x :: y :: rest else y :: insertBy key x rest

/-- Sorts by falling key, stably. -/
def sortDown {α : Type} (key : α → Nat) (l : List α) : List α := l.foldl (fun acc x => insertBy key x acc) []

/-- The cores of a partition, rising. -/
def Partition.cores (p : Partition) : List Nat := (List.range 192).filter fun c => p.hasQuad (quadOf c)

/-- The w by h rectangles of cores inside one die and the partition, by rising top-left core, each in row-major order. -/
def Partition.rects (p : Partition) (w h : Nat) : List (List Nat) :=
  let at_ (tl : Nat) : List Nat := (List.range h).flatMap fun r => (List.range w).map fun c => tl + 8 * r + c
  let inside (tl : Nat) : Bool := tl % 48 / 8 + h ≤ 6 && tl % 8 + w ≤ 8
  (((List.range 192).filter inside).map at_).filter fun l => l.all fun c => p.hasQuad (quadOf c)

/-- The sets of cores that could take the grid's next team or cluster, in order of preference. -/
def State.placeOrder (s : State) (g : Grid) (p : Partition) : List (List Nat) :=
  let w := g.image.clw; let h := g.image.clh
  let all := if w * h = 1 then p.cores.map fun c => [c] else p.rects w h
  let up := all.filter fun l => l.all s.coreUp
  sortDown (fun l => l.foldl (fun m c => Nat.min m (s.freeSlots c).length) coreSlots) up

/-- Places teams of a grid on cores in row-major order, from position `k` of its cluster on. -/
def State.placeTeams (id k : Nat) : List Nat → State → Option State
  | [], s => some s
  | c :: rest, s =>
    match s.grid? id with
    | none => some s
    | some g =>
      match s.room c (g.image.need g.image.lanes) with
      | none => none
      | some (slots, base) =>
        let n := g.image.clw * g.image.clh
        let s := s.setGrid { g with placed := g.placed + 1 }
        ((s.newTeam g {
          kind := .grid, team := .ofNat 32 g.placed, cluster := .ofNat 32 (g.placed / n), cpos := .ofNat 32 k, core := c
          slots := slots, base := base, lanes := g.image.lanes, entry := g.image.entry, regs := {}
          mask := Mask.below g.image.lanes, grant := none, reserve := false }).2).placeTeams id (k + 1) rest

/-- One grant: the teams on their cores and the reserve on every quad they are first on; none if something is not free. -/
def State.grant (s : State) (id : Nat) (cores : List Nat) : Option State :=
  (s.placeTeams id 0 cores).bind (State.takeReserves id (distinct (cores.map quadOf)))

/-- The core with the most free lane slots (06 R107). -/
def State.homeCore (s : State) (p : Partition) : Option Nat :=
  (sortDown (fun c => (s.freeSlots c).length) (p.cores.filter s.coreUp)).head?

/-- Adopts a grid's pending nodes in rising number: each gets its home core, with the reserve of its quad, and its handler
index is live (06 R100, R107, R118). -/
def State.adopt (id : Nat) (p : Partition) : List (Nat × Nat × Nat) → State → Option State
  | [], s => some s
  | (n, hidx, ntmr) :: rest, s =>
    match s.homeCore p with
    | none => none
    | some home =>
      let s := s.onGrid id fun g => { g with
        nodes := NMap.insert g.nodes n { hidx := hidx, ntmr := ntmr, home := home }, pending := NMap.erase g.pending n
        live := g.live ||| ((1 : U64) <<< hidx) }
      (s.takeReserve id (quadOf home)).bind (State.adopt id p rest)

/-- The MD places nothing of a context that is being pre-empted or is out (18 R321). -/
def State.holdsBack (s : State) (ctx : Nat) : Bool :=
  match s.ctx? ctx with
  | some c => c.preempt.isSome || c.out
  | none => true

/-- The grid could never be placed, even in an idle partition (06 R104, code 0x07; 19 R346). -/
def State.neverFits (s : State) (i : Image) (p : Partition) : Bool :=
  let t := i.need i.lanes
  let r : Need := if i.htCount = 0 then { groups := 0, bytes := 0, win := 0 } else i.need i.reserveLanes
  let all := if i.clw * i.clh = 1 then p.cores.map fun c => [c] else p.rects i.clw i.clh
  coreSlots < t.groups + r.groups || coreBytes < t.bytes + r.bytes || coreScratch < t.win + r.win ||
  !all.any fun l => l.all fun c => (s.core c).scan ≠ .removed

end Sys2Proof.Machine
end

