-- ==== Sys2Proof/Machine/Launch.lean ====
section
/-!
DEFINITION. Queues: wake writes, the queue cores' packets, and the master distributor's intake and grants (06 R93 to R106,
07 R115, R116, 19 R342, R345, 23 R375, R381).
-/
namespace Sys2Proof.Machine

/-! ## Queue cores (R105) -/

/-- The queue's core runs, and the queue is not to move from it (19 R342). -/
def State.served (s : State) (q : Nat) : Bool :=
  !NSet.mem s.firmware.haltedCores (s.queueCore q) && !s.firmware.toMove.contains (s.queueCore q)

/-- A request of a function arrives: whether the PASID that it carries, if any, is the one that the function is assigned (23 R377). -/
def State.takePasid (s : State) (fn : Nat) : Bool × State :=
  match (s.fn fn).pasids with
  | [] => (true, s)
  | p :: rest => (p.all fun n => (s.fn fn).pasid = some n, s.onFn fn fun f => { f with pasids := rest })

/-- A packet is to be looked for in the ring of a queue. -/
def State.kickQueue (s : State) (q : Nat) : State :=
  if s.expects (· == .packetRead q) then s else s.soon (.packetRead q)

/-- The queue stops with a code (R104). -/
def State.stopQueue (s : State) (q code : Nat) : State :=
  s.onQueue q fun x => { x with qstate := 2, qcode := code }

/-- The 64 bytes of a queue table entry (R93), which lies at the table base plus 64 q, in memory that QUEUE_SET alone reaches
(DESIGN CHOICE, log 11). -/
def Queue.bytes (x : Queue) : List Byte :=
  leBytes 8 x.rbase.toNat ++ leBytes 1 x.rlog ++ leBytes 1 x.qstate ++ leBytes 1 x.qcode ++ leBytes 1 0 ++ leBytes 2 x.ctx ++
  leBytes 2 0 ++ leBytes 8 x.rdidx ++ leBytes 8 x.wridx ++ leBytes 8 x.doneidx ++ leBytes 24 0
def State.queueEntry (s : State) (q : Nat) : Nat × List Byte := (s.tableBase + 64 * q, (s.queue q).bytes)

/-- An access of a queue core stops: parked on an entry, or refused with a code, with no record of a fault (R103, R104). -/
def State.queueStops (s : State) (q ctx : Nat) (k : AKind) (code : Nat) : Stop → State
  | .park va l e => ((s.onQueue q fun x => { x with parked := some e }).parkRecord ctx (s.queueSrc q) k va l e).recheck e
  | .fault _ _ _ | .poisoned _ => s.stopQueue q code

/-- A packet of a queue completes: DONEIDX advances over the packets that have (R98), and one held by BARRIER may follow. -/
def State.completePacket (s : State) (q n : Nat) : State :=
  (s.onQueue q fun x =>
    let left := NSet.remove x.open_ n
    { x with open_ := left, doneidx := left.headD x.rdidx }).kickQueue q

/-- A packet other than a LAUNCH is launched: RDIDX advances, and the packet is open until it completes. -/
def State.launchPacket (s : State) (q n : Nat) : State :=
  (s.onQueue q fun x => { x with rdidx := n + 1, open_ := NSet.add x.open_ n }).kickQueue q

/-! ## Wake writes (R95, R381) -/

/-- WAKE_WRITE: an 8-byte aligned write to the notify aperture enters the wake buffer; in A3 it begins the exit. Entries
beyond 64 stand for the writes stalled on the link. -/
def execWakeWrite (fn off size : Nat) (value : U64) (s : State) : Host.Outcome State Fault Refusal :=
  let (ok, s) := s.takePasid fn
  if size ≠ 8 || off % 8 ≠ 0 || 32768 ≤ off || !s.status[0] || !ok then .next s
  else
    let (k, s) := s.fresh
    let s := { s with wakes := s.wakes ++ [(fn, off / 8, k, value)] }
    .next ((if s.power.a3 then s.wakeDevice else s).soon .wakeApply)

/-- Applies a wake (R95). -/
def State.applyWake (s : State) (fn q : Nat) (value : U64) : State :=
  let x := s.queue q
  if x.fn ≠ fn || x.qstate ≠ 1 || value.toNat ≤ x.wridx then s
  else if x.rdidx + 2 ^ x.rlog < value.toNat then s.stopQueue q 0x0A
  else (s.onQueue q fun x => { x with wridx := value.toNat, wakes := x.wakes ++ [(value.toNat, s.gts)] }).kickQueue q

/-- Entries of the wake buffer (R381). -/
def wakeMax : Nat := 64

/-- Every posted write that an access of a function, of a stamp, follows has been performed (15 R284): those stamped before it, but for
the ones that a parked write of another function is or holds. -/
def State.follows (s : State) (fn stamp : Nat) : Bool :=
  s.functions.all fun f => f.2.posted.all (fun p => stamp ≤ p.stamp) || (f.1 ≠ fn && f.2.posted.head?.any (·.entry.isSome))

/-! ## NODE, SIGNAL and WAITVAL (R100 to R102) -/

/-- NODE. -/
def State.nodePacket (s : State) (q n : Nat) (b : List Byte) : State :=
  let node := leAt b 2 1; let hidx := leAt b 3 1; let ntmr := leAt b 4 4
  if 63 < node || 63 < hidx || 1000000 < ntmr || leAt b 8 56 ≠ 0 then s.stopQueue q 0x01
  else
    let s := s.onQueue q fun x => { x with nodes := NMap.insert x.nodes node (hidx, if ntmr = 0 then 2000 else ntmr) }
    (s.launchPacket q n).completePacket q n

/-- SIGNAL: its write and the advance of RDIDX are one event (19 R342); the interrupt follows. -/
def State.signalPacket (s : State) (q n : Nat) (b : List Byte) : State :=
  let x := s.queue q
  let op := leAt b 2 1; let sfl := leAt b 3 1; let vec := leAt b 4 2
  if 1 < op || 1 < sfl || 2047 < vec || leAt b 6 2 ≠ 0 || leAt b 8 8 % 8 ≠ 0 || leAt b 0x18 40 ≠ 0 then s.stopQueue q 0x01
  else
    let k : AKind := if op = 1 then .atomic else .write
    match s.fwAddrs x.ctx (s.xlatOf x.ctx 0) k (.ofNat 64 (leAt b 8 8)) 8 with
    | (s, .error e) => s.queueStops q x.ctx k 0x08 e
    | (s, .ok pas) =>
      if pas.any s.locked then s.later (s.time + cycles 8) (.packetRead q)
      else
        let (s, old, _) := s.readGlobal pas
        let v := leAt b 0x10 8 + (if op = 1 then leNat old else 0)
        let s := ((s.gwrite pas (leBytes 8 v) false).launchPacket q n).completePacket q n
        if sfl = 1 then s.emit (.msix x.fn vec) else s

/-- The condition of a WAITVAL. -/
def WaitVal.holds (w : WaitVal) (x : Nat) : Bool :=
  let a := x &&& w.mask.toNat; let v := w.value.toNat
  match w.cond with
  | 0 => a = v
  | 1 => a ≠ v
  | 2 => v ≤ a
  | _ => a < v

/-- Evaluates a WAITVAL: it completes, or waits with its monitor armed. A fault stops the queue at the packet (R103). -/
def State.evalWait (s : State) (q : Nat) (w : WaitVal) (launch : State → State) : State :=
  let x := s.queue q
  match s.fwAddrs x.ctx (s.xlatOf x.ctx 0) .read w.addr 8 with
  | (s, .error (.park va l e)) => s.queueStops q x.ctx .read 0x08 (.park va l e)
  | (s, .error e) =>
    let s := s.onQueue q fun x => { x with rdidx := w.pidx, open_ := NSet.remove x.open_ w.pidx, waiting := none }
    s.queueStops q x.ctx .read 0x08 e
  | (s, .ok pas) =>
    let b := (s.gread pas).1
    let s := launch (s.obtain pas)
    if w.holds (leNat b) then (s.onQueue q fun x => { x with waiting := none }).completePacket q w.pidx
    else s.onQueue q fun x => { x with waiting := some { w with phys := pas.headD 0 } }

/-- WAITVAL, when it is read. -/
def State.waitPacket (s : State) (q n : Nat) (b : List Byte) : State :=
  if 3 < leAt b 2 1 || leAt b 3 5 ≠ 0 || leAt b 8 8 % 8 ≠ 0 || leAt b 0x20 32 ≠ 0 then s.stopQueue q 0x01
  else s.evalWait q { cond := leAt b 2 1, addr := .ofNat 64 (leAt b 8 8), value := .ofNat 64 (leAt b 0x10 8)
                      mask := .ofNat 64 (leAt b 0x18 8), phys := 0, pidx := n } (·.launchPacket q n)

/-- WAITVAL_REEVALUATE: after a write to the monitored line. -/
def execWaitvalReevaluate (q : Nat) (s : State) : Host.Outcome State Fault Refusal :=
  let x := s.queue q
  match x.waiting with
  | some w => if x.qstate ≠ 1 || x.parked.isSome || !s.served q then .next s else .next (s.evalWait q w id)
  | none => .next s

/-! ## LAUNCH (R99, R103, R104) -/

/-- A LAUNCH packet's own limits. -/
def launchBad (b : List Byte) : Bool :=
  7 < leAt b 2 1 || leAt b 3 1 ≠ 0 || !within 1 (2 ^ 24) (leAt b 4 4) || leAt b 8 8 % 2 ^ 16 ≠ 0 || leAt b 0x18 8 % 8 ≠ 0 ||
  leAt b 0x2C 20 ≠ 0

/-- The checks from 0x05 to 0x07, in order. -/
def State.launchCode (s : State) (x : Queue) (prio : Nat) (i : Image) : Option Nat :=
  if prio < i.prioMin || i.prioMax < prio then some 0x05
  else if (s.ctx? x.ctx).any i.runsLong then some 0x06
  else if s.neverFits i (s.partOf x.ctx) || x.nodes.any (fun n => i.htCount ≤ n.2.1) then some 0x07
  else none

/-- LAUNCH: checked by the queue core, then passed to the MD. -/
def State.launchRead (s : State) (q n : Nat) (b : List Byte) : State :=
  let x := s.queue q
  let xl := s.xlatOf x.ctx 0
  let teams := leAt b 4 4; let prio := leAt b 2 1
  if launchBad b then s.stopQueue q 0x01
  else match s.readImage x.ctx xl (.ofNat 64 (leAt b 8 8)) fun i => teams % (i.clw * i.clh) = 0 with
    | (s, .error (.stop e)) => s.queueStops q x.ctx .read 0x08 e
    | (s, .error (.refuse code)) => s.stopQueue q code
    | (s, .ok i) =>
      match s.launchCode x prio i with
      | some code => s.stopQueue q code
      | none => match s.constPages x.ctx xl i with
        | .error e => s.queueStops q x.ctx .read 0x08 e
        | .ok frames =>
          let (id, s) := s.fresh
          let timer (off d : Nat) : Nat := if leAt b off 2 = 0 then d else leAt b off 2
          let g : Grid := {
            id := id, ctx := x.ctx, part := ((s.ctx? x.ctx).map (·.part)).getD 0, queue := q, pidx := n, prio := prio
            teams := teams, image := i, argp := .ofNat 64 (leAt b 0x10 8), done := .ofNat 64 (leAt b 0x18 8)
            donev := .ofNat 64 (leAt b 0x20 8), ctmr := timer 0x28 2000, atmr := timer 0x2A 500, xlat := none
            constFrames := frames, nodes := [], live := 0, reserves := [], placed := 0, ran := [], cbars := []
            pending := x.nodes, counts := true }
          let wake := ((x.wakes.find? fun w => n < w.1).map (·.2)).getD s.gts
          let s := s.onQueue q fun x => { x with launching := true, nodes := [] }
          let l : Launch := { queue := q, wakeGts := wake, grid := g }
          { s with launches := s.launches ++ [l] }.soon .mdAccept

/-- A queue core may read the next packet of a queue. -/
def State.mayRead (s : State) (q : Nat) : Bool :=
  let x := s.queue q
  x.qstate = 1 && x.parked.isNone && x.dones.all (·.parked.isNone) && x.waiting.isNone && !x.launching &&
  x.rdidx < x.wridx && s.served q && (s.ctx? x.ctx).isSome

/-- PACKET_READ: the queue's core reads packet RDIDX and acts on it; one with BARRIER waits until every earlier packet of its
queue has completed (R96 to R98). -/
def execPacketRead (q : Nat) (s : State) : Host.Outcome State Fault Refusal :=
  if !s.mayRead q then .next s
  else
    let x := s.queue q
    let n := x.rdidx
    match s.fwRead x.ctx (s.xlatOf x.ctx 0) (x.rbase + .ofNat 64 (n % 2 ^ x.rlog * 64)) 64 with
    | (s, .error e) => .next (s.queueStops q x.ctx .read 0x08 e)
    | (s, .ok b) =>
      let type := leAt b 0 1
      if type = 0 || 4 < type || 1 < leAt b 1 1 then .next (s.stopQueue q 0x01)
      else if leAt b 1 1 = 1 && x.doneidx < n then .next s
      else match type with
        | 1 => .next (s.launchRead q n b)
        | 2 => .next (s.nodePacket q n b)
        | 3 => .next (s.signalPacket q n b)
        | _ => .next (s.waitPacket q n b)

/-! ## The MD (R106, R116) -/

/-- The launch that the MD takes before another: by class, then the wake's GTS, then queue number. -/
def Launch.before (a b : Launch) : Bool :=
  a.grid.prio < b.grid.prio || (a.grid.prio = b.grid.prio &&
    (a.wakeGts < b.wakeGts || (a.wakeGts = b.wakeGts && a.queue < b.queue)))

/-- The next scan: a queued one at once, else the rotation's after ROTGAP (19 R343). -/
def State.nextScan (s : State) : State :=
  if s.scanBusy then s
  else
    let s := s.cancel (· == .rotationScanStart)
    if s.scanQueue.isEmpty then s.later (s.time + us s.rotgap) .rotationScanStart else s.soon .rotationScanStart

/-- Aborts scans of a partition's cores for a LAUNCH of class 0 or 1 (19 R345): the cores are back in service at once, which
is within the 5 µs allowed (DESIGN CHOICE, log 3). -/
def State.abortScans (s : State) (p : Partition) : State :=
  let on := s.cores.filter fun c => c.2.scan = .scanning && p.hasQuad (quadOf c.1)
  on.foldl (fun s c =>
    let s := (s.onCore c.1 fun x => { x with scan := .inService }).cancel fun i => match i with
      | .scanComplete k _ => k = c.1
      | _ => false
    (s.offer c.1).nextScan) s

/-- MD_ACCEPT: the MD takes the launch that comes first into its partition's placement line. -/
def execMdAccept (s : State) : Host.Outcome State Fault Refusal :=
  match s.launches.foldl (fun b l => match b with
      | some x => if Launch.before l x then some l else b
      | none => some l) none with
  | none => .next s
  | some l =>
    let g := l.grid
    let s := { s with launches := s.launches.filter fun x => x.grid.id ≠ g.id }
    let s := (s.setGrid g).onPart g.part fun p => { p with line := p.line ++ [g.id] }
    let s := if g.prio ≤ 1 then s.abortScans (s.part g.part) else s
    let s := if s.launches.isEmpty then s else s.soon .mdAccept
    .next (s.kickLine g.part)

/-- A queue that faults launches nothing (R94): its LAUNCH that has placed no team is taken back from the MD, and its nodes with it. -/
def State.withdraw (s : State) (q : Nat) : State :=
  let mine (g : Grid) : Bool := g.queue = q && g.counts && g.placed = 0
  let back := (s.launches.map (·.grid)).filter mine ++ (s.grids.map (·.2)).filter mine
  let gone := back.map (·.id)
  let s : State := { s with
    launches := s.launches.filter fun l => !mine l.grid
    grids := s.grids.filter fun g => !mine g.2
    partitions := s.partitions.map fun p => (p.1, { p.2 with line := p.2.line.filter fun g => !gone.contains g }) }
  back.foldl (fun s g =>
    let nodes := g.pending.foldl (fun (m : NMap (Nat × Nat)) n => NMap.insert m n.1 n.2)
    (s.onQueue q fun x => { x with launching := false, nodes := nodes x.nodes }).kickLine g.part) s

/-- The LAUNCH of a grid has placed its first team: RDIDX passes it (R98), also if its queue has stopped since it went to the MD; in an entry
that QUEUE_SET has rewritten meanwhile it counts nothing (DESIGN CHOICE, log 101). -/
def State.launched (s : State) (g : Grid) : State :=
  if !g.counts then s
  else
    let s := s.onQueue g.queue fun x => { x with launching := false, wakes := x.wakes.filter fun w => g.pidx + 1 < w.1 }
    s.launchPacket g.queue g.pidx

/-! ## Restoring saved teams (18 R325) -/

/-- Slots and window for a saved team on a core: its kept window, or a new one. -/
def State.restoreRoom (s : State) (g : Grid) (t : Team) (core : Nat) : Option (List Nat × Option Nat) :=
  let n := g.image.need t.lanes
  if t.window.held then (s.room core { n with win := 0 }).map fun r => (r.1, none)
  else (s.room core n).map fun r => (r.1, some r.2)

/-- Places a saved team on a core with its restore split. -/
def State.restoreOn (s : State) (t : Team) (v : Saved) (g : Grid) (core : Nat) (slots : List Nat) (base : Option Nat)
    (reserve : Bool) : State :=
  let (w, s) := match base with
    | some b => s.newWindow core b g.image.scratch
    | none => (t.window, s)
  let block := ((s.ctx? t.ctx).map fun x => x.ppool + .ofNat 64 (v.block * x.pbsz)).getD 0
  let pc := t.image + .ofNat 64 (g.image.safepts.getD v.entry (0, 0)).2
  let regs : Regs := { ({} : Regs).setS (t.sregs - 1) block false with origlane := v.origlane }
  let split : Split := { state := .ready, pc := pc, age := s.gts, mask := t.savedLanes }
  let s := s.setTeam { t with
    core := core, slots := slots, window := w, regs := regs, mode := .restore, out := .restoring, reserve := reserve
    started := false, splits := split :: List.replicate 15 {}, frontier := [] }
  let s := s.onGrid g.id fun g => { g with ran := NSet.add g.ran core }
  let s := if reserve then s.onGrid g.id fun g =>
      { g with reserves := (g.reserves.map fun r => if r.core = core && r.user.isNone then { r with user := some t.uid } else r) }
    else s
  (s.later (s.time + cycles (if base.isSome then zeroCycles (g.image.scratch + 4096) else 0)) (.windowZeroingDone t.uid)).wakeQuad
    (quadOf core)

/-- The core at which a team of a cluster is, or at which its window is: others of the cluster go where they stand to it (07 R117). -/
def Team.anchored (t : Team) : Bool := !t.slots.isEmpty || t.window.held

/-- The rectangles to which a saved team of a cluster may come back (07 R111, R117): the teams of the cluster that are placed, or have kept
their windows, stand in it where they are, and those that are to come back fit; best first. -/
def State.restoreRects (s : State) (t : Team) (g : Grid) : List (List Nat) :=
  let all := s.clusterOf t
  let at_ (l : List Nat) (x : Team) : Nat := l.getD x.cpos.toNat 0
  let fits (l : List Nat) : Bool := all.all fun x =>
    (!x.anchored || at_ l x = x.core) && (x.out ≠ .saved || !x.slots.isEmpty || x.retired ||
      (s.coreUp (at_ l x) && (s.restoreRoom g x (at_ l x)).isSome))
  sortDown (fun l => l.foldl (fun m c => Nat.min m (s.freeSlots c).length) coreSlots)
    (((s.part g.part).rects g.image.clw g.image.clh).filter fits)

/-- The cores a saved team may go to, best first: that of a window it has kept; a core of its walk's quad for an upcall's
handler; its own for another handler; the order of R117 else. -/
def State.restoreCores (s : State) (t : Team) (g : Grid) : List Nat :=
  let all := match t.kind, t.grant with
    | .grid, _ =>
      if 1 < g.image.clw * g.image.clh then (s.restoreRects t g).map fun (l : List Nat) => l.getD t.cpos.toNat 0
      else if t.window.held then [t.core]
      else sortDown (fun c => (s.freeSlots c).length) (s.part g.part).cores
    | .upcall, some x => if t.window.held then [t.core] else coresOf x.quad
    | _, _ => [t.core]
  all.filter s.coreUp

/-- Places a saved team, if it fits: a handler on its grid's reserve first. -/
def State.restoreTeam (s : State) (t : Team) : Option State :=
  match s.grid? t.grid, t.saved with
  | some g, some v =>
    let onEntry (c : Nat) : Option State :=
      if t.kind = .grid || t.window.held then none
      else (g.reserves.find? fun r => r.core = c && r.user.isNone).map fun r =>
        s.restoreOn t v g c (r.slots.take t.groupCount) (some r.base) true
    let onFree (c : Nat) : Option State :=
      (s.restoreRoom g t c).bind fun r => (s.restoreOn t v g c r.1 r.2 false).takeReserve g.id (quadOf c)
    let cores := s.restoreCores t g
    (cores.findSome? onEntry).or (cores.findSome? onFree)
  | _, _ => none

/-- The saved team that comes back next in a partition: by grid, in increasing `$team`. -/
def State.nextRestore (s : State) (part : Nat) : Option Team :=
  (s.allTeams.filter fun t => s.awaitsPlace t part).foldl (fun b t => match b with
    | some x => if t.grid < x.grid || (t.grid = x.grid && t.team.toNat < x.team.toNat) then some t else b
    | none => some t) none

/-! ## Grants (R116) -/

/-- One grant to the grid at the head of a partition's line, if its next team or cluster fits with what else the grant must
take. A queue whose DONE write is parked launches nothing until the wake (06 R103, 23 R375). At its first the grid's heap triple and root are read (08 R129), and its nodes adopted. -/
def State.grantHead (s : State) (part : Nat) : State :=
  let p := s.part part
  match p.line with
  | [] => s
  | id :: rest =>
    match s.grid? id with
    | none => (s.setPart part { p with line := rest }).kickLine part
    | some g =>
      let first := g.placed = 0
      if s.holdsBack g.ctx || (first && g.counts && (s.queue g.queue).dones.any (·.parked.isSome)) then s
      else
        let s0 := if first then s.onGrid id fun g => { g with xlat := (s.ctx? g.ctx).map (·.xlat) } else s
        match State.adopt id p g.pending s0 with
        | none => s
        | some s0 =>
          match (s0.placeOrder g p).findSome? (s0.grant id) with
          | none => s
          | some s' =>
            let s' := if first then s'.launched g else s'
            let full := ((s'.grid? id).map fun g => decide (g.teams ≤ g.placed)).getD true
            let s' := if full then s'.onPart part fun p => { p with line := rest } else s'
            if (s'.part part).line.isEmpty then s' else s'.kickLine part

/-! ## Teams of the supervisor (18 R327) -/

/-- An engine has signalled that an accumulator is to be spilled: the supervisor runs a team of its own kernel in supervisor mode on the
lowest core of the quad that has room, one at a time. The kernel is its own: its context, address and argument are free values, and one
that R15 would refuse does not run (DESIGN CHOICE, log 64). -/
def State.runSupervisor (s : State) (q : Nat) : State :=
  let (ctx, base, argp) := Config.supervisorKernel q
  if (s.mwe q).signal.isNone || s.allTeams.any (fun t => t.kind == .supervisor && quadOf t.core = q) then s
  else match s.ctx? ctx with
    | none => s
    | some c =>
      match s.readImage ctx c.xlat base fun _ => true with
      | (s, .error _) => s
      | (s, .ok i) =>
        match ((coresOf q).filter s.coreUp).findSome? fun k => (s.room k (i.need i.lanes)).map fun r => (k, r) with
        | none => s
        | some (core, slots, b) =>
          let g : Grid := {
            id := 0, ctx := ctx, part := 0, queue := 0, pidx := 0, prio := i.prioMin, teams := 1, image := i, argp := argp, done := 0
            donev := 0, ctmr := 0, atmr := 0, xlat := none, constFrames := [], nodes := [], live := 0, reserves := [], placed := 1
            ran := [], cbars := [], pending := [], counts := false }
          let (uid, s) := s.newTeam g {
            kind := .supervisor, team := 0, cluster := 0, cpos := 0, core := core, slots := slots, base := b, lanes := i.lanes
            entry := i.entry, regs := {}, mask := Mask.below i.lanes, grant := none, reserve := false }
          s.onTeam uid fun t => { t with mode := .supervisor }

/-- PLACEMENT_GRANT: a team of the supervisor for each quad whose engine asks for one; nothing else in a partition that does not run (07
R114); a saved team that is to come back goes before the line, which waits behind it (DEDUCED, log 28); else one grant to the line's
head. -/
def execPlacementGrant (part : Nat) (s : State) : Host.Outcome State Fault Refusal :=
  let s := ((List.range 48).filter fun q => (s.part part).hasQuad q).foldl State.runSupervisor s
  if (s.part part).pstate ≠ 1 then .next s
  else match s.nextRestore part with
    | some t => match s.restoreTeam t with
      | some s => .next (s.kickLine part)
      | none => .next s
    | none => .next (s.grantHead part)

/-! ## DONE (23 R375) -/

/-- DONE_WRITE: the queue core writes DONEV and DONEIDX advances; a fault or a poisoned line stops the queue with code 0x09,
and DONEIDX advances all the same. -/
def execDoneWrite (q pidx : Nat) (s : State) : Host.Outcome State Fault Refusal :=
  match (s.queue q).dones.find? (·.pidx = pidx) with
  | none => .next s
  | some d =>
    if !s.served q then .next s
    else
      let set (f : List Done → List Done) (s : State) : State := s.onQueue q fun x => { x with dones := f x.dones }
      let end_ (s : State) : State :=
        let s := set (·.erase d) s
        let s := if d.counts then s.completePacket q pidx else s.kickQueue q
        (List.range 16).foldl (fun s p => if (s.part p).line.isEmpty then s else s.kickLine p) s
      let halt (s : State) : State := if (s.queue q).qstate = 1 then s.stopQueue q 0x09 else s
      if d.addr = 0 then .next (end_ s)
      else match s.fwAddrs d.ctx (s.xlatOf d.ctx 0) .write d.addr 8 with
        | (s, .error (.park va l e)) =>
          .next (((set (·.map fun x => if x = d then { x with parked := some e } else x) s).parkRecord d.ctx (s.queueSrc q)
            .write va l e).recheck e)
        | (s, .error (.fault va l e)) => .next (end_ (halt (s.faultRec d.ctx (s.queueSrc q) .write va l e)))
        | (s, .error (.poisoned pa)) => .next (end_ (halt (s.errorRecord (pa / 16 * 16) (s.queueSrc q) (some d.ctx) 0x05 1)))
        | (s, .ok pas) =>
          if pas.any s.locked then .next (s.later (s.time + cycles 8) (.doneWrite q pidx))
          else .next (end_ (s.gwrite pas (leBytes 8 d.value.toNat) false))

end Sys2Proof.Machine
end

