-- ==== Sys2Proof/Machine/Records.lean ====
section
/-!
DEFINITION. The record gatherers: records, batches, and the handler teams they launch (06 R107 to R110, 07 R119, 05 R83,
14 R256, 16 R300).
-/
namespace Sys2Proof.Machine

/-- Records of a batch. -/
def batchMax : Nat := 32

/-- The gather timer of a record's entry point, in ns (R108). -/
def Grid.timer (g : Grid) (r : Record) : Nat :=
  match r.origin with
  | 1 => g.ctmr
  | 2 => g.atmr
  | 4 => ((NMap.find? g.nodes (r.ospec.toNat % 2 ^ 8)).map (·.ntmr)).getD 2000
  | _ => 0

/-- A core's batches, the closed ones first, in the order they closed: batch `id` closes. -/
def closeBatch (l : List Batch) (id : Nat) : List Batch :=
  let b := (l.filter (·.id = id)).map fun b => { b with closed := true }
  l.filter (fun x => x.closed && x.id ≠ id) ++ b ++ l.filter fun x => !x.closed && x.id ≠ id

/-- The closed batches of a core are to be tried, in the order in which they closed; those of contexts for which the MD places nothing
stand aside. -/
def State.kickBatches (s : State) (core : Nat) : State :=
  (s.core core).batches.foldl (fun s b =>
    if b.closed && (s.grid? b.grid).any (fun g => !s.holdsBack g.ctx) && !s.expects (· == .batchLaunch core b.id)
    then s.soon (.batchLaunch core b.id) else s) s

/-- Closes a batch. -/
def State.close (s : State) (core id : Nat) : State :=
  ((s.onCore core fun c => { c with batches := closeBatch c.batches id }).cancel (· == .batchTimerExpiry core id)).kickBatches
    core

/-- RECORD_ARRIVAL: the oldest record in flight joins the open batch of its entry point, or opens one. -/
def execRecordArrival (core : Nat) (s : State) : Host.Outcome State Fault Refusal :=
  match (s.core core).inflight with
  | [] => .next s
  | r :: rest =>
    let s := s.onCore core fun c => { c with inflight := rest }
    match s.grid? r.grid with
    | none => .next s
    | some g =>
      let mine (b : Batch) : Bool := !b.closed && b.grid = r.grid && b.origin = r.origin && b.hidx = r.hidx
      match (s.core core).batches.find? mine with
      | some b =>
        let add (x : Batch) : Batch := if x.id = b.id then { x with records := x.records ++ [r] } else x
        let s := s.onCore core fun c => { c with batches := c.batches.map add }
        .next (if batchMax ≤ b.records.length + 1 then s.close core b.id else s)
      | none =>
        let (id, s) := s.fresh
        let due := s.time + ns (g.timer r)
        let b : Batch := { id := id, grid := r.grid, origin := r.origin, hidx := r.hidx, records := [r], due := due,
                           closed := false }
        let s := s.onCore core fun c => { c with batches := c.batches ++ [b] }
        .next (if r.origin = 3 then s.close core id else s.later due (.batchTimerExpiry core id))

/-- BATCH_TIMER_EXPIRY: the batch closes. -/
def execBatchTimerExpiry (core batch : Nat) (s : State) : Host.Outcome State Fault Refusal :=
  match (s.core core).batches.find? fun b => b.id = batch && !b.closed with
  | some b => .next (if b.due ≤ s.time then s.close core batch else s)
  | none => .next s

/-! ## Handler teams (R109) -/

/-- The sixteen words of a record with their poison, its header first (R107). -/
def Record.words (r : Record) : List (U32 × Bool) :=
  [(.ofNat 32 (r.origin + r.hidx * 2 ^ 8 + r.src * 2 ^ 16), false), (r.ospec, false)] ++ r.payload.zip r.poison

/-- LPR 0: lane L takes record L in v0 to v15. -/
def laneRegs (rs : List Record) : Regs :=
  rs.zipIdx.foldl (fun q p => p.1.words.zipIdx.foldl (fun q w => q.setV p.2 w.2 w.1.1 w.1.2) q) {}

/-- LPR 1 and 2: the record in s0 to s7. -/
def scalarRegs (r : Record) : Regs :=
  (List.range 8).foldl (fun q k =>
    let lo := r.words.getD (2 * k) (0, false); let hi := r.words.getD (2 * k + 1) (0, false)
    q.setS k (hi.1 ++ lo.1) (lo.2 || hi.2)) {}

/-- The free reserve entry of a grid on a core (07 R119). -/
def Grid.freeEntry (g : Grid) (core : Nat) : Option Reserve := g.reserves.find? fun r => r.core = core && r.user.isNone

/-- The entry of a grid on a core is in use by a team. -/
def Grid.useEntry (g : Grid) (core uid : Nat) : Grid :=
  let rec go : List Reserve → List Reserve
    | [] => []
    | r :: rest => if r.core = core && r.user.isNone then { r with user := some uid } :: rest else r :: go rest
  { g with reserves := go g.reserves }

/-- Launches a handler team of `lanes` lanes for records of a grid on a core: on the core's free reserve entry, else on
ordinary free resources, with the quad's reserve if the grid has none there (R118, R119); none if nothing is free. -/
def State.launchHandler (s : State) (g : Grid) (core : Nat) (r : Record) (lanes : Nat) (mask : Mask) (regs : Regs) :
    Option State :=
  let n := g.image.need lanes
  let entry := (g.image.handlers.getD r.hidx (0, 0)).1
  let grant := r.upcall.map fun u => s.grantOf u.1 u.2.1 u.2.2
  let team (slots : List Nat) (base : Nat) (reserve : Bool) : NewTeam :=
    { kind := if r.upcall.isSome then .upcall else .record, team := 0xFFFFFFFF, cluster := 0xFFFFFFFF, cpos := 0
      core := core, slots := slots, base := base, lanes := lanes, entry := entry, regs := regs, mask := mask
      grant := grant, reserve := reserve }
  match g.freeEntry core with
  | some e =>
    let (uid, s) := s.newTeam g (team (e.slots.take n.groups) e.base true)
    some (s.onGrid g.id fun g => g.useEntry core uid)
  | none => match s.room core n with
    | none => none
    | some (slots, base) => ((s.newTeam g (team slots base false)).2).takeReserve g.id (quadOf core)

/-- An earlier closed batch of the same grid waits on the core: what may serve both serves it first (R119). -/
def State.behind (s : State) (core : Nat) (b : Batch) : Bool :=
  ((s.core core).batches.takeWhile fun x => x.id ≠ b.id).any fun x => x.closed && x.grid = b.grid

/-- BATCH_LAUNCH: a closed batch launches as its handler's LPR says, as one group or record by record, if an entry of its grid or room
is free. One that finds neither holds up its grid's later batches alone (R121). -/
def execBatchLaunch (core batch : Nat) (s : State) : Host.Outcome State Fault Refusal :=
  match (s.core core).batches.find? fun b => b.closed && b.id = batch with
  | none => .next s
  | some b =>
    match s.grid? b.grid, b.records with
    | some g, r :: rest =>
      if s.holdsBack g.ctx || s.behind core b || !s.coreUp core || (s.part g.part).pstate ≠ 1 then .next s
      else
        let lpr := (g.image.handlers.getD b.hidx (0, 1)).2
        let lanes := if lpr = 2 then g.image.lanes else 32
        let result := if lpr = 0 then s.launchHandler g core r 32 (Mask.below b.records.length) (laneRegs b.records)
          else s.launchHandler g core r lanes (Mask.below lanes) (scalarRegs r)
        match result with
        | none => .next s
        | some s =>
          let left := if lpr = 0 then [] else rest
          let batches (l : List Batch) : List Batch :=
            if left.isEmpty then l.filter (·.id ≠ batch)
            else l.map fun x => if x.id = batch then { x with records := left } else x
          .next ((s.onCore core fun c => { c with batches := batches c.batches }).kickBatches core)
    | _, _ => .next ((s.onCore core fun c => { c with batches := c.batches.filter (·.id ≠ batch) }).kickBatches core)

end Sys2Proof.Machine
end

