-- ==== Sys2Proof/Machine/Supervisor.lean ====
section
/-!
DEFINITION. The supervisor interface (23 R383, R384): the command ring and every command; ending a context's work
(23 R382, 19 R347); pre-emption and restore as the supervisor runs them (18 R321 to R326); firmware images (23 R386).
-/
namespace Sys2Proof.Machine

/-! ## The command ring (R383) -/

/-- The 64 bytes of command slot `n mod 64` of a function. -/
def Function.slot (f : Function) (n : Nat) : List Byte := Memory.readN f.slots (64 * (n % 64)) 64

/-- Names of the commands, as their events (R384). -/
def commandEvent (fn : Nat) (b : List Byte) : Option Instr :=
  match leAt b 0 2 with
  | 0x01 => some (.partSet fn)
  | 0x02 => some (.partClear fn)
  | 0x03 => some (.partReset fn)
  | 0x04 => some (.partRun fn)
  | 0x05 => some (.funcParts fn)
  | 0x10 => some (.ctxSet fn)
  | 0x11 => some (.ctxDestroy fn)
  | 0x12 => some (.ctxPreempt fn)
  | 0x13 => some (.ctxRestore fn)
  | 0x14 => some (if leAt b 0xA 1 = 1 then .ctxReplayGrant fn else .ctxReplayRevoke fn)
  | 0x20 => some (if leAt b 0xB 1 = 1 then .queueSetRestart fn else .queueSet fn)
  | 0x21 => some (.queueAssign fn)
  | 0x30 => some (.aperture fn)
  | 0x40 => some (.fwLoad fn)
  | 0x41 => some (.svnRaise fn)
  | 0x50 => some (.railSet fn)
  | 0x51 => some (.scanGap fn)
  | 0x52 => some (.scanNow fn)
  | _ => none

/-- The ARGS bytes that a command names, arguments and results, by OP: offset and size (R384). -/
def opArgs (op : Nat) : List (Nat × Nat) :=
  match op with
  | 0x01 => [(0, 1), (8, 48)]
  | 0x02 | 0x03 | 0x04 | 0x52 => [(0, 1)]
  | 0x05 => [(0, 2), (8, 2)]
  | 0x10 | 0x14 => [(0, 3)]
  | 0x11 | 0x13 => [(0, 2)]
  | 0x12 => [(0, 2), (8, 12)]
  | 0x20 => [(0, 6), (8, 9)]
  | 0x21 | 0x30 | 0x51 => [(0, 4)]
  | 0x40 => [(0, 2), (8, 16)]
  | 0x41 | 0x50 => [(0, 1), (2, 2)]
  | _ => []

/-- The ARGS byte is one that the command names. -/
def namedByte (named : List (Nat × Nat)) (k : Nat) : Bool := named.any fun r => r.1 ≤ k && k < r.1 + r.2

/-- Ends the command that the supervisor has taken: STATUS, REASON and results, then SCHEAD and the vector. -/
def State.endCommand (s : State) (fn status reason : Nat) (results : List (Nat × List Byte)) : State :=
  let f := s.fn fn
  let at_ := 64 * (f.schead % 64)
  let vec := leAt f.taken 4 2
  let slots := Memory.writeN f.slots (at_ + 2) [.ofNat 8 status, .ofNat 8 reason]
  let slots := results.foldl (fun m r => Memory.writeN m (at_ + 8 + r.1) r.2) slots
  let s := s.setFn fn { f with slots := slots, schead := f.schead + 1, busy := false }
  if vec ≤ 2047 then s.emit (.msix fn vec) else s

/-- The command events that the supervisor is about to carry out. -/
def isCommand : Instr → Bool
  | .partSet _ | .partClear _ | .partReset _ | .partRun _ | .funcParts _ | .ctxSet _ | .ctxDestroy _ | .ctxRestore _
  | .ctxReplayGrant _ | .ctxReplayRevoke _ | .queueSet _ | .queueSetRestart _ | .queueAssign _ | .aperture _ | .fwLoad _
  | .svnRaise _ | .railSet _ | .scanGap _ | .scanNow _ | .ctxPreempt _ => true
  | _ => false

/-- The supervisor takes up the next function's command, round-robin in ascending function number, one at a time, and reads its slot, so
that a later write of it changes nothing; a command of unknown OP is refused at once. -/
def State.serve : Nat → State → State
  | 0, s => s
  | n + 1, s =>
    if s.expects isCommand || !s.status[0] then s
    else
      let order := (List.range 64).map fun k => (s.nextFn + k) % 64
      match order.find? fun k => (s.fn k).schead < (s.fn k).sctail && !(s.fn k).busy with
      | none => s
      | some fn =>
        let b := (s.fn fn).slot (s.fn fn).schead
        let s := { s with nextFn := (fn + 1) % 64 }.onFn fn fun f => { f with taken := b }
        match commandEvent fn b with
        | some i => (s.onFn fn fun f => { f with busy := true }).soon i
        | none => (s.endCommand fn 2 0x01 []).serve n

/-- A write of SCTAIL. -/
def State.submit (s : State) (fn value : Nat) : State :=
  let f := s.fn fn
  if value ≤ f.sctail || f.schead + 64 < value then s else (s.setFn fn { f with sctail := value }).serve 64

/-- What a command comes to. -/
inductive Result where
  | done (s : State) (results : List (Nat × List Byte) := [])
  | refused (reason : Nat)
  | denied
  /-- it goes on; it completes later -/
  | pending (s : State)

/-- The ARGS bytes outside the named ranges are zero, and so are the slot's. -/
def argsZero (b : List Byte) (named : List (Nat × Nat)) : Bool :=
  leAt b 6 2 = 0 && (List.range 56).all fun k =>
    leAt b (8 + k) 1 = 0 || namedByte named k

/-- VEC is a vector or none. -/
def vecOk (b : List Byte) : Bool := leAt b 4 2 ≤ 2047 || leAt b 4 2 = 0xFFFF

/-- Carries out a command of a function that the supervisor has taken up: zero fields, the PF mark, limits, then its own
rules (DEDUCED, log 29). `body` has the ARGS. -/
def command (fn : Nat) (named : List (Nat × Nat)) (pf : Bool) (limits : List Byte → Bool) (body : List Byte → Result)
    (s : State) : Host.Outcome State Fault Refusal :=
  let f := s.fn fn
  if !f.busy then .next (s.serve 64)
  else
    let b := f.taken
    let args := b.drop 8
    let r : Result := if !argsZero b named then .refused 0x01
      else if pf && fn ≠ 0 then .denied
      else if !vecOk b || !limits args then .refused 0x02
      else body args
    .next (State.serve 64 (match r with
      | .done s results => s.endCommand fn 1 0 results
      | .refused reason => s.endCommand fn 2 reason []
      | .denied => s.endCommand fn 3 0 []
      | .pending s => s))

/-- The context that a command names, if the function may act on it. -/
def State.named (s : State) (fn tag : Nat) (body : Context → Result) : Result :=
  match s.ctx? tag with
  | some c => if fn = 0 || c.owner = fn then body c else .denied
  | none => if fn = 0 then .refused 0x03 else .denied

/-! ## Ending a context's work (R382, 19 R347) -/

/-- Drops the grids of a context with their records, wherever they wait; they write no DONE and no completion entry. What their
places in the lines and their reserves held up is offered what they leave (07 R116, R119). -/
def State.dropGrids (s : State) (ctx : Nat) : State :=
  let dead := s.grids.filter (·.2.ctx = ctx)
  let gone := dead.map (·.1)
  let s : State := { s with
    grids := s.grids.filter (·.2.ctx ≠ ctx)
    launches := s.launches.filter (·.grid.ctx ≠ ctx)
    partitions := s.partitions.map fun p => (p.1, { p.2 with line := p.2.line.filter fun g => !gone.contains g })
    cores := s.cores.map fun c => (c.1, { c.2 with
      inflight := c.2.inflight.filter fun r => !gone.contains r.grid
      batches := c.2.batches.filter fun b => !gone.contains b.grid }) }
  dead.foldl (fun s g => g.2.reserves.foldl (fun s r => s.offer r.core) (s.kickLine g.2.part)) s

/-- Ends the walks of a context: FAULTED with cause 0x08. -/
def State.endWalks (s : State) (ctx : Nat) : State :=
  s.mwes.foldl (fun s m => (m.2.walks.filter (·.2.ctx = ctx)).foldl (fun s w =>
    (s.faultWalk m.1 w.1 0x08).endWalk m.1 w.1 fFAULTED 0x08) s) s

/-- Ends the copies of a context: FAULTED with DETAIL 0. -/
def State.endCopies (s : State) (ctx : Nat) : State :=
  s.cores.foldl (fun s c => (c.2.copies.filter (·.ctx = ctx)).foldl (fun s k => s.stopCopy c.1 k.seq fFAULTED 0) s) s

/-- Kills every team of a context whole, CLASS 0x00, and drops its handlers, kites and saved teams. -/
def State.endTeams (s : State) (ctx : Nat) : State :=
  let mine := s.allTeams.filter (·.ctx = ctx)
  let s := { s with teams := s.teams.filter fun p => !(p.2.ctx = ctx && !p.2.costs) }
  let s := mine.foldl (fun s t => if t.costs then s.killTeam t.uid 0 else s) s
  let left := s.allTeams.filter (·.ctx = ctx)
  let end_ (s : State) (t : Team) : State := if s.jobKeeps t then s else ((s.stashesBack t).dropTeam t.uid).offer t.core
  left.foldl end_ s

/-- Gives every queue of a context a state. A queue that is rewritten or restarted later finds nothing of it waiting. -/
def State.endQueues (s : State) (ctx st : Nat) : State :=
  { s with queues := s.queues.map fun q => if q.2.ctx = ctx && q.2.rlog ≠ 0 then
      (q.1, { q.2 with qstate := st, waiting := none, parked := none, launching := false
                       dones := q.2.dones.filter (·.ctx ≠ ctx) }) else q }

/-- The addresses of bytes of a request in a function's migration ring, which lies in its aperture context (DEDUCED, log 30). -/
def State.migBytes (s : State) (fn off n : Nat) (k : AKind) : Option (Nat × Except XErr (List Nat)) :=
  let f := s.fn fn
  f.apctx.map fun c => (c, s.xlatRange c (s.xlatOf c 0) k (f.migbase + .ofNat 64 (f.mighead.toNat % 64 * 32 + off)) n)

/-- A migration request ends: STATUS, if it can be written, and MIGHEAD (12 R217). -/
def State.endMigration (s : State) (fn status : Nat) : State :=
  let s := match s.migBytes fn 0xB 1 .write with
    | some (_, .ok pas) => s.gwrite pas [.ofNat 8 status] false
    | some (c, .error (.park va l e)) | some (c, .error (.trap _ va l e)) => s.faultRec c srcSupervisor .write va l e
    | none => s
  let s := s.onFn fn fun f => { f with migrating := none, mighead := f.mighead + 1 }
  if (s.fn fn).mighead < (s.fn fn).migtail then s.soon (.migrationRequest fn) else s

/-- A migration of a page of a context that ends stops, refused. -/
def State.endMigrations (s : State) (ctx : Nat) : State :=
  s.functions.foldl (fun s f => match f.2.migrating with
    | some m => if m.ctx = ctx then { s with locks := s.locks.filter fun l => l.1 ≠ m.old }.endMigration f.1 2 else s
    | none => s) s

/-- Ends everything that a context has under way. -/
def State.endWork (s : State) (ctx queueState : Nat) : State :=
  let s := s.dropGrids ctx
  let s := s.endQueues ctx queueState
  let s := s.endTeams ctx
  let s := s.endWalks ctx
  let s := s.endCopies ctx
  let s := s.endTeams ctx
  let s := s.endMigrations ctx
  let s := { s with armed := s.armed.filter fun a => a.1 ≠ ctx }
  match (s.ctx? ctx).bind (·.preempt) with
  | some (_, fn) => s.kickPreempt fn
  | none => s

/-- Ends a context (R382): its work, its translations, its replay grant, its apertures; its tag is free. -/
def State.destroyCtx (s : State) (ctx : Nat) : State :=
  let s := s.endWork ctx 0
  let s := s.dropHeld fun h => h.ctx = ctx
  let s := if s.power.replay = some ctx then s.endReplayGrant else s
  { s with contexts := NMap.erase s.contexts ctx
           functions := s.functions.map fun f =>
             (f.1, if f.2.apctx = some ctx then { f.2 with apctx := none } else f.2) }

/-! ## Partitions (R384, 07 R113, 19 R347) -/

/-- Bases and sizes of the tiers, and of the pool window (08 R134). -/
def gddrSize : Nat := 96 * 2 ^ 30
def lpddrBase : Nat := 0x100000000000
def lpddrSize : Nat := 512 * 2 ^ 30
def poolSize : Nat := 2 ^ 46

/-- A context lives in the partition. -/
def State.inhabited (s : State) (p : Nat) : Bool := s.contexts.any fun c => c.2.part = p

/-- A carve is aligned, inside its tier and apart from the others'; an empty one lies nowhere. -/
def carveOk (tier size base n : Nat) (others : List (Nat × Nat)) : Bool :=
  base % 2 ^ 30 = 0 && n % 2 ^ 30 = 0 && (n = 0 || (tier ≤ base && base + n ≤ tier + size)) &&
  others.all fun o => n = 0 || o.2 = 0 || base + n ≤ o.1 || o.1 + o.2 ≤ base

/-- PART_SET. -/
def execPartSet (fn : Nat) (s : State) : Host.Outcome State Fault Refusal :=
  command fn (opArgs 0x01) true (fun a => leAt a 0 1 ≤ 15 && leAt a 8 8 < 2 ^ 48) (fun a =>
    let k := leAt a 0 1
    let p : Partition := {
      qmask := .ofNat 48 (leAt a 8 8), gbase := leAt a 0x10 8, gsize := leAt a 0x18 8, lbase := leAt a 0x20 8
      lsize := leAt a 0x28 8, pstate := 1, pooloff := leAt a 0x30 4 * 2 ^ 30, poolsz := leAt a 0x34 4 * 2 ^ 30
      line := (s.part k).line }
    let others := s.partitions.filter fun x => x.1 ≠ k && x.2.pstate ≠ 0
    let ok := others.all (fun x => x.2.qmask &&& p.qmask = 0) &&
      carveOk 0 gddrSize p.gbase p.gsize (others.map fun x => (x.2.gbase, x.2.gsize)) &&
      carveOk lpddrBase lpddrSize p.lbase p.lsize (others.map fun x => (x.2.lbase, x.2.lsize)) &&
      carveOk 0 poolSize p.pooloff p.poolsz (others.map fun x => (x.2.pooloff, x.2.poolsz))
    if s.inhabited k then .refused 0x03 else if !ok then .refused 0x04 else .done (s.setPart k p)) s

/-- PART_CLEAR. -/
def execPartClear (fn : Nat) (s : State) : Host.Outcome State Fault Refusal :=
  command fn (opArgs 0x02) true (fun a => leAt a 0 1 ≤ 15) (fun a =>
    if s.inhabited (leAt a 0 1) then .refused 0x03 else .done (s.onPart (leAt a 0 1) fun p => { p with pstate := 0 })) s

/-- Clears the SRAM arrays of a quad. Sequence numbers and allocation tags go on; so does a scan (19 R343). -/
def State.clearQuad (s : State) (q : Nat) : State :=
  let s := (coresOf q).foldl (fun s c =>
    let s := s.zeroWindow c 0 coreScratch
    s.onCore c fun x => { ({} : Core) with
      tagCtr := x.tagCtr, bte := x.bte, scan := x.scan, scanStart := x.scanStart, lastPassBegan := x.lastPassBegan
      lastPass := x.lastPass }) s
  s.onMwe q fun m => { ({} : Mwe) with engine := m.engine, since := s.time, badPes := m.badPes }

/-- The time a partition reset takes: all of the 10 ms allowed (DESIGN CHOICE, log 3). -/
def resetTime : Nat := us 10000

/-- Resets a partition (19 R347). -/
def State.resetPart (s : State) (p : Nat) : State :=
  let s := s.onPart p fun x => { x with pstate := 2, line := [] }
  let s := (s.contexts.filter (·.2.part = p)).foldl (fun s c =>
    (s.endWork c.1 3).onCtx c.1 fun x => { x with preempt := none, out := false, blocks := [] }) s
  let s := ((List.range 48).filter (s.part p).hasQuad).foldl State.clearQuad s
  (s.cancel (· == .partitionResetComplete p)).later (s.time + resetTime) (.partitionResetComplete p)

/-- PART_RESET: done when the reset completes. -/
def execPartReset (fn : Nat) (s : State) : Host.Outcome State Fault Refusal :=
  command fn (opArgs 0x03) true (fun a => leAt a 0 1 ≤ 15) (fun a => .pending (s.resetPart (leAt a 0 1))) s

/-- PARTITION_RESET_COMPLETE: a PART_RESET that asked for the reset is done. -/
def execPartitionResetComplete (part : Nat) (s : State) : Host.Outcome State Fault Refusal :=
  let f := s.fn 0
  let b := f.taken
  if f.busy && leAt b 0 2 = 3 && leAt b 8 1 = part then .next (State.serve 64 (s.endCommand 0 1 0 [])) else .next s

/-- PART_RUN: the partition's line and batches go on. -/
def execPartRun (fn : Nat) (s : State) : Host.Outcome State Fault Refusal :=
  command fn (opArgs 0x04) true (fun a => leAt a 0 1 ≤ 15) (fun a =>
    let k := leAt a 0 1
    if (s.part k).pstate ≠ 2 || s.expects (· == .partitionResetComplete k) then .refused 0x03
    else
      let s := (s.onPart k fun p => { p with pstate := 1 }).kickLine k
      .done ((s.part k).cores.foldl State.kickBatches s)) s

/-- FUNC_PARTS. -/
def execFuncParts (fn : Nat) (s : State) : Host.Outcome State Fault Refusal :=
  command fn (opArgs 0x05) true (fun a => leAt a 0 2 ≤ 63) (fun a =>
    .done (s.onFn (leAt a 0 2) fun f => { f with parts := .ofNat 16 (leAt a 8 2) })) s

/-! ## Contexts (R384, 08 R128, R129, 18 R309, 20 R362) -/

/-- A descriptor's fields. FWR, FRD, RPL, owner and partition come with the command. -/
def readCtx (b : List Byte) : Context :=
  let f := leAt b
  { root := .ofNat 64 (f 0 8), hb := .ofNat 64 (f 8 8), hl := .ofNat 64 (f 0x10 8), ho := .ofNat 64 (f 0x18 8)
    fring := f 0x20 8, frlog := f 0x28 1, fvec := f 0x2A 2, fwr := 0, frd := 0, timg := .ofNat 64 (f 0x40 8)
    targ := .ofNat 64 (f 0x48 8), pdl := f 0x50 8, ppool := .ofNat 64 (f 0x58 8), pbsz := f 0x60 4, pbcnt := f 0x64 2
    dbginit := f 0x66 1, pctl := f 0x68 8, nqbase := .ofNat 64 (f 0x70 8), nqlog := f 0x78 1, rpl := false, owner := 0
    part := 0, trapImage := none, preempt := none, out := false, late := 0, held := [], blocks := [] }

/-- The 128 bytes of a context's descriptor, and where they lie: at the context table's base plus 128 times the tag, in memory that the
supervisor alone reaches (R128; DESIGN CHOICE, log 11). -/
def Context.bytes (c : Context) : List Byte :=
  leBytes 8 c.root.toNat ++ leBytes 8 c.hb.toNat ++ leBytes 8 c.hl.toNat ++ leBytes 8 c.ho.toNat ++ leBytes 8 c.fring ++
  leBytes 1 c.frlog ++ leBytes 1 0 ++ leBytes 2 c.fvec ++ leBytes 4 0 ++ leBytes 8 c.fwr ++ leBytes 8 c.frd ++
  leBytes 8 c.timg.toNat ++ leBytes 8 c.targ.toNat ++ leBytes 8 c.pdl ++ leBytes 8 c.ppool.toNat ++ leBytes 4 c.pbsz ++
  leBytes 2 c.pbcnt ++ leBytes 1 c.dbginit ++ leBytes 1 0 ++ leBytes 8 c.pctl ++ leBytes 8 c.nqbase.toNat ++ leBytes 1 c.nqlog ++
  leBytes 1 (if c.rpl then 1 else 0) ++ leBytes 6 0
def State.contextEntry (s : State) (tag : Nat) : Nat × Option (List Byte) :=
  (s.contextBase + 128 * tag, (s.ctx? tag).map Context.bytes)

/-- The limits of the fields. -/
def Context.fieldsOk (c : Context) (b : List Byte) : Bool :=
  let al (x n : Nat) : Bool := x % n = 0
  al c.root.toNat (2 ^ 16) && canonical c.hb.toNat && al c.hb.toNat (2 ^ 21) && al c.hl.toNat (2 ^ 21) &&
  al c.ho.toNat (2 ^ 21) && al c.fring (2 ^ 12) && within 4 12 c.frlog && leAt b 0x29 1 = 0 && c.fvec ≤ 2047 &&
  leAt b 0x2C 4 = 0 && al c.timg.toNat (2 ^ 16) && (within 1 (2 ^ 63) c.pdl || c.pdl = 2 ^ 64 - 1) &&
  al c.ppool.toNat (2 ^ 16) && c.pbsz ≠ 0 && al c.pbsz (2 ^ 16) && c.pbcnt ≤ 4096 && c.dbginit ≤ 7 && leAt b 0x67 1 = 0 &&
  al c.pctl (2 ^ 16) && al c.nqbase.toNat (2 ^ 12) && within 4 7 c.nqlog && leAt b 0x79 1 ≤ 1 && leAt b 0x7A 6 = 0

/-- A range lies in one memory carve of a partition. -/
def Partition.inCarve (p : Partition) (a n : Nat) : Bool :=
  (p.gbase ≤ a && a + n ≤ p.gbase + p.gsize) || (p.lbase ≤ a && a + n ≤ p.lbase + p.lsize)

/-- The heap obeys R129, and the control blocks lie in a carve. -/
def Context.memOk (c : Context) (p : Partition) : Bool :=
  let hb := c.hb.toNat; let hl := c.hl.toNat
  (hl = 0 || (canonical (hb + hl - 1) && decide (hb < 2 ^ 63) == decide (hb + hl - 1 < 2 ^ 63) &&
    p.inCarve ((hb + c.ho.toNat) % 2 ^ 64) hl)) &&
  (c.pbcnt = 0 || p.inCarve c.pctl (c.pbcnt * controlBlockSize))

/-- A grid of the context is resident or waits. -/
def State.hasGrid (s : State) (ctx : Nat) : Bool :=
  s.grids.any (fun g => g.2.ctx = ctx) || s.launches.any fun l => l.grid.ctx = ctx

/-- A descriptor is in force: a replay grant of its context watches the slot that it names (20 R351). -/
def State.rearm (s : State) (tag : Nat) : State :=
  if s.power.replay = some tag then (s.onPower fun p => { p with slotLine := none, slotParked := none }).armSlot else s

/-- CTX_SET. A trap handler image is read now; what cannot be read does not pass. -/
def execCtxSet (fn : Nat) (s : State) : Host.Outcome State Fault Refusal :=
  command fn (opArgs 0x10) false (fun a => leAt a 0 2 ≤ 4095 && leAt a 2 1 ≤ 15) (fun a =>
    let tag := leAt a 0 2; let part := leAt a 2 1
    let old := s.ctx? tag
    if old.any fun c => c.owner ≠ fn then .denied
    else if s.hasGrid tag then .refused 0x03
    else
      let b := Memory.readN (s.fn fn).staging 0 128
      let c := readCtx b
      let c := { c with owner := fn, part := part, fwr := (old.map (·.fwr)).getD 0, frd := (old.map (·.frd)).getD 0
                        rpl := (old.map (·.rpl)).getD false, held := (old.map (·.held)).getD []
                        blocks := (old.map (·.blocks)).getD [] }
      if !c.fieldsOk b || !c.memOk (s.part part) || !(s.fn fn).parts.getLsbD part || (s.part part).pstate = 0 then
        .refused 0x04
      else
        let live := (s.setCtx tag c).dropHeld fun h => h.ctx = tag
        if c.timg = 0 then .done (live.rearm tag)
        else match live.readImage tag c.xlat c.timg fun _ => true with
          | (live, .ok i) =>
            if i.trapOk c then .done ((live.onCtx tag fun c => { c with trapImage := some i }).rearm tag) else .refused 0x04
          | (_, .error _) => .refused 0x04) s

/-- CTX_DESTROY. -/
def execCtxDestroy (fn : Nat) (s : State) : Host.Outcome State Fault Refusal :=
  command fn (opArgs 0x11) false (fun a => leAt a 0 2 ≤ 4095) (fun a =>
    s.named fn (leAt a 0 2) fun _ => .done (s.destroyCtx (leAt a 0 2))) s

/-! ## Pre-emption (18 R321 to R326) -/

/-- The teams that a request is for; not those that the supervisor runs for itself (DESIGN CHOICE, log 64). -/
def State.preempted (s : State) (ctx : Nat) : List Team :=
  s.allTeams.filter fun t => t.ctx = ctx && t.costs && t.kind != .supervisor && !t.retired

/-- Every live split is BLOCKED, or parked in a barrier, and none stands at a safe point (R324). -/
def Team.allBlocked (t : Team) : Bool :=
  t.frontier.isEmpty && t.traps.isEmpty && t.entries.all fun e =>
    (t.split e).state = .blocked || ((t.split e).state = .shed && match (t.split e).waiting with
      | .bar _ _ | .cbar _ => true
      | _ => false)

/-- Teams go out in decreasing `$team` (R326): every team of the grid above this one is out. -/
def State.aboveOut (s : State) (t : Team) : Bool :=
  t.kind != .grid || s.allTeams.all fun x => x.grid ≠ t.grid || x.kind != .grid || x.retired || x.team ≤ t.team || x.isOut

/-- Holds in place the teams that are all BLOCKED, the teams of a grid in decreasing `$team`, so that while one is out none above it
runs (07 R122, R326; DEDUCED, log 62). -/
def State.holdTeams (s : State) (ctx : Nat) : State :=
  (sortDown (fun (t : Team) => t.team.toNat) (s.preempted ctx)).foldl (fun s t =>
    if (t.out = .in_ || t.out = .restoring) && t.allBlocked && s.aboveOut t then
      (s.setTeam { t with out := .held }).releaseBelow t.grid
    else s) s

/-- A request has completed: every team is out or killed, and every walk SAVED. -/
def State.preemptDone (s : State) (ctx : Nat) : Bool := (s.preempted ctx).all Team.isOut && s.walksSaved ctx

/-- A request takes hold: kites end, SLEEP and WAITMON end early, ACTIVE walks save, the deadline runs. -/
def State.startPreempt (s : State) (ctx fn : Nat) (c : Context) : State :=
  let s := s.setCtx ctx { c with preempt := some (s.gts, fn), late := 0 }
  let s := { s with teams := s.teams.filter fun p => !(p.2.ctx = ctx && p.2.kind == TeamKind.kite) }
  let wake (t : Team) (s : State) (e : Nat) : State := match (t.split e).state, (t.split e).waiting with
    | .blocked, .sleep _ | .blocked, .monitor _ => s.pastIt t.uid e
    | _, _ => s
  let s := (s.preempted ctx).foldl (fun s t => t.entries.foldl (wake t) s) s
  let s := s.mwes.foldl (fun s m => (m.2.walks.filter fun w => w.2.ctx = ctx && w.2.state = .active).foldl (fun s w =>
    (s.onWalk m.1 w.1 fun w => { w with state := .saving }).soon (.walkSave m.1 w.1)) s) s
  let s := if c.pdl = 2 ^ 64 - 1 then s else s.later (s.time + ns c.pdl) (.preemptDeadline ctx)
  s.holdTeams ctx

/-- CTX_PREEMPT: one context at a time; done when the request completes, with the counts of teams. -/
def execCtxPreempt (fn : Nat) (s : State) : Host.Outcome State Fault Refusal :=
  command fn (opArgs 0x12) false (fun a => leAt a 0 2 ≤ 4095) (fun a =>
    let tag := leAt a 0 2
    s.named fn tag fun c =>
      if c.out then .refused 0x03
      else if s.contexts.any fun x => x.1 ≠ tag && x.2.preempt.isSome then .pending s
      else
        let s := if c.preempt.isSome then s.holdTeams tag else s.startPreempt tag fn c
        if !s.preemptDone tag then .pending s
        else
          let ts := s.preempted tag
          let n (o : Out) : List Byte := leBytes 4 (ts.filter (·.out == o)).length
          let late := ((s.ctx? tag).map (·.late)).getD 0
          let s := (s.cancel (· == .preemptDeadline tag)).onCtx tag fun c => { c with preempt := none, out := true }
          let next := (List.range 64).filter fun k => k ≠ fn && (s.fn k).busy && leAt (s.fn k).taken 0 2 = 0x12
          let s := next.foldl (fun s k => s.kickPreempt k) s
          .done s [(8, n .saved), (0xC, n .held), (0x10, leBytes 4 late)]) s

/-- Kills whole, with PREEMPTLATE, the teams of a context that are neither out nor, all BLOCKED, to be held in place: no save routine is
held (R326). -/
def State.killLate (s : State) (ctx : Nat) : State :=
  let late := (s.preempted ctx).filter fun t => !t.isOut && !(t.allBlocked && t.out ≠ .saving)
  let s := s.onCtx ctx fun c => { c with late := c.late + late.length }
  late.foldl (fun s t => s.killTeam t.uid cPREEMPTLATE) s

/-- PREEMPT_DEADLINE: each team that is not out is killed whole with PREEMPTLATE; those that are all BLOCKED are held in place once the
teams above them are out (R324), unless a kill has ended their wait. -/
def execPreemptDeadline (ctx : Nat) (s : State) : Host.Outcome State Fault Refusal :=
  match (s.ctx? ctx).bind (·.preempt) with
  | none => .next s
  | some (_, fn) => .next ((((s.killLate ctx).holdTeams ctx).killLate ctx).kickPreempt fn)

/-- Restores a context: SAVED walks are QUEUED for resume, held teams go on, and the MD places saved teams again as they
fit. -/
def State.restoreCtx (s : State) (tag : Nat) (c : Context) : State :=
  let s := s.setCtx tag { c with out := false }
  let free (t : Team) : Team :=
    if t.ctx = tag && t.out = .held then { t with out := if t.mode = .restore then .restoring else .in_ } else t
  let s : State := { s with teams := s.teams.map fun p => (p.1, free p.2) }
  let back (w : Walk) : Walk :=
    if w.ctx = tag && w.state = .saved then { w with state := .queued, resumed := true } else w
  let backs (m : Mwe) : Mwe := { m with walks := m.walks.map fun w => (w.1, back w.2) }
  let s := s.mwes.foldl (fun s m => s.account m.1) s
  let s : State := { s with mwes := s.mwes.map fun m => (m.1, backs m.2) }
  let s := s.mwes.foldl (fun s m => s.kickQueued m.1) s
  let s := s.cores.foldl (fun s k => s.kickBatches k.1) s
  s.kickLine c.part

/-- CTX_RESTORE: done once the restore has begun (DEDUCED, log 28). -/
def execCtxRestore (fn : Nat) (s : State) : Host.Outcome State Fault Refusal :=
  command fn (opArgs 0x13) false (fun a => leAt a 0 2 ≤ 4095) (fun a =>
    s.named fn (leAt a 0 2) fun c => if !c.out then .refused 0x03 else .done (s.restoreCtx (leAt a 0 2) c)) s

/-! ## Telemetry replay (20 R351) -/

/-- CTX_REPLAY, grant. -/
def execCtxReplayGrant (fn : Nat) (s : State) : Host.Outcome State Fault Refusal :=
  command fn (opArgs 0x14) true (fun a => leAt a 0 2 ≤ 4095 && leAt a 2 1 = 1) (fun a =>
    let tag := leAt a 0 2
    s.named fn tag fun c =>
      if s.contexts.any fun x => x.1 ≠ tag && x.2.rpl then .refused 0x03
      else if c.rpl then .done s
      else .done ((s.setCtx tag { c with rpl := true }).grantReplay tag)) s

/-- CTX_REPLAY, revoke. -/
def execCtxReplayRevoke (fn : Nat) (s : State) : Host.Outcome State Fault Refusal :=
  command fn (opArgs 0x14) true (fun a => leAt a 0 2 ≤ 4095 && leAt a 2 1 ≤ 1) (fun a =>
    let tag := leAt a 0 2
    s.named fn tag fun c =>
      if !c.rpl then .done s else .done ((s.setCtx tag { c with rpl := false }).endReplayGrant)) s

/-! ## Queues (R384, 06 R93) -/

/-- The queue that a command names, if the function may act on it. -/
def State.ownQueue (s : State) (fn q : Nat) (body : Queue → Result) : Result :=
  if fn = 0 || (s.queue q).fn = fn then body (s.queue q) else .denied

/-- The grids of a queue whose entry is rewritten count nothing in it. -/
def State.uncount (s : State) (q : Nat) : State :=
  let old (g : Grid) : Grid := if g.queue = q then { g with counts := false } else g
  let s : State := { s with grids := s.grids.map fun g => (g.1, old g.2) }
  { s with launches := s.launches.map fun l => { l with grid := old l.grid } }

/-- QUEUE_SET, MODE 0: the entry is written whole. -/
def execQueueSet (fn : Nat) (s : State) : Host.Outcome State Fault Refusal :=
  command fn (opArgs 0x20) false (fun a => leAt a 0 2 ≤ 4095 && leAt a 2 1 ≤ 1 && leAt a 3 1 ≤ 1 && leAt a 4 2 ≤ 4095 &&
      leAt a 8 8 % 2 ^ 12 = 0 && within 4 16 (leAt a 0x10 1)) (fun a =>
    let q := leAt a 0 2; let tag := leAt a 4 2
    s.ownQueue fn q fun x => s.named fn tag fun _ =>
      if x.qstate = 1 then .refused 0x03
      else .done ((s.uncount q).setQueue q { ({} : Queue) with
        rbase := .ofNat 64 (leAt a 8 8), rlog := leAt a 0x10 1, qstate := leAt a 2 1, ctx := tag, fn := x.fn
        dones := x.dones.map fun d => { d with counts := false } })) s

/-- QUEUE_SET, MODE 1: the queue restarts, and a WAITVAL it stopped at is evaluated again. A faulted queue is in the wrong state: its
entry is to be rewritten whole (06 R94; DEDUCED, log 82). -/
def execQueueSetRestart (fn : Nat) (s : State) : Host.Outcome State Fault Refusal :=
  command fn (opArgs 0x20) false (fun a => leAt a 0 2 ≤ 4095 && leAt a 3 1 = 1) (fun a =>
    let q := leAt a 0 2
    s.ownQueue fn q fun x =>
      if x.qstate = 3 then .refused 0x03
      else
      let s := s.onQueue q fun x => { x with qstate := 1, qcode := 0 }
      .done ((s.soon (.waitvalReevaluate q)).kickQueue q)) s

/-- QUEUE_ASSIGN. -/
def execQueueAssign (fn : Nat) (s : State) : Host.Outcome State Fault Refusal :=
  command fn (opArgs 0x21) true (fun a => leAt a 0 2 ≤ 4095 && leAt a 2 2 ≤ 63) (fun a =>
    let q := leAt a 0 2
    if (s.queue q).qstate ≠ 0 then .refused 0x03 else .done (s.onQueue q fun x => { x with fn := leAt a 2 2 })) s

/-! ## Apertures, firmware, rails, scans (R384, R386) -/

/-- APERTURE. -/
def execAperture (fn : Nat) (s : State) : Host.Outcome State Fault Refusal :=
  command fn (opArgs 0x30) true (fun a => leAt a 0 2 ≤ 63 && (leAt a 2 2 ≤ 4095 || leAt a 2 2 = 0xFFFF)) (fun a =>
    let f := leAt a 0 2; let tag := leAt a 2 2
    if tag = 0xFFFF then .done (s.onFn f fun x => { x with apctx := none })
    else if (s.ctx? tag).any fun c => c.owner = f then .done (s.onFn f fun x => { x with apctx := some tag })
    else .refused 0x04) s

/-- Bytes of a firmware image's header. -/
def fwHeader : Nat := 0x1500

/-- The key of a firmware image: by FTYPE, and queue core. -/
def fwKey (type core : Nat) : Nat := 8 * type + core

/-- An image runs: its measurement, the digest and SVN (R387). -/
def Firmware.run (f : Firmware) (type core : Nat) (b : List Byte) : Firmware :=
  { f with running := NMap.insert f.running (fwKey type core) (Config.sha384 b, leAt b 6 2)
           haltedCores := if type = 2 then NSet.remove f.haltedCores core else f.haltedCores }

/-- A firmware image passes R386: its digests, signatures and SVN. -/
def fwOk (minSvn : NMap Nat) (type : Nat) (b : List Byte) : Bool :=
  let part (off n : Nat) : List Byte := (b.drop off).take n
  let edpk := part 0x10 32; let mlpk := part 0x30 1952
  let msg := b.take 0x7D0 ++ List.replicate 64 0 ++ List.replicate 3309 0 ++ b.drop 0x14FD
  fwHeader ≤ b.length && leAt b 0 4 = 0x46575A44 && leAt b 4 1 = type && leAt b 5 1 = 0 && leAt b 6 2 ≤ 255 &&
  leAt b 8 4 ≤ 2 ^ 24 && leAt b 0xC 4 = 0 && leAt b 0x14FD 3 = 0 && b.length = fwHeader + leAt b 8 4 &&
  Config.sha384 edpk = Config.fuses.1 && Config.sha384 mlpk = Config.fuses.2 &&
  Config.edVerify edpk msg (part 0x7D0 64) && Config.mlVerify mlpk msg (part 0x810 3309) &&
  NMap.get minSvn type 0 ≤ leAt b 6 2

/-- FW_LOAD: an image that cannot be read does not verify. Queues that could not leave a halted core for want of another may move now. -/
def execFwLoad (fn : Nat) (s : State) : Host.Outcome State Fault Refusal :=
  command fn (opArgs 0x40) true (fun a =>
      (leAt a 0 1 = 2 && leAt a 1 1 ≤ 5) || (leAt a 0 1 = 3 && leAt a 1 1 = 0)) (fun a =>
    let type := leAt a 0 1; let core := leAt a 1 1
    if type = 2 && !NSet.mem s.firmware.haltedCores core then .refused 0x03
    else match (s.fn 0).apctx with
      | none => .refused 0x05
      | some c =>
        if fwHeader + 2 ^ 24 < leAt a 0x10 8 then .refused 0x05
        else match s.fwRead c (s.xlatOf c 0) (.ofNat 64 (leAt a 8 8)) (leAt a 0x10 8) with
          | (_, .error _) => .refused 0x05
          | (s, .ok b) =>
            if !fwOk s.firmware.minSvn type b then .refused 0x05
            else
              let s : State := { s with firmware := s.firmware.run type core b }
              .done (if s.firmware.toMove.isEmpty || s.expects (· == .queueReassignment) then s else s.soon .queueReassignment)) s

/-- SVN_RAISE. -/
def execSvnRaise (fn : Nat) (s : State) : Host.Outcome State Fault Refusal :=
  command fn (opArgs 0x41) true (fun a => within 1 3 (leAt a 0 1) && leAt a 2 2 ≤ 255) (fun a =>
    let old := NMap.get s.firmware.minSvn (leAt a 0 1) 0
    if leAt a 2 2 < old then .refused 0x02
    else .done { s with firmware := { s.firmware with minSvn := NMap.insert s.firmware.minSvn (leAt a 0 1) (leAt a 2 2) } }) s

/-- RAIL_SET (20 R366). -/
def execRailSet (fn : Nat) (s : State) : Host.Outcome State Fault Refusal :=
  command fn (opArgs 0x50) true (fun a => leAt a 0 1 ≤ 47 && within 550 950 (leAt a 2 2) && leAt a 2 2 % 5 = 0) (fun a =>
    .done (s.onQuadPower (leAt a 0 1) fun q => { q with rail := leAt a 2 2 })) s

/-- SCAN_GAP. -/
def execScanGap (fn : Nat) (s : State) : Host.Outcome State Fault Refusal :=
  command fn (opArgs 0x51) true (fun a => leAt a 0 4 ≤ 1000000) (fun a => .done { s with rotgap := leAt a 0 4 }) s

/-- SCAN_NOW. -/
def execScanNow (fn : Nat) (s : State) : Host.Outcome State Fault Refusal :=
  command fn (opArgs 0x52) true (fun a => leAt a 0 1 ≤ 191) (fun a => .done (s.queueScan (leAt a 0 1))) s

end Sys2Proof.Machine
end

