-- ==== Sys2Proof/Machine/HostPort.lean ====
section
/-!
DEFINITION. The host port: BAR 0 registers, the device aperture, posted writes in their order, reads and AtomicOps, host TLB
invalidation, fault-ring registers, migration, back-invalidates and SPDM (23 R377 to R381, R385, R387, 15 R284, R285, 08
R137, R140, R393, 12 R216, R217, R219, 20 R369).
-/
namespace Sys2Proof.Machine

/-! ## TLB invalidation (08 R137) -/

/-- A write of TICMD: a request is accepted, and refused at once or queued. -/
def State.ticmd (s : State) (fn raw : Nat) : State :=
  let kind := raw % 4; let tag := bitsAt raw 16 12
  let malformed := kind = 3 || bitsAt raw 2 14 ≠ 0 || raw / 2 ^ 28 ≠ 0 || (kind = 0 && tag ≠ 0)
  let denied := fn ≠ 0 && kind ≠ 3 && (kind = 0 || !(s.ctx? tag).any fun c => c.owner = fn)
  let bits : BitVec 64 := (if malformed then 2 else 0) ||| (if denied then 1 else 0)
  let req := if malformed || denied then none else some (kind, tag, (s.fn fn).tiva)
  (s.onFn fn fun f => { f with tireq := f.tireq + 1, tiq := f.tiq ++ [req], tistat := f.tistat ||| bits }).soon
    (.tlbInvalidationDone fn)

/-- TLB_INVALIDATION_DONE: the oldest request of the function is carried out. -/
def execTlbInvalidationDone (fn : Nat) (s : State) : Host.Outcome State Fault Refusal :=
  match (s.fn fn).tiq with
  | [] => .next s
  | r :: rest =>
    let s := match r with
      | none => s
      | some (kind, tag, va) => s.dropHeld fun h =>
          kind = 0 || (h.ctx = tag && (kind = 1 || h.covers va.toNat))
    .next (s.onFn fn fun f => { f with tiq := rest, tidone := f.tidone + 1 })

/-! ## Fault-ring registers (08 R140, R393) -/

/-- A write of FRDW. -/
def State.frdWrite (s : State) (fn value : Nat) : State :=
  let tag := (s.fn fn).frctx.toNat
  match s.ctx? tag with
  | some c =>
    if (fn ≠ 0 && c.owner ≠ fn) || value < c.frd || c.fwr < value then s
    else (s.setCtx tag { c with frd := value }).soon (.faultRecordDeferredWrite tag)
  | none => s

/-- FAULT_RECORD_DEFERRED_WRITE: the oldest held record is written once the ring has room. -/
def execFaultRecordDeferredWrite (ctx : Nat) (s : State) : Host.Outcome State Fault Refusal :=
  match s.ctx? ctx with
  | none => .next s
  | some c =>
    match c.held with
    | [] => .next s
    | r :: rest =>
      if c.fwr - c.frd = 2 ^ c.frlog then .next s
      else
        let s := ((s.setCtx ctx { c with held := [] }).ringWrite ctx r).onCtx ctx fun c => { c with held := rest }
        .next (if rest.isEmpty then s else s.soon (.faultRecordDeferredWrite ctx))

/-! ## The log indices (R385) -/

/-- Moves held error records into the window while it has room. -/
def State.fillErrors : Nat → State → State
  | 0, s => s
  | n + 1, s =>
    match s.logs.errHeld with
    | [] => s
    | r :: rest =>
      if errWindowSize ≤ s.logs.errwr - s.logs.errrd then s
      else ((s.onLogs fun l => { l with errHeld := rest, errWindow := NMap.insert l.errWindow l.errwr r
                                        errwr := l.errwr + 1 }).logSignal (s.logs.errwr = s.logs.errrd)).fillErrors n

/-- Moves held completion entries into the window while it has room. -/
def State.fillCompletions : Nat → State → State
  | 0, s => s
  | n + 1, s =>
    match s.logs.clHeld with
    | [] => s
    | r :: rest =>
      if clWindowSize ≤ s.logs.clwr - s.logs.clrd then s
      else ((s.onLogs fun l => { l with clHeld := rest, clWindow := NMap.insert l.clWindow l.clwr r
                                        clwr := l.clwr + 1 }).logSignal (s.logs.clwr = s.logs.clrd)).fillCompletions n

/-- A write of ERRRD: an index that is not from the present one to ERRWR is discarded (DEDUCED, log 31). -/
def State.errRead (s : State) (value : Nat) : State :=
  if value < s.logs.errrd || s.logs.errwr < value then s
  else (s.onLogs fun l => { l with errrd := value }).fillErrors errWindowSize

/-- A write of CLRD. -/
def State.clRead (s : State) (value : Nat) : State :=
  if value < s.logs.clrd || s.logs.clwr < value then s
  else (s.onLogs fun l => { l with clrd := value }).fillCompletions clWindowSize

/-! ## BAR 0 (R378) -/

/-- A write of MIGTAIL: a count that is not above the present one, or more than 64 above MIGHEAD, is discarded (DEDUCED, log 30). -/
def State.migTail (s : State) (fn : Nat) (value : U64) : State :=
  let f := s.fn fn
  if value.toNat ≤ f.migtail.toNat || f.mighead.toNat + 64 < value.toNat then s
  else (s.setFn fn { f with migtail := value }).soon (.migrationRequest fn)

/-- What ABASE takes: a canonical multiple of 2^40 (R379). -/
def abaseOk (value : U64) : Bool := canonical value.toNat && value.toNat % 2 ^ 40 = 0

/-- A write of ABASE (R379). -/
def State.setAbase (s : State) (fn : Nat) (value : U64) : State :=
  if abaseOk value then s.onFn fn fun f => { f with abase := value } else s

/-- ABASE as the posted writes that still wait leave it: what an access stamped after them uses (R379). -/
def Function.nextAbase (f : Function) : U64 :=
  f.posted.foldl (fun b p => match p.write with
    | .bar0 off d => if off = 0x1180 && d.length = 8 && abaseOk (.ofNat 64 (leNat d)) then .ofNat 64 (leNat d) else b
    | .mem _ _ => b) f.abase

/-- Bytes of the power registers (20 R352). -/
def powerSize : Nat := 0x140

/-- A write to bytes of BAR 0. A register of 8 bytes, and LOGVEC of 2, takes a write of its own size alone (DEDUCED, log 31). -/
def State.bar0Write (s : State) (fn off : Nat) (d : List Byte) : State :=
  let n := d.length
  let x : U64 := .ofNat 64 (leNat d)
  let put (m : NMap Byte) (base : Nat) : NMap Byte := Memory.writeN m (off - base) d
  if 0x8000 ≤ off && off + n ≤ 0x9000 then s.onFn fn fun f => { f with slots := put f.slots 0x8000 }
  else if 0x1300 ≤ off && off + n ≤ 0x1380 then s.onFn fn fun f => { f with staging := put f.staging 0x1300 }
  else if fn = 0 && 0x2000 ≤ off && off + n ≤ 0x2000 + powerSize then
    s.onPower fun p => { p with pending := d.zipIdx.foldl (fun m b => NMap.insert m (off - 0x2000 + b.2) b.1) p.pending }
  else if fn = 0 && off = 0x38 && n = 2 then s.onLogs fun l => { l with logvec := x.toNat }
  else if n ≠ 8 then s
  else if off = 0x1000 then if x.toNat % 2 ^ 12 = 0 then s.onFn fn fun f => { f with migbase := x } else s
  else if off = 0x1008 then s.migTail fn x
  else if off = 0x1100 then s.onFn fn fun f => { f with tiva := x }
  else if off = 0x1108 then s.ticmd fn x.toNat
  else if off = 0x1120 then s.onFn fn fun f => { f with tistat := f.tistat &&& ~~~x }
  else if off = 0x1140 then s.onFn fn fun f => { f with frctx := x &&& 0xFFF }
  else if off = 0x1150 then s.frdWrite fn x.toNat
  else if off = 0x1180 then s.setAbase fn x
  else if off = 0x1200 then s.submit fn x.toNat
  else if fn = 0 && off = 0x18 then s.errRead x.toNat
  else if fn = 0 && off = 0x28 then s.clRead x.toNat
  else s

/-- The 64 bytes of a completion entry (19 R344). -/
def Completion.bytes (e : Completion) : List Byte :=
  leBytes 8 e.gts ++ leBytes 2 e.ctx ++ leBytes 2 e.queue ++ leBytes 1 e.cstate ++ leBytes 3 0 ++ leBytes 8 e.pidx ++
  leBytes 24 (e.cores.foldl (fun a c => a + 2 ^ c) 0) ++ leBytes 16 0

/-- Where a log window holds its last records: each record's place, and its bytes (R385). -/
def windowMap {α : Type} (base size count wr : Nat) (get : Nat → Option α) (bytes : α → List Byte) : List (Nat × List Byte) :=
  (List.range (Nat.min count wr)).filterMap fun k =>
    (get (wr - 1 - k)).map fun r => (base + size * ((wr - 1 - k) % count), bytes r)

/-- The command slots as they read: a zero field, and an ARGS byte that the slot's command does not name, reads 0 whatever stands there
(00 R3, R383). -/
def Function.slotsView (f : Function) : List Byte :=
  (Memory.readN f.slots 0 4096).zipIdx.map fun b =>
    let k := b.2 % 64
    if k = 6 || k = 7 || (8 ≤ k && !namedByte (opArgs (leAt (f.slot (b.2 / 64)) 0 2)) (k - 8)) then 0 else b.1

/-- The staging area as it reads: the descriptor's zero fields read 0 (00 R3, 08 R128, 18 R309, 20 R362). -/
def Function.stagingView (f : Function) : List Byte :=
  (Memory.readN f.staging 0 128).zipIdx.map fun b =>
    if b.2 = 0x29 || (0x2C ≤ b.2 && b.2 < 0x30) || b.2 = 0x67 || 0x7A ≤ b.2 then 0
    else if b.2 = 0x66 then b.1 &&& 7 else if b.2 = 0x79 then b.1 &&& 1 else b.1

/-- What can be read in BAR 0 of a function: the first offset of each register or area, with its bytes (08 R137, R393, 12 R216, 20
R352, R383, R385, R388). -/
def State.bar0Map (s : State) (fn : Nat) : List (Nat × List Byte) :=
  let f := s.fn fn
  let l := s.logs
  let ctx := s.ctx? f.frctx.toNat
  let fwr := ((ctx.filter fun c => fn = 0 || c.owner = fn).map (·.fwr)).getD 0
  let own : List (Nat × List Byte) :=
    [(0x1000, leBytes 8 f.migbase.toNat), (0x1008, leBytes 8 f.migtail.toNat), (0x1010, leBytes 8 f.mighead.toNat),
     (0x1100, leBytes 8 f.tiva.toNat), (0x1110, leBytes 8 f.tireq), (0x1118, leBytes 8 f.tidone),
     (0x1120, leBytes 8 f.tistat.toNat), (0x1140, leBytes 8 f.frctx.toNat), (0x1148, leBytes 8 fwr),
     (0x1150, leBytes 8 ((ctx.map (·.frd)).getD 0)), (0x1180, leBytes 8 f.abase.toNat), (0x1200, leBytes 8 f.sctail),
     (0x1208, leBytes 8 f.schead), (0x1300, f.stagingView), (0x8000, f.slotsView)]
  let device : List (Nat × List Byte) :=
    [(0, leBytes 8 s.status.toNat), (0x10, leBytes 8 l.errwr), (0x18, leBytes 8 l.errrd), (0x20, leBytes 8 l.clwr),
     (0x28, leBytes 8 l.clrd), (0x30, leBytes 4 l.errlost), (0x34, leBytes 4 l.cllost), (0x38, leBytes 2 l.logvec),
     (0x2000, s.power.image)] ++
    windowMap 0x3000 32 128 l.errwr (NMap.find? l.errWindow) id ++
    windowMap 0x4000 64 256 l.clwr (NMap.find? l.clWindow) Completion.bytes
  if fn = 0 then own ++ device else own

/-- `n` bytes of BAR 0 of a function as the host reads them: what is no register, and every zero field, reads 0 (00 R3, R378). -/
def State.bar0Read (s : State) (fn off n : Nat) : List Byte :=
  let m := s.bar0Map fn
  (List.range n).map fun k =>
    match m.find? fun r => r.1 ≤ off + k && off + k < r.1 + r.2.length with
    | some r => r.2.getD (off + k - r.1) 0
    | none => 0

/-- The answer to a read of BAR 0: before bring-up has ended, Configuration Request Retry Status for all but the device status register and,
where the supervisor has failed, the physical function's BAR 0 (R388). -/
def State.bar0Answer (s : State) (fn tag off n : Nat) : HostMsg :=
  if s.status[0] || (fn = 0 && (off + n ≤ 8 || s.status[1])) then .data fn tag (s.bar0Read fn off n) false else .retry fn tag

/-! ## The aperture (R379, 15 R284) -/

/-- The events of an access of n bytes at an address: its bytes by 16-byte sector. -/
def sectorSpans (va n : Nat) : List (Nat × Nat) :=
  (List.range ((va % 16 + n + 15) / 16)).map fun k =>
    let lo := Nat.max va ((va / 16 + k) * 16)
    let hi := Nat.min (va + n) ((va / 16 + k + 1) * 16)
    (lo - va, hi - lo)

/-- What is left of a posted write after the events that can be performed: none, or the offset of the first byte left with the
entry it is parked on, none when it waits for a migration (15 R285). -/
def State.apertureStore (s : State) (ctx : Nat) (va : U64) (d : List Byte) :
    List (Nat × Nat) → State × Option (Nat × Option Nat)
  | [] => (s, none)
  | (off, n) :: rest =>
    let s := s.recallWalk ctx (s.xlatOf ctx 0) .write (va.toNat + off) n
    match s.xlatRange ctx (s.xlatOf ctx 0) .write (va + .ofNat 64 off) n with
    | .error (.trap _ v l e) => (s.faultRec ctx srcHost .write v l e).apertureStore ctx va d rest
    | .error (.park v l e) => ((s.parkRecord ctx srcHost .write v l e).recheck e, some (off, some e))
    | .ok pas =>
      if pas.any s.locked then (s, some (off, none))
      else (s.gwrite pas ((d.drop off).take n) false).apertureStore ctx va d rest

/-- Performs a posted write, or gives what is left of it. In A3 an access to memory waits for the exit, which it begins (20 R369). -/
def State.hostStore (s : State) (fn : Nat) (w : HostWrite) : State × Option Posted :=
  match w with
  | .bar0 off d => (s.bar0Write fn off d, none)
  | .mem off d =>
    match (s.fn fn).apctx with
    | none => (s, none)
    | some c =>
      let va := (s.fn fn).abase + .ofNat 64 off
      if s.power.a3 then (s.wakeDevice, some { write := w, entry := none })
      else match s.apertureStore c va d (sectorSpans va.toNat d.length) with
      | (s, none) => (s, none)
      | (s, some (k, e)) => (s, some { write := .mem (off + k) (d.drop k), entry := e })

/-- The result of an AtomicOp. -/
def atomicOpValue (op : HostAtomic) (old v cmp : Nat) : Nat :=
  match op with
  | .fetchAdd => old + v
  | .swap => v
  | .cas => if old = cmp then v else old

/-- Performs a read or AtomicOp that no posted write is ahead of: it completes, or stays with its entry (none when it waits
for a migration or for the exit from A3). -/
def State.hostLoad (s : State) (fn : Nat) (r : HostRead) : State × Option HostRead :=
  match (s.fn fn).apctx with
  | none => (s.emit (.unsupported fn r.tag), none)
  | some c =>
    let va := r.va
    let r := { r with entry := none }
    let k : AKind := if r.op.isSome then .atomic else .read
    let s := s.recallWalk c (s.xlatOf c 0) k va.toNat r.len
    if s.power.a3 then (s.wakeDevice, some r)
    else match s.xlatRange c (s.xlatOf c 0) k va r.len with
    | .error (.park v l e) => ((s.parkRecord c srcHost k v l e).recheck e, some { r with entry := some e })
    | .error (.trap _ v l e) => ((s.faultRec c srcHost k v l e).emit (.unsupported fn r.tag), none)
    | .ok pas =>
      let (s, b, bad) := s.readGlobal pas
      match r.op with
      | none => (s.emit (.data fn r.tag b bad), none)
      | some (op, wide, v, cmp) =>
        if pas.any s.locked then (s, some r)
        else
          let w := if wide then 64 else 32
          let x := atomicOpValue op (leNat b) (v.toNat % 2 ^ w) (cmp.toNat % 2 ^ w)
          ((s.gwrite pas (leBytes r.len x) false).emit (.data fn r.tag b bad), none)

/-- A posted write has been performed, or has parked, so that wakes may follow. -/
def State.passed (s : State) : State := if s.wakes.isEmpty then s else s.soon .wakeApply

/-- The function whose first write is the first in stamp order of those not parked. -/
def State.firstPosted (s : State) : Option Nat :=
  (s.functions.foldl (fun (b : Option (Nat × Nat)) f => match f.2.posted with
    | [] => b
    | p :: _ => if p.entry.isSome then b else match b with
      | some x => if p.stamp < x.2 then some (f.1, p.stamp) else b
      | none => some (f.1, p.stamp)) none).map (·.1)

/-- The link has no credit for a write of a stamp: the wake buffer is full of earlier ones (R381). -/
def State.stalled (s : State) (stamp : Nat) : Bool := wakeMax ≤ (s.wakes.filter fun w => w.2.2.1 < stamp).length

/-- Performs the waiting writes in the order of their stamps: one that parks holds the later ones of its function, and one that waits
for a migration, for the exit from A3 or for the wake buffer every later one (R381, 15 R284, R285). -/
def State.drainPosted : Nat → State → State
  | 0, s => s
  | n + 1, s =>
    match s.firstPosted with
    | none => s
    | some fn =>
      match (s.fn fn).posted with
      | [] => s
      | p :: rest =>
        if s.stalled p.stamp then s
        else match s.hostStore fn p.write with
        | (s, some q) =>
          let s := s.onFn fn fun f => { f with posted := { q with stamp := p.stamp } :: rest }
          if q.entry.isSome then s.passed.drainPosted n else s
        | (s, none) => ((s.onFn fn fun f => { f with posted := rest }).passed).drainPosted n

/-- Performs the reads of a function that follow no write any more. -/
def State.drainReads (s : State) (fn : Nat) : State :=
  (s.fn fn).reads.foldl (fun s r =>
    if r.entry.isSome || !s.follows fn r.stamp then s
    else
      match s.hostLoad fn r with
      | (s, some q) => s.onFn fn fun f => { f with reads := f.reads.map fun x => if x.tag = r.tag then q else x }
      | (s, none) => (s.onFn fn fun f => { f with reads := f.reads.filter (·.tag ≠ r.tag) }).cancel
          (· == .apertureReadTimeout fn r.tag)) s

/-- The host's accesses go on: those parked on entries that are `woken` too. -/
def State.hostProgress (s : State) (woken : Nat → Bool) : State :=
  let free (p : Posted) : Posted := if p.entry.any woken then { p with entry := none } else p
  let freed (r : HostRead) : HostRead := if r.entry.any woken then { r with entry := none } else r
  let s : State := { s with functions := s.functions.map fun f =>
    (f.1, { f.2 with posted := f.2.posted.map free, reads := f.2.reads.map freed }) }
  let s := s.drainPosted (s.functions.foldl (fun n f => n + f.2.posted.length) 0)
  s.functions.foldl (fun s f => if (s.fn f.1).reads.isEmpty then s else s.drainReads f.1) s

/-- A write that waits for a migration or for the exit from A3 holds every write stamped later, and so does a full wake buffer (R381, 15
R284). -/
def State.heldPost (s : State) : Bool :=
  wakeMax ≤ s.wakes.length || s.functions.any fun f => f.2.posted.head?.any (·.entry.isNone)

/-- The host posts a write, which keeps its place in stamp order (15 R284). One whose PASID is not the function's is rejected (R377).
Nothing is written before bring-up has
ended (R388), but to BAR 0 of the physical function of a device whose supervisor failed. -/
def State.post (s : State) (fn : Nat) (w : HostWrite) : State :=
  let (ok, s) := s.takePasid fn
  let bar0 : Bool := match w with
    | .bar0 .. => true
    | .mem .. => false
  if !ok || (!s.status[0] && !(s.status[1] && fn = 0 && bar0)) then s
  else if (s.fn fn).posted.isEmpty && !s.heldPost then
    match s.hostStore fn w with
    | (s, some q) =>
      let (k, s) := s.fresh
      (s.onFn fn fun f => { f with posted := [{ q with stamp := k }] }).passed
    | (s, none) => s
  else
    let (k, s) := s.fresh
    s.onFn fn fun f => { f with posted := f.posted ++ [{ write := w, entry := none, stamp := k }] }

/-! ## The wake buffer and the exit from an idle state (20 R369, 23 R381) -/

/-- WAKE_APPLY: the first wake in the buffer, for entries are applied in the order of their arrival, once no earlier posted write holds it
up (R381, 15 R284). With the entry that is free the writes
that the link has held go on. -/
def execWakeApply (s : State) : Host.Outcome State Fault Refusal :=
  if s.power.a3 then .next s.wakeDevice
  else match s.wakes with
    | [] => .next s
    | w :: rest =>
      if !s.follows w.1 w.2.2.1 then .next s
      else
      let full := wakeMax ≤ s.wakes.length
      let s := { s with wakes := rest }
      let s := s.applyWake w.1 w.2.1 w.2.2.2
      let s := if full then s.hostProgress fun _ => false else s
      .next (if s.wakes.isEmpty then s else s.soon .wakeApply)

/-- IDLE_EXIT_COMPLETE of a quad, whose new teams start, or of the device, which performs the accesses and applies the wakes
that waited (20 R369, 23 R381). -/
def execIdleExitComplete (unit : Nat) (s : State) : Host.Outcome State Fault Refusal :=
  if unit = unitDevice then .next (((s.onPower fun p => { p with a3 := false }).hostProgress fun _ => false).soon .wakeApply)
  else
    let s := s.onQuadPower unit fun p => { p with idle := .a0, exiting := false }
    .next (s.teams.foldl (fun s p =>
      if quadOf p.2.core = unit && !p.2.started && !s.expects (· == .windowZeroingDone p.1)
      then s.soon (.windowZeroingDone p.1) else s) s)

/-! ## Reads and AtomicOps -/

/-- The host's time for a read. -/
def readTime : Nat := us 10000

/-- The host sends a read or AtomicOp of offset `off`. One whose PASID is not the function's is rejected (R377). -/
def State.request_ (s : State) (fn off : Nat) (r : HostRead) : State :=
  let (ok, s) := s.takePasid fn
  if !s.status[0] then s.emit (.retry fn r.tag)
  else if !ok then s.emit (.unsupported fn r.tag)
  else
    let (k, s) := s.fresh
    let s := s.onFn fn fun f => { f with reads := f.reads ++ [{ r with va := f.nextAbase + .ofNat 64 off, stamp := k }] }
    (s.later (s.time + readTime) (.apertureReadTimeout fn r.tag)).drainReads fn

/-- APERTURE_READ_TIMEOUT. -/
def execApertureReadTimeout (fn tag : Nat) (s : State) : Host.Outcome State Fault Refusal :=
  if (s.fn fn).reads.any (·.tag = tag) then
    .next ((s.onFn fn fun f => { f with reads := f.reads.filter (·.tag ≠ tag) }).emit (.abort fn tag))
  else .next s

/-- APERTURE_READ. -/
def execApertureRead (fn tag off len : Nat) (s : State) : Host.Outcome State Fault Refusal :=
  .next (s.request_ fn off { tag := tag, va := 0, len := len, stamp := 0, entry := none, op := none })

/-- APERTURE_WRITE. -/
def execApertureWrite (fn off : Nat) (data : List Byte) (s : State) : Host.Outcome State Fault Refusal :=
  .next (s.post fn (.mem off data))

/-- APERTURE_ATOMIC: one event, ordered and completed as a read. -/
def execApertureAtomic (fn tag off : Nat) (op : HostAtomic) (wide : Bool) (v cmp : U64) (s : State) :
    Host.Outcome State Fault Refusal :=
  .next (s.request_ fn off { tag := tag, va := 0, len := if wide then 8 else 4, stamp := 0, entry := none, op := some (op, wide, v, cmp) })

/-! ## Register writes as events -/

/-- A write of 8 bytes to a register of BAR 0. -/
def reg64 (fn off : Nat) (value : U64) (s : State) : Host.Outcome State Fault Refusal :=
  .next (s.post fn (.bar0 off (leBytes 8 value.toNat)))

def execMigtail (fn : Nat) (value : U64) (s : State) := reg64 fn 0x1008 value s
def execTicmdAll (fn : Nat) (raw : U64) (s : State) := reg64 fn 0x1108 raw s
def execTicmdCtx (fn : Nat) (raw : U64) (s : State) := reg64 fn 0x1108 raw s
def execTicmdVa (fn : Nat) (raw : U64) (s : State) := reg64 fn 0x1108 raw s
def execTistatClear (fn : Nat) (bits : U64) (s : State) := reg64 fn 0x1120 bits s
def execFrdw (fn : Nat) (value : U64) (s : State) := reg64 fn 0x1150 value s
def execAbase (fn : Nat) (value : U64) (s : State) := reg64 fn 0x1180 value s
def execSctail (fn : Nat) (value : U64) (s : State) := reg64 fn 0x1200 value s
/-- ERRRD, of the physical function. -/
def execErrrd (value : U64) (s : State) := reg64 0 0x18 value s
/-- CLRD, of the physical function. -/
def execClrd (value : U64) (s : State) := reg64 0 0x28 value s
/-- REGISTER_WRITE: bytes of BAR 0. -/
def execRegisterWrite (fn off : Nat) (data : List Byte) (s : State) : Host.Outcome State Fault Refusal :=
  .next (s.post fn (.bar0 off data))

/-! ## Migration (12 R216, R217, 15 R285) -/

/-- Size of a page by SIZE. -/
def pageSize (size : Nat) : Nat := if size = 0 then 2 ^ 16 else if size = 1 then 2 ^ 21 else 2 ^ 30

/-- The leaf of an address as the tables in memory hold it: its level, address and value (08 R131). -/
def State.leafOf (s : State) (p : Partition) (va : Nat) : Nat → Nat → Nat → Option (Nat × Nat × U64)
  | 0, _, _ => none
  | n + 1, level, base =>
    let addr := base + 8 * bitsAt va (levelShift level) (levelBits level)
    let e := s.phys64 addr
    match judge p .read va { level := level, path := 0, addr := addr, entry := e } with
    | .ok (true, _) => some (level, addr, e)
    | .ok (false, next) => s.leafOf p va n (level + 1) next
    | .error _ => none

/-- SIZE of a leaf. -/
def leafSize (level : Nat) (e : U64) : Nat := if level = 2 then 2 else if pteCont e then 1 else 0

/-- What a request asks for, if it passes the checks of R217: its context's page, its leaf, its frames. -/
def State.migCheck (s : State) (fn : Nat) (b : List Byte) : Option Migration :=
  let va := leAt b 0 8; let tag := leAt b 8 2; let size := leAt b 0xA 1; let frame := leAt b 0x10 8
  let n := pageSize size
  match s.ctx? tag with
  | none => none
  | some c =>
    let p := s.part c.part
    if 2 < size || leAt b 0xC 4 ≠ 0 || leAt b 0x18 8 ≠ 0 || va % n ≠ 0 || !canonical va || frame % n ≠ 0 ||
      !p.inCarve frame n || c.owner ≠ fn || c.xlat.inHeap va || c.xlat.inHeap (va + n - 1) then none
    else match (if frameOk p c.root.toNat 1 false then s.leafOf p va 3 1 c.root.toNat else none) with
      | some (level, addr, e) =>
        if leafSize level e ≠ size || inPool (pteFrame e) then none
        else some { ctx := tag, page := va, size := n, leaf := addr, old := pteFrame e / n * n, new := frame, order := 0 }
      | none => none

/-- MIGRATION_REQUEST: the supervisor takes the next request of a function: refuses it, or locks the page and posts the copy, once the
task scheduler can hold its footprint (15 R282).
One that cannot be read stays, with a fault record, until MIGTAIL is written again (DEDUCED, log 30). -/
def execMigrationRequest (fn : Nat) (s : State) : Host.Outcome State Fault Refusal :=
  let f := s.fn fn
  if f.migrating.isSome || f.migtail.toNat ≤ f.mighead.toNat then .next s
  else match s.migBytes fn 0 32 .read with
    | none => .next s
    | some (c, .error (.park va l e)) | some (c, .error (.trap _ va l e)) => .next (s.faultRec c srcSupervisor .read va l e)
    | some (_, .ok pas) =>
      let (s, b, _) := s.readGlobal pas
      match s.migCheck fn b with
      | none => .next (s.endMigration fn 2)
      | some m =>
        if jobMax ≤ (s.jobs m.ctx).length then .next (s.later (s.time + cycles 8) (.migrationRequest fn))
        else
        let (order, s) := s.fresh
        let s : State := { s with locks := s.locks ++ [(m.old, m.size)] }
        let s := s.onFn fn fun f => { f with migrating := some { m with order := order } }
        .next (s.later (s.time + cycles (s.delay 8)) (.migrationDone fn))

/-- The leaf entries of a page name its new frame. -/
def State.moveLeaf (s : State) (m : Migration) : State :=
  let count := if m.size = 2 ^ 21 then 32 else 1
  (List.range count).foldl (fun s k =>
    let e := s.phys64 (m.leaf + 8 * k)
    let frame : U64 := .ofNat 64 (m.new + k * 2 ^ 16)
    s.physWrite (m.leaf + 8 * k) (leBytes 8 ((e &&& ~~~(0xFFFFFFFFF0000 : U64)) ||| frame).toNat)) s

/-- The held entry lies in a page that has moved, or on its path (08 R137). -/
def Held.inPage (h : Held) (page size : Nat) : Bool :=
  let base := h.path * 2 ^ levelShift h.level
  h.covers page || (page % 2 ^ 57 ≤ base && base < page % 2 ^ 57 + size)

/-- The copy of a page to its new frame, an engine's write of it: bytes, poison, and the monitors of its lines (12 R210, R217). -/
def State.copyPage (s : State) (m : Migration) : State :=
  let s := (s.recallRange m.old m.size).recallRange m.new m.size
  let moved := (s.mem.filter fun c => m.old ≤ c.1 && c.1 < m.old + m.size).map fun c => (c.1 - m.old + m.new, c.2)
  let bad := (s.poison.filter fun k => m.old / 16 ≤ k && k < (m.old + m.size) / 16).map fun k => k - m.old / 16 + m.new / 16
  let mem := moved.foldl (fun x c => Memory.write x c.1 c.2) (Memory.clear s.mem m.new (m.new + m.size))
  let poison := bad.foldl NSet.add (s.poison.filter fun k => k < m.new / 16 || (m.new + m.size) / 16 ≤ k)
  let s : State := { s with mem := mem, poison := poison }
  (distinct (s.monitored.filter fun l => m.new / 128 ≤ l && l < (m.new + m.size) / 128)).foldl State.noteLine s

/-- What the context's monitors and waits watch on a page that has moved lies on its new frame (15 R285, 16 R303, 20 R351). -/
def State.retarget (s : State) (m : Migration) : State :=
  let move (a : Nat) : Nat := if m.old ≤ a && a < m.old + m.size then a - m.old + m.new else a
  let split (x : Split) : Split := { x with mon := x.mon.map fun w => (w.1, move w.2.1, w.2.2) }
  let s : State := { s with
    teams := s.teams.map fun p => (p.1, if p.2.ctx = m.ctx then { p.2 with splits := p.2.splits.map split } else p.2)
    queues := s.queues.map fun q => (q.1, if q.2.ctx = m.ctx then
      { q.2 with waiting := q.2.waiting.map fun w => { w with phys := move w.phys } } else q.2) }
  if s.power.replay = some m.ctx then s.onPower fun p => { p with slotLine := p.slotLine.map fun l => move (128 * l) / 128 } else s

/-- MIGRATION_DONE: the copy, once no earlier job holds it up; then the leaf, the invalidation, the release of the lock and
STATUS 1. Accesses that waited for the release go on, those of other contexts to the frame too; what a monitor watched on the page, it
watches on the new frame. -/
def execMigrationDone (fn : Nat) (s : State) : Host.Outcome State Fault Refusal :=
  match (s.fn fn).migrating with
  | none => .next s
  | some m =>
    if s.jobBlocked m.ctx m.order [{ base := m.page, len := m.size, write := true }] then .next s
    else
      let s := (((s.copyPage m).moveLeaf m).retarget m).dropHeld fun h => h.ctx = m.ctx && h.inPage m.page m.size
      let s : State := { s with locks := s.locks.filter fun l => l.1 ≠ m.old }
      let s := s.endMigration fn 1
      let s := s.contexts.foldl (fun s c => s.pushJobs c.1) s
      .next (s.hostProgress fun _ => false)

/-! ## The CXL pool, SPDM (12 R219, 23 R387) -/

/-- POOL_BACK_INVALIDATE: the line leaves every cache, dirty sectors written back, and the answer follows. What the agent that asked
for it then writes to the line, if anything, is a free value, and the device's next access to the line obtains it (R219, 15 R286, log
87). None comes while the fabric port's link is down. -/
def execPoolBackInvalidate (line : Nat) (s : State) : Host.Outcome State Fault Refusal :=
  if !inPool (128 * line) || !s.fabricUp then .next s
  else
    let data := Config.poolPeer s.freeCtr
    let s := { (s.dropLine line).emit (.backInvalidated line) with freeCtr := s.freeCtr + 1 }
    .next (if data.length = 128 then { s with peer := NMap.insert s.peer line data }.noteLine line else s)

/-- SPDM_REQUEST: the answer, with the measurements of the running images. -/
def execSpdmRequest (req : List Byte) (s : State) : Host.Outcome State Fault Refusal :=
  .next (s.emit (.spdm (Config.spdmAnswer req (s.firmware.running.map fun r => (r.1, r.2.1, r.2.2)))))

end Sys2Proof.Machine
end

