-- ==== Sys2Proof/Machine/Errors.lean ====
section
/-!
DEFINITION. Errors and their containment, link and engine resets, the rotation scan, resets of the ports and bring-up (19 R333
to R348, 06 R94, 20 R366, 23 R382, R388).
-/
namespace Sys2Proof.Machine

/-! ## Vector registers, team-wide state, memory (R333, R336) -/

/-- VECTOR_REGISTER_ERROR: found as the register is read; the lane's group is killed. The record's LOC is the core. -/
def execVectorRegisterError (uid lane reg : Nat) (s : State) : Host.Outcome State Fault Refusal :=
  match s.team? uid with
  | none => .next s
  | some t =>
    if t.retired || !t.live.getLsbD lane || t.vregs ≤ reg then .next s
    else .next ((s.errorRecord t.core (srcCore t.core) (some t.ctx) 0x01 2).killGroup uid (lane / 32) cPOISON)

/-- TEAM_STATE_ERROR: the team is killed whole. -/
def execTeamStateError (uid : Nat) (s : State) : Host.Outcome State Fault Refusal :=
  match s.team? uid with
  | none => .next s
  | some t =>
    if t.retired then .next s
    else .next ((s.errorRecord t.core (srcCore t.core) (some t.ctx) 0x02 3).killTeam uid cPOISON)

/-- SCRATCHPAD_ERROR: the sector is poisoned. The record names the context whose window holds it; its LOC is the sector's
address in the scratchpad. -/
def execScratchpadError (core sector : Nat) (s : State) : Host.Outcome State Fault Refusal :=
  let a := 16 * sector
  if 192 ≤ core || coreScratch ≤ a then .next s
  else
    let owner := s.allTeams.find? fun t =>
      t.core = core && t.window.held && t.window.base ≤ a && a < t.window.base + t.window.size + 4096
    let s : State := { s with scratchPoison := NSet.add s.scratchPoison (scratchKey core a / 16) }
    .next (s.errorRecord a (srcCore core) (owner.map (·.ctx)) 0x03 1)

/-- The line lies in memory: a tier's or the pool window's. -/
def lineExists (line : Nat) : Bool :=
  let a := 128 * line
  a < gddrSize || (lpddrBase ≤ a && a < lpddrBase + lpddrSize) || inPool a

/-- All eight sectors of a line are poisoned. -/
def State.poisonLine (s : State) (line : Nat) : State :=
  { s with poison := (List.range 8).foldl (fun p k => NSet.add p (8 * line + k)) s.poison }

/-- LLC_LINE_ERROR: a dirty line, poisoned whole. -/
def execLlcLineError (line : Nat) (s : State) : Host.Outcome State Fault Refusal :=
  if !lineExists line then .next s
  else .next ((s.poisonLine line).errorRecord (128 * line) srcNone none 0x04 1)

/-- DRAM_ERROR: a DRAM line, or a pool line that arrives with CXL poison. -/
def execDramError (line : Nat) (s : State) : Host.Outcome State Fault Refusal :=
  if !lineExists line then .next s
  else .next ((s.poisonLine line).errorRecord (128 * line) (srcLine (128 * line)) none 0x05 1)

/-- CLEAN_LINE_ERROR: a clean line of an L1 cache, or of the LLC for a number that is no core's, is dropped and fetched again.
R338 lists no class for its record: a free value (DESIGN CHOICE, log 4). -/
def execCleanLineError (core line : Nat) (s : State) : Host.Outcome State Fault Refusal :=
  let clean := if core < 192 then (NMap.find? (s.core core).l1 line).any (·.2 = 0) else NSet.mem s.llc line
  if !clean then .next s
  else
    let s : State := if core < 192 then s.onCore core fun c => { c with l1 := NMap.erase c.l1 line }
      else { s with llc := NSet.remove s.llc line }
    let (b, s) := s.freeBytes 1
    .next (s.errorRecord (128 * line) (if core < 192 then srcCore core else srcNone) none (leNat b) 0)

/-- Correctable errors of a unit that one record stands for. -/
def correctablePeriod : Nat := 4096

/-- CORRECTABLE_ERROR: corrected and counted. -/
def execCorrectableError (src : Nat) (s : State) : Host.Outcome State Fault Refusal :=
  let n := NMap.get s.corrected src 0 + 1
  let s : State := { s with corrected := NMap.set 0 s.corrected src (n % correctablePeriod) }
  .next (if n = correctablePeriod then s.errorFree (some src) none 0x0E 0 else s)

/-! ## Links (R338, R348) -/

/-- Retries before a link is reset, and retrains that may fail. -/
def linkRetries : Nat := 16
def linkRetrains : Nat := 3

/-- LINK_CRC_FAILURE: the flit is retried; after 16 retries the link is reset, and its traffic waits for the retrain. -/
def execLinkCrcFailure (link : Nat) (s : State) : Host.Outcome State Fault Refusal :=
  let n := NMap.get s.retries link 0
  if linkRetries < n then .next s
  else
    let s : State := { s with retries := NMap.insert s.retries link (n + 1) }
    .next (if n < linkRetries then s.errorRecord link srcNone none 0x08 4 (n + 1) else s.errorRecord link srcNone none 0x08 5 n)

/-- Resets every running partition that has one of the quads. -/
def State.resetQuads (s : State) (quads : List Nat) : State :=
  (s.partitions.filter fun p => p.2.pstate ≠ 0 && quads.any p.2.hasQuad).foldl (fun s p => s.resetPart p.1) s

/-- LINK_RETRAIN: a link under reset retrains and carries its traffic again, none of it lost; a third failure resets every
partition with a quad on its die. -/
def execLinkRetrain (link : Nat) (trained : Bool) (s : State) : Host.Outcome State Fault Refusal :=
  if NMap.get s.retries link 0 ≤ linkRetries then .next s
  else if trained then
    .next { s with retries := NMap.erase s.retries link, retrains := NMap.erase s.retrains link }
  else
    let n := NMap.get s.retrains link 0 + 1
    let s : State := { s with retrains := NMap.set 0 s.retrains link (n % linkRetrains) }
    .next (if n = linkRetrains then s.resetQuads ((List.range 12).map (12 * Config.linkDie link + ·)) else s)

/-! ## Queue cores and queue table entries (R342, 06 R94) -/

/-- The time the supervisor takes to move a halted core's queues: all of the 1 ms allowed (DESIGN CHOICE, log 3). -/
def reassignTime : Nat := us 1000

/-- QUEUE_CORE_IMEM_ERROR: the queue core halts, and its queues are to move. -/
def execQueueCoreImemError (qc : Nat) (s : State) : Host.Outcome State Fault Refusal :=
  if queueCores ≤ qc || NSet.mem s.firmware.haltedCores qc then .next s
  else
    let move := if s.firmware.toMove.contains qc then s.firmware.toMove else s.firmware.toMove ++ [qc]
    let s : State := { s with firmware := { s.firmware with haltedCores := NSet.add s.firmware.haltedCores qc, toMove := move } }
    .next ((s.errorFree (some (srcQueueCore qc)) none 0x09 8).later (s.time + reassignTime) .queueReassignment)

/-- Queues in all: one doorbell each. -/
def queueCount : Nat := 4096

/-- Queue core that the k-th moved queue goes to. -/
def nextQueueCore (left : List Nat) (k : Nat) : Nat := left.getD (k % left.length) 0

/-- A queue's new core takes up what the old one had under way: the packet at RDIDX is read again, a WAITVAL is evaluated
afresh, and DONE writes are made. -/
def State.takeOver (s : State) (q : Nat) : State :=
  if (NMap.find? s.queues q).isNone then s
  else
    let s := s.onQueue q fun x => { x with parked := none, dones := x.dones.map fun d => { d with parked := none } }
    let s := if (s.queue q).waiting.isSome then s.soon (.waitvalReevaluate q) else s.kickQueue q
    (s.queue q).dones.foldl (fun s d => s.soon (.doneWrite q d.pidx)) s

/-- QUEUE_REASSIGNMENT: the queues of the core that halted first move to the cores that remain, in ascending number, round-robin from the
lowest-numbered; they move though the core has been reloaded meanwhile. With no core that runs they wait for one. -/
def execQueueReassignment (s : State) : Host.Outcome State Fault Refusal :=
  match s.firmware.toMove with
  | [] => .next s
  | qc :: rest =>
    let up := (List.range queueCores).filter fun k => !NSet.mem s.firmware.haltedCores k
    let left := if up = [qc] then up else up.filter (· ≠ qc)
    if left.isEmpty then .next s
    else
      let mine := (List.range queueCount).filter fun q => s.queueCore q = qc
      let s : State := { s with firmware := { s.firmware with toMove := rest } }
      let s := mine.zipIdx.foldl (fun s q =>
        let s : State := { s with firmware := { s.firmware with moved := NMap.insert s.firmware.moved q.1 (nextQueueCore left q.2) } }
        s.takeOver q.1) s
      .next (if rest.isEmpty || s.expects (· == .queueReassignment) then s else s.soon .queueReassignment)

/-- QUEUE_TABLE_ERROR: the queue alone faults, and launches nothing of what it has handed to the MD (R94). -/
def execQueueTableError (q : Nat) (s : State) : Host.Outcome State Fault Refusal :=
  if queueCount ≤ q then .next s
  else
    let x := s.queue q
    let s := (s.onQueue q fun x => { x with qstate := 3 }).withdraw q
    .next (s.errorFree none (if x.rlog = 0 then none else some x.ctx) 0x0A 1)

/-! ## Clocks and rails (R338, 20 R366) -/

/-- A clock or rail fault of a quad: its partition is reset. -/
def State.quadFault (s : State) (quad : Nat) : State := (s.errorFree none none 0x0B 6).resetQuads [quad]

/-- QUAD_CLOCK_RAIL_FAULT. -/
def execQuadClockRailFault (quad : Nat) (s : State) : Host.Outcome State Fault Refusal :=
  .next (if 48 ≤ quad then s else s.quadFault quad)

/-- RAIL_FAULT: the rail has been more than 60 mV from its set point for 10 µs. -/
def execRailFault (quad : Nat) (s : State) : Host.Outcome State Fault Refusal :=
  .next (if 48 ≤ quad then s else s.quadFault quad)

/-- BASE_DIE_FAULT. -/
def execBaseDieFault (s : State) : Host.Outcome State Fault Refusal := .next s.stopDevice

/-! ## Engine reset (R348) -/

/-- ENGINE_RESET: every walk of the engine stops with cause 0x08, and its arrays are cleared; its sequence numbers go on. -/
def execEngineReset (quad : Nat) (s : State) : Host.Outcome State Fault Refusal :=
  let s := (s.mwe quad).walks.foldl (fun s w => s.abortWalk quad w.1) s
  .next (s.onMwe quad fun m => { ({} : Mwe) with engine := m.engine, since := s.time, badPes := m.badPes })

/-! ## The rotation scan (R343 to R346) -/

/-- Times of a scan, and of a drain before the core is skipped. -/
def scanTime : Nat := us 200
def drainTime : Nat := us 10000

/-- The core to be scanned next, and whether it is a queued scan: the rotation takes the cores in ascending number from where
it stands. -/
def State.scanPick (s : State) : Option (Nat × Bool) :=
  match s.scanQueue with
  | c :: _ => some (c, true)
  | [] => (((List.range 192).map fun k => (s.scanCore + k) % 192).find? fun c => (s.core c).scan = .inService).map (·, false)

/-- Nothing resides on a core. -/
def State.coreEmpty (s : State) (core : Nat) : Bool := !s.allTeams.any fun t => t.core = core && t.costs && !t.retired

/-- A drained core begins its scan. Whether the patterns pass is the device's (DESIGN CHOICE, log 3). -/
def State.tryScan (s : State) (core : Nat) : State :=
  if (s.core core).scan = .draining && s.coreEmpty core then
    let s := (s.onCore core fun c => { c with scan := .scanning, scanStart := s.gts }).cancel (· == .scanDrainTimeout core)
    s.later (s.time + scanTime) (.scanComplete core (s.choice % 2 = 0))
  else s

/-- Drained cores begin their scans. -/
def State.tryScans (s : State) : State := s.cores.foldl (fun s c => s.tryScan c.1) s

/-- ROTATION_SCAN_START: the next core is drained. -/
def execRotationScanStart (s : State) : Host.Outcome State Fault Refusal :=
  if s.scanBusy then .next s
  else match s.scanPick with
    | none => .next s
    | some (c, queued) =>
      let s : State := if queued then { s with scanQueue := s.scanQueue.drop 1 } else { s with scanCore := (c + 1) % 192 }
      if (s.core c).scan ≠ .inService then .next s.nextScan
      else
        let s := (s.onCore c fun x => { x with scan := .draining }).later (s.time + drainTime) (.scanDrainTimeout c)
        .next (s.tryScan c)

/-- SCAN_DRAIN_TIMEOUT: the core is skipped. -/
def execScanDrainTimeout (core : Nat) (s : State) : Host.Outcome State Fault Refusal :=
  if (s.core core).scan ≠ .draining then .next s
  else .next (((s.onCore core fun c => { c with scan := .inService }).offer core).nextScan)

/-- An entry of the completion log takes a CSTATE: in place if it is unconsumed, else by a further entry (23 R385). -/
def State.setCstate (s : State) (e : Completion) (v : Nat) : State :=
  let new := { e with cstate := v }
  let s := s.onLogs fun l => { l with provisional := l.provisional.erase e }
  match List.find? (fun p : Nat × Completion => s.logs.clrd ≤ p.1 && p.2 = e) s.logs.clWindow with
  | some (k, _) => s.onLogs fun l => { l with clWindow := NMap.insert l.clWindow k new }
  | none =>
    if s.logs.clHeld.contains e then s.onLogs fun l => { l with clHeld := l.clHeld.map fun x => if x = e then new else x }
    else s.logCompletion new

/-- A core has passed a scan that began after the grid's retirement. -/
def State.confirms (s : State) (e : Completion) (core : Nat) : Bool := e.gts < (s.core core).lastPassBegan

/-- SCAN_COMPLETE: a core that passes is back in service, and entries that waited for it may be confirmed; one that fails is
removed, and entries it has not confirmed are suspect. -/
def execScanComplete (core : Nat) (pass : Bool) (s : State) : Host.Outcome State Fault Refusal :=
  if (s.core core).scan ≠ .scanning then .next s
  else if pass then
    let s := s.onCore core fun c => { c with scan := .inService, lastPassBegan := c.scanStart, lastPass := s.gts }
    let done := s.logs.provisional.filter fun e => e.cores.all (s.confirms e)
    .next (((done.foldl (fun s e => s.setCstate e 1) s).offer core).nextScan)
  else
    let s := s.onCore core fun c => { c with scan := .removed }
    let s := s.errorRecord core (srcCore core) none 0x0D 7 (s.core core).lastPass
    let s : State := { s with grids := s.grids.map fun g => (g.1, { g.2 with reserves := g.2.reserves.filter (·.core ≠ core) }) }
    let bad := s.logs.provisional.filter fun e => NSet.mem e.cores core && !s.confirms e core
    .next ((bad.foldl (fun s e => s.setCstate e 2) s).nextScan)

/-! ## Resets of the ports (23 R382) -/

/-- Ends every context that satisfies a test. -/
def State.destroyAll (s : State) (p : Context → Bool) : State :=
  (s.contexts.filter fun c => p c.2).foldl (fun s c => s.destroyCtx c.1) s

/-- FUNCTION_LEVEL_RESET: of a virtual function, its contexts; of the physical function, every one. -/
def execFunctionLevelReset (fn : Nat) (s : State) : Host.Outcome State Fault Refusal :=
  .next (s.destroyAll fun c => fn = 0 || c.owner = fn)

/-- HOT_RESET: a hot reset or a link-down of the host port. -/
def execHotReset (s : State) : Host.Outcome State Fault Refusal := .next (s.destroyAll fun _ => true)

/-- A result in flight from the pool completes poisoned in its lanes. -/
def Regs.poisonPending (r : Regs) (p : Pending) : Regs :=
  if p.pool = 0 then r
  else if p.reg < 2 ^ 16 then
    let g := p.reg / 512; let n := p.reg % 512
    (GMask.list p.pool).foldl (fun r l => r.setV (32 * g + l) n (r.getV (32 * g + l) n) true) r
  else r.setS (p.reg - 2 ^ 16) (r.getS (p.reg - 2 ^ 16)) true

/-- FABRIC_LINK_DOWN: pool reads in flight complete poisoned. Dirty pool lines stay as they are. -/
def execFabricLinkDown (s : State) : Host.Outcome State Fault Refusal :=
  let s : State := { s with fabricUp := false }
  .next (s.cores.foldl (fun s c => c.2.pending.foldl (fun s p =>
    s.onTeam p.uid fun t => { t with regs := t.regs.poisonPending p }) s) s)

/-- FABRIC_LINK_RETRAIN. -/
def execFabricLinkRetrain (s : State) : Host.Outcome State Fault Refusal := .next { s with fabricUp := true }

/-! ## Bring-up (23 R388) -/

/-- The queue-core and scan images of the flash run if they pass R386; a queue core whose image does not, never runs, and
its queues move. -/
def State.startFirmware (s : State) : State :=
  let s := (List.range queueCores).foldl (fun s k =>
    let b := Config.flash (fwKey 2 k)
    { s with firmware := if fwOk s.firmware.minSvn 2 b then s.firmware.run 2 k b
        else { s.firmware with haltedCores := NSet.add s.firmware.haltedCores k, toMove := s.firmware.toMove ++ [k] } }) s
  let b := Config.flash (fwKey 3 0)
  let s : State := if fwOk s.firmware.minSvn 3 b then { s with firmware := s.firmware.run 3 0 b } else s
  if s.firmware.toMove.isEmpty then s else s.soon .queueReassignment

/-- PERST_RELEASE: if the boot ROM has read the supervisor's image whole and it passes R386, the DRAM tiers are zeroed, the tables have
their bases, every queue is free and the device is up; the STP waits for its first frame and the rotation for its first turn. Otherwise only
status bit 1 is set. What the flash holds is free (DESIGN CHOICE, log 105). -/
def execPerstRelease (verified : Bool) (s : State) : Host.Outcome State Fault Refusal :=
  let b := Config.flash (fwKey 1 0)
  if s.status ≠ 0 then .next s
  else if !(verified && fwOk s.firmware.minSvn 1 b) then .next { s with status := 2 }
  else
    let s : State := { s with
      mem := s.mem.filter fun c => inPool c.1
      poison := s.poison.filter fun k => inPool (16 * k)
      queues := s.queues.map fun q => (q.1, { q.2 with qstate := 0 })
      tableBase := Config.tableBase
      contextBase := Config.contextBase
      firmware := s.firmware.run 1 0 b
      status := 1 }
    .next ((s.startFirmware.later (s.time + lossTime) .stpLinkLoss).nextScan)

end Sys2Proof.Machine
end

