-- ==== Sys2Proof/Machine/FpAlu.lean ====
section
/-!
DEFINITION. The floating-point, conversion and packing instructions (10 R182 to R188).
-/
namespace Sys2Proof.Machine

/-- The template of 04 R72: an exact operation per element, inputs and result flushed with `.FTZ`, rounded once. -/
def fpOp (i : Instr) (f : Fields) (readsD : Bool) (mode : Rnd) (op : FV → FV → FV → FV) (s : State) :
    Host.Outcome State Fault Refusal :=
  let F := tyFmt f.ty
  let ftz := f.isp[4]
  let v (x : Nat) : FV := F.decode (F.flush ftz x)
  aluOp i f readsD (mapElems f.ty fun d a b => F.flush ftz (F.round mode f.sat (op (v d) (v a) (v b)))) s

/-- FADD (R182): a + b. -/
def execFadd (f : Fields) (s : State) := fpOp (.fadd f) f false f.rnd (fun _ a b => a.add f.rnd b) s
/-- FSUB (R182): a − b. -/
def execFsub (f : Fields) (s : State) := fpOp (.fsub f) f false f.rnd (fun _ a b => a.add f.rnd b.neg) s
/-- FMUL (R182): a × b. -/
def execFmul (f : Fields) (s : State) := fpOp (.fmul f) f false f.rnd (fun _ a b => a.mul b) s
/-- FMA (R182): d + a × b. -/
def execFma (f : Fields) (s : State) := fpOp (.fma f) f true f.rnd (fun d a b => d.add f.rnd (a.mul b)) s
/-- FMS (R182): d − a × b. -/
def execFms (f : Fields) (s : State) := fpOp (.fms f) f true f.rnd (fun d a b => d.add f.rnd (a.mul b).neg) s
/-- FDIV (R185): rounded once under RND. -/
def execFdiv (f : Fields) (s : State) := fpOp (.fdiv f) f false f.rnd (fun _ a b => FV.div 60 a b) s

/-- FRCP's and the roots' special inputs (R185). -/
def frcpVal (a : FV) : FV := FV.div 60 (.fin false 1 0) a
def fsqrtVal : FV → FV
  | .nan => .nan
  | .inf neg => if neg then .nan else .inf false
  | .fin neg m e => if m = 0 then .fin neg 0 0 else if neg then .nan else sqrtFin m e 60
def frsqVal : FV → FV
  | .nan => .nan
  | .inf neg => if neg then .nan else .fin false 0 0
  | .fin neg m e => if m = 0 then .inf neg else if neg then .nan else rsqrtFin m e 60
/-- FRCP, FRSQ, FSQRT, FEXP2, FLOG2, FSIN and FCOS (R185): the exact result rounded once with rne. -/
def execFrcp (f : Fields) (s : State) := fpOp (.frcp f) f false .rne (fun _ a _ => frcpVal a) s
def execFrsq (f : Fields) (s : State) := fpOp (.frsq f) f false .rne (fun _ a _ => frsqVal a) s
def execFsqrt (f : Fields) (s : State) := fpOp (.fsqrt f) f false .rne (fun _ a _ => fsqrtVal a) s
def execFexp2 (f : Fields) (s : State) := fpOp (.fexp2 f) f false .rne (fun _ a _ => fexp2 a) s
def execFlog2 (f : Fields) (s : State) := fpOp (.flog2 f) f false .rne (fun _ a _ => flog2 a) s
def execFsin (f : Fields) (s : State) := fpOp (.fsin f) f false .rne (fun _ a _ => fsincos false a) s
def execFcos (f : Fields) (s : State) := fpOp (.fcos f) f false .rne (fun _ a _ => fsincos true a) s

/-- An operation on values that gives an element of the same format unrounded (R183). -/
def fpSel (i : Instr) (f : Fields) (op : FV → FV → FV) (s : State) : Host.Outcome State Fault Refusal :=
  let F := tyFmt f.ty
  aluOp i f false (mapElems f.ty fun _ a b => F.round .rne false (op (F.decode a) (F.decode b))) s

/-- FMIN and FMAX (R183). -/
def execFmin (f : Fields) (s : State) := fpSel (.fmin f) f (FV.pick f.isp[0] false) s
def execFmax (f : Fields) (s : State) := fpSel (.fmax f) f (FV.pick f.isp[0] true) s
/-- FABS and FNEG (R183). -/
def execFabs (f : Fields) (s : State) := fpSel (.fabs f) f (fun a _ => if a.isNeg then a.neg else a) s
def execFneg (f : Fields) (s : State) := fpSel (.fneg f) f (fun a _ => a.neg) s
/-- FRND (R183). -/
def execFrnd (f : Fields) (s : State) := fpSel (.frnd f) f (fun a _ => a.integral f.rnd) s

/-- FCLASS (R183): the mask of each element in its own half, in one 32-bit register. -/
def fclassVal (t : Ty) (a : Nat) : Nat :=
  if elemN t = 2 then
    (tyFmt t).classMask (elemAt t a 0) + 2 ^ 16 * (tyFmt t).classMask (elemAt t a 1)
  else (tyFmt t).classMask a
def execFclass (f : Fields) (s : State) := aluOp (.fclass f) f false (fun _ a _ => fclassVal f.ty a) s

/-- FCMP (R184): in both elements of a packed type. -/
def fcmpVal (t : Ty) (code a b : Nat) : Bool :=
  (List.range (elemN t)).all fun e =>
    FV.cond code ((tyFmt t).decode (elemAt t a e)) ((tyFmt t).decode (elemAt t b e))
def execFcmp (f : Fields) (s : State) :=
  aluOp (.fcmp f) f false (fun _ a b => if fcmpVal f.ty (f.isp.toNat % 8) a b then 1 else 0) s

/-- A value times a power of two. -/
def FV.scale (b : Int) : FV → FV
  | .fin neg m e => .fin neg m (e + b)
  | x => x

/-- FSCALE (R182): a × 2^b, with b an I32, or the matching I16 half of a packed type. -/
def fscaleVal (t : Ty) (mode : Rnd) (sat : Bool) (a b : Nat) : Nat :=
  let F := tyFmt t
  let w := if elemN t = 2 then 16 else 32
  joinElems t ((List.range (elemN t)).map fun e =>
    F.round mode sat ((F.decode (elemAt t a e)).scale (signed w (bitsAt b (w * e) w))))
def execFscale (f : Fields) (s : State) := aluOp (.fscale f) f false (fun _ a b => fscaleVal f.ty f.rnd f.sat a b) s

/-- FADDMIN (R182): the lesser of d and the rounded sum. -/
def execFaddmin (f : Fields) (s : State) :=
  let F := tyFmt f.ty
  aluOp (.faddmin f) f true (mapElems f.ty fun d a b =>
    let x := F.decode (F.round f.rnd false ((F.decode a).add f.rnd (F.decode b)))
    F.round .rne false (FV.pick false false (F.decode d) x)) s

/-- Exact sum of three values, rounded by no step. -/
def FV.sum3 (x y z : FV) : FV := (x.add .rne y).add .rne z

/-- FDOT2 (R182): d + a₀b₀ + a₁b₁ in one F32, exactly and with one rounding. -/
def fdot2Val (t : Ty) (ftz : Bool) (d a b : Nat) : Nat :=
  let F := tyFmt t
  let v (x e : Nat) : FV := F.decode (F.flush ftz (elemAt t x e))
  let d' := fmtF32.decode (fmtF32.flush ftz d)
  fmtF32.flush ftz (fmtF32.round .rne false (d'.sum3 ((v a 0).mul (v b 0)) ((v a 1).mul (v b 1))))
def execFdot2 (f : Fields) (s : State) := aluOp (.fdot2 f) f true (fun d a b => fdot2Val f.ty f.isp[4] d a b) s

/-! ## CVT (10 R186) -/

/-- Width and signedness of a CVT integer code. -/
def cvtInt (c : Nat) : Option (Nat × Bool) :=
  match c with
  | 0 => some (32, true)
  | 1 => some (32, false)
  | 2 => some (64, true)
  | 3 => some (64, false)
  | _ => none

/-- Format of a CVT float code. -/
def cvtFmt (c : Nat) : Fmt :=
  match c with
  | 4 => fmtF64
  | 5 => fmtF32
  | 6 => fmtF16
  | 7 => fmtBF16
  | 8 => fmtE4M3
  | 9 => fmtE5M2
  | 10 => fmtE3M2
  | 11 => fmtE2M3
  | _ => fmtE2M1

/-- A value rounded to an integer and clamped to a range, NaN to 0 (R70). -/
def clampFloat (w : Nat) (sgn : Bool) (mode : Rnd) (x : FV) : Int :=
  match x with
  | .nan => 0
  | .inf neg => if neg then minInt sgn w else maxInt sgn w
  | y => clampInt (minInt sgn w) (maxInt sgn w) (y.toInt mode)

/-- One conversion (R186), of the source format's bits. `.SAT` takes an infinity to ±max where the conversion is exact too
(DEDUCED, log 75). -/
def cvtVal (dst src : Nat) (mode : Rnd) (sat : Bool) (a : Nat) : Nat :=
  match cvtInt dst, cvtInt src with
  | some (w, sgn), some (v, t) =>
    wrap w (clampInt (minInt sgn w) (maxInt sgn w) (if t then signed v (a % 2 ^ v) else ((a % 2 ^ v : Nat) : Int)))
  | some (w, sgn), none => wrap w (clampFloat w sgn mode ((cvtFmt src).decode (a % 2 ^ (cvtFmt src).width)))
  | none, some (v, t) =>
    (cvtFmt dst).round mode sat
      (FV.ofInt (if t then signed v (a % 2 ^ v) else ((a % 2 ^ v : Nat) : Int)) 0 false)
  | none, none => (cvtFmt dst).round mode sat ((cvtFmt src).decode (a % 2 ^ (cvtFmt src).width))
def execCvt (f : Fields) (s : State) :=
  aluOp (.cvt f) f false (fun _ a _ =>
    cvtVal (bitsAt f.imm.toNat 0 5) (bitsAt f.imm.toNat 8 5) f.rnd f.sat a) s

/-! ## Packing (10 R187, R188) -/

/-- The type's elements are floating-point. -/
def isFloat : Ty → Bool
  | .f32 | .f16x2 | .bf16x2 | .f64 => true
  | _ => false

/-- PACK's element from a 32-bit value (R187). -/
def packElem (t : Ty) (mode : Rnd) (sat : Bool) (x : Nat) : Nat :=
  if isFloat t then (tyFmt t).round mode sat (fmtF32.decode x)
  else fitW (isSigned t) sat 16 (if isSigned t then signed 32 x else (x : Int))
def execPack (f : Fields) (s : State) :=
  aluOp (.pack f) f false (fun _ a b =>
    joinElems f.ty [packElem f.ty f.rnd f.sat a, packElem f.ty f.rnd f.sat b]) s

/-- UNPACK (R187). -/
def unpackVal (t : Ty) (e a : Nat) : Nat :=
  if isFloat t then fmtF32.round .rne false ((tyFmt t).decode (elemAt t a e))
  else wrap 32 (intOf t (elemAt t a e))
def execUnpack (f : Fields) (s : State) :=
  aluOp (.unpack f) f false (fun _ a _ => unpackVal f.ty (f.isp.toNat % 2) a) s

/-- Mantissa bits of an SX type (R175). -/
def sxM (f : Fields) : Nat := f.isp.toNat % 8 + 2

/-- A lane's SXPACK result: mantissa code, zeros, block exponent (R188). -/
def sxWord (m eb : Nat) (mant : Int) : Nat := wrap m mant + 2 ^ 8 * eb

/-- SXPACK (R188): the block of a lane is its half or whole group word; inactive lanes supply 0. -/
def execSxpack (f : Fields) (s : State) : Host.Outcome State Fault Refusal :=
  let i : Instr := .sxpack f
  let m := sxM f
  let n := if f.isp[3] then 32 else 16
  if f.dst.isKind .s then
    scalarOp i f false (fun t r l =>
      let x := fmtF32.decode (t.src r f.sa 1 l)
      let b := sxEnc (x :: List.replicate (n - 1) (.fin false 0 0)) m
      { val := sxWord m b.1 (b.2.headD 0), bad := t.bad f.sa 1 l }) s
  else
    vectorOp i f false none (fun t r l =>
      let act := (Mask.lanesOf (t.split r.e).mask (l / 32)).filter (t.guard f.grd)
      let first := l / n * n
      let block := (List.range n).map (first + ·)
      let b := sxEnc (block.map fun k =>
        if act.contains k then fmtF32.decode (t.src r f.sa 1 k) else .fin false 0 0) m
      { val := sxWord m b.1 (b.2.getD (l - first) 0)
        bad := block.any fun k => act.contains k && t.bad f.sa 1 k }) s

/-- SXUNPACK (R188): M from bits [m−1:0], E from bits [15:8], exactly as F32. -/
def sxUnpackVal (m a : Nat) : Nat :=
  fmtF32.round .rne false (sxDec (bitsAt a 8 8) (signed m (bitsAt a 0 m)) m)
def execSxunpack (f : Fields) (s : State) :=
  aluOp (.sxunpack f) f false (fun _ a _ => sxUnpackVal (sxM f) a) s

end Sys2Proof.Machine
end

