-- ==== Sys2Proof/Machine/IntAlu.lean ====
section
/-!
DEFINITION. The integer and address instructions (10 R177 to R181).
-/
namespace Sys2Proof.Machine

/-- An element operation on integers, fitted to the type. -/
def intOp (i : Instr) (f : Fields) (readsD : Bool) (op : Int → Int → Int → Int) (s : State) :
    Host.Outcome State Fault Refusal :=
  aluOp i f readsD (mapElems f.ty fun d a b => fit f.ty f.sat (op (intOf f.ty d) (intOf f.ty a) (intOf f.ty b))) s

/-- ADD (R177): a + b. -/
def execAdd (f : Fields) (s : State) := intOp (.add f) f false (fun _ a b => a + b) s
/-- SUB (R177): a - b. -/
def execSub (f : Fields) (s : State) := intOp (.sub f) f false (fun _ a b => a - b) s
/-- MUL (R177): a × b. -/
def execMul (f : Fields) (s : State) := intOp (.mul f) f false (fun _ a b => a * b) s
/-- MULH (R177): bits [2W-1:W] of the product. -/
def execMulh (f : Fields) (s : State) := intOp (.mulh f) f false (fun _ a b => a * b / ((2 ^ elemW f.ty : Nat) : Int)) s
/-- MAD (R177): d + a × b. -/
def execMad (f : Fields) (s : State) := intOp (.mad f) f true (fun d a b => d + a * b) s
/-- ABS (R177). -/
def execAbs (f : Fields) (s : State) := intOp (.abs f) f false (fun _ a _ => (a.natAbs : Int)) s
/-- NEG (R177). -/
def execNeg (f : Fields) (s : State) := intOp (.neg f) f false (fun _ a _ => -a) s
/-- MIN (R177). -/
def execMin (f : Fields) (s : State) := intOp (.min f) f false (fun _ a b => if b < a then b else a) s
/-- MAX (R177). -/
def execMax (f : Fields) (s : State) := intOp (.max f) f false (fun _ a b => if a < b then b else a) s
/-- CLAMP (R177): min(max(d, a), b). -/
def execClamp (f : Fields) (s : State) :=
  intOp (.clamp f) f true (fun d a b => let m := if d < a then a else d; if b < m then b else m) s

/-- a + b fitted to the type, as ADDMIN and ADDMAX compare it with d (R177). -/
def fittedSum (f : Fields) (a b : Int) : Int := intOf f.ty (fit f.ty f.sat (a + b))
/-- ADDMIN (R177): min(d, a + b). -/
def execAddmin (f : Fields) (s : State) :=
  intOp (.addmin f) f true (fun d a b => let x := fittedSum f a b; if x < d then x else d) s
/-- ADDMAX (R177): max(d, a + b). -/
def execAddmax (f : Fields) (s : State) :=
  intOp (.addmax f) f true (fun d a b => let x := fittedSum f a b; if d < x then x else d) s

/-- SAD (R177): d + |a - b|; for a packed type d is one 32-bit register that takes the sum over all elements. -/
def sadVal (t : Ty) (d a b : Nat) : Nat :=
  ((List.range (elemN t)).foldl (fun acc e => acc + (intOf t (elemAt t a e) - intOf t (elemAt t b e)).natAbs) d) % 2 ^ 32
def execSad (f : Fields) (s : State) := aluOp (.sad f) f true (sadVal f.ty) s

/-- DOT4 and DOT2 (R177): d plus the products of corresponding elements, with d and the result 32 bits wide. -/
def dotVal (t : Ty) (sat : Bool) (d a b : Nat) : Nat :=
  let sgn := isSigned t
  let d0 : Int := if sgn then signed 32 d else (d : Int)
  fitW sgn sat 32 ((List.range (elemN t)).foldl
    (fun acc e => acc + intOf t (elemAt t a e) * intOf t (elemAt t b e)) d0)
def execDot4 (f : Fields) (s : State) := aluOp (.dot4 f) f true (dotVal f.ty f.sat) s
def execDot2 (f : Fields) (s : State) := aluOp (.dot2 f) f true (dotVal f.ty f.sat) s

/-- DIV at its limits and elsewhere (R179). -/
def divVal (t : Ty) (a b : Nat) : Nat :=
  if b = 0 then 2 ^ elemW t - 1
  else wrap (elemW t) (Int.tdiv (intOf t a) (intOf t b))
/-- REM at its limits and elsewhere (R179). -/
def remVal (t : Ty) (a b : Nat) : Nat :=
  if b = 0 then a else wrap (elemW t) (Int.tmod (intOf t a) (intOf t b))
def execDiv (f : Fields) (s : State) := aluOp (.div f) f false (fun _ a b => divVal f.ty a b) s
def execRem (f : Fields) (s : State) := aluOp (.rem f) f false (fun _ a b => remVal f.ty a b) s

/-- ADDC and SUBB (R178): the carry is read from and written to predicate n. -/
def carryOp (i : Instr) (f : Fields) (op : Nat → Nat → Nat → Bool → Nat × Bool) (s : State) :
    Host.Outcome State Fault Refusal :=
  let n := f.imm.toNat % 16
  let w := elemW f.ty
  let k := f.ty.words
  let fn : Team → Rd → Nat → LaneOut := fun t r l =>
    let x := op w (t.src r f.sa k l) (t.src r f.sb k l) (t.regs.getP l n)
    { val := x.1, bad := t.bad f.sa k l || t.bad f.sb k l || t.regs.badP l n, pred := some (n, x.2) }
  if f.dst.isKind .s then scalarOp i f true fn s else vectorOp i f true (some n) fn s
def execAddc (f : Fields) (s : State) := carryOp (.addc f) f addCarry s
def execSubb (f : Fields) (s : State) := carryOp (.subb f) f subBorrow s

/-- The complement of `w` bits. -/
def notW (w a : Nat) : Nat := 2 ^ w - 1 - a % 2 ^ w
def execAnd (f : Fields) (s : State) := aluOp (.and f) f false (fun _ a b => a &&& b) s
def execOr (f : Fields) (s : State) := aluOp (.or f) f false (fun _ a b => a ||| b) s
def execXor (f : Fields) (s : State) := aluOp (.xor f) f false (fun _ a b => a ^^^ b) s
/-- ANDN (R180): a and not b. -/
def execAndn (f : Fields) (s : State) := aluOp (.andn f) f false (fun _ a b => a &&& notW (elemW f.ty) b) s
def execNot (f : Fields) (s : State) := aluOp (.not f) f false (fun _ a _ => notW (elemW f.ty) a) s

/-- SHL, SHR, SAR and ROTL (R180); an amount of W or more gives 0, 0, the sign and b mod W. -/
def shlVal (w a b : Nat) : Nat := if w ≤ b then 0 else a * 2 ^ b % 2 ^ w
def shrVal (w a b : Nat) : Nat := if w ≤ b then 0 else a / 2 ^ b
def sarVal (w a b : Nat) : Nat := wrap w (signed w a / ((2 ^ (if w ≤ b then w else b) : Nat) : Int))
def rotlVal (w a b : Nat) : Nat := let n := b % w; (a * 2 ^ n + a / 2 ^ (w - n)) % 2 ^ w
def execShl (f : Fields) (s : State) := aluOp (.shl f) f false (mapElems f.ty fun _ a b => shlVal (elemW f.ty) a b) s
def execShr (f : Fields) (s : State) := aluOp (.shr f) f false (mapElems f.ty fun _ a b => shrVal (elemW f.ty) a b) s
def execSar (f : Fields) (s : State) := aluOp (.sar f) f false (mapElems f.ty fun _ a b => sarVal (elemW f.ty) a b) s
def execRotl (f : Fields) (s : State) := aluOp (.rotl f) f false (mapElems f.ty fun _ a b => rotlVal (elemW f.ty) a b) s

/-- FUNSH (R180): the 64-bit value b:a shifted left or right by n. -/
def funshVal (right : Bool) (n a b : Nat) : Nat :=
  let x := b * 2 ^ 32 + a
  if right then x / 2 ^ n % 2 ^ 32 else x * 2 ^ n / 2 ^ 32 % 2 ^ 32
def execFunsh (f : Fields) (s : State) :=
  aluOp (.funsh f) f false (fun _ a b => funshVal f.isp[0] (f.imm.toNat % 64) a b) s

/-- Set bits, leading zeros, trailing zeros and bit reversal of `w` bits (R180). -/
def popcVal (w a : Nat) : Nat := ((List.range w).filter fun k => a.testBit k).length
def clzVal (w a : Nat) : Nat := w - (match (List.range w).reverse.find? fun k => a.testBit k with | some k => k + 1 | none => 0)
def ctzVal (w a : Nat) : Nat := ((List.range w).find? fun k => a.testBit k).getD w
def brevVal (w a : Nat) : Nat := (List.range w).foldl (fun x k => x * 2 + (if a.testBit k then 1 else 0)) 0
def execPopc (f : Fields) (s : State) := aluOp (.popc f) f false (fun _ a _ => popcVal (elemW f.ty) a) s
def execClz (f : Fields) (s : State) := aluOp (.clz f) f false (fun _ a _ => clzVal (elemW f.ty) a) s
def execCtz (f : Fields) (s : State) := aluOp (.ctz f) f false (fun _ a _ => ctzVal (elemW f.ty) a) s
def execBrev (f : Fields) (s : State) := aluOp (.brev f) f false (fun _ a _ => brevVal (elemW f.ty) a) s

/-- The low `n` bits, extended to `w` bits by the type's signedness (R180). -/
def extendBits (t : Ty) (n a : Nat) : Nat :=
  let x := a % 2 ^ n
  if isSigned t then wrap (elemW t) (signed n x) else x
/-- BFX (R180): bits [pos + len - 1 : pos] of a. -/
def execBfx (f : Fields) (s : State) :=
  let pos := bitsAt f.imm.toNat 0 6; let len := bitsAt f.imm.toNat 8 6
  aluOp (.bfx f) f false (fun _ a _ => extendBits f.ty len (a / 2 ^ pos)) s
/-- BFI (R180): bits [pos + len - 1 : pos] of d replaced. -/
def bfiVal (pos len d a : Nat) : Nat :=
  d % 2 ^ pos + 2 ^ pos * (a % 2 ^ len) + 2 ^ (pos + len) * (d / 2 ^ (pos + len))
def execBfi (f : Fields) (s : State) :=
  let pos := bitsAt f.imm.toNat 0 6; let len := bitsAt f.imm.toNat 8 6
  aluOp (.bfi f) f true (fun d a _ => bfiVal pos len d a) s
/-- EXT (R180): the low 8, 16 or 32 bits. -/
def execExt (f : Fields) (s : State) :=
  aluOp (.ext f) f false (fun _ a _ => extendBits f.ty (8 * 2 ^ f.isp.toNat) a) s
/-- LEA (R180): a + (b << n). -/
def execLea (f : Fields) (s : State) :=
  let n := f.imm.toNat % 32
  aluOp (.lea f) f false (fun _ a b => (a + b * 2 ^ n) % 2 ^ elemW f.ty) s

/-- CMP (R181): 1 when the condition holds. -/
def execCmp (f : Fields) (s : State) :=
  aluOp (.cmp f) f false (fun _ a b => if cmpElems f.ty (f.isp.toNat % 8) a b then 1 else 0) s

/-- SEL (R181): a where predicate n is 1, else b. -/
def execSel (f : Fields) (s : State) :=
  let n := f.imm.toNat % 16
  let k := f.ty.words
  vectorOp (.sel f) f true none (fun t r l =>
    { val := if t.regs.getP l n then t.src r f.sa k l else t.src r f.sb k l
      bad := t.bad f.sa k l || t.bad f.sb k l || t.regs.badP l n }) s

end Sys2Proof.Machine
end

