-- ==== Sys2Proof/Machine/Lanes.lean ====
section
/-!
DEFINITION. The instructions of lanes and movement (10 R189 to R196) and REGROUP (09 R167 to R169).
-/
namespace Sys2Proof.Machine

/-! ## Moves (R189) -/

/-- MOV: copies a. -/
def execMov (f : Fields) (s : State) := aluOp (.mov f) f false (fun _ a _ => a) s
/-- MOVI: writes IMM extended by the type. -/
def execMovi (f : Fields) (s : State) := aluOp (.movi f) f false (fun _ _ _ => immValue f.ty f.imm) s
/-- MOVHI: replaces bits [31:24] of a U32, or [47:24] or [63:48] of a U64. -/
def movhiVal (wide b48 : Bool) (imm d : Nat) : Nat :=
  if b48 then d % 2 ^ 48 + imm % 2 ^ 16 * 2 ^ 48
  else if wide then d % 2 ^ 24 + imm * 2 ^ 24 + d / 2 ^ 48 * 2 ^ 48
  else d % 2 ^ 24 + imm % 2 ^ 8 * 2 ^ 24
def execMovhi (f : Fields) (s : State) :=
  aluOp (.movhi f) f true (fun d _ _ => movhiVal (f.ty = .u64) f.isp[0] f.imm.toNat d) s

/-! ## One named lane (R190) -/

/-- BCAST: a of lane n of the lane's own group word. -/
def execBcast (f : Fields) (s : State) : Host.Outcome State Fault Refusal :=
  let k := f.ty.words
  vectorOp (.bcast f) f false none (fun t r l =>
    let j := 32 * (l / 32) + f.imm.toNat % 32
    { val := t.src r f.sa k j, bad := t.bad f.sa k j }) s

/-- RDLANE: a of team lane n, to s. -/
def execRdlane (f : Fields) (s : State) : Host.Outcome State Fault Refusal :=
  let k := f.ty.words
  let n := f.imm.toNat % 1024
  scalarFrom (.rdlane f) f false (fun _ _ => [n / 32]) (fun t _ r _ =>
    { val := t.src r f.sa k n, bad := t.bad f.sa k n }) s

/-- WRLANE: a into d of team lane n, when lane n is an active lane of the split. Its one pass is on that lane's group. -/
def execWrlane (f : Fields) (s : State) : Host.Outcome State Fault Refusal :=
  let k := f.ty.words
  let n := f.imm.toNat % 1024
  vectorForm (.wrlane f) f { sel := fun _ m => m &&& Mask.one n } false none (fun _ _ t r l =>
    { val := t.src r f.sa k l, bad := t.bad f.sa k l }) s

/-! ## Exchanges (R191) -/

/-- The source lane for position `l` of `top` positions: its own where the rule gives one outside them. -/
def shuffleSource (mode top l b : Nat) (team : Bool) : Nat :=
  let j : Int := match mode with
    | 0 => (l : Int) - b
    | 1 => (l : Int) + b
    | 2 => ((l ^^^ (b % 32) : Nat) : Int)
    | _ => if team then (b : Int) else ((b % 32 : Nat) : Int)
  if 0 ≤ j && j < top then j.toNat else l

/-- SHFL: within the group word. -/
def execShfl (f : Fields) (s : State) : Host.Outcome State Fault Refusal :=
  let k := f.ty.words
  vectorOp (.shfl f) f false none (fun t r l =>
    let j := 32 * (l / 32) + shuffleSource (f.isp.toNat % 4) 32 (l % 32) (t.src r f.sb 1 l) false
    { val := t.src r f.sa k j, bad := t.bad f.sa k j || t.bad f.sb 1 l }) s

/-- The lane that TSHFL takes the value of a lane from. -/
def Team.tshflSource (t : Team) (r : Rd) (l : Nat) : Nat :=
  shuffleSource (r.f.isp.toNat % 4) t.lanes l (t.src r r.f.sb 1 l) true

/-- The gate of a pass of TSHFL: a is read in the groups of its lanes' sources, which a REGROUP of another split may be moving
(R169, R189). While b is empty the sources are not known. -/
def Team.tshflGate (t : Team) (time : Nat) (r : Rd) (g : Nat) : Gate :=
  let f := r.f
  let k := f.ty.words
  let ls := (Mask.lanesOf (t.split r.e).mask g).filter (t.guard f.grd)
  if t.isEmpty 1 g f.sb then (if f.feB then .trap 1 else .block)
  else
    let srcs := distinct (ls.map fun l => t.tshflSource r l / 32)
    let moving (x : Split) : Bool := match x.moving with
      | some (u, gs) => time < u && srcs.any gs.getLsbD
      | none => false
    if srcs.any fun h => t.isEmpty k h f.sa then (if f.feA then .trap 0 else .block)
    else if t.isEmpty k g f.dst || t.entries.any fun e => e ≠ r.e && moving (t.split e) then .block
    else .go

/-- TSHFL: within the team. -/
def execTshfl (f : Fields) (s : State) : Host.Outcome State Fault Refusal :=
  let k := f.ty.words
  let i : Instr := .tshfl f
  let gate (s : State) (t : Team) (g : Nat) : Gate :=
    t.tshflGate s.time { gts := s.gts, e := (s.cur.map (·.e)).getD 0, i := i, f := f } g
  vectorForm i f { gate := some gate } false none (fun _ _ t r l =>
    let j := t.tshflSource r l
    { val := t.src r f.sa k j, bad := t.bad f.sa k j || t.bad f.sb 1 l }) s

/-! ## Combinations over lanes (R192, R193) -/

/-- The lanes VOTE, SCAN and REDUCE count for a lane: the active lanes `m` of its pass, or of the whole split with .TEAM. -/
def countedLanes (t : Team) (e : Nat) (g : Guard) (team : Bool) (m : Mask) (lane : Nat) : List Nat :=
  if team then (Mask.list (t.split e).mask).filter (t.guard g) else (Mask.lanesOf m (lane / 32)).filter (t.guard g)

/-- The word of a predicate's bits in a group's counted lanes. -/
def ballot (ls : List Nat) (group : Nat) (a : Nat → Bool) : Nat :=
  ((ls.filter fun l => l / 32 = group && a l).map fun l => 2 ^ (l % 32)).foldl (· + ·) 0

/-- VOTE (R192). -/
def execVote (f : Fields) (s : State) : Host.Outcome State Fault Refusal :=
  let team := f.isp[2]
  vectorForm (.vote f) f {} false none (fun start m t r l =>
    let u := if team then start else t
    let ls := countedLanes u r.e f.grd team m l
    let a (k : Nat) : Bool := u.src r f.sa 1 k = 1
    let v : Nat := match f.isp.toNat % 4 with
      | 0 => if ls.any a then 1 else 0
      | 1 => if ls.all a then 1 else 0
      | _ => ballot ls (if team then l % 32 else l / 32) a
    { val := v, bad := ls.any (u.bad f.sa 1) }) s

/-- One combining step of R193 on bits of a type. -/
def combine (t : Ty) (op x y : Nat) : Nat :=
  let w := elemW t
  if t = .f32 then
    let a := fmtF32.decode x
    let b := fmtF32.decode y
    fmtF32.round .rne false (if op = 0 then a.add .rne b else FV.pick false (op = 2) a b)
  else match op with
    | 0 => (x + y) % 2 ^ w
    | 1 => if intOf t y < intOf t x then y else x
    | 2 => if intOf t x < intOf t y then y else x
    | 3 => x &&& y
    | 4 => x ||| y
    | _ => x ^^^ y

/-- The identity that the first counted lane of SCAN.EXC receives (R193). -/
def scanIdentity (t : Ty) (op : Nat) : Nat :=
  let w := elemW t
  match op with
  | 1 => if t = .f32 then fmtF32.infBits else wrap w (maxInt (isSigned t) w)
  | 2 => if t = .f32 then fmtF32.signBit true + fmtF32.infBits else wrap w (minInt (isSigned t) w)
  | 3 => 2 ^ w - 1
  | _ => 0

/-- The combination of a list of values in order; a NaN is canonical (04 R55). -/
def combineAll (t : Ty) (op : Nat) : List Nat → Nat
  | [] => scanIdentity t op
  | x :: rest =>
    rest.foldl (combine t op) (if t = .f32 then fmtF32.round .rne false (fmtF32.decode x) else x)

/-- The gate of a pass of SCAN and REDUCE: with .TEAM it reads `a` in the groups that have no pass to come too (R192). -/
def countedGate (i : Instr) (f : Fields) (s : State) (t : Team) (g : Nat) : Gate :=
  match t.gate g (readsOf i f) [(f.dst, i.widths.1)], s.cur with
  | .go, some c =>
    let others := (t.activeIn f.grd (t.split c.e).mask (GMask.list (Mask.groups (t.split c.e).mask &&& ~~~ Mask.groups (c.due t))))
    if f.isp[4] && others.any fun h => t.isEmpty i.widths.2.1 h f.sa then (if f.feA then .trap 0 else .block) else .go
  | x, _ => x

/-- SCAN (R193). -/
def execScan (f : Fields) (s : State) : Host.Outcome State Fault Refusal :=
  let k := f.ty.words
  let team := f.isp[4]
  vectorForm (.scan f) f { gate := some (countedGate (.scan f) f) } false none (fun start m t r l =>
    let u := if team then start else t
    let ls := (countedLanes u r.e f.grd team m l).filter fun j => if f.isp[3] then j < l else j ≤ l
    { val := combineAll f.ty (f.isp.toNat % 8) (ls.map (u.src r f.sa k)), bad := ls.any (u.bad f.sa k) }) s

/-- REDUCE (R193): the scalar form combines all the split's active lanes. -/
def execReduce (f : Fields) (s : State) : Host.Outcome State Fault Refusal :=
  let k := f.ty.words
  let value (u : Team) (r : Rd) (ls : List Nat) : LaneOut :=
    { val := combineAll f.ty (f.isp.toNat % 8) (ls.map (u.src r f.sa k)), bad := ls.any (u.bad f.sa k) }
  if f.dst.isKind .s then
    scalarFrom (.reduce f) f false (fun _ m => GMask.list (Mask.groups m)) (fun t m r _ =>
      value t r (Mask.list m)) s
  else
    let team := f.isp[4]
    vectorForm (.reduce f) f { gate := some (countedGate (.reduce f) f) } false none (fun start m t r l =>
      let u := if team then start else t
      value u r (countedLanes u r.e f.grd team m l)) s

/-- PRMT (R194): byte k of d by selector nibble k. -/
def prmtVal (imm a b : Nat) : Nat :=
  let x := b * 2 ^ 32 + a
  ((List.range 4).map fun k =>
    let nib := bitsAt imm (4 * k) 4
    let byte := bitsAt x (8 * (nib % 8)) 8
    2 ^ (8 * k) * (if nib < 8 then byte else if 128 ≤ byte then 255 else 0)).foldl (· + ·) 0
def execPrmt (f : Fields) (s : State) := aluOp (.prmt f) f false (fun _ a b => prmtVal f.imm.toNat a b) s

/-! ## Link stacks (R195) -/

/-- Depth limit of a link stack. -/
def linkMax : Nat := 16

/-- WRSP: pushes a onto each active lane's link stack. -/
def execWrsp (f : Fields) (s : State) : Host.Outcome State Fault Refusal :=
  let i : Instr := .wrsp f
  issue i f s fun c t =>
    let all := c.lanes t
    let m := t.guarded f.grd all
    let r : Rd := { gts := s.gts, e := c.e, i := i, f := f }
    s.gated c t (fun u g => u.gate g (readsOf i f) []) m false <|
      match (Mask.list m).filter fun l => linkMax ≤ (t.regs.link l).length with
      | [] =>
        let regs := (Mask.list m).foldl (fun q l =>
          q.setLink l (.ofNat 64 (t.src r f.sa 2 l) :: q.link l)) t.regs
        let read : Mask := if f.grd ≠ .always then all else if opndIsReg f.sa then m else 0
        let bad := Mask.ofList ((Mask.list m).filter (t.bad f.sa 2)) ||| t.guardPoison f.grd all
        (s.setTeam { t with regs := regs.setFlag read bad }).finish c
      | bad => s.trapLanes c cILLOP bad (fun _ => 0)

/-- RDSP: pops each active lane's top entry into d; the scalar form copies the lowest lane's top to s. -/
def execRdsp (f : Fields) (s : State) : Host.Outcome State Fault Refusal :=
  let i : Instr := .rdsp f
  match f.dst with
  | .s n =>
    uniform i f s fun c t l =>
      if t.regs.emptyS n.toNat then s.wait c .wait .regs
      else match t.regs.link l with
        | [] => s.trapLowest c t cILLOP 0
        | x :: _ => (s.setTeam { t with regs := t.regs.setS n.toNat x false }).finishRead c f
  | _ =>
    issue i f s fun c t =>
      let all := c.lanes t
      let m := t.guarded f.grd all
      let gp := t.guardPoison f.grd all
      s.gated c t (fun u g => u.gate g [] [(f.dst, 2)]) (m ||| gp) false <|
        match (Mask.list m).filter fun l => (t.regs.link l).isEmpty with
        | [] =>
          let t' := (Mask.list m).foldl (fun (t' : Team) l =>
            let x := (t'.regs.link l).headD 0
            let t' := { t' with regs := t'.regs.setLink l (t'.regs.link l).tail }
            t'.putLane f.dst 2 l { val := x.toNat, bad := Mask.has gp l }) t
          let t' := (Mask.list (gp &&& ~~~m)).foldl (fun (t' : Team) l => t'.taintLane f.dst 2 l none) t'
          let t' := if f.grd = .always then t' else { t' with regs := t'.regs.setFlag all gp }
          (s.setTeam t').finish c
        | bad => s.trapLanes c cILLOP bad (fun _ => 0)

/-! ## REGROUP (09 R167 to R169, 10 R196) -/

/-- Groups of a mask that hold no live lane outside it. -/
def Team.ownGroups (t : Team) (m : Mask) : List Nat :=
  (GMask.list (Mask.groups m)).filter fun g => Mask.word t.live g &&& ~~~ Mask.word m g = 0

/-- Moves the registers and predicates of a lane, with their poison, to another position (R168). -/
def Regs.moveLane (old : Regs) (vregs : Nat) (r : Regs) (src dst : Nat) : Regs :=
  let r := (List.range vregs).foldl (fun r n => r.setV dst n (old.getV src n) (old.badV src n)) r
  (List.range 12).foldl (fun r n => r.setP dst n (old.getP src n) (old.badP src n)) r

/-- REGROUP's new positions: the lanes of the split in `own`, each with its new place. -/
def regroupPlan (m : Mask) (own : List Nat) : List (Nat × Nat) :=
  let ls := own.flatMap (Mask.lanesOf m)
  (List.range ls.length).zip ls |>.map fun p => (p.2, 32 * own.getD (p.1 / 32) 0 + p.1 % 32)

/-- The groups that receive a lane from another position: their number is D of R169. -/
def regroupGroups (plan : List (Nat × Nat)) : Nat :=
  (distinct ((plan.filter fun p => p.1 ≠ p.2).map fun p => p.2 / 32)).length

/-- Cycles that REGROUP keeps its slot (R169). -/
def Team.regroupCycles (t : Team) (m : Mask) : Nat := 8 + t.vregs * regroupGroups (regroupPlan m (t.ownGroups m))

/-- The team after REGROUP of split `e` at a time; `bad` says that the guard bit of its lowest lane is poisoned, which poisons what
that lane moves (19 R334). `$poison` stays with the lane position (DESIGN CHOICE, log 90). -/
def Team.regroup (t : Team) (e time : Nat) (bad : Bool) : Team :=
  let m := (t.split e).mask
  let own := t.ownGroups m
  let plan := regroupPlan m own
  let moved := plan.filter fun p => p.1 ≠ p.2
  let regs := moved.foldl (fun r p => t.regs.moveLane t.vregs r p.1 p.2) t.regs
  let regs := if bad then (moved.filter fun p => some p.1 = Mask.lowest m).foldl (fun r p =>
      let r := (List.range t.vregs).foldl (fun (r : Regs) n => r.setV p.2 n (r.getV p.2 n) true) r
      (List.range 12).foldl (fun (r : Regs) n => r.setP p.2 n (r.getP p.2 n) true) r) regs else regs
  let regs := plan.foldl (fun (r : Regs) p => r.setOrig p.2 p.1) regs
  let inOwn := own.foldl (fun (a : GMask) g => a ||| GMask.one g) 0
  let stay := m &&& ~~~ Mask.inGroups m inOwn
  let n := t.regroupCycles m
  let new := stay ||| Mask.ofList (plan.map (·.2))
  { (t.widenLog m new).onSplit e fun x => { x with mask := new, stall := n - 1, moving := some (time + cycles n, inOwn) } with
    regs := regs }

/-- REGROUP waits: a vector register of the wholly owned groups is empty, or a lane of them is logged (R168). -/
def State.regroupWaits (s : State) (t : Team) (m : Mask) : Bool :=
  (t.ownGroups m).any fun g =>
    (List.range t.vregs).any (t.regs.emptyV g) || Mask.word (s.loggedLanes t) g &&& Mask.word m g ≠ 0

/-- REGROUP: ILLOP if a lane of its wholly owned groups, live or not, has a link stack; waits while a vector register of them is empty
or a lane of them is logged; keeps its issue slot while it moves. -/
def execRegroup (f : Fields) (s : State) : Host.Outcome State Fault Refusal :=
  uniform (.regroup f) f s fun c t l =>
    let m := (t.split c.e).mask
    let own := t.ownGroups m
    if own.any fun g => (List.range 32).any fun k => !(t.regs.link (32 * g + k)).isEmpty then s.trapAll c t cILLOP
    else if s.regroupWaits t m then s.wait c .wait .regs
    else
      let bad := t.guardBad f.grd l
      let t' := (t.flagAll f m bad).regroup c.e s.time bad
      let s := (s.setTeam t').onCore t.core fun k => { k with kept := NMap.insert k.kept k.ctrlSlot (s.time + cycles (t.regroupCycles m)) }
      s.finish { c with mask := (t'.split c.e).mask }

end Sys2Proof.Machine
end

