-- ==== Sys2Proof/Machine/Wake.lean ====
section
/-!
DEFINITION. A write that makes a table entry valid wakes the accesses parked on it: the operand log's replay, fetches, copies,
walks, queue cores, the host's accesses and the replay slot (08 R138, R140, R144 to R147).
-/
namespace Sys2Proof.Machine

/-! ## The operand log's entries (R144) -/

/-- The entry of a number in a core's operand log. -/
def State.logEntry? (s : State) (core id : Nat) : Option LogEntry := (s.core core).oplog.find? (·.id = id)
def State.onLogEntry (s : State) (core id : Nat) (f : LogEntry → LogEntry) : State :=
  s.onCore core fun c => { c with oplog := c.oplog.map fun x => if x.id = id then f x else x }

/-- A recorded lane has performed: it leaves its entry, which is freed when no lane is left, and once the last lane of its group
has left, the destination there is full. -/
def State.lanePerformed (s : State) (core id lane : Nat) (dst : Opnd) (k : Nat) : State :=
  match s.logEntry? core id with
  | none => s
  | some x =>
    let left := x.lanes.filter (·.lane ≠ lane)
    let s := s.onCore core fun c =>
      { c with oplog := (c.oplog.map fun y => if y.id = id then { y with lanes := left } else y).filter fun y =>
          !y.lanes.isEmpty }
    if left.any (·.lane / 32 = lane / 32) then s else s.markFull core x.uid (pendingKeys dst k [lane / 32])

/-- A recorded lane meets an invalid entry again: it parks in the same entry. -/
def State.parkAgain (s : State) (core id : Nat) (t : Team) (k : AKind) (va level entry : Nat) : State :=
  (s.onLogEntry core id fun x =>
    { x with entries := (x.entries.filter fun e => s.armed.contains (t.ctx, e, srcCore t.core) && e ≠ entry) ++ [entry] }).parkWalks
    t.ctx (srcCore t.core) [({ va := va, level := level, entry := entry }, k)]

/-- A lane waits: for a page under migration, or for room at an engine. -/
def State.replayLater (s : State) (x : LogEntry) : State :=
  let e := x.entries.headD 0
  { s with woken := NSet.add s.woken e }.later (s.time + cycles 8) (.parkedAccessWake (e / 128))

/-- A recorded lane consumes poison: its group is killed, and with a scalar form every group of the split that issued it (19 R336). -/
def State.eatLogged (s : State) (t : Team) (e : LogEntry) (f : Fields) (lane : Nat) : State :=
  s.killGroups t.uid (if scalarForm f then GMask.list (Mask.groups (e.mask &&& t.live)) else [lane / 32]) cPOISON

/-- ACCSPILL or ACCFILL has performed: the split that it has held goes on (18 R327). -/
def State.spillOver (s : State) (t : Team) (lane : Nat) : State :=
  match t.splitOf lane with
  | some k => match (t.split k).state, (t.split k).waiting with
    | .blocked, .spill => s.pastIt t.uid k
    | _, _ => s
  | none => s

/-- The kind of a copy that an instruction posts. -/
def copyKind : Instr → Nat
  | .bcopy _ => 1
  | .btile _ => 2
  | .bmcast _ => 3
  | .bfill _ => 4
  | _ => 5

/-- A parked post is tried again. -/
def State.replayPost (s : State) (core id : Nat) (t : Team) (e : LogEntry) (x : LogLane) (r : PostResult) : State × Bool :=
  match r with
  | .wait => (s.replayLater e, false)
  | .park va l n => (s.parkAgain core id t .read va l n, false)
  | .done s => (s.lanePerformed core id x.lane .none 0, true)

/-- A parked ACCSPILL or ACCFILL is tried again. -/
def State.replaySpill (s : State) (core : Nat) (t : Team) (e : LogEntry) (x : LogLane) (k : AKind) (r : SpillResult) : State × Bool :=
  match r with
  | .trap cls _ => (s.killGroup t.uid (x.lane / 32) cls, true)
  | .wait => (s.replayLater e, false)
  | .park va l n => (s.parkAgain core e.id t k va l n, false)
  | .done s => ((s.lanePerformed core e.id x.lane .none 0).spillOver t x.lane, true)

/-- Performs the lowest recorded lane of an entry from its recorded values; whether the next one follows. A trap class kills the
lane's group. -/
def State.replayLane (s : State) (core id : Nat) (t : Team) (e : LogEntry) (x : LogLane) (i : Instr) (f : Fields) :
    State × Bool :=
  match i with
  | .stash _ =>
    let a := x.data.toNat; let b := x.ea.toNat; let n := f.imm.toNat
    let o := (s.windowTeam t).getD t
    match stashError o a b n with
    | some (cls, _) => (s.killGroup t.uid (x.lane / 32) cls, true)
    | none =>
      let s := s.recallWalk t.ctx (t.xlat s) .read b (16 * n)
      match s.rangeFault t.ctx (t.xlat s) .read b (16 * n) with
      | some (.trap cls _ _ _) => (s.killGroup t.uid (x.lane / 32) cls, true)
      | some (.park va l n) => (s.parkAgain core id t .read va l n, false)
      | none => ((s.onTeam o.uid fun t => t.mapStash a b n).lanePerformed core id x.lane .none 0, true)
  | .bcopy _ | .btile _ | .bmcast _ | .bfill _ | .bgather _ =>
    s.replayPost core id t e x (s.postCopy t (copyKind i) (hOf f.dst) x.ea.toNat e.gather)
  | .walk _ => s.replayPost core id t e x (s.postWalk t (hOf f.dst) x.ea.toNat)
  | .accspill _ => s.replaySpill core t e x .write (s.accSpill t x.data.toNat x.ea)
  | .accfill _ => s.replaySpill core t e x .read (s.accFill t x.data.toNat x.ea)
  | _ =>
    match s.checkLane t i x.ea.toNat with
    | .error (.trap cls _ _ _) => (s.killGroup t.uid (x.lane / 32) cls, true)
    | .error (.park va l n) => (s.parkAgain core id t (memKind i) va l n, false)
    | .ok keys =>
      let writes := !memScratch i && memKind i ≠ .read
      if writes && x.poison && keys.any inPool then (s.eatLogged t e f x.lane, true)
      else if writes && keys.any s.locked then (s.replayLater e, false)
      else
        let (s, v, bad) := s.performLane t i x keys
        let s := if memScratch i then s else s.keepAccess t.ctx (t.xlat s) (memKind i) x.ea.toNat (memWidth i)
        ((s.putRead t.uid i f x keys v bad).lanePerformed core id x.lane f.dst i.widths.1, true)

/-- The recorded lane that comes first. -/
def LogEntry.first (e : LogEntry) : Option LogLane :=
  e.lanes.foldl (fun b x => match b with
    | some y => if x.lane < y.lane then some x else b
    | none => some x) none

/-- Replays an entry, lane by lane. -/
def State.replayEntry (core id : Nat) : Nat → State → State
  | 0, s => s
  | n + 1, s =>
    match s.logEntry? core id with
    | none => s
    | some e =>
      match s.team? e.uid, decode e.word, e.first with
      | some t, .ok i, some x =>
        match i.fields? with
        | some f =>
          match s.replayLane core id t e x i f with
          | (s, true) => s.replayEntry core id n
          | (s, false) => s
        | none => s
      | _, _, _ => s.onCore core fun c => { c with oplog := c.oplog.filter (·.id ≠ id) }

/-- Replays the woken entries of a core's operand log. -/
def State.replayLog (s : State) (core : Nat) (woken : Nat → Bool) : State :=
  ((s.core core).oplog.filter fun e => e.entries.any woken).foldl (fun s e =>
    (s.replayEntry core e.id (e.lanes.length + 1)).settleTeam e.uid) s

/-! ## The other parked accesses -/

/-- Fetches that were parked go on (R146). -/
def State.wakeFetches (s : State) (woken : Nat → Bool) : State :=
  let go (x : Split) : Split := match x.waiting with
    | .fetch e => if x.state = .blocked && woken e then { x with state := .ready, waiting := .retry } else x
    | _ => x
  { s with teams := s.teams.map fun p => (p.1, { p.2 with splits := p.2.splits.map go }) }

/-- Copies that were parked go on. -/
def State.wakeCopies (s : State) (woken : Nat → Bool) : State :=
  s.cores.foldl (fun s c => (c.2.copies.filter fun k => k.parked.any woken).foldl (fun s k =>
    let k := { k with parked := [] }
    (s.onCore c.1 fun x => { x with copies := x.copies.map fun y => if y.seq = k.seq then k else y }).pushCopy c.1 k 1) s) s

/-- A walk's parked cursor or scale access, and its parked fetches, go on. -/
def State.wakeWalk (s : State) (q rte : Nat) (w : Walk) (woken : Nat → Bool) : State :=
  let s := if w.parked.any woken then
      let s := s.onWalk q rte fun w => { w with parked := none }
      if w.state = .queued then s.kickQueued q
      else if w.state = .saving then (s.soon (.walkSave q rte)).kickArray q
      else s.kickArray q
    else s
  (w.ops.filter fun o => o.parked.any woken).foldl (fun s o =>
    let s := s.onWalk q rte fun w =>
      w.onOp (fun p => p.sideB = o.sideB && p.ordinal = o.ordinal) fun p => { p with parked := none }
    match o.slot with
    | some n => s.soon (.fetcherFillDone q rte n)
    | none => s) s

def State.wakeWalks (s : State) (woken : Nat → Bool) : State :=
  s.mwes.foldl (fun s m => m.2.walks.foldl (fun s w => s.wakeWalk m.1 w.1 w.2 woken) s) s

/-- A queue core's parked access to a queue goes on. -/
def State.wakeQueues (s : State) (woken : Nat → Bool) : State :=
  s.queues.foldl (fun s q =>
    let s := if q.2.parked.any woken then
        let s := s.onQueue q.1 fun x => { x with parked := none }
        if q.2.waiting.isSome then s.soon (.waitvalReevaluate q.1) else s.kickQueue q.1
      else s
    (q.2.dones.filter fun d => d.parked.any woken).foldl (fun s d =>
      let free (x : Done) : Done := if x = d then { x with parked := none } else x
      (s.onQueue q.1 fun x => { x with dones := x.dones.map free }).soon (.doneWrite q.1 d.pidx)) s) s

/-- The host's parked accesses go on. -/
def State.wakeHost (s : State) (woken : Nat → Bool) : State :=
  if s.functions.any fun f => f.2.posted.any (·.entry.any woken) || f.2.reads.any (·.entry.any woken) then s.hostProgress woken
  else s

/-- PARKED_ACCESS_WAKE: after a write to a line that left entries of it valid, every access parked on those walks again. -/
def execParkedAccessWake (line : Nat) (s : State) : Host.Outcome State Fault Refusal :=
  let woken (e : Nat) : Bool := e / 128 = line && NSet.mem s.woken e
  let s : State := { s with armed := s.armed.filter fun a => !woken a.2.1, woken := s.woken.filter fun e => !woken e }
  let s := s.cores.foldl (fun s c => s.replayLog c.1 woken) s
  let s := ((((s.wakeFetches woken).wakeCopies woken).wakeWalks woken).wakeQueues woken).wakeHost woken
  .next (if s.power.slotParked.any woken then
      (s.onPower fun p => { p with slotParked := none }).soon .replaySlotRead else s)

end Sys2Proof.Machine
end

