-- ==== Sys2Proof/Machine/Scheduler.lean ====
section
/-!
DEFINITION. The quad scheduler: a cycle's refill of the allowance, the waits that end, and the choice of the splits that fill
the issue slots; block-entry holds, the kite and trap frames (09 R153, R160 to R165, R170 to R172, 18 R310, 20 R361, R364).
-/
namespace Sys2Proof.Machine

/-! ## Pipe classes (09 R153, 13 R224, 16 R291, 18 R307) -/

inductive PipeClass where
  | vec | f64 | sfu | mem | ctrl | uni
  deriving DecidableEq, Repr

/-- The pipe class of an instruction. -/
def pipeClass (i : Instr) (f : Fields) : PipeClass :=
  match i with
  | .bra _ | .brx _ | .call _ | .ret _ | .exit _ | .yield _ | .nop _ | .loop _ | .safept _ | .critEnter _ | .critExit _
  | .regroup _ | .trap _ | .bkpt _ => .ctrl
  | .bgather _ => .mem
  | .ld _ | .st _ | .lds _ | .sts _ | .atom _ | .atoms _ | .red _ | .pref _ | .cctl _ | .amsg _ | .cont _ | .emit _
  | .waitmon _ => if scalarForm f then .uni else .mem
  | .frcp _ | .frsq _ | .fsqrt _ | .fexp2 _ | .flog2 _ | .fsin _ | .fcos _ | .fdiv _ =>
    if f.dst.isKind .s then .uni else .sfu
  | .cvt g =>
    if f.dst.isKind .s then .uni else if g.imm.toNat % 32 = 4 || bitsAt g.imm.toNat 8 5 = 4 then .f64 else .vec
  | i =>
    if (i.opc?.getD 0x1FF).toNat < 0xC0 && !f.dst.isKind .s then (if f.ty = .f64 then .f64 else .vec) else .uni

/-- Classes that permit co-issue. -/
def PipeClass.joins : PipeClass → Bool
  | .vec | .f64 | .sfu | .mem => true
  | .ctrl | .uni => false

/-- Allowance cost of a pass, or of an instruction without passes (20 R361). -/
def PipeClass.cost : PipeClass → Nat
  | .vec => 2
  | .f64 => 8
  | .sfu => 4
  | .mem => 3
  | .ctrl | .uni => 1

/-- The word of the instruction that a split stands at: the one it has begun, else the one at its PC, if it can be fetched. -/
def State.nextWord (s : State) (t : Team) (e : Nat) : Option Word96 :=
  let x := t.split e
  match x.word with
  | some w => if x.did ≠ 0 || x.passed ≠ 0 then some w else s.wordAt t x.pc
  | none => s.wordAt t x.pc

/-- The instruction that a split stands at, if there is one. -/
def State.nextInstr (s : State) (t : Team) (e : Nat) : Option (Instr × Fields) :=
  match (s.nextWord t e).map decode with
  | some (.ok i) => i.fields?.map fun f => (i, f)
  | _ => none

/-! ## Passes (R152) -/

/-- The groups on which a split's next instruction has passes to come. -/
def Split.toPass (x : Split) : List Nat := GMask.list (Mask.groups x.due &&& ~~~ x.passed)

/-- The instruction acts for all its lanes when its last pass issues: it reads lanes of every group, traps before any lane changes, or
is one operation for all of them (DESIGN CHOICE, log 79). -/
def whole (i : Instr) : Bool :=
  match i with
  | .vote f => f.isp[2]
  | .scan f => f.isp[4]
  | .reduce f => f.isp[4]
  | .wrsp _ | .rdsp _ | .waitmon _ | .bgather _ | .amsg _ | .cont _ | .emit _ => true
  | _ => false

/-- The group of the pass of an instruction that a split issues next; none if the instruction has no passes. WRLANE has one, on its lane's
group (10 R190). -/
def nextPass (i : Instr) (f : Fields) (x : Split) : Option Nat :=
  if !(pipeClass i f).joins then none
  else match i with
    | .wrlane f => some (f.imm.toNat % 1024 / 32)
    | _ => some (x.toPass.headD 0)

/-- The instruction's last pass is next, or it has no passes: nothing of it remains after this issue. -/
def lastPass (i : Instr) (f : Fields) (x : Split) : Bool :=
  !(pipeClass i f).joins || x.toPass.length ≤ 1 || match i with
    | .wrlane _ => true
    | _ => false

/-- The groups for which an issue performs the instruction: that of its pass; all that are left with the last pass, with no passes, and
for a whole instruction; none for an earlier pass of a whole one. -/
def passGroups (i : Instr) (f : Fields) (x : Split) : GMask :=
  if lastPass i f x then .allOnes 32
  else if whole i then 0
  else GMask.one (x.toPass.headD 0)

/-! ## What holds a split (08 R142, R143, R148, R149, 02 R25) -/

/-- The operand log holds the split. -/
def State.waitsLog (s : State) (t : Team) (e : Nat) : Bool := (s.nextInstr t e).any fun x => s.logHolds t e x.1

/-- The registers that an instruction reads as sources. -/
def sourceReads (i : Instr) (f : Fields) : List Read :=
  match i with
  | .amsg _ | .cont _ | .emit _ => recordReads f
  | .waitmon _ => monReads f
  | _ => readsOf i f

/-- The guard of the instruction is read in the split's lowest lane alone (R166). -/
def lowGuard (i : Instr) (f : Fields) : Bool :=
  pipeClass i f = .uni || match i with
    | .loop _ | .safept _ | .critEnter _ | .critExit _ | .regroup _ => true
    | _ => false

/-- The groups whose registers a uniform instruction of lowest lane `low` reads. -/
def lowGroups (i : Instr) (f : Fields) (low : Nat) (m : Mask) : List Nat :=
  match i with
  | .rdlane _ => [f.imm.toNat % 1024 / 32]
  | .reduce _ => GMask.list (Mask.groups m)
  | _ => [low / 32]

/-- A vector or scalar register that an instruction reads or writes is empty, so that the split waits for it. -/
def State.waitsRegs (s : State) (t : Team) (e : Nat) : Bool :=
  if t.kind = .kite then false
  else match s.nextInstr t e with
    | none => false
    | some (i, f) =>
      let m := (t.split e).due
      let low := (Mask.lowest m).getD 0
      let gate (g : Nat) : Gate := match i with
        | .tshfl _ => t.tshflGate s.time { gts := s.gts, e := e, i := i, f := f } g
        | _ => t.gate g (sourceReads i f) [(f.dst, i.widths.1)]
      let blocks (gs : List Nat) : Bool := match firstGate gate gs with
        | some (_, .block) => true
        | _ => false
      match i with
      | .chkw _ => t.guard f.grd low && !t.reenters (s.hPending t f.sa).1 && blocks (lowGroups i f low m)
      | .regroup _ => t.guard f.grd low && s.regroupWaits t (t.split e).mask
      | _ =>
        if lowGuard i f then t.guard f.grd low && blocks (lowGroups i f low m)
        else blocks (t.activeIn f.grd m (GMask.list (Mask.groups m))) ||
          (GMask.list (Mask.groups (t.guardPoison f.grd m))).any fun g => t.isEmpty i.widths.1 g f.dst

/-- Results that are due are written: their registers are full (10 R176). -/
def State.fillDue (s : State) : State :=
  s.cores.foldl (fun s c =>
    let due := c.2.pending.filter (·.due ≤ s.time)
    if due.isEmpty then s
    else
      let s := s.onCore c.1 fun x => { x with pending := x.pending.filter fun p => s.time < p.due }
      due.foldl (fun s p => s.markFull c.1 p.uid [p.reg]) s) s

/-! ## Waits that end -/

/-- The issue that a split waits in. -/
def Team.curAt (t : Team) (e : Nat) : Cur :=
  let x := t.split e
  { uid := t.uid, e := e, pc := x.pc, word := x.word.getD 0, groups := .allOnes 32, mask := x.mask, replay := none, shared := false }

/-- A split in WAIT for room for its records tries again for those of its lanes (16 R300). -/
def State.sendAgain (s : State) (t : Team) (e : Nat) (rs : List (Nat × Nat × Record)) : State :=
  match s.sendSome (rs.filter fun r => Mask.has (t.split e).mask r.1) with
  | (s, []) => s.pastIt t.uid e
  | (s, rest) => s.onSplit t.uid e fun x => { x with waiting := .send rest }

/-- A split whose WAITMON lanes were parked waits in BLOCKED once they have all read their words. -/
def State.monitorAgain (s : State) (t : Team) (e : Nat) : State :=
  if s.splitParked t e then s
  else (s.onSplit t.uid e fun x => { x with state := .blocked }).monitorCheck t.uid e

/-- A READY split whose instruction is performed for all its lanes moves on; one whose STALL count, registers or operand log hold it is
in WAIT, unless it is held at a block entry (R155, R160). -/
def State.pollReady (s : State) (t : Team) (e : Nat) : State :=
  let x := t.split e
  let wait (w : Waiting) : State := s.onSplit t.uid e fun x => { x with state := .wait, waiting := w }
  if x.due = 0 && x.did ≠ 0 then s.pastIt t.uid e
  else if s.entryHolds t e then s
  else if x.stall ≠ 0 then wait .stall
  else if s.waitsLog t e then wait .log
  else if s.waitsRegs t e then wait .regs
  else s

/-- The token's job has completed; a post still parked has not (13 R240). -/
def State.futureOver (s : State) (t : Team) (k : U64) : Bool :=
  if k = 0 then !t.regs.hEmpty.any fun n => t.regs.getH n = 0 else s.completed t.ctx k

/-- The issue of a group that is replayed. -/
def GTrap.cur (y : GTrap) (t : Team) (g huid he : Nat) : Cur :=
  { uid := t.uid, e := y.split, pc := y.pc, word := y.word, groups := GMask.one g, mask := (t.split y.split).mask
    replay := some (g, huid, he), shared := false }

/-- What a replayed group waits for: whether its pass has ended, or none if it must issue again to know. -/
def State.replayOver (s : State) (t : Team) (y : GTrap) (c : Cur) : Option Bool :=
  if y.replayed then some true
  else match y.pend with
    | some (.sleep u) => some (u ≤ s.time || s.preempting t.ctx)
    | some (.bar n false) => match NMap.find? t.barriers n with
      | some b => if b.arrived &&& c.lanes t = 0 then some true else if b.abandoned then none else some false
      | none => some true
    | some (.cbar false) =>
      let b := s.cbarOf t
      if NMap.get b.arrived t.uid 0 &&& c.lanes t = 0 then some true else if b.abandoned then none else some false
    | some (.monitor _) => some (s.preempting t.ctx || monDone (c.lanes t) (t.split y.split).mon)
    | _ => none

/-- A handler that waits for a replayed group goes on once the group has left TRAP; until then the group is tried again, for what it
waits for or for room (18 R315). -/
def State.pollReplay (s : State) (t : Team) (e uid g : Nat) : State :=
  match s.team? uid with
  | none => s.pastIt t.uid e
  | some x => match NMap.find? x.traps g with
    | none => s.pastIt t.uid e
    | some y =>
      let c := y.cur x g t.uid e
      let s := match y.pend with
        | some (.cbar false) => s.testCbar uid
        | _ => s
      match (s.team? uid).bind fun x => s.replayOver x y c with
      | some true => s.endReplay c
      | some false => s
      | none => match y.pend with
        | some (.send rs) => s.sendAll c rs
        | _ =>
          if s.issueQ.any fun k => k.replay = some (g, t.uid, e) then s
          else { s with issueQ := s.issueQ ++ [{ uid := uid, e := y.split, joined := false, replay := some (g, t.uid, e) }] }

/-- Looks at what a split waits for: it goes on past the instruction, or is READY at it, if it has come. -/
def State.poll (s : State) (uid e : Nat) : State :=
  match s.team? uid with
  | none => s
  | some t =>
    let x := t.split e
    let again (b : Bool) : State := if b then s.onSplit uid e fun x => { x with state := .ready } else s
    let past (b : Bool) : State := if b then s.pastIt uid e else s
    match x.state, x.waiting with
    | .wait, .retry => again true
    | .wait, .stall => again (x.stall = 0)
    | .wait, .regs => again (!s.waitsRegs t e)
    | .wait, .log => again (!s.waitsLog t e)
    | .wait, .safept n =>
      if !s.preempting t.ctx then s.pastIt uid e else if s.allSettled t then s.safePoint (t.curAt e) n else s
    | .wait, .doomed cls n => s.trapAll (t.curAt e) t cls n
    | .wait, .send rs => s.sendAgain t e rs
    | .wait, .monitor _ => s.monitorAgain t e
    | .wait, .replay u g | .blocked, .replay u g => s.pollReplay t e u g
    | .blocked, .future k => if k = 0 then again (s.futureOver t k) else past (s.futureOver t k)
    | .blocked, .chunks k n m => if k = 0 then again (s.futureOver t k) else past (s.futureOver t k || s.chunksThere t.ctx k n m)
    | .blocked, .cbar _ => s.testCbar uid
    | .blocked, .monitor _ => s.monitorCheck uid e
    | .blocked, .spill => past (!s.splitParked t e)
    | .blocked, .sleep u => past (u ≤ s.time || s.preempting t.ctx)
    | .ready, _ => s.pollReady t e
    | _, _ => s

/-- Polls every split, but for those of teams that are out: what ends there takes effect at their restore (18 R324). -/
def State.pollAll (s : State) : State :=
  s.allTeams.foldl (fun s t => if t.retired || t.isOut then s else t.entries.foldl (fun s e => s.poll t.uid e) s) s

/-! ## The kite (R170 to R172) -/

/-- The registers a kite copies: of one group word and of the low scalars. -/
def Regs.kite (r : Regs) (g : Nat) : Regs :=
  let v (k : Nat) : Bool := k / 512 / 32 = g && k % 512 < 32
  let p (k : Nat) : Bool := k / 16 / 32 = g
  { v := r.v.filter fun x => v x.1, vPoison := r.vPoison.filter v
    vEmpty := r.vEmpty.filter fun k => k / 512 = g && k % 512 < 32
    s := r.s.filter (·.1 < 16), sPoison := r.sPoison.filter (· < 16), sEmpty := r.sEmpty.filter (· < 16)
    p := r.p.filter p, pPoison := r.pPoison.filter p }

/-- STOP of the slice that starts at an address, for a team that may have a kite and has none. -/
def State.sliceAt (s : State) (t : Team) (pc : U64) : Option U64 :=
  match s.grid? t.grid with
  | none => none
  | some g =>
    if g.image.hflags % 2 = 0 || t.mode ≠ .user || s.allTeams.any (fun x => x.kind = .kite && x.kiteOf = t.uid) then none
    else (g.image.slices.find? fun p => t.image + .ofNat 64 p.1 = pc).map fun p => t.image + .ofNat 64 p.2

/-- The core spawns a kite for a split that issues at the start of a slice, or does not, as it chooses (DESIGN CHOICE, log 3). -/
def State.spawnKite (s : State) (t : Team) (e : Nat) : State :=
  let x := t.split e
  match s.sliceAt t x.pc, Mask.lowest x.mask with
  | some stop, some l =>
    if x.did ≠ 0 || x.passed ≠ 0 || s.choice % 2 = 0 || s.classShed t.prio || s.preempting t.ctx || !t.traps.isEmpty then s
    else
      let g := l / 32
      let (uid, s) := s.fresh
      let split : Split := { state := .ready, pc := x.pc, age := s.gts, mask := Mask.ofWord g (Mask.word x.mask g) }
      let k : Team := { t with
        uid := uid, kind := .kite, slots := [], vregs := Nat.min 32 t.vregs, sregs := Nat.min 16 t.sregs
        regs := t.regs.kite g, splits := [split], frontier := [], barriers := [], debug := 0, attach := 0, traps := [], stops := []
        stashes := [], grant := none, reserve := false, saved := none, kiteOf := t.uid, kiteStop := stop, born := s.time
        shedAt := none, notify := none }
      (s.setTeam k).later (s.time + cycles 4096) (.kiteTimeout uid)
  | _, _ => s

/-- KITE_TIMEOUT. -/
def execKiteTimeout (uid : Nat) (s : State) : Host.Outcome State Fault Refusal :=
  match s.team? uid with
  | some t => .next (if t.kind = .kite then s.dropTeam uid else s)
  | none => .next s

/-- The class of a team: a kite's is that which its team has now (R171). -/
def State.classOf (s : State) (t : Team) : Nat :=
  if t.kind = .kite then ((s.team? t.kiteOf).map (·.prio)).getD t.prio else t.prio

/-- Kites end at STOP, and when their team is shed or gone. -/
def State.endOldKites (s : State) : State :=
  s.allTeams.foldl (fun s k =>
    if k.kind = .kite && ((k.split 0).pc = k.kiteStop || s.classShed (s.classOf k) || !(s.team? k.kiteOf).any fun t => !t.retired)
    then s.dropTeam k.uid else s) s

/-! ## Which splits may issue (R164, 07 R122) -/

/-- A team of the grid below this one is out, so that this one does not run (07 R122). The teams of a LAUNCH are ranked, not handler
teams, which share one `$team` (DEDUCED, log 62). -/
def State.belowOut (s : State) (t : Team) : Bool :=
  t.kind == .grid && s.allTeams.any fun x =>
    x.grid = t.grid && x.kind == .grid && x.team.toNat < t.team.toNat && !x.retired &&
      (x.out = .held || (x.out = .saved && x.slots.isEmpty))

/-- The team issues at all. -/
def State.runs (s : State) (t : Team) : Bool :=
  t.started && !t.retired && (t.out = .in_ || t.out = .saving || t.out = .restoring) && !s.belowOut t

/-- WAITC from which a split is urgent. -/
def urgentAt : Nat := 1024

/-- A split in E: its team and entry, the class and group of the pass it issues, and its place in the order. -/
structure Cand where
  uid : Nat
  e : Nat
  cls : PipeClass
  /-- the group of its next pass; none for a class without passes -/
  group : Option Nat
  /-- FDIV.F64, which holds the special-function unit longer -/
  slow : Bool
  kite : Bool
  key : List Nat
  deriving DecidableEq, Repr

/-- Lexicographic order. -/
def lexBefore : List Nat → List Nat → Bool
  | a :: as, b :: bs => a < b || (a = b && lexBefore as bs)
  | _, _ => false

def insertCand (c : Cand) : List Cand → List Cand
  | [] => [c]
  | d :: ds => if lexBefore c.key d.key then c :: d :: ds else d :: insertCand c ds

/-- The split as a member of E, if it is one, under a cut class. A word that cannot be decoded issues too: it traps. -/
def State.cand (s : State) (cut : Nat) (t : Team) (e : Nat) : Option Cand :=
  let x := t.split e
  if x.state ≠ .ready || x.stall ≠ 0 || s.heldAtEntry t e then none
  else
    let urgent := urgentAt ≤ x.waitc
    let free := t.notify.isSome
    let kite := t.kind = .kite
    let prio := s.classOf t
    if !free && cut < prio && (kite || !urgent || s.classShed prio) then none
    else
      let n (b : Bool) : Nat := if b then 1 else 0
      let (cls, group, slow) := match s.nextInstr t e with
        | some (i, f) => (pipeClass i f, nextPass i f x, (match i with | .fdiv g => g.ty == .f64 | _ => false))
        | none => (.ctrl, none, false)
      some {
        uid := t.uid, e := e, cls := cls, group := group, slow := slow, kite := kite
        key := [n kite, n x.yld, n (!urgent), (if urgent then 65535 - x.waitc else 0), prio, t.lastIssue, x.pc.toNat,
          x.age, t.slots.headD 0] }

/-- E of a core, in order; kites come last, into the slots that are left (R171). -/
def State.cands (s : State) (core cut : Nat) : List Cand :=
  (s.allTeams.filter fun t => t.core = core && s.runs t).foldl (fun l t =>
    t.entries.foldl (fun l e => match s.cand cut t e with
      | some c => insertCand c l
      | none => l) l) []

/-! ## Filling the slots (R153, R161) -/

/-- A pass or instruction chosen: the split it belongs to, and the one that shares the pass (R161). -/
structure Pick where
  main : Cand
  slot : Nat
  joined : Option Cand := none
  deriving DecidableEq, Repr

/-- The slots of a core in a cycle: the numbers of those left, each with whether its vector pipe is free; the units in use; and what is
chosen, in order. -/
structure Slots where
  left : List (Nat × Bool) := (List.range 4).map fun k => (k, true)
  mem : Bool := false
  sfu : Bool := false
  ctrl : Bool := false
  uni : Bool := false
  picked : List Pick := []

/-- A split may share a pass that has been chosen: one of its team, class and group that nothing shares yet (R161). -/
def Pick.takes (p : Pick) (c : Cand) : Bool :=
  p.joined.isNone && p.main.uid = c.uid && p.main.cls = c.cls && c.cls.joins && p.main.group = c.group

/-- Puts a split into the first pass it may share. -/
def joinPick (c : Cand) : List Pick → Option (List Pick)
  | [] => none
  | p :: rest => if p.takes c then some ({ p with joined := some c } :: rest) else (joinPick c rest).map (p :: ·)

/-- The slot that a pass or instruction of a class goes to, if its unit accepts it: one whose own vector pipe is free for the classes
that use it; for the others, one whose pipe is held if there is one. -/
def Slots.slotFor (k : Slots) (c : PipeClass) : Option Nat :=
  let other : Option Nat := ((k.left.find? fun x => !x.2) <|> k.left.head?).map (·.1)
  match c with
  | .vec | .f64 => (k.left.find? (·.2)).map (·.1)
  | .sfu => if k.sfu then none else other
  | .mem => if k.mem then none else other
  | .ctrl => if k.ctrl then none else other
  | .uni => if k.uni then none else other

/-- Takes a split if a chosen pass can be shared, or a slot and its unit are free (R153, R164). -/
def Slots.take (k : Slots) (c : Cand) : Slots :=
  match joinPick c k.picked, k.slotFor c.cls with
  | some ps, _ => { k with picked := ps }
  | none, none => k
  | none, some n => { k with
      left := k.left.filter (·.1 ≠ n)
      mem := k.mem || c.cls = .mem, sfu := k.sfu || c.cls = .sfu, ctrl := k.ctrl || c.cls = .ctrl, uni := k.uni || c.cls = .uni
      picked := k.picked ++ [{ main := c, slot := n }] }

/-- A pass holds FDIV.F64 in some lane. -/
def Pick.slow (p : Pick) : Bool := p.main.slow || p.joined.any (·.slow)

/-- The allowance of a quad pays for what is issued, and saturates (20 R361). -/
def State.charge (s : State) (quad n : Nat) : State :=
  s.onQuadPower quad fun p => { p with alw := max (-(2 ^ 31)) (p.alw - n) }

/-- What an issue costs: a slot of its team's notify-only grant, while one is left, or else its quad's allowance (20 R361, R364). -/
def State.pay (s : State) (uid core : Nat) (cls : PipeClass) : State :=
  match (s.team? uid).bind (·.notify) with
  | some (left + 1, endsAt) => s.onTeam uid fun t => { t with notify := some (left, endsAt) }
  | _ => s.charge (quadOf core) cls.cost

/-- Notify-only grants whose slots are spent have ended, once the last of them has issued (20 R364). -/
def State.endSpent (s : State) : State :=
  s.allTeams.foldl (fun s t => if t.notify.any (·.1 = 0) then
      (s.onTeam t.uid fun t => { t with notify := none }).cancel (· == .notifyGrantExpiry t.uid)
    else s) s

/-- A chosen split issues: its place in the queue, and its team's times. -/
def State.issueCand (s : State) (c : Cand) (joined : Bool) : State :=
  let s := match s.team? c.uid with
    | some t => if c.kite then s else s.spawnKite t c.e
    | none => s
  let s := s.onTeam c.uid fun t =>
    { t.onSplit c.e (fun x => { x with waitc := 0, yld := false }) with lastIssue := s.cycle }
  { s with issueQ := s.issueQ ++ [{ uid := c.uid, e := c.e, joined := joined, replay := none }] }

/-- A pass or instruction issues, with its unit's time and its cost; a split that shares it costs nothing more (20 R361, R364). -/
def State.issuePick (s : State) (core : Nat) (p : Pick) : State :=
  let c := p.main
  let s := s.onCore core fun x => match c.cls with
    | .sfu => { x with sfuBusy := s.time + cycles (if p.slow then 8 else 4) }
    | .f64 => { x with pipes := NMap.insert x.pipes p.slot (s.time + cycles 4) }
    | .ctrl => { x with ctrlSlot := p.slot }
    | _ => x
  let s := s.pay c.uid core c.cls
  let s := s.issueCand c false
  match p.joined with
  | some d => s.issueCand d true
  | none => s

/-- The slots of a core at the start of a cycle: a REGROUP keeps one, an F64 pass its vector pipe (R153, R169). -/
def State.freeUnits (s : State) (core : Nat) : Slots :=
  let x := s.core core
  let free (m : NMap Nat) (k : Nat) : Bool := NMap.get m k 0 ≤ s.time
  { left := ((List.range 4).filter (free x.kept)).map fun k => (k, free x.pipes k), sfu := s.time < x.sfuBusy }

/-- The issue of a core: the passes and instructions chosen, in order. -/
def State.chooseCore (s : State) (core : Nat) : List Pick :=
  ((s.cands core (s.cutClass (quadOf core))).foldl Slots.take (s.freeUnits core)).picked

/-! ## A cycle -/

/-- A quad's allowance after step 1 of R361, and the cut class it gives for the cycle. -/
def QuadPower.refill (p : QuadPower) (rate cap step : Nat) : QuadPower :=
  let p := { p with alw := min (p.alw + (rate : Int)) (cap : Int) }
  { p with cut := p.cutOf step }

/-- Step 1 of R361 for every quad; where its cut class rises, its engine's walks are looked at again (14 R253). -/
def State.refill (s : State) : State :=
  let x := s.power
  let s' : State := { s with power := { x with quads := x.quads.map (·.refill (x.rate.getD x.level 0) x.cap x.step) } }
  (List.range 48).foldl (fun s' q => if (s.quadPower q).cut < (s'.quadPower q).cut then s'.kickArray q else s') s'

/-- Cycles of a block-entry hold (R160). -/
def holdLimit : Nat := 3072

/-- The hold of a split counts while it is held, and has ended once it is READY and held no more; one that reaches its limit ends by its
event (R160, R165; DEDUCED, log 85). -/
def State.countHold (s : State) (t : Team) (e : Nat) : State :=
  let x := t.split e
  if s.heldAtEntry t e then
    let s := s.onSplit t.uid e fun x => { x with hold := x.hold + 1 }
    if x.hold + 1 = holdLimit then s.soon (.blockEntryHoldExpiry t.uid e) else s
  else if x.hold ≠ 0 && x.state = .ready then s.onSplit t.uid e fun x => { x with holdOver := true }
  else s

/-- Block-entry holds of the teams that run count. -/
def State.countHolds (s : State) : State :=
  s.allTeams.foldl (fun s t => if s.runs t then t.entries.foldl (fun s e => s.countHold t e) s else s) s

/-- BLOCK_ENTRY_HOLD_EXPIRY. -/
def execBlockEntryHoldExpiry (uid e : Nat) (s : State) : Host.Outcome State Fault Refusal :=
  .next (s.onSplit uid e fun x => if holdLimit ≤ x.hold then { x with holdOver := true } else x)

/-- WAITC of the ready splits and STALL of every split count a cycle (09 R164, 02 R28). -/
def Split.tick (x : Split) : Split :=
  { x with waitc := if x.state = .ready then Nat.min 65535 (x.waitc + 1) else x.waitc, stall := x.stall - 1 }
def State.tickSplits (s : State) : State :=
  { s with teams := s.teams.map fun p =>
      (p.1, if s.runs p.2 then { p.2 with splits := p.2.splits.map Split.tick } else p.2) }

/-- The slots and vector pipes whose time is over are free. -/
def State.freeSlotsDue (s : State) : State :=
  s.cores.foldl (fun s c =>
    let on (p : Nat × Nat) : Bool := s.time < p.2
    if c.2.kept.all on && c.2.pipes.all on then s
    else s.onCore c.1 fun x => { x with kept := x.kept.filter on, pipes := x.pipes.filter on }) s

/-- Sheds, stops and holds teams at instruction boundaries, ends kites, starts scans, notes idle quads. -/
def State.housekeep (s : State) : State :=
  let s := s.allTeams.foldl (fun s t => ((s.shedTeam t.uid).stopTeam t.uid).owedStops t.uid) s.endOldKites.endSpent
  let s := s.contexts.foldl (fun s c => match c.2.preempt with
    | some (_, fn) =>
      let s := s.holdTeams c.1
      if s.preemptDone c.1 then s.kickPreempt fn else s
    | none => s) s
  ((List.range 48).foldl State.noteIdle s.tryScans).tryA3

/-- SCHEDULER_ISSUE: a cycle passes, and each quad chooses the issue of its cores. -/
def execSchedulerIssue (s : State) : Host.Outcome State Fault Refusal :=
  let s : State := { s with time := s.time + cycles 1 }
  let s := s.refill.fillDue.freeSlotsDue.pollAll.housekeep.countHolds
  let busy := ((List.range 48).flatMap coresOf).filter fun c => s.allTeams.any (·.core = c)
  let chosen := busy.map fun c => (c, s.chooseCore c)
  let s := chosen.foldl (fun s k => k.2.foldl (fun s p => s.issuePick k.1 p) s) s.tickSplits
  .next ((List.range 48).foldl (fun s q =>
    if ((s.mwe q).array.any (·.busy)) then s.charge q 256 else s) s)

/-! ## Trap frames (18 R310) -/

/-- Grants free frames while groups wait for them. -/
def State.grantFrames (core : Nat) : Nat → State → State
  | 0, s => s
  | n + 1, s =>
    if (s.freeFrame core).isSome && (s.nextTrap core).isSome then State.grantFrames core n (s.grantFrame core) else s

/-- TRAP_FRAME_GRANT. -/
def execTrapFrameGrant (core : Nat) (s : State) : Host.Outcome State Fault Refusal := .next (State.grantFrames core 8 s)

end Sys2Proof.Machine
end

