-- ==== Sys2Proof/Machine/Dispatch.lean ====
section
/-!
DEFINITION. What each instruction and event does: one arm for each constructor of Instr.
-/
namespace Sys2Proof.Machine

/-- The meaning of an instruction for the issuing split, or of an event for the device. -/
def exec (i : Instr) (s : State) : Host.Outcome State Fault Refusal :=
  match i with
  | .add f => Sys2Proof.Machine.execAdd f s
  | .sub f => Sys2Proof.Machine.execSub f s
  | .addc f => Sys2Proof.Machine.execAddc f s
  | .subb f => Sys2Proof.Machine.execSubb f s
  | .mul f => Sys2Proof.Machine.execMul f s
  | .mulh f => Sys2Proof.Machine.execMulh f s
  | .mad f => Sys2Proof.Machine.execMad f s
  | .div f => Sys2Proof.Machine.execDiv f s
  | .rem f => Sys2Proof.Machine.execRem f s
  | .abs f => Sys2Proof.Machine.execAbs f s
  | .neg f => Sys2Proof.Machine.execNeg f s
  | .min f => Sys2Proof.Machine.execMin f s
  | .max f => Sys2Proof.Machine.execMax f s
  | .sad f => Sys2Proof.Machine.execSad f s
  | .addmin f => Sys2Proof.Machine.execAddmin f s
  | .addmax f => Sys2Proof.Machine.execAddmax f s
  | .and f => Sys2Proof.Machine.execAnd f s
  | .or f => Sys2Proof.Machine.execOr f s
  | .xor f => Sys2Proof.Machine.execXor f s
  | .andn f => Sys2Proof.Machine.execAndn f s
  | .not f => Sys2Proof.Machine.execNot f s
  | .shl f => Sys2Proof.Machine.execShl f s
  | .shr f => Sys2Proof.Machine.execShr f s
  | .sar f => Sys2Proof.Machine.execSar f s
  | .rotl f => Sys2Proof.Machine.execRotl f s
  | .funsh f => Sys2Proof.Machine.execFunsh f s
  | .popc f => Sys2Proof.Machine.execPopc f s
  | .clz f => Sys2Proof.Machine.execClz f s
  | .ctz f => Sys2Proof.Machine.execCtz f s
  | .brev f => Sys2Proof.Machine.execBrev f s
  | .bfx f => Sys2Proof.Machine.execBfx f s
  | .bfi f => Sys2Proof.Machine.execBfi f s
  | .cmp f => Sys2Proof.Machine.execCmp f s
  | .sel f => Sys2Proof.Machine.execSel f s
  | .lea f => Sys2Proof.Machine.execLea f s
  | .dot4 f => Sys2Proof.Machine.execDot4 f s
  | .dot2 f => Sys2Proof.Machine.execDot2 f s
  | .clamp f => Sys2Proof.Machine.execClamp f s
  | .ext f => Sys2Proof.Machine.execExt f s
  | .fadd f => Sys2Proof.Machine.execFadd f s
  | .fsub f => Sys2Proof.Machine.execFsub f s
  | .fmul f => Sys2Proof.Machine.execFmul f s
  | .fma f => Sys2Proof.Machine.execFma f s
  | .fms f => Sys2Proof.Machine.execFms f s
  | .fmin f => Sys2Proof.Machine.execFmin f s
  | .fmax f => Sys2Proof.Machine.execFmax f s
  | .fabs f => Sys2Proof.Machine.execFabs f s
  | .fneg f => Sys2Proof.Machine.execFneg f s
  | .fcmp f => Sys2Proof.Machine.execFcmp f s
  | .frcp f => Sys2Proof.Machine.execFrcp f s
  | .frsq f => Sys2Proof.Machine.execFrsq f s
  | .fsqrt f => Sys2Proof.Machine.execFsqrt f s
  | .fdiv f => Sys2Proof.Machine.execFdiv f s
  | .fexp2 f => Sys2Proof.Machine.execFexp2 f s
  | .flog2 f => Sys2Proof.Machine.execFlog2 f s
  | .fsin f => Sys2Proof.Machine.execFsin f s
  | .fcos f => Sys2Proof.Machine.execFcos f s
  | .frnd f => Sys2Proof.Machine.execFrnd f s
  | .fclass f => Sys2Proof.Machine.execFclass f s
  | .fscale f => Sys2Proof.Machine.execFscale f s
  | .faddmin f => Sys2Proof.Machine.execFaddmin f s
  | .fdot2 f => Sys2Proof.Machine.execFdot2 f s
  | .cvt f => Sys2Proof.Machine.execCvt f s
  | .pack f => Sys2Proof.Machine.execPack f s
  | .unpack f => Sys2Proof.Machine.execUnpack f s
  | .sxpack f => Sys2Proof.Machine.execSxpack f s
  | .sxunpack f => Sys2Proof.Machine.execSxunpack f s
  | .mov f => Sys2Proof.Machine.execMov f s
  | .movi f => Sys2Proof.Machine.execMovi f s
  | .movhi f => Sys2Proof.Machine.execMovhi f s
  | .bcast f => Sys2Proof.Machine.execBcast f s
  | .rdlane f => Sys2Proof.Machine.execRdlane f s
  | .wrlane f => Sys2Proof.Machine.execWrlane f s
  | .shfl f => Sys2Proof.Machine.execShfl f s
  | .tshfl f => Sys2Proof.Machine.execTshfl f s
  | .vote f => Sys2Proof.Machine.execVote f s
  | .prmt f => Sys2Proof.Machine.execPrmt f s
  | .regroup f => Sys2Proof.Machine.execRegroup f s
  | .rdsp f => Sys2Proof.Machine.execRdsp f s
  | .wrsp f => Sys2Proof.Machine.execWrsp f s
  | .scan f => Sys2Proof.Machine.execScan f s
  | .reduce f => Sys2Proof.Machine.execReduce f s
  | .plop f => Sys2Proof.Machine.execPlop f s
  | .pmov f => Sys2Proof.Machine.execPmov f s
  | .bra f => Sys2Proof.Machine.execBra f s
  | .brx f => Sys2Proof.Machine.execBrx f s
  | .call f => Sys2Proof.Machine.execCall f s
  | .ret f => Sys2Proof.Machine.execRet f s
  | .exit f => Sys2Proof.Machine.execExit f s
  | .yield f => Sys2Proof.Machine.execYield f s
  | .nop f => Sys2Proof.Machine.execNop f s
  | .loop f => Sys2Proof.Machine.execLoop f s
  | .splitq f => Sys2Proof.Machine.execSplitq f s
  | .safept f => Sys2Proof.Machine.execSafept f s
  | .critEnter f => Sys2Proof.Machine.execCritEnter f s
  | .critExit f => Sys2Proof.Machine.execCritExit f s
  | .ld f => Sys2Proof.Machine.execLd f s
  | .st f => Sys2Proof.Machine.execSt f s
  | .ldToken f => Sys2Proof.Machine.execLdToken f s
  | .stToken f => Sys2Proof.Machine.execStToken f s
  | .lds f => Sys2Proof.Machine.execLds f s
  | .sts f => Sys2Proof.Machine.execSts f s
  | .ldk f => Sys2Proof.Machine.execLdk f s
  | .atom f => Sys2Proof.Machine.execAtom f s
  | .atoms f => Sys2Proof.Machine.execAtoms f s
  | .red f => Sys2Proof.Machine.execRed f s
  | .pref f => Sys2Proof.Machine.execPref f s
  | .cctl f => Sys2Proof.Machine.execCctl f s
  | .stash f => Sys2Proof.Machine.execStash f s
  | .unstash f => Sys2Proof.Machine.execUnstash f s
  | .stashwb f => Sys2Proof.Machine.execStashwb f s
  | .iflush f => Sys2Proof.Machine.execIflush f s
  | .bcopy f => Sys2Proof.Machine.execBcopy f s
  | .btile f => Sys2Proof.Machine.execBtile f s
  | .bmcast f => Sys2Proof.Machine.execBmcast f s
  | .bfill f => Sys2Proof.Machine.execBfill f s
  | .bgather f => Sys2Proof.Machine.execBgather f s
  | .fwait f => Sys2Proof.Machine.execFwait f s
  | .ftest f => Sys2Proof.Machine.execFtest f s
  | .fcancel f => Sys2Proof.Machine.execFcancel f s
  | .chkt f => Sys2Proof.Machine.execChkt f s
  | .chkw f => Sys2Proof.Machine.execChkw f s
  | .fstat f => Sys2Proof.Machine.execFstat f s
  | .walk f => Sys2Proof.Machine.execWalk f s
  | .wstat f => Sys2Proof.Machine.execWstat f s
  | .hret f => Sys2Proof.Machine.execHret f s
  | .hretf f => Sys2Proof.Machine.execHretf f s
  | .hfail f => Sys2Proof.Machine.execHfail f s
  | .hreg f => Sys2Proof.Machine.execHreg f s
  | .hunreg f => Sys2Proof.Machine.execHunreg f s
  | .barInit f => Sys2Proof.Machine.execBarInit f s
  | .barArrive f => Sys2Proof.Machine.execBarArrive f s
  | .barWait f => Sys2Proof.Machine.execBarWait f s
  | .barSync f => Sys2Proof.Machine.execBarSync f s
  | .barx f => Sys2Proof.Machine.execBarx f s
  | .cbar f => Sys2Proof.Machine.execCbar f s
  | .amsg f => Sys2Proof.Machine.execAmsg f s
  | .cont f => Sys2Proof.Machine.execCont f s
  | .emit f => Sys2Proof.Machine.execEmit f s
  | .fenceIo f => Sys2Proof.Machine.execFenceIo f s
  | .fencePool f => Sys2Proof.Machine.execFencePool f s
  | .waitmon f => Sys2Proof.Machine.execWaitmon f s
  | .sleep f => Sys2Proof.Machine.execSleep f s
  | .trap f => Sys2Proof.Machine.execTrap f s
  | .tret f => Sys2Proof.Machine.execTret f s
  | .cwr f => Sys2Proof.Machine.execCwr f s
  | .cww f => Sys2Proof.Machine.execCww f s
  | .inspect f => Sys2Proof.Machine.execInspect f s
  | .alter f => Sys2Proof.Machine.execAlter f s
  | .resume f => Sys2Proof.Machine.execResume f s
  | .kill f => Sys2Proof.Machine.execKill f s
  | .replay f => Sys2Proof.Machine.execReplay f s
  | .bkpt f => Sys2Proof.Machine.execBkpt f s
  | .rdts f => Sys2Proof.Machine.execRdts f s
  | .pclass f => Sys2Proof.Machine.execPclass f s
  | .pwrq f => Sys2Proof.Machine.execPwrq f s
  | .accspill f => Sys2Proof.Machine.execAccspill f s
  | .accfill f => Sys2Proof.Machine.execAccfill f s
  | .tlbinvAll f => Sys2Proof.Machine.execTlbinvAll f s
  | .tlbinvCtx f => Sys2Proof.Machine.execTlbinvCtx f s
  | .tlbinvVa f => Sys2Proof.Machine.execTlbinvVa f s
  | .scanrun f => Sys2Proof.Machine.execScanrun f s
  | .udf raw => Sys2Proof.Machine.execUdf raw s
  | .divideRetry uid e => Sys2Proof.Machine.execDivideRetry uid e s
  | .schedulerIssue => Sys2Proof.Machine.execSchedulerIssue s
  | .blockEntryHoldExpiry uid e => Sys2Proof.Machine.execBlockEntryHoldExpiry uid e s
  | .kiteTimeout uid => Sys2Proof.Machine.execKiteTimeout uid s
  | .trapFrameGrant core => Sys2Proof.Machine.execTrapFrameGrant core s
  | .waitmonWake uid e line => Sys2Proof.Machine.execWaitmonWake uid e line s
  | .sleepExpiry uid e => Sys2Proof.Machine.execSleepExpiry uid e s
  | .wakeApply => Sys2Proof.Machine.execWakeApply s
  | .packetRead q => Sys2Proof.Machine.execPacketRead q s
  | .waitvalReevaluate q => Sys2Proof.Machine.execWaitvalReevaluate q s
  | .mdAccept => Sys2Proof.Machine.execMdAccept s
  | .placementGrant part => Sys2Proof.Machine.execPlacementGrant part s
  | .windowZeroingDone uid => Sys2Proof.Machine.execWindowZeroingDone uid s
  | .recordArrival core => Sys2Proof.Machine.execRecordArrival core s
  | .batchTimerExpiry core batch => Sys2Proof.Machine.execBatchTimerExpiry core batch s
  | .batchLaunch core batch => Sys2Proof.Machine.execBatchLaunch core batch s
  | .faultRecordDeferredWrite ctx => Sys2Proof.Machine.execFaultRecordDeferredWrite ctx s
  | .parkedAccessWake line => Sys2Proof.Machine.execParkedAccessWake line s
  | .migrationRequest fn => Sys2Proof.Machine.execMigrationRequest fn s
  | .migrationDone fn => Sys2Proof.Machine.execMigrationDone fn s
  | .tlbInvalidationDone fn => Sys2Proof.Machine.execTlbInvalidationDone fn s
  | .apertureReadTimeout fn tag => Sys2Proof.Machine.execApertureReadTimeout fn tag s
  | .partSet fn => Sys2Proof.Machine.execPartSet fn s
  | .partClear fn => Sys2Proof.Machine.execPartClear fn s
  | .partReset fn => Sys2Proof.Machine.execPartReset fn s
  | .partRun fn => Sys2Proof.Machine.execPartRun fn s
  | .funcParts fn => Sys2Proof.Machine.execFuncParts fn s
  | .ctxSet fn => Sys2Proof.Machine.execCtxSet fn s
  | .ctxDestroy fn => Sys2Proof.Machine.execCtxDestroy fn s
  | .ctxPreempt fn => Sys2Proof.Machine.execCtxPreempt fn s
  | .ctxRestore fn => Sys2Proof.Machine.execCtxRestore fn s
  | .ctxReplayGrant fn => Sys2Proof.Machine.execCtxReplayGrant fn s
  | .ctxReplayRevoke fn => Sys2Proof.Machine.execCtxReplayRevoke fn s
  | .queueSet fn => Sys2Proof.Machine.execQueueSet fn s
  | .queueSetRestart fn => Sys2Proof.Machine.execQueueSetRestart fn s
  | .queueAssign fn => Sys2Proof.Machine.execQueueAssign fn s
  | .aperture fn => Sys2Proof.Machine.execAperture fn s
  | .fwLoad fn => Sys2Proof.Machine.execFwLoad fn s
  | .svnRaise fn => Sys2Proof.Machine.execSvnRaise fn s
  | .railSet fn => Sys2Proof.Machine.execRailSet fn s
  | .scanGap fn => Sys2Proof.Machine.execScanGap fn s
  | .scanNow fn => Sys2Proof.Machine.execScanNow fn s
  | .replaySlotRead => Sys2Proof.Machine.execReplaySlotRead s
  | .stpLinkLoss => Sys2Proof.Machine.execStpLinkLoss s
  | .droopDecision => Sys2Proof.Machine.execDroopDecision s
  | .shedLevelFall => Sys2Proof.Machine.execShedLevelFall s
  | .backstopExpiry cls => Sys2Proof.Machine.execBackstopExpiry cls s
  | .critcapExpiry uid => Sys2Proof.Machine.execCritcapExpiry uid s
  | .notifyGrantExpiry uid => Sys2Proof.Machine.execNotifyGrantExpiry uid s
  | .clockStretchEnd quad => Sys2Proof.Machine.execClockStretchEnd quad s
  | .a1Entry quad => Sys2Proof.Machine.execA1Entry quad s
  | .a2Entry quad => Sys2Proof.Machine.execA2Entry quad s
  | .a3Entry => Sys2Proof.Machine.execA3Entry s
  | .idleExitComplete unit => Sys2Proof.Machine.execIdleExitComplete unit s
  | .walkActivate quad rte => Sys2Proof.Machine.execWalkActivate quad rte s
  | .operandRequest quad rte => Sys2Proof.Machine.execOperandRequest quad rte s
  | .tileBegin quad => Sys2Proof.Machine.execTileBegin quad s
  | .tileFinish quad => Sys2Proof.Machine.execTileFinish quad s
  | .operandHeld quad rte slot => Sys2Proof.Machine.execOperandHeld quad rte slot s
  | .fetcherFillDone quad rte slot => Sys2Proof.Machine.execFetcherFillDone quad rte slot s
  | .walkSave quad rte => Sys2Proof.Machine.execWalkSave quad rte s
  | .walkStopDone quad rte => Sys2Proof.Machine.execWalkStopDone quad rte s
  | .engineReset quad => Sys2Proof.Machine.execEngineReset quad s
  | .copyChunkDone core job chunk => Sys2Proof.Machine.execCopyChunkDone core job chunk s
  | .preemptDeadline ctx => Sys2Proof.Machine.execPreemptDeadline ctx s
  | .doneWrite q pidx => Sys2Proof.Machine.execDoneWrite q pidx s
  | .queueReassignment => Sys2Proof.Machine.execQueueReassignment s
  | .partitionResetComplete part => Sys2Proof.Machine.execPartitionResetComplete part s
  | .baseDieFault => Sys2Proof.Machine.execBaseDieFault s
  | .rotationScanStart => Sys2Proof.Machine.execRotationScanStart s
  | .scanDrainTimeout core => Sys2Proof.Machine.execScanDrainTimeout core s
  | .scanComplete core pass => Sys2Proof.Machine.execScanComplete core pass s
  | .hotReset => Sys2Proof.Machine.execHotReset s
  | .fabricLinkDown => Sys2Proof.Machine.execFabricLinkDown s
  | .perstRelease verified => Sys2Proof.Machine.execPerstRelease verified s
  | .linkRetrain link trained => Sys2Proof.Machine.execLinkRetrain link trained s
  | .fabricLinkRetrain => Sys2Proof.Machine.execFabricLinkRetrain s
  | .wakeWrite fn off size value => Sys2Proof.Machine.execWakeWrite fn off size value s
  | .poolBackInvalidate line => Sys2Proof.Machine.execPoolBackInvalidate line s
  | .migtail fn value => Sys2Proof.Machine.execMigtail fn value s
  | .ticmdAll fn raw => Sys2Proof.Machine.execTicmdAll fn raw s
  | .ticmdCtx fn raw => Sys2Proof.Machine.execTicmdCtx fn raw s
  | .ticmdVa fn raw => Sys2Proof.Machine.execTicmdVa fn raw s
  | .tistatClear fn bits => Sys2Proof.Machine.execTistatClear fn bits s
  | .frdw fn value => Sys2Proof.Machine.execFrdw fn value s
  | .abase fn value => Sys2Proof.Machine.execAbase fn value s
  | .apertureRead fn tag off len => Sys2Proof.Machine.execApertureRead fn tag off len s
  | .apertureWrite fn off data => Sys2Proof.Machine.execApertureWrite fn off data s
  | .apertureAtomic fn tag off op wide v cmp => Sys2Proof.Machine.execApertureAtomic fn tag off op wide v cmp s
  | .ltr enabled snoop noSnoop => Sys2Proof.Machine.execLtr enabled snoop noSnoop s
  | .spdmRequest req => Sys2Proof.Machine.execSpdmRequest req s
  | .sctail fn value => Sys2Proof.Machine.execSctail fn value s
  | .errrd value => Sys2Proof.Machine.execErrrd value s
  | .clrd value => Sys2Proof.Machine.execClrd value s
  | .registerWrite fn off data => Sys2Proof.Machine.execRegisterWrite fn off data s
  | .thezenFrame data => Sys2Proof.Machine.execThezenFrame data s
  | .droopDetectorTrip quad => Sys2Proof.Machine.execDroopDetectorTrip quad s
  | .railFault quad => Sys2Proof.Machine.execRailFault quad s
  | .sensorSweep temps => Sys2Proof.Machine.execSensorSweep temps s
  | .vectorRegisterError uid lane reg => Sys2Proof.Machine.execVectorRegisterError uid lane reg s
  | .teamStateError uid => Sys2Proof.Machine.execTeamStateError uid s
  | .scratchpadError core sector => Sys2Proof.Machine.execScratchpadError core sector s
  | .llcLineError line => Sys2Proof.Machine.execLlcLineError line s
  | .cleanLineError core line => Sys2Proof.Machine.execCleanLineError core line s
  | .dramError line => Sys2Proof.Machine.execDramError line s
  | .correctableError src => Sys2Proof.Machine.execCorrectableError src s
  | .linkCrcFailure link => Sys2Proof.Machine.execLinkCrcFailure link s
  | .queueCoreImemError qc => Sys2Proof.Machine.execQueueCoreImemError qc s
  | .queueTableError q => Sys2Proof.Machine.execQueueTableError q s
  | .quadClockRailFault quad => Sys2Proof.Machine.execQuadClockRailFault quad s
  | .functionLevelReset fn => Sys2Proof.Machine.execFunctionLevelReset fn s

end Sys2Proof.Machine
end

