-- ==== Sys2Proof/Machine/Fetch.lean ====
section
/-!
DEFINITION. What a step does next: an input of the outside, an instruction fetched and decoded for a split chosen to issue, an
event that is due, or a cycle of the scheduler (08 R146, 02 R32, DESIGN CHOICE, log 1); and the placing of one word to be fetched.
-/
namespace Sys2Proof.Machine

/-! ## Fetching for a chosen split -/

/-- What a step does. -/
inductive Todo where
  /-- the device has stopped -/
  | stop
  /-- a fetch that traps or parks, or a word that is no instruction: the state after it -/
  | done (s : State)
  /-- the meaning of an instruction or event, in the state with its issuing split -/
  | run (i : Instr) (s : State)

/-- The ticket's split may still issue: it is ready, or its group still waits to be replayed. -/
def State.ticketLives (s : State) (k : Ticket) : Bool :=
  match s.team? k.uid with
  | none => false
  | some t => match k.replay with
    | some (g, _, _) => (NMap.find? t.traps g).any fun y => !y.debug
    | none => !t.retired && (t.split k.e).state = .ready && (t.split k.e).mask ≠ 0

/-- The registers that the pass of a split shared with the one before it sees (09 R161): those before that pass. -/
def State.shade (s : State) (k : Ticket) (t : Team) (shared : Bool) : State :=
  if k.joined then { s with shadow := s.shadow.filter fun x => x.1 = k.uid }
  else { s with shadow := if shared then some (k.uid, t.regs) else none }

/-- The issue of a split: its address, its word, and the groups whose passes are performed. -/
def Team.curOf (t : Team) (k : Ticket) (pc : U64) (w : Word96) (groups : GMask) (shared : Bool) : Cur :=
  { uid := k.uid, e := k.e, pc := pc, word := w, mask := (t.split k.e).mask, replay := k.replay, shared := shared
    groups := match k.replay with
      | some (g, _, _) => GMask.one g
      | none => groups }

/-- A word that fails a check of R32 traps ILLOP; a kite ends. -/
def State.badWord (s : State) (t : Team) (c : Cur) : State :=
  if t.kind = .kite then s.dropTeam t.uid else s.trapAll c t cILLOP

/-- A fetch finds an invalid entry: the split waits for it, with a record of the core (08 R146). A kite ends, and a group under
REPLAY stays in TRAP. -/
def State.parkWord (s : State) (t : Team) (k : Ticket) (va level entry : Nat) : State :=
  if t.kind = .kite then s.dropTeam t.uid
  else
    let s := if k.replay.isSome then s
      else s.onSplit k.uid k.e fun x => { x with state := .blocked, waiting := .fetch entry }
    (s.parkRecord t.ctx (srcCore t.core) .fetch va level entry).recheck entry

/-- A word is at hand: it is decoded and issues; the pass of a REPLAY, which no cycle's choice has paid for, costs as another (20 R361). An earlier pass of an instruction that acts with its last one only goes by
(DESIGN CHOICE, log 79). -/
def State.issueWord (s : State) (t : Team) (k : Ticket) (pc : U64) (w : Word96) (shared : Bool) : Todo :=
  match decode w with
  | .ok i =>
    let x := t.split k.e
    let gs := match i.fields? with
      | some f => passGroups i f x
      | none => .allOnes 32
    let c := t.curOf k pc w gs shared
    let s := match k.replay, i.fields? with
      | some _, some f => s.pay t.uid t.core (pipeClass i f)
      | _, _ => s
    let s : State := { s with cur := some c }
    if k.replay.isNone && gs = 0 then
      .done (s.onSplit k.uid k.e fun x => { x with passed := x.passed ||| GMask.one (x.toPass.headD 0), word := some w })
    else .run i s
  | .error _ =>
    let c := t.curOf k pc w (.allOnes 32) false
    .done ({ s with cur := some c }.badWord t c)

/-- The address and, if it needs no fetch, the word of a ticket's instruction: that of the trap record a group replays, or the one that
the split has begun. -/
def Team.begun (t : Team) (k : Ticket) : U64 × Option Word96 :=
  let x := t.split k.e
  match k.replay.bind fun r => NMap.find? t.traps r.1 with
  | some y => (y.pc, if y.word = 0 then none else some y.word)
  | none => (x.pc, if x.did ≠ 0 || x.passed ≠ 0 then x.word else none)

/-- Fetches the next instruction of a ticket's split, or takes the one that it has begun or that a group replays. -/
def State.startTicket (s : State) (k : Ticket) (next : Option Ticket) : Todo :=
  match s.team? k.uid with
  | none => .done s
  | some t =>
    let shared := next.any fun n => n.joined && n.uid = k.uid && s.ticketLives n
    let s := s.shade k t shared
    match t.begun k with
    | (pc, some w) => s.issueWord t k pc w shared
    | (pc, none) =>
      let x := t.xlat s
      let s := s.recallCode t.ctx x pc
      match s.fetchWord t.core t.ctx x pc with
      | .error (.park va l e) => .done (s.parkWord t k va l e)
      | .error (.trap cls _ l _) =>
        if t.kind = .kite then .done (s.dropTeam t.uid)
        else
          let c := t.curOf k pc 0 (.allOnes 32) false
          .done ({ s with cur := some c }.trapUniform c t cls pc l)
      | .ok w => ((s.keepWord t.core t.ctx x pc w).keepAccess t.ctx x .fetch pc.toNat 12).issueWord t k pc w shared

/-- The lanes of a shared memory pass that still wait perform: the split it was shared with does not issue. -/
def State.flushPass (s : State) : State :=
  if s.passLanes.isEmpty then s else { s with passLanes := [] }.performShared s.passLanes

/-! ## The order of a step's choices (DESIGN CHOICE, log 1) -/

/-- The earliest event of the agenda, the first of those at one time. -/
def earliest : List (Nat × Instr) → Option (Nat × Instr)
  | [] => none
  | x :: rest => match earliest rest with
    | some y => if y.1 < x.1 then some y else some x
    | none => some x

/-- The choice once no input is due. A ticket is joined to the one that issued just before it, or to none. -/
def State.afterInputs (s : State) : Todo :=
  match s.issueQ.dropWhile fun k => !s.ticketLives k with
  | k :: rest =>
    let joined := k.joined && s.issueQ.head? = some k
    let s := if joined then s else s.flushPass
    { s with issueQ := rest }.startTicket { k with joined := joined } rest.head?
  | [] =>
    let s : State := { s.flushPass with issueQ := [] }
    match earliest s.agenda with
    | some x => if x.1 ≤ s.time then .run x.2 { s with agenda := s.agenda.erase x } else .run .schedulerIssue s
    | none => .run .schedulerIssue s

/-- What is next: an input that is due, a chosen split, a due event, or the next cycle. -/
def State.nextUp (s : State) : Todo :=
  if s.stopped then .stop
  else
    let s : State := { s with choices := s.choices.drop 1, cur := none }
    match s.inputs with
    | x :: rest => if x.1 ≤ s.time then .run x.2 { s with inputs := rest } else s.afterInputs
    | [] => s.afterInputs

/-! ## Placing one word (DESIGN CHOICE, log 1) -/

/-- Where the placed word lies: its virtual and device addresses, and the tables that map its page. -/
def placedPc : U64 := 0x10100
def placedCells (w : Word96) : List (Nat × List Byte) :=
  [(0x0, leBytes 8 0x40001), (0x40000, leBytes 8 0x80001), (0x80008, leBytes 8 0x10000F), (0x100100, bytesOfWord96 w)]

/-- The image of the placed team. -/
def placedImage : Image :=
  { base := 0x10000, hflags := 0, lanes := 1, clw := 1, clh := 1, vregs := 256, sregs := 128, scratch := 4096, prioMin := 0
    prioMax := 7, maxrun := 0, entry := 0x100, codeOff := 0x100, codeSz := 0x1200, constOff := 0, constSz := 0, dataOff := 0
    dataSz := 0, htOff := 0, htCount := 0, spCount := 0, spOff := 0, slOff := 0, slCount := 0, imgSz := 0x10000
    handlers := [], safepts := [], slices := [] }

def placedGrid (id : Nat) : Grid :=
  { id := id, ctx := 1, part := 0, queue := 0, pidx := 0, prio := 0, teams := 1, image := placedImage, argp := 0, done := 0
    donev := 0, ctmr := 2000, atmr := 500, xlat := none, constFrames := [], nodes := [], live := 0, reserves := []
    placed := 1, ran := [0], cbars := [], pending := [], counts := false }

def placedContext : Context :=
  { root := 0, hb := 0, hl := 0, ho := 0, fring := 0x200000, frlog := 6, fvec := 0, fwr := 0, frd := 0, timg := 0, targ := 0
    pdl := 2 ^ 64 - 1, ppool := 0, pbsz := 0x10000, pbcnt := 0, dbginit := 0, pctl := 0, nqbase := 0, nqlog := 4, rpl := false
    owner := 0, part := 0, trapImage := none, preempt := none, out := false, late := 0, held := [], blocks := [] }

/-- A team of one lane that stands at an address of that image, with every register there is. -/
def placedTeam (uid grid : Nat) : Team :=
  { uid := uid, kind := .grid, grid := grid, ctx := 1, team := 0, cluster := 0, cpos := 0, core := 0, slots := [0], lanes := 1
    vregs := 256, sregs := 128, argp := 0, image := 0x10000, codeOff := 0x100, codeSz := 0x1200, spCount := 0
    window := { base := 0, size := 4096, tag := 0, held := true }, regs := {}, mode := .user, prio := 0, crit := 0
    splits := ({ state := .ready, pc := placedPc, mask := Mask.below 1 } : Split) :: List.replicate 15 {}
    frontier := [], ovf := false, hold := false, lastIssue := 0, barriers := [], cbar := .none_, debug := 0, attach := 0
    traps := [], killed := 0, serves := none, frame := 0, stashes := [], grant := none, returned := false, reserve := false
    started := true, savedLanes := 0, saved := none, out := .in_, kiteOf := 0, kiteStop := 0, born := 0, shedAt := none
    critOver := false, backstop := false, notify := none, retired := false }

/-- A state in which a split stands at a word and has been chosen to issue: the launch of an image that holds it. -/
def State.placeWord (s : State) (w : Word96) : State :=
  let uid := s.uidCtr + 1
  let s : State := { s with
    stopped := false, inputs := [], uidCtr := uid, issueQ := [{ uid := uid, e := 0, joined := false, replay := none }]
    mem := (placedCells w).foldl (fun m c => Memory.writeN m c.1 c.2) s.mem
    tlb := s.tlb.filter (·.ctx ≠ 1) }
  let s := s.onCore 0 fun c => { c with icache := c.icache.filter (·.ctx ≠ 1) }
  let s := s.setPart 0 { qmask := 1, gsize := 2 ^ 30, pstate := 1 }
  ((s.setCtx 1 placedContext).setGrid (placedGrid uid)).setTeam (placedTeam uid uid)

end Sys2Proof.Machine
end

