-- ==== Sys2Proof/Machine/Step.lean ====
section
/-!
DEFINITION. One step of the device, and a state whose next step runs a given word.
-/
namespace Sys2Proof.Machine

/-- One step: the instruction or event that is next has its meaning; a device that has stopped does nothing more. -/
def step (s : State) : Host.Outcome State Fault Refusal :=
  match s.nextUp with
  | .stop => .fault .deviceStopped
  | .done s => .next s
  | .run i s => exec i s

/-- The state with a word stored where the next step fetches, as a split that has been chosen to issue stands at it: what the
launch of an image holding the word comes to (DESIGN CHOICE, log 1). -/
def State.withFetchWord (s : State) (nbits w : Nat) : State := s.placeWord (.ofNat 96 (w % 2 ^ nbits))

end Sys2Proof.Machine
end

