-- ==== Sys2Proof/Safety.lean ====
section
/-!
DEFINITION. The terms in which claims about the device are stated: when an instruction is being issued, what an
instruction may leave changed, and the canonical form of the memories.
-/
namespace Sys2Proof.Machine

/-- Device memory and the scratchpads are in canonical form. -/
def State.memOk (s : State) : Bool := Memory.wf s.mem && Memory.wf s.scratch

/-- The split that issues is a ready one of team `t`, which may run the instruction with these fields: its registers lie
inside the team's allocation (02 R22), the mode bans neither it nor its privilege (02 R30, 18 R311), and a kite may issue it
(09 R171); and the operand log does not hold it back (08 R142, R143). It has been chosen by the scheduler, not by REPLAY. -/
structure Issues (i : Instr) (f : Fields) (s : State) (c : Cur) (t : Team) : Prop where
  cur : s.cur = some c
  team : s.team? c.uid = some t
  ready : (t.split c.e).state = .ready
  mask : c.mask = (t.split c.e).mask
  pc : c.pc = (t.split c.e).pc
  lanes : (t.split c.e).mask ≠ 0
  kite : t.kind = .kite → kiteMay i f = true
  holds : t.holdsAll i f = true
  mode : modeBan t.mode i = false
  priv : mayRun t.mode i = true
  plain : c.replay = none
  logged : s.logHolds t c.e i = false

/-- No register that the instruction names as destination or source is empty, so that nothing blocks it and nothing traps
EMPTYRD (02 R25, 08 R149). -/
def Team.allFull (t : Team) (i : Instr) (f : Fields) : Prop :=
  ∀ g, t.isEmpty i.widths.1 g f.dst = false ∧ t.isEmpty i.widths.2.1 g f.sa = false ∧
    t.isEmpty i.widths.2.2 g f.sb = false

/-- From `s` to `s'` only teams, events on the agenda and results on their way differ: every byte of memory, every other
register of the device and everything on its way elsewhere is the same; and of the teams only `uid` differs. -/
def State.onlyTeam (uid : Nat) (s s' : State) : Prop :=
  s' = { s with teams := s'.teams, agenda := s'.agenda, cores := s'.cores } ∧
  (∀ u, u ≠ uid → s'.team? u = s.team? u) ∧
  ∀ k, s'.core k = { s.core k with pending := (s'.core k).pending }

/-- Of a team only its splits, their records, debug stops and the order of its logged accesses differ: what ending an instruction may
change. -/
def Team.onlySplits (t t' : Team) : Prop :=
  t' = { t with splits := t'.splits, frontier := t'.frontier, traps := t'.traps, stops := t'.stops
                logAfter := t'.logAfter }

/-- A split of the team stands at an address with at least these lanes. -/
def Team.stands (t : Team) (pc : U64) (m : Mask) : Prop :=
  ∃ e, (t.split e).state ≠ .free ∧ (t.split e).pc = pc ∧ ∀ l, Mask.has m l = true → Mask.has (t.split e).mask l = true

/-- The same, but for its registers. -/
def Team.onlyRegs (t t' : Team) : Prop :=
  t' = { t with regs := t'.regs, splits := t'.splits, frontier := t'.frontier, traps := t'.traps, stops := t'.stops
                logAfter := t'.logAfter }

/-- Every byte of device memory and of the scratchpads reads as before. -/
def State.sameBytes (s s' : State) : Prop :=
  ∀ a, Memory.read s'.mem a = Memory.read s.mem a ∧ Memory.read s'.scratch a = Memory.read s.scratch a

/-- The groups whose passes are performed now are all that the split has still to perform the instruction for: with its last pass, or
at once where it has no passes (09 R152). -/
def Cur.isLast (c : Cur) (t : Team) : Prop := (t.split c.e).due &&& ~~~ Mask.inGroups (t.split c.e).mask c.groups = 0

/-- After the passes of `c` over a team whose splits were those of `t`: after the last, the lanes that issued the instruction stand at the
next one; else the split stays at it with these groups performed and the instruction's word kept, its YLD hint set or not (09 R152),
and nothing else of it differs. -/
def Team.ends (t' t : Team) (c : Cur) : Prop :=
  (c.isLast t → t'.stands (c.pc + 12) c.mask) ∧
  (¬ c.isLast t → ∃ w : Word96, w ||| 0x80 = c.word ||| 0x80 ∧ t'.split c.e = { t.split c.e with
    did := (t.split c.e).did ||| Mask.inGroups (t.split c.e).mask c.groups, passed := (t.split c.e).passed ||| c.groups
    word := some w })

/-- `exec` of the instruction answers a next state in which its passes are over, no byte of memory differs, of the device only the team
differs and of the team only registers and the places of its splits; and `P` holds of the state and the team. -/
def Completes (i : Instr) (s : State) (c : Cur) (t : Team) (P : State → Team → Prop) : Prop :=
  ∃ s' t', exec i s = .next s' ∧ s'.team? c.uid = some t' ∧ State.onlyTeam c.uid s s' ∧ s.sameBytes s' ∧ t.onlyRegs t' ∧
    t'.ends t c ∧ P s' t'

/-- Lane `l` performs the instruction: it is one of the lanes whose passes are performed, and the guard holds in it. -/
def Performs (c : Cur) (t : Team) (f : Fields) (l : Nat) : Prop :=
  Mask.has (c.lanes t) l = true ∧ t.guard f.grd l = true

/-- The guard bit of lane `l`, one of the lanes whose passes are performed, carries poison. -/
def Tainted (c : Cur) (t : Team) (f : Fields) (l : Nat) : Prop :=
  Mask.has (c.lanes t) l = true ∧ t.guardBad f.grd l = true

/-- The registers `q` that the passes of a vector form leave, of the registers of `t`: `w l` says that lane `l` writes and
`x` what. -/
structure VecResult (t : Team) (q : Regs) (dst : Opnd) (k : Nat) (pred : Option Nat) (w taint : Nat → Prop)
    (x : Nat → LaneOut) : Prop where
  /-- a vector destination holds the value, with its poison -/
  vec : ∀ n l, dst = .v n → w l → q.getVs l n.toNat k = (x l).val % 2 ^ (32 * k) ∧ (0 < k → q.badVs l n.toNat k = (x l).bad)
  /-- a predicate destination holds bit 0 of the value -/
  pd : ∀ n l, dst = .p n → pred = none → w l → q.getP l n.toNat = ((x l).val % 2 = 1) ∧ q.badP l n.toNat = (x l).bad
  /-- the carry predicate -/
  carry : ∀ l p b, (∀ n, dst ≠ .p n) → w l → (x l).pred = some (p, b) → q.getP l p = b ∧ q.badP l p = (x l).bad
  /-- every other vector register of a writing lane, and every one of the others, keeps its value -/
  keepV : ∀ l n', n' < 512 → (w l → ∀ n, dst = .v n → n' < n.toNat ∨ n.toNat + k ≤ n') → q.getV l n' = t.regs.getV l n'
  keepVBad : ∀ l n', n' < 512 → (w l ∨ taint l → ∀ n, dst = .v n → n' < n.toNat ∨ n.toNat + k ≤ n') →
    q.badV l n' = t.regs.badV l n'
  keepP : ∀ l n', n' < 16 → (w l → (∀ n, dst = .p n → n' ≠ n.toNat) ∧ pred ≠ some n') → q.getP l n' = t.regs.getP l n'
  keepPBad : ∀ l n', n' < 16 → (w l ∨ taint l → (∀ n, dst = .p n → n' ≠ n.toNat) ∧ pred ≠ some n') →
    q.badP l n' = t.regs.badP l n'
  /-- scalars, handles, links, `$origlane` and full/empty bits are not touched -/
  rest : q = { t.regs with v := q.v, vPoison := q.vPoison, p := q.p, pPoison := q.pPoison, flag := q.flag }

/-- The team's registers are changed as a vector form changes them: each performing lane writes a value and poison of which
`R` holds, and no other register changes. Full/empty bits and `$poison` may follow. -/
def LanesWrite (c : Cur) (t t' : Team) (f : Fields) (k : Nat) (pred : Option Nat) (R : Nat → LaneOut → Prop) : Prop :=
  ∃ q x, t'.regs = { q with vEmpty := t'.regs.vEmpty, sEmpty := t'.regs.sEmpty } ∧
    VecResult t q f.dst k pred (Performs c t f) (Tainted c t f) x ∧ ∀ l, Performs c t f l → R l (x l)

/-- The team's registers are changed as a scalar form changes them: scalar `n`, of `k` words, holds a value and poison of which
`R` holds, and no other register changes. Full/empty bits and `$poison` may follow. -/
def ScalarWrites (t t' : Team) (n k : Nat) (R : Nat → Bool → Prop) : Prop :=
  ∃ x bad, R (x % 2 ^ (32 * k)) bad ∧
    t'.regs = { t.regs.setSs n k x bad with
      vEmpty := t'.regs.vEmpty, sEmpty := t'.regs.sEmpty, flag := t'.regs.flag }

/-- What an instruction with one function of the lane's own operands computes, in its vector and in its scalar form: with no
register empty it completes, and where its guard holds its destination takes a value that `V` allows for the values of d (where
the instruction reads it), a and b, poisoned when one of those or the guard is (10 R173). -/
def Computes (i : Instr) (f : Fields) (readsD : Bool) (V : Nat → Nat → Nat → Nat → Prop) : Prop :=
  ∀ s c t, Issues i f s c t → t.allFull i f →
    let u := s.seen t
    let r : Rd := { gts := s.gts, e := c.e, i := i, f := f }
    let w := i.widths
    (f.dst.isKind .s = false → Completes i s c t fun _ t' =>
      LanesWrite c t t' f w.1 none fun l x =>
        V (if readsD then u.src r f.dst w.1 l else 0) (u.src r f.sa w.2.1 l) (u.src r f.sb w.2.2 l) (x.val % 2 ^ (32 * w.1)) ∧
        x.bad = ((readsD && u.bad f.dst w.1 l) || u.bad f.sa w.2.1 l || u.bad f.sb w.2.2 l || t.guardBad f.grd l)) ∧
    (∀ n, f.dst = .s n → t.guard f.grd (c.low t) = true → t.guardBad f.grd (c.low t) = false →
      Completes i s c t fun _ t' => ScalarWrites t t' n.toNat w.1 fun x bad =>
        V (if readsD then t.src r f.dst w.1 (c.low t) else 0) (t.src r f.sa w.2.1 (c.low t)) (t.src r f.sb w.2.2 (c.low t)) x ∧
        bad = ((readsD && t.bad f.dst w.1 (c.low t)) || t.bad f.sa w.2.1 (c.low t) || t.bad f.sb w.2.2 (c.low t)))

/-! ## Results as the rules give them -/

/-- An exact integer fitted to `w` bits: clamped to their range with `.SAT`, else modulo 2^w (04 R56). -/
def Fits (sgn sat : Bool) (w : Nat) (exact : Int) (x : Nat) : Prop :=
  x < 2 ^ w ∧
    if sat then (if sgn then signed w x else (x : Int)) = clampInt (minInt sgn w) (maxInt sgn w) exact
    else (x : Int) % 2 ^ w = exact % 2 ^ w

/-- Every element of the result is an exact integer of the elements of d, a and b, fitted to the type (10 R177). -/
def Elementwise (t : Ty) (sat : Bool) (op : Int → Int → Int → Int) (d a b x : Nat) : Prop :=
  ∀ e, e < elemN t → Fits (isSigned t) sat (elemW t)
    (op (intOf t (elemAt t d e)) (intOf t (elemAt t a e)) (intOf t (elemAt t b e))) (elemAt t x e)

/-- The sum over the elements of a type. -/
def elemSum (t : Ty) (g : Nat → Int) : Int := ((List.range (elemN t)).map g).foldl (· + ·) 0

/-- Every element of the result is `op` of the corresponding elements of d, a and b. -/
def ElemBits (t : Ty) (op : Nat → Nat → Nat → Nat) (d a b x : Nat) : Prop :=
  ∀ e, e < elemN t → elemAt t x e = op (elemAt t d e) (elemAt t a e) (elemAt t b e)

/-- The template of 04 R72: every element of the result is the operation on the decoded elements, flushed with `.FTZ` before
and after, and rounded once. -/
def RoundedOnce (f : Fields) (mode : Rnd) (op : FV → FV → FV → FV) (d a b x : Nat) : Prop :=
  let F := tyFmt f.ty
  let v (y : Nat) : FV := F.decode (F.flush f.isp[4] y)
  ElemBits f.ty (fun d a b => F.flush f.isp[4] (F.round mode f.sat (op (v d) (v a) (v b)))) d a b x

/-! ## Numbers -/

/-- A power of two. -/
def pow2 (e : Int) : Rat := if 0 ≤ e then ((2 ^ e.toNat : Nat) : Rat) else 1 / ((2 ^ (-e).toNat : Nat) : Rat)

/-- The number a finite value is; 0 for the others. -/
def FV.rat : FV → Rat
  | .fin neg m e => (if neg then -1 else 1) * (m : Rat) * pow2 e
  | _ => 0

/-- The magnitude bits of a code and its sign. -/
def Fmt.mag (F : Fmt) (x : Nat) : Nat := x % 2 ^ (F.eb + F.mb)
def Fmt.neg (F : Fmt) (x : Nat) : Bool := x.testBit (F.eb + F.mb)
/-- A NaN's code, in the formats that have infinities. -/
def Fmt.nanBits (F : Fmt) (x : Nat) : Bool := F.infBits < F.mag x
/-- Where a code that is no NaN stands in the order of the numbers, −0 equal to +0; and with −0 below +0. -/
def Fmt.place (F : Fmt) (x : Nat) : Int := if F.neg x then -(F.mag x : Int) else F.mag x
def Fmt.strict (F : Fmt) (x : Nat) : Int := if F.neg x then -(F.mag x : Int) - 1 else F.mag x

/-- The overflow outcome of 04 R67 for a mode: the code of infinity, E4M3's NaN in the place of an infinity, or the largest finite
value, which is also the outcome with `.SAT` and in the formats that have neither. -/
def Overflows (F : Fmt) (mode : Rnd) (sat neg : Bool) (y : Nat) : Prop :=
  let sign := if neg then 2 ^ (F.eb + F.mb) else 0
  let largest := sat = true ∨ F.kind = .noNan ∨ mode = .rtz ∨ (mode = .rdn ∧ neg = false) ∨ (mode = .rup ∧ neg = true)
  (largest → y = sign + F.maxBits) ∧ (¬ largest → F.kind = .ieee → y = sign + (2 ^ F.eb - 1) * 2 ^ F.mb) ∧
  (¬ largest → F.kind = .oneNan → y = 0x7F)

/-- Rounding of 04 R66 and R67: `y` is the code for a number of sign `neg` and of a magnitude which `lt q` and `le q` compare
with the rationals `q`, from 0 up: above `q`, at least `q`. Up to the largest finite magnitude, it is the nearest code, the even one of
two; or the nearest that is not above, or not below. Beyond it, it is the outcome of overflow, or the largest where the nearest
is the largest. -/
def Rounds (F : Fmt) (mode : Rnd) (sat neg : Bool) (lt le : Rat → Prop) (y : Nat) : Prop :=
  let r (c : Nat) : Rat := (F.decode c).rat
  let toZero := mode = .rtz ∨ (mode = .rdn ∧ neg = false) ∨ (mode = .rup ∧ neg = true)
  let half : Rat := (r F.maxBits) + (r F.maxBits - r (F.maxBits - 1)) / 2
  (¬ lt (r F.maxBits) → ∃ c, c ≤ F.maxBits ∧ y = F.signBit neg + c ∧
    if mode = .rne then ∀ c', c' ≤ F.maxBits → c' ≠ c →
      let mid := (r c + r c') / 2
      (if c' < c then le mid else ¬ lt mid) ∧ (le mid → ¬ lt mid → c % 2 = 0)
    else if toZero then le (r c) ∧ ∀ c', c' ≤ F.maxBits → le (r c') → c' ≤ c
    else ¬ lt (r c) ∧ ∀ c', c' ≤ F.maxBits → ¬ lt (r c') → c ≤ c') ∧
  (lt (r F.maxBits) → ∃ past : Bool,
    (past = true ↔ (mode = .rne → if F.kind = .oneNan then lt half else le half)) ∧
    (past = true → Overflows F mode sat neg y) ∧ (past = false → y = F.signBit neg + F.maxBits))

/-- Rounding of an exact value: of a finite one as above, an infinity to the outcome "infinite", NaN to the canonical NaN
(04 R55, R67, R69). -/
def RoundsTo (F : Fmt) (mode : Rnd) (sat : Bool) (x : FV) (y : Nat) : Prop :=
  match x with
  | .nan => y = F.qnan
  | .inf neg => Overflows F .rne sat neg y
  | .fin neg m e => Rounds F mode sat neg (fun q => q < (m : Rat) * pow2 e) (fun q => q ≤ (m : Rat) * pow2 e) y

/-- The formats of instruction operands and of conversions (04 R54, R57, 10 R186). -/
def formats : List Fmt :=
  [fmtF64, fmtF32, fmtF19, fmtBF16, fmtF16, fmtE5M2, fmtE4M3, fmtE3M2, fmtE2M3, fmtE2M1]

/-- `n` is a magnitude `a` of a sign rounded to an integer under a mode (04 R66, R70). -/
def IntRounds (mode : Rnd) (neg : Bool) (a : Rat) (n : Nat) : Prop :=
  if mode = .rne then (n : Rat) - a ≤ 1 / 2 ∧ a - n ≤ 1 / 2 ∧ ((n : Rat) - a = 1 / 2 ∨ a - n = 1 / 2 → n % 2 = 0)
  else if mode = .rtz ∨ (mode = .rdn ∧ neg = false) ∨ (mode = .rup ∧ neg = true) then (n : Rat) ≤ a ∧ a < n + 1
  else a ≤ n ∧ (n : Rat) < a + 1

/-- The magnitude of a finite value. -/
def FV.abs (x : FV) : Rat := if x.rat < 0 then -x.rat else x.rat

/-- A quotient rounded once, with the special inputs of 10 R185. -/
def QuotientOf (F : Fmt) (mode : Rnd) (sat : Bool) (x y : FV) (z : Nat) : Prop :=
  let neg := x.isNeg != y.isNeg
  match x, y with
  | .nan, _ | _, .nan | .inf _, .inf _ => z = F.qnan
  | .inf _, .fin _ _ _ => z = F.infinite sat neg
  | .fin _ _ _, .inf _ => z = F.signBit neg
  | .fin _ m _, .fin _ n _ =>
    if n = 0 then z = if m = 0 then F.qnan else F.infinite sat neg
    else if m = 0 then z = F.signBit neg
    else Rounds F mode sat neg (fun q => q * y.abs < x.abs) (fun q => q * y.abs ≤ x.abs) z

/-- A square root, and a reciprocal square root, rounded once to the nearest (10 R185). -/
def RootOf (F : Fmt) (sat recip : Bool) (x : FV) (z : Nat) : Prop :=
  match x with
  | .nan => z = F.qnan
  | .inf neg => z = if neg then F.qnan else if recip then 0 else F.infinite sat false
  | .fin neg m _ =>
    if m = 0 then z = if recip then F.infinite sat neg else F.signBit neg
    else if neg then z = F.qnan
    else if recip then Rounds F .rne sat false (fun q => q * q * x.abs < 1) (fun q => q * q * x.abs ≤ 1) z
    else Rounds F .rne sat false (fun q => q * q < x.abs) (fun q => q * q ≤ x.abs) z

/-- The block of `n` values as 04 R64 encodes it: exponent and mantissas. -/
def SxBlock (n m : Nat) (x : Nat → FV) (eb : Nat) (mant : Nat → Int) : Prop :=
  if ∃ e, e < n ∧ (x e).isFinite = false then eb = 0xFF ∧ ∀ e, e < n → mant e = 0
  else if ∀ e, e < n → (x e).rat = 0 then eb = 0 ∧ ∀ e, e < n → mant e = 0
  else ∃ top : Int, (∀ e, e < n → (x e).abs < pow2 (top + 1)) ∧ (∃ e, e < n ∧ pow2 top ≤ (x e).abs) ∧
    (eb : Int) = min (max (top + 127) 0) 254 ∧
    ∀ e, e < n → ∃ k : Nat, IntRounds .rne (x e).isNeg ((x e).abs / pow2 ((eb : Int) - 127 - (m - 2))) k ∧
      mant e = max (-(2 ^ (m - 1) : Int)) (min (2 ^ (m - 1) - 1) (if (x e).isNeg then -(k : Int) else k))

/-! ## Lanes and control -/

/-- A list of values of a type combined in order (10 R193): the identity of none; integers exactly, then wrapped; F32 sums rounded
at each step, and minima and maxima by FMIN's default rule. -/
def Combines (t : Ty) (op : Nat) (l : List Nat) (x : Nat) : Prop :=
  let W := elemW t
  let F := fmtF32
  let step (a b : Nat) : Nat :=
    if op = 0 then F.round .rne false ((F.decode a).add .rne (F.decode b))
    else if F.nanBits b then a
    else if F.nanBits a then b
    else if (if op = 1 then F.strict b < F.strict a else F.strict a < F.strict b) then b else a
  if t = .f32 then match l with
    | [] => x = if op = 0 then 0 else if op = 1 then F.infBits else F.signBit true + F.infBits
    | y :: rest => x = rest.foldl step (if F.nanBits y then F.qnan else y)
  else match op with
    | 0 => (x : Int) = (l.map Int.ofNat).foldl (· + ·) 0 % 2 ^ W
    | 1 => if l = [] then intOf t x = maxInt (isSigned t) W else x ∈ l ∧ ∀ y ∈ l, intOf t x ≤ intOf t y
    | 2 => if l = [] then intOf t x = minInt (isSigned t) W else x ∈ l ∧ ∀ y ∈ l, intOf t y ≤ intOf t x
    | 3 => ∀ k, k < W → x.testBit k = l.all (·.testBit k)
    | 4 => ∀ k, k < W → x.testBit k = l.any (·.testBit k)
    | _ => ∀ k, k < W → x.testBit k = decide ((l.filter (·.testBit k)).length % 2 = 1)

/-- The lanes counted for lane `l` (10 R192): the active lanes of those whose passes are performed, of the lane's group, or of the whole
split. -/
def Counted (c : Cur) (t : Team) (f : Fields) (team : Bool) (l : Nat) : List Nat :=
  (List.range 1024).filter fun j => Mask.has (if team then c.mask else c.lanes t) j && t.guard f.grd j && (team || j / 32 == l / 32)

/-- A live lane of the team stands at an address, in a split or in a frontier record. -/
def Team.laneAt (t : Team) (l : Nat) (pc : U64) : Prop :=
  (∃ e, (t.split e).state ≠ .free ∧ (t.split e).pc = pc ∧ Mask.has (t.split e).mask l = true) ∨ ∃ r ∈ t.frontier, r.pc = pc ∧ Mask.has r.mask l = true

/-- Of a team only its registers, its splits and records and their flags, debug stops and the order of its logged accesses differ. -/
def Team.onlyMoved (t t' : Team) : Prop :=
  t' = { t with regs := t'.regs, splits := t'.splits, frontier := t'.frontier, traps := t'.traps, ovf := t'.ovf,
                hold := t'.hold, stops := t'.stops, logAfter := t'.logAfter }

/-- The subsets that the next addresses of the split's lanes make have a place: the lowest stays in the entry, the next take the free
ones, and the records of the others, each in the record of its address where there is one, fit the frontier's 4,032 bytes (09 R158,
R163). -/
def Team.roomFor (t : Team) (c : Cur) (dest : Nat → U64) : Prop :=
  let subsets := (Mask.list c.mask).foldl (fun l x => insertPc (dest x) (Mask.one x) l) []
  let free := ((List.range t.splits.length).filter fun e => (t.split e).state = .free).length
  frontierBytes ((subsets.drop (1 + free)).foldl (fun (u : Team) p => u.spill p.1 0 p.2) t).frontier ≤ 4032

/-- `exec` of a control transfer answers a next state: every lane of the split stands at `dest` of it, and the registers have changed
as `R` says; or, where neither the split table nor the frontier has room for the divide, the split is HELD with nothing changed (09 R158, R163). Of the device
only the team differs. -/
def Transfers (i : Instr) (s : State) (c : Cur) (t : Team) (dest : Nat → U64) (R : Regs → Prop) : Prop :=
  ∃ s' t', exec i s = .next s' ∧ s'.team? c.uid = some t' ∧ State.onlyTeam c.uid s s' ∧ s.sameBytes s' ∧ t.onlyMoved t' ∧
    ((R t'.regs ∧ ∀ l, Mask.has c.mask l = true → t'.laneAt l (dest l)) ∨
      (¬ t.roomFor c dest ∧ t'.regs = t.regs ∧ (t'.split c.e).state = .held ∧ (t'.split c.e).pc = c.pc ∧
        (t'.split c.e).mask = c.mask))

/-! ## Memory -/

/-- From `s` to `s'` differ only memory with its poison, where lines, entries and words of tables are held, which of these have woken
what is parked on them, events on the agenda, results on their way, and team `uid`. -/
def State.onlyMemory (uid : Nat) (s s' : State) : Prop :=
  s' = { s with teams := s'.teams, agenda := s'.agenda, cores := s'.cores, tlb := s'.tlb, llc := s'.llc, snoop := s'.snoop,
                mem := s'.mem, poison := s'.poison, scratch := s'.scratch, scratchPoison := s'.scratchPoison
                woken := s'.woken } ∧
  (∀ u, u ≠ uid → s'.team? u = s.team? u) ∧
  ∀ k, s'.core k = { s.core k with pending := (s'.core k).pending, l1 := (s'.core k).l1 }

/-- `exec` of a memory instruction answers a next state in which its passes are over and only memory and the team's registers and splits
differ; and `P` holds. -/
def MemCompletes (i : Instr) (s : State) (c : Cur) (t : Team) (P : State → Team → Prop) : Prop :=
  ∃ s' t', exec i s = .next s' ∧ s'.team? c.uid = some t' ∧ State.onlyMemory c.uid s s' ∧ t.onlyRegs t' ∧
    t'.ends t c ∧ P s' t'

/-- Neither device memory nor a scratchpad, nor their poison, differs. -/
def State.sameMemory (s s' : State) : Prop :=
  s'.mem = s.mem ∧ s'.poison = s.poison ∧ s'.scratch = s.scratch ∧ s'.scratchPoison = s.scratchPoison

/-- The value that an atomic operation writes to a word of `W` bits (13 R229). -/
def AtomicValue (op W old b cmp v : Nat) : Prop :=
  let least (le : Nat → Nat → Prop) := (v = old ∨ v = b) ∧ le v old ∧ le v b
  match op with
  | 0 => v = (old + b) % 2 ^ W
  | 1 => least (· ≤ ·)
  | 2 => least (· ≥ ·)
  | 3 => ∀ k, v.testBit k = (old.testBit k && b.testBit k)
  | 4 => ∀ k, v.testBit k = (old.testBit k || b.testBit k)
  | 5 => ∀ k, v.testBit k = (old.testBit k != b.testBit k)
  | 6 => v = b
  | 7 => v = if old = cmp then b else old
  | 8 => v = if old ≥ b then 0 else old + 1
  | 9 => v = if old = 0 ∨ old > b then b else old - 1
  | 10 =>
    let F := if W = 64 then fmtF64 else fmtF32
    v = F.round .rne false ((F.decode old).add .rne (F.decode b))
  | 11 => least fun x y => signed W x ≤ signed W y
  | _ => least fun x y => signed W x ≥ signed W y

/-- What a lane accesses: its number, the keys of its bytes, data, compare value, and the poison of the data. -/
structure Access where
  lane : Nat
  keys : List Nat
  data : Nat
  cmp : Nat
  bad : Bool

/-- Lanes access a memory with its poisoned sectors one after the other (13 R225 to R229): each reads its bytes, the lowest
first, and the poison of their sectors, as `out` says of it; a store then writes its data, an atomic what its operation gives. -/
def Serial (i : Instr) : List Access → List Host.Cell × NSet → List Host.Cell × NSet → (Nat → Nat × Bool) → Prop
  | [], m, m', _ => m' = m
  | a :: rest, m, m', out =>
    let W := 8 * memWidth i
    let old := leNat (a.keys.map (Memory.read m.1))
    out a.lane = (old, (sectorsOf a.keys).any (NSet.mem m.2)) ∧
    ∃ m1, Serial i rest m1 m' out ∧
      if memKind i = .read then m1 = m
      else ∃ v, v < 2 ^ W ∧ m1 = (writeAt m.1 a.keys (leBytes (memWidth i) v), poisonAfter m.2 a.keys a.bad) ∧
        match atomicOp i with
        | some op => AtomicValue op W old (a.data % 2 ^ W) (a.cmp % 2 ^ W) v
        | none => v = a.data % 2 ^ W

/-- The address a lane forms (08 R124, R150): its operand and the signed offset. -/
def Team.address (t : Team) (r : Rd) (lane : Nat) : Int := (t.src r r.f.sa r.i.widths.2.1 lane : Int) + r.f.imm.toInt

/-- No window holds a stashed sector and no peer's write is still to be seen, so that memory is what every agent sees. -/
def State.stashless (s : State) : Prop := (∀ p ∈ s.teams, p.2.stashes = []) ∧ s.peer = []

/-- The lanes of `ls` may perform their accesses to the bytes `keys` of each (08 R127, R142): no address is poisoned, every check
passes, no written page is locked, no poison goes to the pool, and no lane writes a table entry that another's access is translated by.
Memory is what every agent sees, the fabric port is up, and the pass is shared with no other split (09 R161). -/
structure MayAccess (i : Instr) (f : Fields) (s : State) (c : Cur) (t : Team) (ls : List Nat) (keys : Nat → List Nat) : Prop where
  stashless : s.stashless
  fabric : s.fabricUp = true
  unshared : c.shared = false
  alone : s.passLanes = []
  clean : ∀ l ∈ ls, t.bad f.sa i.widths.2.1 l = false
  names : ∀ l ∈ ls, s.checkLane t i (t.address { gts := s.gts, e := c.e, i := i, f := f } l) = .ok (keys l)
  writes : memKind i ≠ .read → memScratch i = false → ∀ l ∈ ls, ∀ k ∈ keys l,
    s.locked k = false ∧ (t.bad f.sb i.widths.2.2 l = true → inPool k = false) ∧
    ∀ l' ∈ ls, ∀ j, j < memWidth i →
      let va := (t.address { gts := s.gts, e := c.e, i := i, f := f } l').toNat + j
      ∀ w ∈ (s.walk t.ctx (t.xlat s) (memKind i) va).2, k < w.addr ∨ w.addr + 8 ≤ k

/-! ## Other instructions -/

/-- `exec` of an instruction answers a next state in which its passes are over, and of its team only registers and the places of its
splits differ; and `P` holds. -/
def Goes (i : Instr) (s : State) (c : Cur) (t : Team) (P : State → Team → Prop) : Prop :=
  ∃ s' t', exec i s = .next s' ∧ s'.team? c.uid = some t' ∧ t.onlyRegs t' ∧ t'.ends t c ∧ P s' t'

/-- A uniform instruction is performed: its registers are full and its guard, which carries no poison, holds in the split's
lowest lane (09 R166). -/
def IssuesOne (i : Instr) (f : Fields) (s : State) (c : Cur) (t : Team) : Prop :=
  Issues i f s c t ∧ t.allFull i f ∧ t.guard f.grd (c.low t) = true ∧ t.guardBad f.grd (c.low t) = false

/-- Of the registers only `$poison` differs. -/
def Team.flagOnly (t t' : Team) : Prop := t'.regs = { t.regs with flag := t'.regs.flag }

/-- The split of `c` stays where it is, in a state that waits for `w`. -/
def Team.blockedAt (t : Team) (c : Cur) (w : Waiting) : Prop :=
  (t.split c.e).state = .blocked ∧ (t.split c.e).waiting = w ∧ (t.split c.e).pc = c.pc ∧ (t.split c.e).mask = c.mask

/-- A barrier once lanes have arrived with pending bytes (16 R292, R295). -/
def Barrier.arrive (b : Barrier) (m : Mask) (bytes : Int) : Barrier :=
  let x := signed 64 (wrap 64 (b.pbytes + bytes))
  if b.count ≤ Mask.count (b.arrived ||| m) ∧ x = 0 then { b with arrived := 0, pbytes := 0, phase := b.phase + 1 }
  else { b with arrived := b.arrived ||| m, pbytes := x }

/-- Every live lane of the teams of a cluster barrier has arrived, or is one of `m` of team `uid` (16 R298). -/
def State.cbarMet (s : State) (t : Team) (m : Mask) : Prop :=
  ∀ x ∈ s.cbarTeams t, x.awaited &&& ~~~ (NMap.get (s.cbarOf t).arrived x.uid 0 ||| (if x.uid = t.uid then m else 0)) = 0

/-- The record that a lane sends (16 R300, R301). -/
def Team.record (t : Team) (d : Dest) (o : Opnd) (lane : Nat) : Record :=
  { grid := t.grid, origin := d.origin, hidx := d.hidx, ospec := d.ospec, src := t.core
    payload := (t.payload o lane).map (·.1), poison := (t.payload o lane).map (·.2), upcall := none }

/-- A record gatherer has room for a record of each lane of a split (06 R110). -/
def State.roomForAll (s : State) : Prop := ∀ k,
  let rs := ((s.core k).inflight ++ (s.core k).batches.flatMap (·.records)).filter (·.origin ≠ 3)
  rs.length + 1024 ≤ 1792 ∧ (distinct (rs.map fun r => (r.grid * 8 + r.origin) * 64 + r.hidx)).length < 56

/-- A group's trap record of class `cls` at the instruction being performed (18 R310). -/
def GTrap.isOf (x : GTrap) (s : State) (c : Cur) (cls detail : Nat) (mask : GMask) (debug : Bool) : Prop :=
  x.cls = cls ∧ x.mask = mask ∧ x.detail = detail ∧ x.pc = c.pc ∧ x.ea = 0 ∧ x.gts = s.gts ∧ x.word = c.word ∧ x.rpc = c.pc + 12 ∧
    x.split = c.e ∧ x.debug = debug

/-- `exec` of an instruction traps, under an image for trap handlers: each group with lanes in `m` takes a record of the class, the
split stays at the instruction in TRAP, no register but `$poison` and no byte changes, and no other group traps (18 R310). -/
def Traps (i : Instr) (s : State) (c : Cur) (t : Team) (cls detail : Nat) (m : Mask) : Prop :=
  t.kind ≠ .kite → t.kind ≠ .trapHandler → c.replay = none → s.hasHandler t.ctx = true →
  (∀ g, Mask.word m g ≠ 0 → NMap.find? t.traps g = none) →
  ∃ s' t', exec i s = .next s' ∧ s'.team? c.uid = some t' ∧ s.sameMemory s' ∧ t.onlyRegs t' ∧ t.flagOnly t' ∧
    (t'.split c.e).state = .trap ∧ (t'.split c.e).pc = c.pc ∧ (t'.split c.e).mask = (t.split c.e).mask ∧
    (∀ g, Mask.word m g ≠ 0 → ∃ x, NMap.find? t'.traps g = some x ∧ x.isOf s c cls detail (Mask.word m g) false) ∧
    ∀ g, Mask.word m g = 0 → NMap.find? t.traps g = none → NMap.find? t'.traps g = none

/-! ## Events -/

/-- `exec` of an event answers a next state of which `P` holds. -/
def Happens (i : Instr) (s : State) (P : State → Prop) : Prop := ∃ s', exec i s = .next s' ∧ P s'

/-- Only the team of one number differs, and it has become `t`. -/
def State.becomes (s : State) (t : Team) (s' : State) : Prop :=
  s' = { s with teams := s'.teams } ∧ s'.team? t.uid = some t ∧ ∀ u, u ≠ t.uid → s'.team? u = s.team? u

/-- From `s` to `u` only where lines are held differs: a read of pool lines has brought them to their home slices (12 R218). -/
def State.onlyLines (s u : State) : Prop :=
  u = { s with llc := u.llc, snoop := u.snoop, cores := u.cores } ∧ ∀ k, u.core k = { s.core k with l1 := (u.core k).l1 }

/-- `exec` of an event answers a next state: what `z` makes of `s`, but for where lines are held; and `P` holds. -/
def HappensAs (i : Instr) (s : State) (z : State → State → Prop) (P : State → Prop) : Prop :=
  ∃ u s', exec i s = .next s' ∧ s.onlyLines u ∧ z u s' ∧ P s'

/-- An event is on the agenda. -/
def State.awaits (s : State) (due : Nat) (i : Instr) : Prop := (due, i) ∈ s.agenda

/-- The bytes at these addresses, and no others, have been replaced, the addresses being distinct. -/
def State.stores (s s' : State) (keys : List Nat) (bytes : List Byte) : Prop :=
  keys.map (Memory.read s'.mem) = bytes ∧ ∀ a, a ∉ keys → Memory.read s'.mem a = Memory.read s.mem a

/-- A queue whose packet `n` has completed (06 R98). -/
def Queue.passed (x : Queue) (n : Nat) : Queue :=
  let left := NSet.remove x.open_ n
  { x with open_ := left, doneidx := left.headD x.rdidx }

/-- The error records that wait to be consumed, the oldest first: those of the window, then those held (23 R385). -/
def State.errors (s : State) : List (List Byte) :=
  (List.range (s.logs.errwr - s.logs.errrd)).filterMap (fun k => NMap.find? s.logs.errWindow (s.logs.errrd + k)) ++ s.logs.errHeld

/-- An error record with its class and action has been added to the error log, before those alone that come after it in report order
(00 R4); the newest records that find no place, once as many as the supervisor holds are held, are lost (19 R339, 23 R385). -/
def State.reports (s s' : State) (ecls action : Nat) : Prop :=
  (∀ k, k < s.logs.errwr - s.logs.errrd → (NMap.find? s.logs.errWindow (s.logs.errrd + k)).isSome = true) →
  ∃ (r : List Byte) (a b : List (List Byte)) (n : Nat), r.length = 32 ∧ leAt r 20 1 = 5 ∧ leAt r 21 1 = ecls ∧ leAt r 22 1 = action ∧
    s.errors = a ++ b ∧ (∀ x ∈ a, recBefore r x = false) ∧ (∀ x ∈ b.head?, recBefore r x = true) ∧
    s'.errors = (a ++ r :: b).take n ∧ s'.logs.errlost = (s.logs.errlost + (s.errors.length + 1 - n)) % 2 ^ 32 ∧
    (n ≤ s.errors.length → heldMax ≤ s'.logs.errHeld.length)

/-- The supervisor carries out the command that it has taken up: the slot and SCHEAD say so, and `P` holds before it looks for
the next command (23 R383). -/
def Carries (i : Instr) (fn : Nat) (s : State) (status : Nat) (P : State → Prop) : Prop :=
  ∃ s', exec i s = .next (State.serve 64 s') ∧
    let f := s.fn fn; let f' := s'.fn fn; let at_ := 64 * (f.schead % 64)
    f'.schead = f.schead + 1 ∧ f'.busy = false ∧ Memory.read f'.slots (at_ + 2) = .ofNat 8 status ∧
    Memory.read f'.slots (at_ + 3) = 0 ∧ (leAt f.taken 4 2 ≤ 2047 → .msix fn (leAt f.taken 4 2) ∈ s'.out) ∧ P s'

/-- The supervisor has taken up a command of a function, whose slot held ARGS `a` with zeros wherever the command names
nothing, and a vector or none. -/
def State.asks (s : State) (fn : Nat) (named : List (Nat × Nat)) (a : List Byte) : Prop :=
  let b := (s.fn fn).taken
  (s.fn fn).busy = true ∧ a = b.drop 8 ∧ argsZero b named = true ∧ (leAt b 4 2 ≤ 2047 ∨ leAt b 4 2 = 0xFFFF)

end Sys2Proof.Machine
end

