-- ==== Sys2Proof/Certificates/Slice0/Obligations.lean ====
section
/-!
DEFINITION. The statements to be proved about the device.
-/
open Sys2Proof Sys2Proof.Machine

/-! ## Integer instructions -/

/-- 10 R177: each element of the result is the exact integer of the table, wrapped or saturated, in the vector and in the
scalar form; nothing else changes. -/
def Obligations.IntegerArithmetic : Prop := ∀ f : Fields,
  Computes (.add f) f false (Elementwise f.ty f.sat fun _ a b => a + b) ∧
  Computes (.sub f) f false (Elementwise f.ty f.sat fun _ a b => a - b) ∧
  Computes (.mul f) f false (Elementwise f.ty f.sat fun _ a b => a * b) ∧
  Computes (.mulh f) f false (Elementwise f.ty f.sat fun _ a b => a * b / 2 ^ elemW f.ty) ∧
  Computes (.mad f) f true (Elementwise f.ty f.sat fun d a b => d + a * b) ∧
  Computes (.abs f) f false (Elementwise f.ty f.sat fun _ a _ => if a < 0 then -a else a) ∧
  Computes (.neg f) f false (Elementwise f.ty f.sat fun _ a _ => -a) ∧
  Computes (.min f) f false (Elementwise f.ty f.sat fun _ a b => min a b) ∧
  Computes (.max f) f false (Elementwise f.ty f.sat fun _ a b => max a b) ∧
  Computes (.clamp f) f true (Elementwise f.ty f.sat fun d a b => min (max d a) b) ∧
  Computes (.addmin f) f true (fun d a b x => ∃ s, Elementwise f.ty f.sat (fun _ a b => a + b) d a b s ∧
    Elementwise f.ty f.sat (fun d s _ => min d s) d s 0 x) ∧
  Computes (.addmax f) f true (fun d a b x => ∃ s, Elementwise f.ty f.sat (fun _ a b => a + b) d a b s ∧
    Elementwise f.ty f.sat (fun d s _ => max d s) d s 0 x) ∧
  Computes (.sad f) f true (fun d a b x => Fits false false 32
    (d + elemSum f.ty fun e => ((intOf f.ty (elemAt f.ty a e) - intOf f.ty (elemAt f.ty b e)).natAbs : Int)) (x % 2 ^ 32)) ∧
  (∀ i ∈ [Instr.dot4 f, Instr.dot2 f], Computes i f true (fun d a b x => Fits (isSigned f.ty) f.sat 32
    ((if isSigned f.ty then signed 32 d else (d : Int)) +
      elemSum f.ty fun e => intOf f.ty (elemAt f.ty a e) * intOf f.ty (elemAt f.ty b e)) (x % 2 ^ 32)))

/-- 10 R178: the sum or difference with the carry of predicate n, which takes the carry out, in every performing lane; the
scalar form reads the carry in the lowest lane and writes it in every lane of the split. -/
def Obligations.CarryChains : Prop := ∀ (f : Fields) (sub : Bool),
  let i : Instr := if sub then .subb f else .addc f
  let n := f.imm.toNat % 16
  let W := elemW f.ty
  let k := f.ty.words
  let exact (c : Bool) (a b : Nat) : Int :=
    if sub then (a : Int) - b - (if c then 1 else 0) else (a : Int) + b + (if c then 1 else 0)
  let out (x : Int) : Bool := if sub then decide (x < 0) else decide (2 ^ W ≤ x)
  ∀ s c t, Issues i f s c t → t.allFull i f →
    let u := s.seen t
    let r : Rd := { gts := s.gts, e := c.e, i := i, f := f }
    ((∃ v, f.dst = .v v) → Completes i s c t fun _ t' =>
      LanesWrite c t t' f k (some n) fun l x =>
        let y := exact (u.regs.getP l n) (u.src r f.sa k l) (u.src r f.sb k l)
        (x.val : Int) % 2 ^ W = y % 2 ^ W ∧ x.pred = some (n, out y) ∧
        x.bad = (u.bad f.sa k l || u.bad f.sb k l || u.regs.badP l n || t.guardBad f.grd l)) ∧
    (∀ v, f.dst = .s v → t.guard f.grd (c.low t) = true → t.guardBad f.grd (c.low t) = false →
      Completes i s c t fun _ t' =>
        let y := exact (t.regs.getP (c.low t) n) (t.src r f.sa k (c.low t)) (t.src r f.sb k (c.low t))
        (t'.regs.getSs v.toNat k : Int) = y % 2 ^ W ∧
        ∀ l p, p < 16 → t'.regs.getP l p = if Mask.has (c.lanes t) l ∧ p = n then out y else t.regs.getP l p)

/-- 10 R179: DIV and REM truncate toward zero, with the results of the table at their limits; they never trap. -/
def Obligations.Division : Prop := ∀ f : Fields,
  Computes (.div f) f false (fun _ a b x => Fits (isSigned f.ty) false (elemW f.ty)
    (if b = 0 then -1 else Int.tdiv (intOf f.ty a) (intOf f.ty b)) (x % 2 ^ elemW f.ty)) ∧
  Computes (.rem f) f false (fun _ a b x => Fits (isSigned f.ty) false (elemW f.ty)
    (if b = 0 then (a : Int) else Int.tmod (intOf f.ty a) (intOf f.ty b)) (x % 2 ^ elemW f.ty))

/-- 10 R180: the logic, shift and bit-field instructions, bit by bit. -/
def Obligations.LogicAndShifts : Prop := ∀ f : Fields,
  let W := elemW f.ty
  let pos := bitsAt f.imm.toNat 0 6
  let len := bitsAt f.imm.toNat 8 6
  Computes (.and f) f false (fun _ a b x => ∀ k, k < W → x.testBit k = (a.testBit k && b.testBit k)) ∧
  Computes (.or f) f false (fun _ a b x => ∀ k, k < W → x.testBit k = (a.testBit k || b.testBit k)) ∧
  Computes (.xor f) f false (fun _ a b x => ∀ k, k < W → x.testBit k = (a.testBit k != b.testBit k)) ∧
  Computes (.andn f) f false (fun _ a b x => ∀ k, k < W → x.testBit k = (a.testBit k && !b.testBit k)) ∧
  Computes (.not f) f false (fun _ a _ x => ∀ k, k < W → x.testBit k = !a.testBit k) ∧
  Computes (.shl f) f false (ElemBits f.ty fun _ a b => if W ≤ b then 0 else a * 2 ^ b % 2 ^ W) ∧
  Computes (.shr f) f false (ElemBits f.ty fun _ a b => if W ≤ b then 0 else a / 2 ^ b) ∧
  Computes (.sar f) f false (fun _ a b x => ∀ e, e < elemN f.ty → ∀ k, k < W → (elemAt f.ty x e).testBit k =
    (elemAt f.ty a e).testBit (if k + elemAt f.ty b e < W then k + elemAt f.ty b e else W - 1)) ∧
  Computes (.rotl f) f false (fun _ a b x => ∀ e, e < elemN f.ty → ∀ k, k < W →
    (elemAt f.ty x e).testBit ((k + elemAt f.ty b e) % W) = (elemAt f.ty a e).testBit k) ∧
  Computes (.funsh f) f false (fun _ a b x =>
    let y := b * 2 ^ 32 + a
    let n := f.imm.toNat % 64
    x % 2 ^ 32 = if f.isp[0] then y / 2 ^ n % 2 ^ 32 else y * 2 ^ n / 2 ^ 32 % 2 ^ 32) ∧
  Computes (.popc f) f false (fun _ a _ x => x = ((List.range W).filter fun k => a.testBit k).length) ∧
  Computes (.clz f) f false (fun _ a _ x => x ≤ W ∧ (∀ k, W - x ≤ k → k < W → a.testBit k = false) ∧
    (x < W → a.testBit (W - 1 - x) = true)) ∧
  Computes (.ctz f) f false (fun _ a _ x => x ≤ W ∧ (∀ k, k < x → a.testBit k = false) ∧ (x < W → a.testBit x = true)) ∧
  Computes (.brev f) f false (fun _ a _ x => ∀ k, k < W → x.testBit (W - 1 - k) = a.testBit k) ∧
  Computes (.bfx f) f false (fun _ a _ x => 0 < len → pos + len ≤ W → ∀ k, k < W → x.testBit k =
    if k < len then a.testBit (pos + k) else isSigned f.ty && a.testBit (pos + len - 1)) ∧
  Computes (.bfi f) f true (fun d a _ x => pos + len ≤ W → ∀ k, k < W → x.testBit k =
    if pos ≤ k ∧ k < pos + len then a.testBit (k - pos) else d.testBit k) ∧
  Computes (.ext f) f false (fun _ a _ x => 8 * 2 ^ f.isp.toNat ≤ W → ∀ k, k < W → x.testBit k =
    if k < 8 * 2 ^ f.isp.toNat then a.testBit k else isSigned f.ty && a.testBit (8 * 2 ^ f.isp.toNat - 1)) ∧
  Computes (.lea f) f false (fun _ a b x => x % 2 ^ W = (a + b * 2 ^ (f.imm.toNat % 32)) % 2 ^ W)

/-- 10 R181: CMP sets a predicate when the condition holds in every element; SEL takes a or b by predicate n. -/
def Obligations.CompareAndSelect : Prop := ∀ f : Fields,
  (∀ p, f.dst = .p p → Computes (.cmp f) f false fun _ a b x => x % 2 = 1 ↔ ∀ e, e < elemN f.ty →
    let y := intOf f.ty (elemAt f.ty a e)
    let z := intOf f.ty (elemAt f.ty b e)
    match f.isp.toNat % 8 with
    | 0 => y = z
    | 1 => y ≠ z
    | 2 => y < z
    | 3 => y ≤ z
    | 4 => y > z
    | _ => y ≥ z) ∧
  ∀ s c t, Issues (.sel f) f s c t → t.allFull (.sel f) f → f.dst.isKind .s = false →
    let u := s.seen t
    let r : Rd := { gts := s.gts, e := c.e, i := .sel f, f := f }
    let n := f.imm.toNat % 16
    let k := f.ty.words
    Completes (.sel f) s c t fun _ t' => LanesWrite c t t' f k none fun l x =>
      x.val = (if u.regs.getP l n then u.src r f.sa k l else u.src r f.sb k l) ∧
      x.bad = (u.bad f.sa k l || u.bad f.sb k l || u.regs.badP l n || t.guardBad f.grd l)

/-! ## Floating point -/

/-- 04 R66, R67: rounding to each format under each mode. That `.SAT` takes an infinity to the largest finite value in E4M3 too is the
model's choice: log 76. -/
def Obligations.Rounding : Prop := ∀ F ∈ formats, ∀ (mode : Rnd) (sat : Bool) (x : FV), RoundsTo F mode sat x (F.round mode sat x)

/-- 10 R182: sums and products are exact; infinities, NaNs, and the sign of an exact zero. -/
def Obligations.ExactArithmetic : Prop := ∀ (mode : Rnd) (x y : FV),
  (x.isFinite = true → y.isFinite = true →
    (x.add mode y).isFinite = true ∧ (x.add mode y).rat = x.rat + y.rat ∧
    (x.mul y).isFinite = true ∧ (x.mul y).rat = x.rat * y.rat ∧
    (x.rat + y.rat = 0 → (x.add mode y).isNeg =
      if x.rat = 0 ∧ x.isNeg = y.isNeg then x.isNeg else mode == .rdn)) ∧
  (∀ a, x = .inf a →
    x.add mode y = (if y = .nan ∨ y = .inf (!a) then .nan else .inf a) ∧ y.add mode x = x.add mode y ∧
    x.mul y = (if y = .nan ∨ (y.isFinite = true ∧ y.rat = 0) then .nan else .inf (a != y.isNeg)) ∧ y.mul x = x.mul y) ∧
  (x = .nan → x.add mode y = .nan ∧ y.add mode x = .nan ∧ x.mul y = .nan ∧ y.mul x = .nan)

/-- 10 R182: the arithmetic instructions compute exactly and round once; FADDMIN rounds the sum and takes the lesser; FDOT2
accumulates in F32. -/
def Obligations.FloatArithmetic : Prop := ∀ f : Fields, isFloat f.ty = true →
  let F := tyFmt f.ty
  Computes (.fadd f) f false (RoundedOnce f f.rnd fun _ a b => a.add f.rnd b) ∧
  Computes (.fsub f) f false (RoundedOnce f f.rnd fun _ a b => a.add f.rnd b.neg) ∧
  Computes (.fmul f) f false (RoundedOnce f f.rnd fun _ a b => a.mul b) ∧
  Computes (.fma f) f true (RoundedOnce f f.rnd fun d a b => d.add f.rnd (a.mul b)) ∧
  Computes (.fms f) f true (RoundedOnce f f.rnd fun d a b => d.add f.rnd (a.mul b).neg) ∧
  Computes (.fscale f) f false (fun _ a b x => ∀ e, e < elemN f.ty →
    let n := if elemN f.ty = 2 then signed 16 (elemAt f.ty b e) else signed 32 (b % 2 ^ 32)
    let v := F.decode (elemAt f.ty a e)
    elemAt f.ty x e = F.round f.rnd f.sat (match v with | .fin s m q => .fin s m (q + n) | v => v)) ∧
  Computes (.faddmin f) f true (ElemBits f.ty fun d a b =>
    let y := F.round f.rnd false ((F.decode a).add f.rnd (F.decode b))
    if F.nanBits d then y else if F.nanBits y then d else if F.strict y < F.strict d then y else d) ∧
  (elemN f.ty = 2 → Computes (.fdot2 f) f true fun d a b x =>
    let v (y e : Nat) : FV := F.decode (F.flush f.isp[4] (elemAt f.ty y e))
    let u := fmtF32.decode (fmtF32.flush f.isp[4] d)
    x = fmtF32.flush f.isp[4] (fmtF32.round .rne false
      ((u.add .rne ((v a 0).mul (v b 0))).add .rne ((v a 1).mul (v b 1)))))

/-- 10 R183: the sign and selection instructions, on the codes: no rounding. -/
def Obligations.FloatSelection : Prop := ∀ f : Fields, isFloat f.ty = true →
  let F := tyFmt f.ty
  let nan (a b y : Nat) : Nat := if f.isp[0] || (F.nanBits a && F.nanBits b) then F.qnan
    else if F.nanBits a then b else if F.nanBits b then a else y
  let any (a b : Nat) : Bool := F.nanBits a || F.nanBits b
  Computes (.fmin f) f false (ElemBits f.ty fun _ a b =>
    if any a b then nan a b 0 else if F.strict b < F.strict a then b else a) ∧
  Computes (.fmax f) f false (ElemBits f.ty fun _ a b =>
    if any a b then nan a b 0 else if F.strict a < F.strict b then b else a) ∧
  Computes (.fabs f) f false (ElemBits f.ty fun _ a _ => if F.nanBits a then F.qnan else F.mag a) ∧
  Computes (.fneg f) f false (ElemBits f.ty fun _ a _ => if F.nanBits a then F.qnan else a ^^^ 2 ^ (F.eb + F.mb)) ∧
  Computes (.frnd f) f false (fun _ a _ x => ∀ e, e < elemN f.ty →
    let y := elemAt f.ty a e
    let z := elemAt f.ty x e
    if F.nanBits y then z = F.qnan
    else F.neg z = F.neg y ∧
      if F.mag y = F.infBits then z = y
      else (F.decode z).isFinite = true ∧ ∃ n : Nat, IntRounds f.rnd (F.neg y) (F.decode y).abs n ∧ (F.decode z).abs = n) ∧
  Computes (.fclass f) f false (fun _ a _ x => x < 2 ^ (16 * elemN f.ty) ∧ ∀ e, e < elemN f.ty →
    let y := elemAt f.ty a e
    let m := F.mag y
    bitsAt x (16 * e) 16 = 2 ^ (
      if F.infBits < m then (if m.testBit (F.mb - 1) then 9 else 8)
      else if m = F.infBits then (if F.neg y then 0 else 7)
      else if 2 ^ F.mb ≤ m then (if F.neg y then 1 else 6)
      else if 0 < m then (if F.neg y then 2 else 5)
      else if F.neg y then 3 else 4))

/-- 10 R184: FCMP sets a predicate when the condition holds in every element. -/
def Obligations.FloatCompare : Prop := ∀ f : Fields, isFloat f.ty = true → ∀ p, f.dst = .p p →
  Computes (.fcmp f) f false fun _ a b x => x % 2 = 1 ↔ ∀ e, e < elemN f.ty →
    let F := tyFmt f.ty
    let y := elemAt f.ty a e
    let z := elemAt f.ty b e
    let nan := F.nanBits y = true ∨ F.nanBits z = true
    match f.isp.toNat % 8 with
    | 0 => ¬ nan ∧ F.place y = F.place z
    | 1 => nan ∨ F.place y ≠ F.place z
    | 2 => ¬ nan ∧ F.place y < F.place z
    | 3 => ¬ nan ∧ F.place y ≤ F.place z
    | 4 => ¬ nan ∧ F.place y > F.place z
    | 5 => ¬ nan ∧ F.place y ≥ F.place z
    | 6 => ¬ nan
    | _ => nan

/-- 10 R185: quotients and roots rounded once, with the special inputs of the table. -/
def Obligations.QuotientsAndRoots : Prop := ∀ f : Fields, isFloat f.ty = true →
  let F := tyFmt f.ty
  let v (y e : Nat) : FV := F.decode (F.flush f.isp[4] (elemAt f.ty y e))
  Computes (.fdiv f) f false (fun _ a b x => ∀ e, e < elemN f.ty → ∃ z, elemAt f.ty x e = F.flush f.isp[4] z ∧
    QuotientOf F f.rnd f.sat (v a e) (v b e) z) ∧
  Computes (.frcp f) f false (fun _ a _ x => ∀ e, e < elemN f.ty → ∃ z, elemAt f.ty x e = F.flush f.isp[4] z ∧
    QuotientOf F .rne f.sat (.fin false 1 0) (v a e) z) ∧
  Computes (.fsqrt f) f false (fun _ a _ x => ∀ e, e < elemN f.ty → ∃ z, elemAt f.ty x e = F.flush f.isp[4] z ∧
    RootOf F f.sat false (v a e) z) ∧
  Computes (.frsq f) f false (fun _ a _ x => ∀ e, e < elemN f.ty → ∃ z, elemAt f.ty x e = F.flush f.isp[4] z ∧
    RootOf F f.sat true (v a e) z)

/-- 10 R185: the functions of the special-function unit are rounded once, with the special inputs of the table; powers of two and
their logarithms are exact. The model's precision: log 66. -/
def Obligations.SpecialFunctions : Prop := ∀ f : Fields, isFloat f.ty = true →
  let F := tyFmt f.ty
  let fn (g : FV → FV) (x : FV → FV) : Nat → Nat → Nat → Nat → Prop := fun _ a _ y => ∀ e, e < elemN f.ty →
    let v := F.decode (F.flush f.isp[4] (elemAt f.ty a e))
    elemAt f.ty y e = F.flush f.isp[4] (F.round .rne f.sat (match v with
      | .fin _ (_ + 1) _ => g v
      | v => x v))
  let one : FV := .fin false 1 0
  let zero : FV := .fin false 0 0
  Computes (.fexp2 f) f false (fn fexp2 fun v => match v with
    | .nan => .nan
    | .inf neg => if neg then zero else .inf false
    | .fin _ _ _ => one) ∧
  Computes (.flog2 f) f false (fn flog2 fun v => match v with
    | .nan => .nan
    | .inf neg => if neg then .nan else .inf false
    | .fin _ _ _ => .inf true) ∧
  Computes (.fsin f) f false (fn (fsincos false) fun v => match v with | .fin neg _ _ => .fin neg 0 0 | _ => .nan) ∧
  Computes (.fcos f) f false (fn (fsincos true) fun v => match v with | .fin _ _ _ => one | _ => .nan) ∧
  (∀ (neg : Bool) (m : Nat), 0 < m → m < 2 ^ 12 → (fexp2 (.fin neg m 0)).rat = pow2 (if neg then -(m : Int) else m)) ∧
  (∀ (m : Nat) (e : Int), 0 < m → flog2 (.fin true m e) = .nan) ∧
  ∀ (k : Nat) (e : Int), (flog2 (.fin false (2 ^ k) e)).rat = ((k + e : Int) : Rat)

/-- 10 R186: CVT between integers clamps; to an integer it rounds and clamps, NaN to 0; to a float it rounds, NaN to the canonical
NaN; a narrow result is zero-filled and of a narrow source only its bits are read (04 R71). What `.SAT` makes of an infinity is the model's
choice: log 75, and for E4M3 log 76. -/
def Obligations.Conversions : Prop := ∀ f : Fields,
  let dst := bitsAt f.imm.toNat 0 5
  let src := bitsAt f.imm.toNat 8 5
  let value (w : Nat) (sgn : Bool) (a : Nat) : Int := if sgn then signed w (a % 2 ^ w) else ((a % 2 ^ w : Nat) : Int)
  let F := cvtFmt src
  let G := cvtFmt dst
  dst < 13 → src < 13 →
  Computes (.cvt f) f false fun _ a _ x =>
    match cvtInt dst, cvtInt src with
    | some (w, sgn), some (v, t) => Fits sgn true w (value v t a) x
    | some (w, sgn), none =>
      match F.decode (a % 2 ^ F.width) with
      | .nan => x = 0
      | .inf neg => Fits sgn true w (if neg then minInt sgn w else maxInt sgn w) x
      | y => ∃ n : Nat, IntRounds f.rnd y.isNeg y.abs n ∧ Fits sgn true w (if y.isNeg then -(n : Int) else n) x
    | none, some (v, t) => RoundsTo G f.rnd f.sat (.fin (value v t a < 0) (value v t a).natAbs 0) x ∧ x < 2 ^ G.width
    | none, none => RoundsTo G f.rnd f.sat (F.decode (a % 2 ^ F.width)) x ∧ x < 2 ^ G.width

/-- 10 R187: PACK and UNPACK. -/
def Obligations.Packing : Prop := ∀ f : Fields, elemN f.ty = 2 →
  let F := tyFmt f.ty
  Computes (.pack f) f false (fun _ a b x => ∀ e, e < 2 →
    let y := if e = 0 then a else b
    if isFloat f.ty then elemAt f.ty x e = F.round f.rnd f.sat (fmtF32.decode y)
    else Fits (isSigned f.ty) f.sat 16 (if isSigned f.ty then signed 32 y else (y : Int)) (elemAt f.ty x e)) ∧
  Computes (.unpack f) f false (fun _ a _ x =>
    let y := elemAt f.ty a (f.isp.toNat % 2)
    if isFloat f.ty then
      if F.nanBits y then x = fmtF32.qnan
      else fmtF32.neg x = F.neg y ∧ (F.mag y = F.infBits ↔ fmtF32.mag x = fmtF32.infBits) ∧ (fmtF32.decode x).rat = (F.decode y).rat
    else (x : Int) = intOf f.ty y % 2 ^ 32)

/-- 10 R188: shared-exponent blocks of a group word, and of the one value of a scalar form; decoding is exact but for the one
value that F32 does not hold (log 33). -/
def Obligations.SharedExponents : Prop := ∀ f : Fields, f.isp.toNat % 8 < 7 →
  let m := f.isp.toNat % 8 + 2
  let n := if f.isp[3] then 32 else 16
  Computes (.sxunpack f) f false (fun _ a _ x =>
    if bitsAt a 8 8 = 0xFF then x = fmtF32.qnan
    else (bitsAt a 8 8 = 254 → signed m (a % 2 ^ m) ≠ -(2 ^ (m - 1) : Int)) → (fmtF32.decode x).isFinite = true ∧
      (fmtF32.decode x).rat = signed m (a % 2 ^ m) * pow2 ((bitsAt a 8 8 : Int) - 127 - (m - 2))) ∧
  ∀ s c t, Issues (.sxpack f) f s c t → t.allFull (.sxpack f) f →
    let u := s.seen t
    let r : Rd := { gts := s.gts, e := c.e, i := .sxpack f, f := f }
    let active (l : Nat) : Bool := Mask.has c.mask l && u.guard f.grd l
    (f.dst.isKind .s = false → Completes (.sxpack f) s c t fun _ t' => LanesWrite c t t' f 1 none fun l x =>
      let first := l / n * n
      ∃ eb mant, SxBlock n m (fun e => if active (first + e) then fmtF32.decode (u.src r f.sa 1 (first + e)) else .fin false 0 0) eb mant ∧
        (x.val : Int) = mant (l - first) % 2 ^ m + 2 ^ 8 * eb ∧
        (x.bad = true ↔ (∃ e, e < n ∧ active (first + e) = true ∧ u.bad f.sa 1 (first + e) = true) ∨ t.guardBad f.grd l = true)) ∧
    (∀ v, f.dst = .s v → t.guard f.grd (c.low t) = true → t.guardBad f.grd (c.low t) = false →
      Completes (.sxpack f) s c t fun _ t' => ScalarWrites t t' v.toNat 1 fun x bad =>
        ∃ eb mant, SxBlock n m (fun e => if e = 0 then fmtF32.decode (t.src r f.sa 1 (c.low t)) else .fin false 0 0) eb mant ∧
          (x : Int) = mant 0 % 2 ^ m + 2 ^ 8 * eb ∧ bad = t.bad f.sa 1 (c.low t))

/-! ## Moves and lanes -/

/-- 10 R189, R194: the moves and the byte permutation, bit by bit. -/
def Obligations.Moves : Prop := ∀ f : Fields,
  let W := 32 * f.ty.words
  Computes (.mov f) f false (fun _ a _ x => x = a % 2 ^ W) ∧
  (f.ty ∈ [Ty.i32, .u32, .i64, .u64] → Computes (.movi f) f false (fun _ _ _ x =>
    (x : Int) = (if isSigned f.ty then signed 24 f.imm.toNat else (f.imm.toNat : Int)) % 2 ^ W)) ∧
  (f.ty ∈ [Ty.u32, .u64] → (f.isp[0] = true → f.ty = .u64) → Computes (.movhi f) f true (fun d _ _ x =>
    let lo := if f.isp[0] then 48 else 24
    let hi := if f.isp[0] then 64 else if f.ty = .u64 then 48 else 32
    ∀ k, k < W → x.testBit k = if lo ≤ k ∧ k < hi then f.imm.toNat.testBit (k - lo) else d.testBit k)) ∧
  Computes (.prmt f) f false (fun _ a b x => x < 2 ^ 32 ∧ ∀ k, k < 4 →
    let n := bitsAt f.imm.toNat (4 * k) 4
    let byte := bitsAt (b % 2 ^ 32 * 2 ^ 32 + a % 2 ^ 32) (8 * (n % 8)) 8
    bitsAt x (8 * k) 8 = if n < 8 then byte else if byte.testBit 7 then 0xFF else 0)

/-- 10 R190: BCAST, RDLANE and WRLANE read one lane or write one. -/
def Obligations.NamedLanes : Prop := ∀ f s c t,
  let u := s.seen t
  let k := f.ty.words
  let n := f.imm.toNat % 1024
  let r (i : Instr) : Rd := { gts := s.gts, e := c.e, i := i, f := f }
  (Issues (.bcast f) f s c t → t.allFull (.bcast f) f → f.dst.isKind .s = false →
    Completes (.bcast f) s c t fun _ t' => LanesWrite c t t' f k none fun l x =>
      let j := 32 * (l / 32) + f.imm.toNat % 32
      x.val = u.src (r (.bcast f)) f.sa k j ∧ x.bad = (u.bad f.sa k j || t.guardBad f.grd l)) ∧
  (∀ v, Issues (.rdlane f) f s c t → t.allFull (.rdlane f) f → f.dst = .s v → t.guard f.grd (c.low t) = true →
    t.guardBad f.grd (c.low t) = false → Completes (.rdlane f) s c t fun _ t' => ScalarWrites t t' v.toNat k fun x bad =>
      x = t.src (r (.rdlane f)) f.sa k n % 2 ^ (32 * k) ∧ bad = t.bad f.sa k n) ∧
  (Issues (.wrlane f) f s c t → t.allFull (.wrlane f) f → f.dst.isKind .s = false →
    Completes (.wrlane f) s c t fun _ t' => ∃ q x, t'.regs = { q with vEmpty := t'.regs.vEmpty, sEmpty := t'.regs.sEmpty } ∧
      VecResult t q f.dst k none (fun l => Performs c t f l ∧ l = n) (fun l => Tainted c t f l ∧ l = n) x ∧
      (Performs c t f n → (x n).val = u.src (r (.wrlane f)) f.sa k n ∧ (x n).bad = (u.bad f.sa k n || t.guardBad f.grd n)))

/-- 10 R191: where SHFL and TSHFL take each lane's value from. A pass of TSHFL reads what earlier passes have written. -/
def Obligations.Shuffles : Prop := ∀ f s c t,
  let u := s.seen t
  let k := f.ty.words
  let mode := f.isp.toNat % 4
  let r (i : Instr) : Rd := { gts := s.gts, e := c.e, i := i, f := f }
  (Issues (.shfl f) f s c t → t.allFull (.shfl f) f → f.dst.isKind .s = false →
    Completes (.shfl f) s c t fun _ t' => LanesWrite c t t' f k none fun l x =>
      let b := u.src (r (.shfl f)) f.sb 1 l
      let p := l % 32
      let j := if mode = 0 then (if b ≤ p then p - b else p) else if mode = 1 then (if p + b < 32 then p + b else p)
        else if mode = 2 then p ^^^ (b % 32) else b % 32
      let j := 32 * (l / 32) + j
      x.val = u.src (r (.shfl f)) f.sa k j ∧ x.bad = (u.bad f.sa k j || u.bad f.sb 1 l || t.guardBad f.grd l)) ∧
  (Issues (.tshfl f) f s c t → t.allFull (.tshfl f) f → f.dst.isKind .s = false → mode ≠ 2 →
    Completes (.tshfl f) s c t fun _ t' => LanesWrite c t t' f k none fun l x =>
      let b := u.src (r (.tshfl f)) f.sb 1 l
      let j := if mode = 0 then (if b ≤ l then l - b else l) else if mode = 1 then (if l + b < t.lanes then l + b else l)
        else if b < t.lanes then b else l
      let w := if j / 32 < l / 32 ∧ s.shadow.map (·.1) ≠ some t.uid then t' else u
      x.val = w.src (r (.tshfl f)) f.sa k j ∧ x.bad = (w.bad f.sa k j || u.bad f.sb 1 l || t.guardBad f.grd l))

/-- 10 R192: VOTE over the counted lanes. -/
def Obligations.Votes : Prop := ∀ f s c t,
  let u := s.seen t
  let r : Rd := { gts := s.gts, e := c.e, i := .vote f, f := f }
  let team := f.isp[2]
  Issues (.vote f) f s c t → t.allFull (.vote f) f → f.dst.isKind .s = false →
  Completes (.vote f) s c t fun _ t' => LanesWrite c t t' f 1 none fun l x =>
    let ls := Counted c u f team l
    let a (j : Nat) : Bool := u.src r f.sa 1 j == 1
    (f.isp.toNat % 4 = 0 → x.val = if ∃ j ∈ ls, a j = true then 1 else 0) ∧
    (f.isp.toNat % 4 = 1 → x.val = if ∀ j ∈ ls, a j = true then 1 else 0) ∧
    (f.isp.toNat % 4 = 2 → x.val < 2 ^ 32 ∧ ∀ b, b < 32 →
      let j := 32 * (if team then l % 32 else l / 32) + b
      x.val.testBit b = (decide (j ∈ ls) && a j)) ∧
    x.bad = (ls.any (u.bad f.sa 1) || t.guardBad f.grd l)

/-- 10 R193: SCAN and REDUCE combine the counted lanes in their order. -/
def Obligations.ScanAndReduce : Prop := ∀ f s c t,
  let u := s.seen t
  let k := f.ty.words
  let op := f.isp.toNat % 8
  let team := f.isp[4]
  let r (i : Instr) : Rd := { gts := s.gts, e := c.e, i := i, f := f }
  elemN f.ty = 1 → f.ty ≠ .f64 → (f.ty = .f32 → op < 3) → (∀ h, f.sa ≠ .h h) →
  (Issues (.scan f) f s c t → t.allFull (.scan f) f → f.dst.isKind .s = false →
    Completes (.scan f) s c t fun _ t' => LanesWrite c t t' f k none fun l x =>
      let ls := (Counted c u f team l).filter fun j => if f.isp[3] then j < l else j ≤ l
      Combines f.ty op (ls.map (u.src (r (.scan f)) f.sa k)) x.val ∧ x.bad = (ls.any (u.bad f.sa k) || t.guardBad f.grd l)) ∧
  (Issues (.reduce f) f s c t → t.allFull (.reduce f) f → f.dst.isKind .s = false →
    Completes (.reduce f) s c t fun _ t' => LanesWrite c t t' f k none fun l x =>
      let ls := Counted c u f team l
      Combines f.ty op (ls.map (u.src (r (.reduce f)) f.sa k)) x.val ∧ x.bad = (ls.any (u.bad f.sa k) || t.guardBad f.grd l)) ∧
  (∀ v, Issues (.reduce f) f s c t → t.allFull (.reduce f) f → f.dst = .s v → t.guard f.grd (c.low t) = true →
    t.guardBad f.grd (c.low t) = false → Completes (.reduce f) s c t fun _ t' => ScalarWrites t t' v.toNat k fun x bad =>
      let ls := (List.range 1024).filter fun j => Mask.has (c.lanes t) j
      Combines f.ty op (ls.map (t.src (r (.reduce f)) f.sa k)) x ∧ bad = ls.any (t.bad f.sa k))

/-- 10 R195: WRSP pushes, RDSP pops; the scalar form of RDSP reads the lowest lane's top entry and pops nothing. -/
def Obligations.LinkStacks : Prop := ∀ f s c t,
  let r : Rd := { gts := s.gts, e := c.e, i := .wrsp f, f := f }
  (Issues (.wrsp f) f s c t → t.allFull (.wrsp f) f → (∀ l, Performs c t f l → (t.regs.link l).length < 16) →
    Completes (.wrsp f) s c t fun _ t' => t'.regs = { t.regs with links := t'.regs.links, flag := t'.regs.flag } ∧
      (∀ l, Performs c t f l → t'.regs.link l = .ofNat 64 (t.src r f.sa 2 l) :: t.regs.link l) ∧
      ∀ l, ¬ Performs c t f l → t'.regs.link l = t.regs.link l) ∧
  (∀ v, Issues (.rdsp f) f s c t → t.allFull (.rdsp f) f → f.dst = .v v → (∀ l, Performs c t f l → t.regs.link l ≠ []) →
    Completes (.rdsp f) s c t fun _ t' => ∃ q x, t'.regs = { q with links := t'.regs.links } ∧
      VecResult t q f.dst 2 none (Performs c t f) (Tainted c t f) x ∧
      (∀ l, Performs c t f l → t.regs.link l = .ofNat 64 (x l).val :: t'.regs.link l ∧ (x l).bad = t.guardBad f.grd l) ∧
      ∀ l, ¬ Performs c t f l → t'.regs.link l = t.regs.link l) ∧
  (∀ v a rest, Issues (.rdsp f) f s c t → t.allFull (.rdsp f) f → f.dst = .s v → t.guard f.grd (c.low t) = true →
    t.guardBad f.grd (c.low t) = false → t.regs.link (c.low t) = a :: rest →
    Completes (.rdsp f) s c t fun _ t' => t'.regs = { t.regs.setS v.toNat a false with flag := t'.regs.flag })

/-- 09 R168: REGROUP moves the split's lanes of its own groups to the lowest places of those groups, in their order, with their
registers, predicates and poison; `$origlane` is where each was. -/
def Obligations.Regrouping : Prop := ∀ f s c t, Issues (.regroup f) f s c t →
  t.guard f.grd (c.low t) = true → t.guardBad f.grd (c.low t) = false → c.groups = .allOnes 32 → (t.split c.e).did = 0 →
  let own := (List.range 32).filter fun g => Mask.word c.mask g ≠ 0 && Mask.word t.live g &&& ~~~ Mask.word c.mask g == 0
  let ls := (List.range 1024).filter fun l => Mask.has c.mask l && own.contains (l / 32)
  let place (n : Nat) : Nat := 32 * own.getD (n / 32) 0 + n % 32
  (∀ g ∈ own, ∀ k, k < 32 → t.regs.link (32 * g + k) = []) → (∀ g ∈ own, ∀ n, n < t.vregs → t.regs.emptyV g n = false) →
  (∀ l ∈ ls, Mask.has (s.loggedLanes t) l = false) → t.vregs ≤ 256 →
  ∃ s' t', exec (.regroup f) s = .next s' ∧ s'.team? c.uid = some t' ∧
    s' = { s with teams := s'.teams, agenda := s'.agenda, cores := s'.cores } ∧ (∀ u, u ≠ c.uid → s'.team? u = s.team? u) ∧
    (∀ k, s'.core k = { s.core k with kept := (s'.core k).kept }) ∧ s.sameBytes s' ∧ t.onlyRegs t' ∧ (∃ e m, (t'.split e).pc = c.pc + 12 ∧ (t'.split e).mask = m ∧
      (∀ n, n < ls.length → Mask.has m (place n) = true) ∧ ∀ l, Mask.has c.mask l = true → ¬ own.contains (l / 32) → Mask.has m l = true) ∧
    (∀ n, n < ls.length → ∀ l, ls[n]? = some l → t'.regs.orig (place n) = l ∧
      (∀ v, v < t.vregs → t'.regs.getV (place n) v = t.regs.getV l v ∧ t'.regs.badV (place n) v = t.regs.badV l v) ∧
      ∀ p, p < 12 → t'.regs.getP (place n) p = t.regs.getP l p ∧ t'.regs.badP (place n) p = t.regs.badP l p) ∧
    (∀ l, (∀ n, n < ls.length → place n ≠ l) → (∀ v, v < 512 → t'.regs.getV l v = t.regs.getV l v) ∧
      t'.regs.orig l = t.regs.orig l ∧ ∀ p, p < 16 → t'.regs.getP l p = t.regs.getP l p) ∧
    t'.regs = { t.regs with v := t'.regs.v, vPoison := t'.regs.vPoison, p := t'.regs.p, pPoison := t'.regs.pPoison, origlane := t'.regs.origlane,
                                flag := t'.regs.flag }

/-! ## Predicates and control -/

/-- 10 R197: PLOP is the truth table of three predicates; PMOV copies between predicates and registers. -/
def Obligations.PredicateInstructions : Prop := ∀ f s c t,
  let u := s.seen t
  let r (i : Instr) : Rd := { gts := s.gts, e := c.e, i := i, f := f }
  let n := f.imm.toNat % 16
  (Issues (.plop f) f s c t → t.allFull (.plop f) f → f.dst.isKind .s = false →
    Completes (.plop f) s c t fun _ t' => LanesWrite c t t' f 1 none fun l x =>
      let a := u.src (r (.plop f)) f.sa 1 l == 1
      let b := u.src (r (.plop f)) f.sb 1 l == 1
      let p := decide (n < 12) && u.regs.getP l n
      x.val = (f.imm.toNat / 2 ^ (8 + (4 * a.toNat + 2 * b.toNat + p.toNat))) % 2 ∧
      x.bad = (u.bad f.sa 1 l || u.bad f.sb 1 l || (decide (n < 12) && u.regs.badP l n) || t.guardBad f.grd l)) ∧
  (Issues (.pmov f) f s c t → t.allFull (.pmov f) f → f.dst.isKind .s = false →
    Completes (.pmov f) s c t fun _ t' => LanesWrite c t t' f 1 none fun l x =>
      x.val = u.src (r (.pmov f)) f.sa 1 l ∧ x.bad = (u.bad f.sa 1 l || t.guardBad f.grd l))

/-- 10 R198, R199: each active lane of BRA, BRX, CALL and RET goes to its target and every other lane of the split to the
next word, but for BRX's, which stay in the dividing split; CALL pushes and RET pops. The split divides, or is HELD where it cannot. The
model's reading where the spec has several: log 36. -/
def Obligations.Branches : Prop := ∀ f s c t, (∀ l, Mask.has (c.lanes t) l = true → t.guardBad f.grd l = false) →
  let r : Rd := { gts := s.gts, e := c.e, i := .brx f, f := f }
  let near := c.pc + 12 + 12 * f.imm.signExtend 64
  let far (l : Nat) : U64 := .ofNat 64 (t.src r f.sa 2 l)
  let back (l : Nat) : U64 := (t.regs.link l).headD 0
  let dest (g : Nat → U64) (l : Nat) : U64 := if Mask.has (c.lanes t) l && t.guard f.grd l then g l else c.pc + 12
  let code (g : Nat → U64) : Prop := ∀ l, Performs c t f l → t.isCode (g l) = true
  let flagOnly (q : Regs) : Prop := q = { t.regs with flag := q.flag }
  let linksOnly (q : Regs) : Prop := q = { t.regs with links := q.links, flag := q.flag } ∧
    ∀ l, ¬ Performs c t f l → q.link l = t.regs.link l
  (Issues (.bra f) f s c t → code (fun _ => near) → Transfers (.bra f) s c t (dest fun _ => near) flagOnly) ∧
  (∀ rest : U64, Issues (.brx f) f s c t → t.allFull (.brx f) f → code far → (∀ l, Performs c t f l → t.bad f.sa 2 l = false) →
    c.lanes t ≠ 0 →
    let lower := c.mask &&& ~~~ c.lanes t ≠ 0
    ((∃ l, Performs c t f l) → (∀ l, Performs c t f l → rest.toNat ≤ (far l).toNat) ∧ (lower → rest.toNat ≤ (c.pc + 12).toNat) ∧
      ((∃ l, Performs c t f l ∧ rest = far l) ∨ (lower ∧ rest = c.pc + 12))) →
    ((¬ ∃ l, Performs c t f l) → rest = c.pc + 12) →
    Transfers (.brx f) s c t (fun l => if Mask.has (c.lanes t) l then (if t.guard f.grd l then far l else rest) else c.pc + 12)
      flagOnly) ∧
  (Issues (.call f) f s c t → code (fun _ => near) → (∀ l, Performs c t f l → (t.regs.link l).length < 16) →
    Transfers (.call f) s c t (dest fun _ => near) fun q => linksOnly q ∧
      ∀ l, Performs c t f l → q.link l = (c.pc + 12) :: t.regs.link l) ∧
  (Issues (.ret f) f s c t → code back → (∀ l, Performs c t f l → t.regs.link l ≠ []) →
    Transfers (.ret f) s c t (dest back) fun q => linksOnly q ∧ ∀ l, Performs c t f l → q.link l = (t.regs.link l).tail)

/-- 10 R200, R201: EXIT removes the lanes whose guard holds from the team, and the others of the split go on; YIELD and NOP only go
on; LOOP decrements s and moves the whole split while s is nonzero. -/
def Obligations.ExitYieldNopLoop : Prop :=
  (∀ f s c t,
    let gone := t.guarded f.grd (c.lanes t)
    (Issues (.exit f) f s c t → c.isLast t → c.lanes t ≠ 0 → t.mode ≠ .save →
      (t.live &&& ~~~ gone ≠ 0 → ∃ s' t', exec (.exit f) s = .next s' ∧ s'.team? c.uid = some t' ∧ State.onlyTeam c.uid s s' ∧
        s.sameBytes s' ∧ t.onlyRegs t' ∧ t'.regs = { t.regs with flag := t'.regs.flag } ∧ t'.live = t.live &&& ~~~ gone ∧
        ∀ l, Mask.has c.mask l = true → ¬ Performs c t f l → t'.laneAt l (c.pc + 12)) ∧
      (t.live &&& ~~~ gone = 0 → ∃ s', exec (.exit f) s = .next s' ∧ ∀ t', s'.team? c.uid = some t' → t'.live = 0)) ∧
    (Issues (.yield f) f s c t → Completes (.yield f) s c t fun _ t' => t'.regs = { t.regs with flag := t'.regs.flag } ∧
      (gone ≠ 0 → c.isLast t → (t.split c.e).stepping = false → s.beAt t (c.pc + 12) = false → (t'.split c.e).yld = true)) ∧
    (Issues (.nop f) f s c t → Completes (.nop f) s c t fun _ t' => t'.regs = { t.regs with flag := t'.regs.flag })) ∧
  ∀ f s c t n, Issues (.loop f) f s c t → f.dst = .s n → t.regs.emptyS n.toNat = false →
    t.regs.badS n.toNat = false → t.guard f.grd (c.low t) = true → t.guardBad f.grd (c.low t) = false →
    let x := t.regs.getS n.toNat - 1
    let near := c.pc + 12 + 12 * f.imm.signExtend 64
    c.isLast t → c.lanes t ≠ 0 → (x ≠ 0 → t.isCode near = true) →
    Transfers (.loop f) s c t (fun l => if x ≠ 0 ∧ Mask.has (c.lanes t) l = true then near else c.pc + 12) fun q =>
      q = { t.regs.setS n.toNat x false with flag := q.flag }

/-- 09 R157, 10 R201: SPLITQ reads the split status word; CRIT counts; SAFEPT does nothing where no request is pending. -/
def Obligations.UniformControl : Prop := ∀ f s c t, t.guard f.grd (c.low t) = true → t.guardBad f.grd (c.low t) = false →
  let flagOnly (q : Regs) : Prop := q = { t.regs with flag := q.flag }
  (∀ v, Issues (.splitq f) f s c t → f.dst = .s v → t.regs.emptyS v.toNat = false → t.splits.length = 16 → t.frontier.length < 256 →
    Completes (.splitq f) s c t fun _ t' => ∃ x : U64, t'.regs = { t.regs.setS v.toNat x false with flag := t'.regs.flag } ∧
      (∀ e, e < 16 → x.getLsbD e = decide ((t.split e).state ≠ .free)) ∧ bitsAt x.toNat 16 16 = Mask.count t.live ∧
      bitsAt x.toNat 32 8 = t.frontier.length ∧ x.getLsbD 40 = t.ovf ∧ x.getLsbD 41 = t.hold ∧ x.toNat < 2 ^ 42) ∧
  (Issues (.critEnter f) f s c t → t.crit < 255 →
    Completes (.critEnter f) s c { t with crit := t.crit + 1 } fun _ t' => flagOnly t'.regs) ∧
  (Issues (.critExit f) f s c t → 0 < t.crit →
    Completes (.critExit f) s c { t with crit := t.crit - 1 } fun _ t' => flagOnly t'.regs) ∧
  (Issues (.safept f) f s c t → t.mode = .user → s.preempting t.ctx = false →
    Completes (.safept f) s c t fun _ t' => flagOnly t'.regs)

/-! ## Memory -/

/-- 08 R130, R131: how an address is translated, with no entry held by a TLB: the heap by its offset; else three table
levels, or two and a leaf of 1 GiB. A first invalid entry parks; a leaf without W traps a write, one without X a fetch. The
model's reading where the spec has several: log 61. -/
def Obligations.Translation : Prop := ∀ (s : State) ctx x k va, s.tlb = [] →
  let p := s.partOf ctx
  let walk := (s.walk ctx x k va).1
  let a1 := x.root.toNat + 8 * (va / 2 ^ 45 % 2 ^ 12)
  let e1 := s.phys64 a1
  let frame (e : U64) : Nat := (e.toNat / 2 ^ 16 % 2 ^ 36) * 2 ^ 16
  let a2 := frame e1 + 8 * (va / 2 ^ 30 % 2 ^ 15)
  let e2 := s.phys64 a2
  let a3 := frame e2 + 8 * (va / 2 ^ 16 % 2 ^ 14)
  let e3 := s.phys64 a3
  let heap := x.hb.toNat ≤ va ∧ va < x.hb.toNat + x.hl.toNat
  let pointer (level : Nat) (e : U64) : Prop := e[0] = true ∧ e[3] = false ∧ malformed level e = false ∧
    frameOk p (frame e) 1 false = true
  let leaf (level : Nat) (e : U64) (size : Nat) : Prop := e[0] = true ∧ e[3] = true ∧ malformed level e = false ∧
    frameOk p (frame e) size e[5] = true
  let allowed (level a : Nat) (e : U64) (pa : Nat) : Except XErr Nat :=
    if (k = .write ∨ k = .atomic) ∧ e[1] = false then .error (.trap cPW va level a)
    else if k = .fetch ∧ e[2] = false then .error (.trap cPX va level a)
    else .ok pa
  (heap → walk = if k = .fetch then .error (.trap cPX va 0 0) else .ok ((va + x.ho.toNat) % 2 ^ 64)) ∧
  (¬ heap → frameOk p x.root.toNat 1 false = true →
    (e1[0] = false → walk = .error (.park va 1 a1)) ∧
    (pointer 1 e1 →
      (e2[0] = false → walk = .error (.park va 2 a2)) ∧
      (leaf 2 e2 (2 ^ 30) → walk = allowed 2 a2 e2 (frame e2 + va % 2 ^ 30)) ∧
      (pointer 2 e2 →
        (e3[0] = false → walk = .error (.park va 3 a3)) ∧
        (leaf 3 e3 (2 ^ 16) → walk = allowed 3 a3 e3 (frame e3 + va % 2 ^ 16)))))

/-- 08 R124 to R127, R150, R151: the checks of a lane's address in their order, before it is translated; and where a scratchpad access
lands, or traps AL or SB: in the window that SPACE 0 names, in that of a cluster peer, or in the slot granted to an upcall. -/
def Obligations.AddressChecks : Prop := ∀ (s : State) t i (ea : Int),
  let w := memWidth i
  let traps (cls : Nat) : Prop := s.checkLane t i ea = .error (.trap cls 0 0 0)
  let aligned : Prop := memAligned i = true → ea % w = 0
  (memScratch i = false →
    let ok (a : Int) : Prop := (0 ≤ a ∧ a < 2 ^ 56) ∨ (2 ^ 64 - 2 ^ 56 ≤ a ∧ a < 2 ^ 64)
    (¬ ok ea → traps cNC) ∧
    (ok ea → ¬ ok (ea + w - 1) → traps cAX) ∧
    (ok ea → ok (ea + w - 1) → ¬ aligned → traps cAL) ∧
    (ok ea → ok (ea + w - 1) → aligned → ∀ pas, s.checkLane t i ea = .ok pas →
      pas.length = w ∧ ∀ j, j < w → (s.walk t.ctx (t.xlat s) (memKind i) (ea.toNat + j)).1 = .ok (pas.getD j 0))) ∧
  (memScratch i = true →
    let space := bitsAt ea.toNat 28 4; let cpos := bitsAt ea.toNat 24 4; let off := bitsAt ea.toNat 0 20
    let formed : Prop := 0 ≤ ea ∧ ea < 2 ^ 32 ∧ bitsAt ea.toNat 20 4 = 0
    -- the bytes lie in the window of a team, or do not
    let bounds (o : Team) (inside : Prop) : Prop := (¬ inside → traps cSB) ∧
      (inside → s.stashless → s.checkLane t i ea =
        .ok ((List.range w).map fun j => scratchKey o.core (o.window.base + off + j)))
    let mate (o x : Team) : Prop := x ∈ s.allTeams ∧ x.kind = .grid ∧ x.grid = o.grid ∧ x.cluster = o.cluster ∧ x.cpos.toNat = cpos
    (¬ aligned → traps cAL) ∧
    (aligned → ¬ formed ∨ 3 ≤ space ∨ (space ≠ 1 ∧ cpos ≠ 0) → traps cSB) ∧
    (aligned → formed → ∀ o, s.windowTeam t = some o →
      (space = 0 → cpos = 0 → bounds o (off + w ≤ o.window.size)) ∧
      (space = 1 → ∀ g, s.grid? o.grid = some g → let n := g.image.clw * g.image.clh
        (o.kind ≠ .grid ∨ n ≤ 1 ∨ n ≤ cpos ∨ (∀ x, ¬ mate o x) → traps cSB) ∧
        ∀ p, o.kind = .grid → 1 < n → cpos < n → mate o p → (∀ x, mate o x → x = p) → bounds p (off + w ≤ p.window.size)) ∧
      (space = 2 → cpos = 0 →
        (t.grant = none → traps cSB) ∧
        ∀ g p, t.grant = some g → s.team? g.owner = some p →
          bounds p (g.live = true ∧ ∃ r ∈ g.ranges, r.1 ≤ off ∧ off + w ≤ r.1 + r.2))))

/-- 13 R225, R227, R229: loads, stores and atomics of global memory and scratchpad: the lanes perform in ascending order,
each as one event; a load's destination takes the bytes, extended, with the poison of their sectors; no other byte and no
other register changes. A scalar form performs the lowest lane's access. The model's reading where the spec has several: logs
12 and 34. -/
def Obligations.MemoryAccesses : Prop := ∀ i f s c t keys,
  i ∈ [Instr.ld f, .st f, .lds f, .sts f, .atom f, .atoms f, .red f] → i.wellFormed = true →
  Issues i f s c t → t.allFull i f →
  let r : Rd := { gts := s.gts, e := c.e, i := i, f := f }
  let k := i.widths.1
  let signedLoad : Bool := match i with | .ld g | .lds g => g.isp[3] | _ => false
  let extend (w x : Nat) : Nat := if signedLoad then wrap w (signed (8 * memWidth i) x) else x
  let ls := if scalarForm f then [c.low t] else (List.range 1024).filter fun l => Mask.has (c.lanes t) l && t.guard f.grd l
  (if scalarForm f then t.guard f.grd (c.low t) = true ∧ t.guardBad f.grd (c.low t) = false
    else ∀ l, Mask.has (c.lanes t) l = true → t.guardBad f.grd l = false) →
  MayAccess i f s c t ls keys →
  MemCompletes i s c t fun s' t' => ∃ out,
    let accs := ls.map fun l => { lane := l, keys := keys l, data := t.src r f.sb i.widths.2.2 l
                                  cmp := if isCas i then t.src r f.dst k l else 0, bad := t.bad f.sb i.widths.2.2 l : Access }
    (if memScratch i then Serial i accs (s.scratch, s.scratchPoison) (s'.scratch, s'.scratchPoison) out ∧
        s'.mem = s.mem ∧ s'.poison = s.poison
      else Serial i accs (s.mem, s.poison) (s'.mem, s'.poison) out ∧ s'.scratch = s.scratch ∧ s'.scratchPoison = s.scratchPoison) ∧
    match f.dst with
    | .v _ => LanesWrite c t t' f k none fun l x => x.val = extend 32 (out l).1 ∧ x.bad = (out l).2
    | .s n => ScalarWrites t t' n.toNat (max k 2) fun x bad => x = extend 64 (out (c.low t)).1 ∧ bad = (out (c.low t)).2
    | _ => t'.regs = { t.regs with flag := t'.regs.flag }

/-- 13 R239: LD.64 of a token makes its register full when the job has completed and empty otherwise; ST.64 writes the token
whatever the job's state. The model's reading where the spec has several: log 22. -/
def Obligations.Tokens : Prop := ∀ i f s c t keys, i ∈ [Instr.ldToken f, .stToken f] → i.wellFormed = true → Issues i f s c t →
  t.allFull i f → t.guard f.grd (c.low t) = true → t.guardBad f.grd (c.low t) = false → MayAccess i f s c t [c.low t] keys →
  (∀ n, f.dst = .h n → NSet.mem t.regs.hEmpty n.toNat = false) → f.feB = false →
  let bytes := keys (c.low t)
  MemCompletes i s c t fun s' t' =>
    match f.dst, f.sb with
    | .h n, _ =>
      let v : U64 := .ofNat 64 (leNat (bytes.map (Memory.read s.mem)))
      s.sameMemory s' ∧ t'.regs = { t.regs.setH n.toNat v (!s.completed t.ctx v) with flag := t'.regs.flag }
    | _, .h n => s'.mem = writeAt s.mem bytes (leBytes 8 (t.regs.getH n.toNat).toNat) ∧ s'.scratch = s.scratch ∧
      t'.regs = { t.regs with flag := t'.regs.flag }
    | _, _ => False

/-- 13 R228: LDK reads the constant section through the frames kept since the launch, into a scalar or every lane of the split. That it
reads memory as it is, and that a trap handler reads the section of the trapped team's grid, are the model's choices: logs 68 and 67. -/
def Obligations.Constants : Prop := ∀ f s c t g, (Instr.ldk f).wellFormed = true → Issues (.ldk f) f s c t → t.allFull (.ldk f) f →
  t.guard f.grd (c.low t) = true → t.guardBad f.grd (c.low t) = false → s.stashless → s.grid? t.grid = some g →
  let w := memWidth (.ldk f)
  let off := f.imm.toInt
  0 ≤ off → off % 4 = 0 → off + w ≤ g.image.constSz →
  let a (j : Nat) : Nat := g.image.constOff + f.imm.toNat + j
  let bytes := (List.range w).map fun j => g.constFrames.getD (a j / 2 ^ 16 - g.image.constOff / 2 ^ 16) 0 + a j % 2 ^ 16
  let v := leNat (bytes.map (Memory.read s.mem))
  let bad := (s.gread bytes).2
  MemCompletes (.ldk f) s c t fun s' t' => s.sameMemory s' ∧
    match f.dst with
    | .s n => ScalarWrites t t' n.toNat (max (Instr.ldk f).widths.1 2) fun x b => x = v ∧ b = bad
    | d => ∃ q x, t'.regs = { q with vEmpty := t'.regs.vEmpty, sEmpty := t'.regs.sEmpty, flag := t'.regs.flag } ∧
      VecResult t q d (Instr.ldk f).widths.1 none (fun l => Mask.has (c.lanes t) l = true) (fun _ => False) x ∧
      ∀ l, Mask.has (c.lanes t) l = true → (x l).val = v ∧ (x l).bad = bad

/-- 13 R230, R231, R235: PREF makes lines resident, CCTL cleans or removes them from the core's cache, IFLUSH removes covered words
from the instruction caches: none changes a byte or a register. -/
def Obligations.CacheControl : Prop := ∀ f s c t, (∀ l, Mask.has (c.lanes t) l = true → t.guardBad f.grd l = false) →
  s.stashless →
  let r (i : Instr) : Rd := { gts := s.gts, e := c.e, i := i, f := f }
  let lane (l : Nat) : Prop := if scalarForm f then l = c.low t else Performs c t f l
  let flagOnly (q : Regs) : Prop := q = { t.regs with flag := q.flag }
  (scalarForm f = true → t.guard f.grd (c.low t) = true ∧ t.guardBad f.grd (c.low t) = false) →
  ((Instr.pref f).wellFormed = true → Issues (.pref f) f s c t → t.allFull (.pref f) f →
    (∀ l, lane l → t.bad f.sa 2 l = false) → s.snoop.length + 1024 < snoopMax → s.fabricUp = true →
    MemCompletes (.pref f) s c t fun s' t' => s.sameMemory s' ∧ flagOnly t'.regs ∧
      ∀ l pa rest, lane l → s.checkLane t (.pref f) (t.address (r (.pref f)) l) = .ok (pa :: rest) →
        if f.isp[0] then NSet.mem s'.llc (pa / 128) = true else (NMap.find? (s'.core t.core).l1 (pa / 128)).isSome = true) ∧
  ((Instr.cctl f).wellFormed = true → Issues (.cctl f) f s c t → t.allFull (.cctl f) f →
    (∀ l, lane l → t.bad f.sa 2 l = false ∧ ∃ pas, s.checkLane t (.cctl f) (t.address (r (.cctl f)) l) = .ok pas) →
    MemCompletes (.cctl f) s c t fun s' t' => s.sameMemory s' ∧ flagOnly t'.regs ∧
      ∀ l pa rest, lane l → s.checkLane t (.cctl f) (t.address (r (.cctl f)) l) = .ok (pa :: rest) →
        let line := NMap.find? (s'.core t.core).l1 (pa / 128)
        if f.isp = 1 then line.isSome = (NMap.find? (s.core t.core).l1 (pa / 128)).isSome ∧ ∀ d, line = some d → d.2 = 0
        else line = none) ∧
  (Issues (.iflush f) f s c t → t.allFull (.iflush f) f → t.guard f.grd (c.low t) = true → t.guardBad f.grd (c.low t) = false →
    t.bad f.sa 2 (c.low t) = false →
    let a := t.src (r (.iflush f)) f.sa 2 (c.low t)
    let n := f.imm.toNat
    rangeError a n = none →
    ∃ s' t', exec (.iflush f) s = .next s' ∧ s'.team? c.uid = some t' ∧ s.sameMemory s' ∧ t.onlyRegs t' ∧ flagOnly t'.regs ∧
      t'.ends t c ∧ ∀ k x, x ∈ (s'.core k).icache ↔ x ∈ (s.core k).icache ∧
        ¬ (x.ctx = t.ctx ∧ x.pc / 128 * 128 < a / 128 * 128 + (a % 128 + n) ∧ a / 128 * 128 < x.pc / 128 * 128 + (x.pc % 128 + 12)))

/-- 13 R232, R234: STASH adds a mapping to the window that SPACE 0 names and writes no byte; STASHWB writes the dirty sectors back to
the device sectors they were filled from; UNSTASH also ends the mapping and zeroes its window range. The model's reading where the spec
has several: log 38. -/
def Obligations.Stashes : Prop := ∀ f s c t, t.guard f.grd (c.low t) = true → t.guardBad f.grd (c.low t) = false →
  let o := (s.windowTeam t).getD t
  let flagOnly (q : Regs) : Prop := q = { t.regs with flag := q.flag }
  let r (i : Instr) : Rd := { gts := s.gts, e := c.e, i := i, f := f }
  -- of the teams the issuing one differs in its registers and splits, and the window's in its stashes `ms`
  let goes (s' : State) (ms : List Stash) : Prop := ∃ t', s'.team? c.uid = some t' ∧ flagOnly t'.regs ∧ t'.ends t c ∧
    ({ t with stashes := if o.uid = c.uid then ms else t.stashes } : Team).onlyRegs t' ∧
    (o.uid ≠ c.uid → s'.team? o.uid = some { o with stashes := ms }) ∧ ∀ u, u ≠ c.uid → u ≠ o.uid → s'.team? u = s.team? u
  (Issues (.stash f) f s c t → t.allFull (.stash f) f →
    t.bad f.sa 1 (c.low t) = false → t.bad f.sb 2 (c.low t) = false →
    let a := t.src (r (.stash f)) f.sa 1 (c.low t)
    let b := t.src (r (.stash f)) f.sb 2 (c.low t)
    let n := f.imm.toNat
    n ≤ 32512 → stashError o a b n = none → s.rangeFault t.ctx (t.xlat s) .read b (16 * n) = none →
    s.recallWalk t.ctx (t.xlat s) .read b (16 * n) = s →
    ∃ s', exec (.stash f) s = .next s' ∧ s' = { s with teams := s'.teams, agenda := s'.agenda } ∧
      goes s' (o.stashes ++ [{ win := a % 2 ^ 20, glob := .ofNat 64 b, sectors := n, filled := [], dirty := [] }])) ∧
  ∀ (ends : Bool) k m, let i : Instr := if ends then .unstash f else .stashwb f
    Issues i f s c t → t.allFull i f → t.bad f.sa 1 (c.low t) = false →
    o.stashNamed (t.src (r i) f.sa 1 (c.low t)) = some (k, m) → (m.filled.map (·.2)).Nodup → (m.filled.map (·.1)).Nodup →
    ∃ s', exec i s = .next s' ∧
      s' = { s with teams := s'.teams, agenda := s'.agenda, mem := s'.mem, poison := s'.poison, scratch := s'.scratch,
                    scratchPoison := s'.scratchPoison, woken := s'.woken } ∧
      goes s' (if ends then o.stashes.eraseIdx k else o.stashes.zipIdx.map fun q => if q.2 = k then { q.1 with dirty := [] } else q.1) ∧
      (∀ j sec, NMap.find? m.filled j = some sec → NSet.mem m.dirty j = true → ∀ b, b < 16 →
        Memory.read s'.mem (16 * sec + b) = Memory.read s.scratch (scratchKey o.core (o.window.base + m.win + 16 * j + b))) ∧
      (∀ a, (∀ j sec, NMap.find? m.filled j = some sec → NSet.mem m.dirty j = true → a / 16 ≠ sec) →
        Memory.read s'.mem a = Memory.read s.mem a) ∧
      ∀ a, Memory.read s'.scratch a =
        let base := scratchKey o.core (o.window.base + m.win)
        if ends ∧ base ≤ a ∧ a < base + 16 * m.sectors then 0 else Memory.read s.scratch a

/-! ## Copies and futures -/

/-- 13 R236, R240, R246: a copy instruction takes the BTE's next sequence number and names it in h: REFUSED with the code of
the first check that the descriptor breaks, and h full; or PENDING, h empty, with the copy in flight. The model's reading
where the spec has several: log 41. -/
def Obligations.CopyPosts : Prop := ∀ f s c t,
  ∀ p ∈ [(1, Instr.bcopy f), (2, .btile f), (3, .bmcast f), (4, .bfill f), (5, .bgather f)],
  let kind := p.1
  let i := p.2
  let r : Rd := { gts := s.gts, e := c.e, i := i, f := f }
  let act := t.guarded f.grd (c.lanes t)
  let l := if kind = 5 then (Mask.lowest act).getD 0 else c.low t
  Issues i f s c t → t.allFull i f → Performs c t f l →
  (if kind = 5 then ∀ l ∈ Mask.list (c.lanes t), t.guardBad f.grd l = false ∧ t.bad f.sa 2 l = false ∧ t.bad f.sb 2 l = false
    else t.guardBad f.grd l = false ∧ t.bad f.sa 2 l = false) →
  s.stashless →
  let b := (s.core t.core).bte
  let copies := (s.core t.core).copies
  copies.length < 96 → b.room = true → (s.jobs t.ctx).length < 1024 →
  let addr := t.src r f.sa 2 l
  let lanes := if kind = 5 then (Mask.list act).map fun l => (l, BitVec.ofNat 64 (t.src r f.sb 2 l)) else []
  let pas := s.xlatRange t.ctx (t.xlat s) .read (.ofNat 64 addr) 64
  (addr % 64 = 0 → ∀ va level e, pas ≠ .error (.park va level e)) →
  Goes i s c t fun s' t' => ∃ st detail,
    let k' := s'.core t.core
    let refused (code : Nat) : Prop := st = fREFUSED ∧ detail = code ∧ k'.copies = copies
    s' = { s with teams := s'.teams, agenda := s'.agenda, cores := s'.cores, uidCtr := s'.uidCtr, llc := s'.llc, snoop := s'.snoop } ∧
    (∀ u, u ≠ c.uid → s'.team? u = s.team? u) ∧ (∀ k, k ≠ t.core → s'.core k = { s.core k with l1 := (s'.core k).l1 }) ∧
    t'.regs = { t.regs.setH (hOf f.dst) (mkToken (srcBte t.core) t.ctx b.next) (st = fPENDING) with flag := t'.regs.flag } ∧
    k' = { s.core t.core with bte := k'.bte, copies := k'.copies, l1 := k'.l1 } ∧ k'.bte.next = b.next + 1 ∧
    { seq := b.next, ctx := t.ctx, state := st, count := 0, detail := detail, counters := none } ∈ k'.bte.ring ∧
    (∀ j ∈ b.ring, b.next < j.seq + 1024 → j ∈ k'.bte.ring) ∧
    if addr % 64 ≠ 0 then refused 1
    else match pas with
      | .error _ => refused 2
      | .ok pas =>
        if (s.gread pas).2 then refused 2
        else match copyFields kind (pas.map (Memory.read s.mem)) with
          | .error code => refused code
          | .ok x => match s.copySides t x lanes with
            | none => refused 5
            | some (_, targets) =>
              if rangesBad kind (x.ranges lanes) then refused 6
              else st = fPENDING ∧ detail = 0 ∧ ∃ k, k'.copies = copies ++ [k] ∧ k.seq = b.next ∧ k.uid = t.uid ∧ k.ctx = t.ctx ∧
                k.desc = x ∧ k.lanes = lanes ∧ k.targets = targets ∧ k.chunks = (x.span lanes + 511) / 512 ∧ k.done = [] ∧
                k.written = 0 ∧ k.parked = []

/-- 13 R236, R237, R238, R244: what a token names; FWAIT, FTEST, FSTAT, CHKT and CHKW by the state of its job; FCANCEL ends a
copy that is pending as CANCELLED and leaves a completed job alone. -/
def Obligations.Futures : Prop := ∀ f s c t,
  let k := t.regs.getH (hOf f.sa)
  let j := s.jobStat t.ctx k
  let pending := (s.hPending t f.sa).2
  let r (i : Instr) : Rd := { gts := s.gts, e := c.e, i := i, f := f }
  let mask (i : Instr) := t.src (r i) f.sb 2 (c.low t)
  let there (i : Instr) : Prop := ∀ b, b < 64 → (mask i).testBit b = true → s.chunkThere t.ctx k (64 * f.imm.toNat + b) = true
  let setsP (i : Instr) (x : Prop) : Prop := ∀ n, f.dst = .p n → Completes i s c t fun _ t' =>
    t'.regs = { t.regs with p := t'.regs.p, pPoison := t'.regs.pPoison, flag := t'.regs.flag } ∧
    ∀ l p, p < 16 → (t'.regs.getP l p = true ↔ if Mask.has (c.lanes t) l ∧ p = n.toNat then x else t.regs.getP l p = true)
  (tokenCtx k ≠ t.ctx ∨ s.engine? (tokenSrc k) = none ∨ tokenSeq k = 0 → j.state = fINVALID) ∧
  (∀ g, s.engine? (tokenSrc k) = some g → (g.next ≤ tokenSeq k → j.state = fINVALID) ∧
    (tokenCtx k = t.ctx → 0 < tokenSeq k → tokenSeq k + 1024 < g.next → j.state = fEXPIRED)) ∧
  (IssuesOne (.fwait f) f s c t → t.reenters k = false →
    (pending = false → Completes (.fwait f) s c t fun _ t' => t.flagOnly t') ∧
    (pending = true → f.feA = false → ∃ s' t', exec (.fwait f) s = .next s' ∧ s'.team? c.uid = some t' ∧
      State.onlyTeam c.uid s s' ∧ t.flagOnly t' ∧ t'.blockedAt c (.future k))) ∧
  (IssuesOne (.ftest f) f s c t → setsP (.ftest f) (pending = false)) ∧
  (∀ n, IssuesOne (.fstat f) f s c t → f.dst = .s n → t.regs.emptyS n.toNat = false →
    Completes (.fstat f) s c t fun _ t' =>
      t'.regs = { t.regs.setS n.toNat (if pending then 0 else .ofNat 64 (j.count % 2 ^ 32 * 2 ^ 32 + j.detail * 2 ^ 16 + j.state)) false
        with flag := t'.regs.flag }) ∧
  (IssuesOne (.chkt f) f s c t → k ≠ 0 → t.bad f.sb 2 (c.low t) = false → setsP (.chkt f) (there (.chkt f))) ∧
  (IssuesOne (.chkw f) f s c t → k ≠ 0 → t.reenters k = false →
    (pending = false ∨ there (.chkw f) → Completes (.chkw f) s c t fun _ t' => t.flagOnly t') ∧
    (pending = true → ¬ there (.chkw f) → ∃ s' t', exec (.chkw f) s = .next s' ∧ s'.team? c.uid = some t' ∧
      State.onlyTeam c.uid s s' ∧ t.flagOnly t' ∧
      t'.blockedAt c (.chunks k f.imm.toNat (.ofNat 64 (mask (.chkw f)))))) ∧
  (IssuesOne (.fcancel f) f s c t →
    (s.completed t.ctx k = true → Completes (.fcancel f) s c t fun _ t' => t.flagOnly t') ∧
    ∀ x ∈ (s.core (tokenSrc k - 0x0200)).copies, s.completed t.ctx k = false → 0x0200 ≤ tokenSrc k → x.seq = tokenSeq k →
      ∃ s', exec (.fcancel f) s = .next s' ∧ s.sameMemory s' ∧ (s'.jobStat t.ctx k).state = fCANCELLED ∧
        ∀ y ∈ (s'.core (tokenSrc k - 0x0200)).copies, y.seq ≠ tokenSeq k)

/-! ## Walks -/

/-- 14 R273, R274: WALK takes the engine's next sequence number and names it in h: REFUSED with the code of the first check
that the problem breaks, 0x0F where it cannot be read, 0x0E to a handler of the engine with no free entry; or PENDING with a
QUEUED walk in a free entry. The model's reading where the spec has several: log 42. -/
def Obligations.WalkPosts : Prop := ∀ f s c t, IssuesOne (.walk f) f s c t → t.bad f.sa 2 (c.low t) = false →
  s.stashless → s.fabricUp = true →
  let q := quadOf t.core
  let g := (s.mwe q).engine
  let free : Prop := ∃ e, e < 16 ∧ s.walkAt q e = none
  let addr := t.src { gts := s.gts, e := c.e, i := .walk f, f := f } f.sa 2 (c.low t)
  (free ∨ t.kind = .upcall) → (free → g.room = true ∧ (s.jobs t.ctx).length < 1024 ∧ ∀ va level e, s.readProblem t addr ≠ .error (.park va level e)) →
  Goes (.walk f) s c t fun s' t' => ∃ st detail,
    let m' := s'.mwe q
    let refused (code : Nat) : Prop := st = fREFUSED ∧ detail = code ∧ ∀ e, (s'.walkAt q e).isSome = (s.walkAt q e).isSome
    s' = { s with teams := s'.teams, agenda := s'.agenda, mwes := s'.mwes, uidCtr := s'.uidCtr, cores := s'.cores, llc := s'.llc
                  snoop := s'.snoop } ∧
    (∀ k, s'.core k = { s.core k with l1 := (s'.core k).l1 }) ∧
    (∀ u, u ≠ c.uid → s'.team? u = s.team? u) ∧ (∀ k, k ≠ q → s'.mwe k = s.mwe k) ∧
    t'.regs = { t.regs.setH (hOf f.dst) (mkToken (srcMwe q) t.ctx g.next) (st = fPENDING) with flag := t'.regs.flag } ∧
    m'.engine.next = g.next + 1 ∧ (∃ j ∈ m'.engine.ring, j.seq = g.next ∧ j.ctx = t.ctx ∧ j.state = st ∧ j.detail = detail) ∧
    (free → match s.readProblem t addr with
      | .error _ => refused 0x0F
      | .ok (.error code) => refused code
      | .ok (.ok p) => st = fPENDING ∧ detail = 0 ∧ ∃ e w, e < 16 ∧ s.walkAt q e = none ∧ s'.walkAt q e = some w ∧
          w.state = .queued ∧ w.seq = g.next ∧ w.ctx = t.ctx ∧ w.uid = t.uid ∧ w.window = t.window ∧ w.prob = p ∧ w.next = 0 ∧
          w.finished = 0 ∧ w.ops = [] ∧ w.upcalls = []) ∧
    (¬ free → refused 0x0E)

/-- 14 R257, R275, R276: HRET, HRETF and HFAIL hand the first return of an upcall's team to its walk and remove the split's lanes;
WSTAT reads a walk's counter; HREG and HUNREG change the grid's live-handler mask. -/
def Obligations.HandlersAndWalks : Prop := ∀ f s c t,
  let r (i : Instr) : Rd := { gts := s.gts, e := c.e, i := i, f := f }
  (∀ p ∈ [(Instr.hret f, Return.hret),
      (.hretf f, .hretf (.ofNat 64 (t.src (r (.hretf f)) f.sa 2 (c.low t))) (.ofNat 64 (t.src (r (.hretf f)) f.sb 2 (c.low t)))),
      (.hfail f, .hfail (t.src (r (.hfail f)) f.sa 1 (c.low t) % 2 ^ 16))],
    ∀ g, IssuesOne p.1 f s c t → t.kind = .upcall → t.grant = some g →
    t.bad f.sa 2 (c.low t) = false → t.bad f.sb 2 (c.low t) = false →
    let left := t.live &&& ~~~ c.lanes t
    ∃ s', exec p.1 s = .next s' ∧
      (∀ w, t.returned = false → g.live = true → s.walkAt g.quad g.rte = some w → w.upcalls.any (·.id = g.upcall) = true →
        s'.walkAt g.quad g.rte = some { w with returns := w.returns ++ [(g.upcall, p.2)] }) ∧
      (t.returned = true ∨ g.live = false → s'.mwes = s.mwes) ∧
      (left ≠ 0 → ∃ t', s'.team? c.uid = some t' ∧ t'.live = left ∧ t'.returned = true ∧ s.sameMemory s' ∧ t'.regs = t.regs ∧
        ∀ u, u ≠ c.uid → s'.team? u = s.team? u) ∧
      (left = 0 → ∀ t', s'.team? c.uid = some t' → t'.live = 0)) ∧
  (∀ n, IssuesOne (.wstat f) f s c t → f.dst = .s n → t.regs.emptyS n.toNat = false →
    let k := t.regs.getH (hOf f.sa)
    let walk : Prop := 0x0100 ≤ tokenSrc k ∧ tokenSrc k < 0x0130
    Goes (.wstat f) s c t fun s' t' =>
      s' = { s with teams := s'.teams, agenda := s'.agenda, cores := s'.cores, mwes := s'.mwes } ∧
      (∀ u, u ≠ c.uid → s'.team? u = s.team? u) ∧ (¬ walk → s'.mwes = s.mwes) ∧
      ∃ x : U64, t'.regs = { t.regs.setS n.toNat x false with flag := t'.regs.flag, sEmpty := t'.regs.sEmpty } ∧
        (¬ walk → x = 0) ∧ ∀ w ∈ (s'.mwe (tokenSrc k - 0x0100)).walks, walk → w.2.seq = tokenSeq k →
          (∀ v ∈ (s'.mwe (tokenSrc k - 0x0100)).walks, v.2.seq = tokenSeq k → v = w) → s.completed t.ctx k = false →
          x = .ofNat 64 (w.2.counters.getD (f.imm.toNat % 8) 0)) ∧
  (∀ g, s.grid? t.grid = some g → f.imm.toNat % 64 < g.image.htCount →
    let n := f.imm.toNat % 64
    let ends (i : Instr) (on : Bool) : Prop := IssuesOne i f s c t → Goes i s c t fun s' t' => t.flagOnly t' ∧
      s' = { s with teams := s'.teams, agenda := s'.agenda, grids := s'.grids } ∧ (∀ u, u ≠ c.uid → s'.team? u = s.team? u) ∧
      ∃ live : U64, s'.grid? t.grid = some { g with live := live } ∧
        ∀ b, b < 64 → live.getLsbD b = if b = n then on else g.live.getLsbD b
    ends (.hreg f) true ∧ ends (.hunreg f) false)

/-! ## Barriers, records and waits -/

/-- 16 R293 to R299: BAR.INIT binds, BAR.ARRIVE and BARX arrive, BAR.WAIT and BAR.SYNC wait while a lane of the split is in
the phase, which completes once enough lanes have arrived and no bytes are pending, or park when the team is shed; a lane that is in the
phase arrives only after it. The cluster barrier completes once every live lane has arrived. The model's reading where the spec has
several: log 58. -/
def Obligations.Barriers : Prop := ∀ f s c t b, t.saved = none →
  let n := f.imm.toNat % 256
  let m := c.lanes t
  let a (i : Instr) : Nat := t.src { gts := s.gts, e := c.e, i := i, f := f } f.sa 1 (c.low t)
  let put (b : Barrier) : Team := { t with barriers := NMap.insert t.barriers n b }
  let inPhase (b : Barrier) : Prop := b.arrived &&& m ≠ 0
  let parked (t' : Team) (w : Waiting) : Prop :=
    (t'.split c.e).state = .shed ∧ (t'.split c.e).waiting = w ∧ (t'.split c.e).pc = c.pc ∧ (t'.split c.e).mask = c.mask
  -- the split stays at the instruction, parked or blocked: it has still to wait, or all of the instruction is before it
  let stays (i : Instr) (barriers : NMap Barrier) (w : Waiting) : Prop := ∃ s' t', exec i s = .next s' ∧
    s'.team? c.uid = some t' ∧ State.onlyTeam c.uid s s' ∧ s.sameBytes s' ∧ t.flagOnly t' ∧ t'.barriers = barriers ∧
    if s.parks t = true ∧ i ≠ .barArrive f ∧ i ≠ .barx f then parked t' w else t'.blockedAt c w
  (IssuesOne (.barInit f) f s c t → t.bad f.sa 1 (c.low t) = false → a (.barInit f) ≤ 1024 →
    (∀ x, NMap.find? t.barriers n = some x → x.arrived = 0 ∧ x.pbytes = 0) → s.boundBarriers t.core < 256 →
    let old := (NMap.find? t.barriers n).getD { count := 0, arrived := 0, pbytes := 0, phase := 0, abandoned := false }
    let new := if a (.barInit f) = 0 then NMap.erase t.barriers n
      else NMap.insert t.barriers n { old with count := a (.barInit f), abandoned := false }
    Completes (.barInit f) s c { t with barriers := new } fun _ t' => t.flagOnly t') ∧
  (NMap.find? t.barriers n = some b → b.abandoned = false →
    (∀ p ∈ [(Instr.barArrive f, 0), (.barx f, a (.barx f))], IssuesOne p.1 f s c t →
      (¬ inPhase b → Completes p.1 s c (put (b.arrive m p.2)) fun _ t' => t.flagOnly t') ∧
      (inPhase b → stays p.1 t.barriers (.bar n true))) ∧
    (IssuesOne (.barWait f) f s c t →
      (s.parks t = false → ¬ inPhase b → Completes (.barWait f) s c t fun _ t' => t.flagOnly t') ∧
      (s.parks t = true ∨ inPhase b → stays (.barWait f) t.barriers (.bar n false))) ∧
    (IssuesOne (.barSync f) f s c t → m ≠ 0 →
      let new := put (b.arrive m 0)
      (inPhase b → stays (.barSync f) t.barriers (.bar n true)) ∧
      (¬ inPhase b → s.parks t = false → ¬ inPhase (b.arrive m 0) → Completes (.barSync f) s c new fun _ t' => t.flagOnly t') ∧
      (¬ inPhase b → s.parks t = true ∨ inPhase (b.arrive m 0) → stays (.barSync f) new.barriers (.bar n false)))) ∧
  (IssuesOne (.cbar f) f s c t → (s.cbarOf t).abandoned = false → m ≠ 0 → ¬ s.cbarMet t 0 →
    let old := s.cbarOf t
    let form := f.isp.toNat % 4
    let arrived : Prop := NMap.get old.arrived c.uid 0 &&& m ≠ 0
    let new : CBar := { old with arrived := NMap.insert old.arrived c.uid (NMap.get old.arrived c.uid 0 ||| m) }
    ∃ s' t', exec (.cbar f) s = .next s' ∧ s'.team? c.uid = some t' ∧ s.sameMemory s' ∧ t.flagOnly t' ∧
      (form = 2 ∨ arrived → s'.cbarOf t' = old) ∧
      (form ≠ 2 → ¬ arrived → s.cbarMet t m → s'.cbarOf t' = { old with arrived := [], phase := old.phase + 1 }) ∧
      (form ≠ 2 → ¬ arrived → ¬ s.cbarMet t m → s'.cbarOf t' = new) ∧
      (s.parks t = false →
        (form = 2 → ¬ arrived → t'.ends t c) ∧ (form = 2 → arrived → t'.blockedAt c (.cbar false)) ∧
        (form ≠ 2 → arrived → t'.blockedAt c (.cbar true)) ∧
        (form ≠ 2 → ¬ arrived → form = 1 ∨ s.cbarMet t m → t'.ends t c) ∧
        (form ≠ 2 → ¬ arrived → form ≠ 1 → ¬ s.cbarMet t m → t'.blockedAt c (.cbar false))) ∧
      (s.parks t = true → parked t' (.cbar (decide (form ≠ 2 ∧ arrived)))))

/-- 16 R300, R301: AMSG, CONT and EMIT send one record of each performing lane, in ascending lane order, to the record gatherers of
their cores. -/
def Obligations.Messages : Prop := ∀ f s c t d, ∀ i ∈ [Instr.amsg f, .cont f, .emit f], i.wellFormed = true → Issues i f s c t →
  let r : Rd := { gts := s.gts, e := c.e, i := i, f := f }
  let vector := f.sa.isKind .v || f.sb.isKind .v
  let ls := if vector then Mask.list (t.guarded f.grd (c.lanes t)) else [c.low t]
  (∀ g, t.isEmpty 1 g f.sa = false ∧ t.isEmpty 14 g f.sb = false) →
  (if vector then ∀ l, Mask.has (c.lanes t) l = true → t.guardBad f.grd l = false
    else t.guard f.grd (c.low t) = true ∧ t.guardBad f.grd (c.low t) = false) →
  (∀ l ∈ ls, t.bad f.sa 1 l = false) →
  s.destOf t i f = some d → (∀ l ∈ ls, (s.destCore t i r l).isSome = true) → s.roomForAll →
  Goes i s c t fun s' t' => t.flagOnly t' ∧ s' = { s with teams := s'.teams, agenda := s'.agenda, cores := s'.cores } ∧
    (∀ u, u ≠ c.uid → s'.team? u = s.team? u) ∧
    ∀ k, s'.core k = { s.core k with inflight := (s.core k).inflight ++
      (ls.filter fun l => s.destCore t i r l = some k).map (t.record d f.sb) }

/-- 16 R303 to R305: the fences end once no write of the split is parked; WAITMON ends where every lane's word differs from
what it expects, and blocks otherwise; SLEEP blocks for its time. The model's reading where the spec has several: log 63. -/
def Obligations.Waits : Prop := ∀ f s c t,
  (∀ i ∈ [Instr.fenceIo f, .fencePool f], IssuesOne i f s c t → Completes i s c t fun _ t' => t.flagOnly t') ∧
  ((Instr.waitmon f).wellFormed = true → Issues (.waitmon f) f s c t →
    let r : Rd := { gts := s.gts, e := c.e, i := .waitmon f, f := f }
    let k := if f.isp[0] then 2 else 1
    let vector := f.sa.isKind .v || f.sb.isKind .v
    let ls := if vector then Mask.list (t.guarded f.grd (c.lanes t)) else [c.low t]
    (∀ g, t.isEmpty 2 g f.sa = false ∧ t.isEmpty k g f.sb = false) →
    (if vector then ∀ l, Mask.has (c.lanes t) l = true → t.guardBad f.grd l = false
      else t.guard f.grd (c.low t) = true ∧ t.guardBad f.grd (c.low t) = false) →
    s.stashless → s.fabricUp = true → s.preempting t.ctx = false → c.shared = false → s.passLanes = [] → c.isLast t →
    c.lanes t ≠ 0 → (t.split c.e).mon = [] → (∀ l ∈ ls, t.splitOf l = some c.e) → ∀ pas : Nat → List Nat, (∀ l ∈ ls, t.bad f.sa 2 l = false ∧ s.checkLane t (.waitmon f) (t.src r f.sa 2 l) = .ok (pas l) ∧
      (sectorsOf (pas l)).any (NSet.mem s.poison) = false) →
    let word (l : Nat) : Nat := leNat ((pas l).map (Memory.read s.mem))
    ((∀ l ∈ ls, word l ≠ t.src r f.sb k l % 2 ^ 64) →
      MemCompletes (.waitmon f) s c t fun s' t' => s.sameMemory s' ∧ t.flagOnly t') ∧
    (∀ l ∈ ls, word l = t.src r f.sb k l % 2 ^ 64 → ∃ s' t', exec (.waitmon f) s = .next s' ∧ s'.team? c.uid = some t' ∧
      State.onlyMemory c.uid s s' ∧ s.sameMemory s' ∧ t.flagOnly t' ∧ t'.blockedAt c (.monitor f.isp[0]) ∧
      ∀ j ∈ ls, NMap.find? (t'.split c.e).mon j =
        some ((pas j).headD 0, .ofNat 64 (t.src r f.sb k j), .ofNat 64 (word j)))) ∧
  (IssuesOne (.sleep f) f s c t → t.bad f.sa 1 (c.low t) = false → s.preempting t.ctx = false →
    let a := t.src { gts := s.gts, e := c.e, i := .sleep f, f := f } f.sa 1 (c.low t)
    (a = 0 → Completes (.sleep f) s c t fun _ t' => t.flagOnly t') ∧
    (a ≠ 0 → t.kind ≠ .kite → ∃ s' t', exec (.sleep f) s = .next s' ∧ s'.team? c.uid = some t' ∧ State.onlyTeam c.uid s s' ∧
      t.flagOnly t' ∧ t'.blockedAt c (.sleep (s.time + 13 * a)) ∧ (s.time + 13 * a, .sleepExpiry c.uid c.e) ∈ s'.agenda))

/-! ## Traps, debug and the supervisor's instructions -/

/-- 18 R310, R317, R320, 02 R32: TRAP traps each group in which its guard holds, UDF each group of the split; BKPT stops the
split where breakpoints are enabled, and otherwise does nothing. The model's reading where the spec has several: log 34. -/
def Obligations.TrapInstructions : Prop := ∀ f s c t,
  let act := t.guarded f.grd (c.lanes t)
  let n := f.imm.toNat % 2 ^ 16
  ((∀ l, Mask.has (c.lanes t) l = true → t.guardBad f.grd l = false) → Issues (.trap f) f s c t →
    (act = 0 → Completes (.trap f) s c t fun _ t' => t.flagOnly t') ∧
    (act ≠ 0 → Traps (.trap f) s c t cTRAP n act)) ∧
  (∀ raw, s.cur = some c → s.team? c.uid = some t → (t.split c.e).state = .ready → (t.split c.e).pc = c.pc →
    Traps (.udf raw) s c t cILLOP 0 (c.due t)) ∧
  ((∀ l, Mask.has (c.lanes t) l = true → t.guardBad f.grd l = false) → Issues (.bkpt f) f s c t →
    (t.mode = .trap ∨ t.debug[0] = false ∨ act = 0 → Completes (.bkpt f) s c t fun _ t' => t.flagOnly t') ∧
    (t.mode ≠ .trap → t.debug[0] = true → act ≠ 0 → (∀ g, NMap.find? t.traps g = none) →
      ∃ s' t', exec (.bkpt f) s = .next s' ∧ s'.team? c.uid = some t' ∧ s.sameMemory s' ∧ t.onlyRegs t' ∧ t.flagOnly t' ∧
        (t'.split c.e).state = .debug ∧ (t'.split c.e).pc = c.pc ∧ (t'.split c.e).mask = c.mask ∧
        ∀ g, Mask.word (c.lanes t) g ≠ 0 → ∃ x, NMap.find? t'.traps g = some x ∧ x.isOf s c cBKPT n (Mask.word act g) true))

/-- 02 R22, R32, 18 R311, R319: an instruction above the mode's privilege traps PRIV, and one that the mode bans or that
names a register outside the allocation ILLOP, whatever its guard. The model's reading where the spec has several: log 39. -/
def Obligations.PrivilegeTraps : Prop := ∀ f s c t, s.cur = some c → s.team? c.uid = some t → (t.split c.e).state = .ready →
  (t.split c.e).pc = c.pc →
  ∀ i ∈ [Instr.tret f, .inspect f, .alter f, .resume f, .kill f, .replay f, .tlbinvAll f, .tlbinvCtx f, .tlbinvVa f, .accspill f,
      .accfill f, .scanrun f, .cwr f, .cww f, .walk f, .bcopy f, .btile f, .bmcast f, .bfill f, .bgather f, .amsg f, .cont f,
      .emit f, .barInit f, .barArrive f, .barWait f, .barSync f, .barx f, .cbar f, .critEnter f, .critExit f, .hreg f, .hunreg f,
      .hret f, .hretf f, .hfail f, .regroup f, .safept f, .add f, .ld f, .st f],
    (t.holdsAll i f = true → modeBan t.mode i = false → mayRun t.mode i = false → Traps i s c t cPRIV 0 (c.due t)) ∧
    (t.holdsAll i f = false ∨ modeBan t.mode i = true → Traps i s c t cILLOP 0 (c.due t))

/-- 18 R315, R316: TRET ends the handler, no access of which is parked, and kills the group it served if that is still trapped; RESUME lets a trapped group
go on at its resume PC; KILL removes a group's lanes; REPLAY queues the group's instruction and waits for its pass. The
model's reading where the spec has several: logs 40, 45 and 81. -/
def Obligations.HandlerInstructions : Prop := ∀ f s c t,
  (IssuesOne (.tret f) f s c t → t.kind = .trapHandler → (∀ x ∈ (s.core t.core).oplog, x.uid ≠ t.uid) → ∃ s', exec (.tret f) s = .next s' ∧ s'.team? c.uid = none ∧
    ∀ uid g x y, t.serves = some (uid, g) → uid ≠ c.uid → s.team? uid = some x → x.kind ≠ .kite → x.kind ≠ .trapHandler →
      NMap.find? x.traps g = some y → y.handler = some c.uid → y.debug = false →
      ∀ x', s'.team? uid = some x' → Mask.word x'.live g = 0) ∧
  ∀ x g y, x.uid ≠ c.uid → s.team? x.uid = some x → x.kind ≠ .kite → x.kind ≠ .trapHandler →
    t.kind = .trapHandler ∨ t.kind = .supervisor → NMap.find? x.traps g = some y → y.debug = false →
    let r (i : Instr) : Rd := { gts := s.gts, e := c.e, i := i, f := f }
    let aims (i : Instr) : Prop := IssuesOne i f s c t ∧ s.aim t (t.word (r i) f.sa (c.low t)) = .group x g
    let sp := x.split y.split
    (aims (.resume f) → y.rpc = y.pc + 12 → sp.pc = y.pc → sp.state = .trap → sp.stepping = false → sp.mask ≠ 0 →
      (∀ p ∈ x.traps, p.2.split = y.split → p.1 = g ∨ p.2.debug = true) → sp.due = 0 →
      Goes (.resume f) s c t fun s' t' => t.flagOnly t' ∧ s.sameMemory s' ∧ ∃ x', s'.team? x.uid = some x' ∧ x.onlySplits x' ∧
        NMap.find? x'.traps g = none ∧ x'.stands y.rpc sp.mask) ∧
    (aims (.resume f) → y.rpc ≠ y.pc + 12 → x.freeEntry.isSome = true → frontierBytes x.frontier ≤ 4032 → sp.state = .trap →
      Mask.word sp.mask g ≠ 0 →
      Goes (.resume f) s c t fun s' t' => t.flagOnly t' ∧ s.sameMemory s' ∧ ∃ x', s'.team? x.uid = some x' ∧ x.onlySplits x' ∧
        ∀ l, l / 32 = g → Mask.has sp.mask l = true → x'.laneAt l y.rpc) ∧
    (aims (.kill f) → ∃ s' t', exec (.kill f) s = .next s' ∧ s'.team? c.uid = some t' ∧ t.flagOnly t' ∧
      t'.ends t c ∧ ∀ x', s'.team? x.uid = some x' → Mask.word x'.live g = 0) ∧
    (aims (.replay f) → ∃ s' t', exec (.replay f) s = .next s' ∧ s'.team? c.uid = some t' ∧ t.flagOnly t' ∧ t.onlyRegs t' ∧
      s' = { s with teams := s'.teams, issueQ := s.issueQ ++
        [{ uid := x.uid, e := y.split, joined := false, replay := some (g, c.uid, c.e) }] } ∧
      (t'.split c.e).state = .wait ∧ (t'.split c.e).waiting = .replay x.uid g ∧ (t'.split c.e).pc = c.pc)

/-- 18 R313, R314: INSPECT reads, and ALTER writes, what its selector names of the team it aims at; nothing else changes. The
model's reading where the spec has several: log 46. -/
def Obligations.InspectAndAlter : Prop := ∀ f s c t x g,
  let kind := selKind f.imm
  let idx := selIndex f.imm
  let part := selPart f.imm
  let r (i : Instr) : Rd := { gts := s.gts, e := c.e, i := i, f := f }
  let aims (i : Instr) : Prop := IssuesOne i f s c t ∧ i.wellFormed = true ∧
    s.aim t (t.word (r i) f.sa (c.low t)) = .group x g ∧ x.hasIndex kind idx = true
  let y := NMap.find? x.traps g
  let scalar : Nat × Bool := match kind with
    | 1 => ((x.regs.getS idx).toNat, x.regs.badS idx)
    | 3 => ((x.regs.getH idx).toNat, false)
    | 9 => ((y.map fun y => (trapWord x x.image g y idx).toNat).getD 0, false)
    | 10 => ((y.map fun y => bitsAt y.word.toNat (32 * part) 32).getD 0, false)
    | 12 => ((y.map (·.rpc.toNat)).getD 0, false)
    | _ => x.inspectScalar g kind idx part
  let lane (l : Nat) : Nat × Bool :=
    if l < 32 ∧ 32 * g + l < x.lanes then match kind with
      | 0 => ((x.regs.getV (32 * g + l) idx).toNat, x.regs.badV (32 * g + l) idx)
      | 2 => (if x.regs.getP (32 * g + l) idx then 1 else 0, x.regs.badP (32 * g + l) idx)
      | 5 => (((x.regs.link (32 * g + l)).reverse.getD idx 0).toNat, false)
      | _ => (s.laneWord x (32 * g + l), false)
    else (0, false)
  let ls (l : Nat) : Prop := l < 32 ∧ 32 * g + l < x.lanes ∧ Mask.has (c.lanes t) l = true
  (aims (.inspect f) →
    (∀ n, f.dst = .s n → Completes (.inspect f) s c t fun _ t' =>
      t'.regs = { t.regs.setS n.toNat (.ofNat 64 scalar.1) scalar.2 with flag := t'.regs.flag }) ∧
    (∀ n, f.dst = .v n → Completes (.inspect f) s c t fun _ t' => ∃ q z, t'.regs = { q with flag := t'.regs.flag } ∧
      VecResult t q f.dst (Instr.inspect f).widths.1 none (fun l => Mask.has (c.lanes t) l = true) (fun _ => False) z ∧
      ∀ l, Mask.has (c.lanes t) l = true → (z l).val = (lane l).1 ∧ (z l).bad = (lane l).2)) ∧
  (aims (.alter f) → x.uid ≠ c.uid → s.team? x.uid = some x → x.isHeld g = true → (kind = 3 ∨ kind = 12 → t.bad f.sb 1 0 = false) →
    (kind = 12 → x.isCode (.ofNat 64 (t.word (r (.alter f)) f.sb 0)) = true) →
    let b := t.word (r (.alter f)) f.sb 0
    Goes (.alter f) s c t fun s' t' => t.flagOnly t' ∧ s' = { s with teams := s'.teams, agenda := s'.agenda } ∧
      (∀ u, u ≠ c.uid → u ≠ x.uid → s'.team? u = s.team? u) ∧ ∃ x', s'.team? x.uid = some x' ∧
      x' = { x with regs := x'.regs, traps := x'.traps } ∧ (kind ≠ 12 → x'.traps = x.traps) ∧
      match kind with
      | 0 => x'.regs = { x.regs with v := x'.regs.v, vPoison := x'.regs.vPoison } ∧ ∀ l n, n < 512 →
          if n = idx ∧ l / 32 = g ∧ ls (l % 32) then
            x'.regs.getV l n = .ofNat 32 (t.src (r (.alter f)) f.sb 1 (l % 32)) ∧ x'.regs.badV l n = t.bad f.sb 1 (l % 32)
          else x'.regs.getV l n = x.regs.getV l n ∧ x'.regs.badV l n = x.regs.badV l n
      | 1 => x'.regs = x.regs.setS idx (.ofNat 64 b) (t.bad f.sb 1 0)
      | 2 => x'.regs = { x.regs with p := x'.regs.p, pPoison := x'.regs.pPoison } ∧ ∀ l n, n < 16 →
          if n = idx ∧ l / 32 = g ∧ ls (l % 32) then
            x'.regs.getP l n = decide (t.src (r (.alter f)) f.sb 1 (l % 32) % 2 = 1) ∧ x'.regs.badP l n = t.bad f.sb 1 (l % 32)
          else x'.regs.getP l n = x.regs.getP l n ∧ x'.regs.badP l n = x.regs.badP l n
      | 3 => x'.regs = x.regs.setH idx (.ofNat 64 b) false
      | 4 => x'.regs = { x.regs with vEmpty := x'.regs.vEmpty, sEmpty := x'.regs.sEmpty, hEmpty := x'.regs.hEmpty } ∧
          (∀ k n, n < 512 → x'.regs.emptyV k n =
            (x.regs.emptyV k n && !(decide (k = g ∧ idx < 4 ∧ n / 64 = idx) && b.testBit (n % 64)))) ∧
          (∀ n, x'.regs.emptyS n = (x.regs.emptyS n && !(decide (4 ≤ idx ∧ idx < 6 ∧ n / 64 = idx - 4) && b.testBit (n % 64)))) ∧
          ∀ n, n < 64 → NSet.mem x'.regs.hEmpty n = (NSet.mem x.regs.hEmpty n && !(decide (6 ≤ idx) && b.testBit n))
      | 5 => x'.regs = { x.regs with links := x'.regs.links } ∧ ∀ l,
          let old := x.regs.link l
          if l / 32 = g ∧ ls (l % 32) ∧ idx < old.length then
            x'.regs.link l = old.set (old.length - 1 - idx) (.ofNat 64 (t.src (r (.alter f)) f.sb 2 (l % 32)))
          else x'.regs.link l = old
      | _ => x'.regs = x.regs ∧ ∀ k, NMap.find? x'.traps k =
          if k = g then y.map fun y => { y with rpc := .ofNat 64 b } else NMap.find? x.traps k)

/-- 18 R318, R319, R328 to R330: CWR reads and CWW writes control words; RDTS reads the GTS, PCLASS sets the team's priority
class, PWRQ reads the power words. The model's reading where the spec has several: logs 27 and 47. -/
def Obligations.ControlWords : Prop := ∀ f s c t,
  let r (i : Instr) : Rd := { gts := s.gts, e := c.e, i := i, f := f }
  let n := f.imm.toNat % 256
  (∀ d, IssuesOne (.cwr f) f s c t → f.dst = .s d → t.regs.emptyS d.toNat = false →
    let o := s.wordTeam t n
    let mode := match o.mode with | .user => 0 | .trap => 1 | .supervisor => 2 | _ => 3
    let x : U64 := match n with
      | 0 => .ofNat 64 (mode + o.prio * 2 ^ 8 + o.crit % 2 ^ 8 * 2 ^ 16)
      | 1 => o.debug
      | 2 => if s.preempting t.ctx then 1 else 0
      | _ => t.attach
    Completes (.cwr f) s c t fun _ t' => t'.regs = { t.regs.setS d.toNat x false with flag := t'.regs.flag }) ∧
  (IssuesOne (.cww f) f s c t →
    let x : U64 := .ofNat 64 (t.word (r (.cww f)) f.sa (c.low t))
    let new := { t with attach := x &&& 0x13FFF }
    (n = 1 → ∃ s' t' o', exec (.cww f) s = .next s' ∧ s'.team? c.uid = some t' ∧ t.flagOnly t' ∧ t'.ends t c ∧
      s' = { s with teams := s'.teams, agenda := s'.agenda } ∧ s'.team? (s.wordTeam t 1).uid = some o' ∧ o'.debug = x &&& 7) ∧
    (n ≠ 1 → x.getLsbD 16 = false ∨ (s.attached new).isSome = true →
      Completes (.cww f) s c new fun _ t' => t.flagOnly t')) ∧
  (IssuesOne (.rdts f) f s c t →
    (∀ d, f.dst = .s d → Completes (.rdts f) s c t fun _ t' =>
      t'.regs = { t.regs.setS d.toNat (.ofNat 64 s.gts) false with flag := t'.regs.flag, sEmpty := t'.regs.sEmpty }) ∧
    (∀ d, f.dst = .v d → Completes (.rdts f) s c t fun _ t' => ∃ q z,
      t'.regs = { q with flag := t'.regs.flag, vEmpty := t'.regs.vEmpty } ∧
      VecResult t q f.dst 2 none (fun l => Mask.has (c.lanes t) l = true) (fun _ => False) z ∧
      ∀ l, Mask.has (c.lanes t) l = true → (z l).val = s.gts % 2 ^ 64 ∧ (z l).bad = false)) ∧
  (IssuesOne (.pclass f) f s c t → t.bad f.sa 1 (c.low t) = false →
    let a := t.word (r (.pclass f)) f.sa (c.low t)
    (s.prioRange t).1 ≤ a → a ≤ (s.prioRange t).2 →
    (s.classShed a = false → Completes (.pclass f) s c { t with prio := a } fun _ t' => t.flagOnly t') ∧
    ∃ s' t', exec (.pclass f) s = .next s' ∧ s'.team? c.uid = some t' ∧ t.flagOnly t' ∧ t'.prio = a ∧
      (s.classShed a = true → a ≠ t.prio → t'.shedAt = some (s.time + 10)) ∧ t'.ends t c) ∧
  (∀ d, IssuesOne (.pwrq f) f s c t → f.dst = .s d → t.regs.emptyS d.toNat = false →
    let p := s.power
    Completes (.pwrq f) s c t fun _ t' => ∃ x : Nat, t'.regs = { t.regs.setS d.toNat (.ofNat 64 x) false with flag := t'.regs.flag } ∧
      match f.imm.toNat % 16 with
      | 0 => p.level < 2 ^ 8 → t.prio < 8 → bitsAt x 0 8 = p.level ∧ bitsAt x 8 3 = t.prio ∧ x / 2 ^ 32 = p.changes ∧
          x.testBit 11 = s.classShed t.prio ∧ x.testBit 12 = t.splits.any (·.state = .shed) ∧
          x.testBit 13 = decide ((s.quadPower (quadOf t.core)).alw < 0)
      | 1 => x = p.changeGts
      | 2 => x = p.frame.freq + p.frame.vbus * 2 ^ 32
      | 3 => x = p.frame.seq + p.frame.flags * 2 ^ 16
      | _ => x = p.frame.gts)

/-- 18 R327, R331, R332: TLBINV drops the entries it names from every TLB; SCANRUN queues a core; ACCSPILL writes a saved
walk's tile to memory and frees its accumulator; ACCFILL brings one back. The model's reading where the spec has several:
logs 32, 47 and 48. -/
def Obligations.SupervisorInstructions : Prop := ∀ f s c t,
  let r (i : Instr) : Rd := { gts := s.gts, e := c.e, i := i, f := f }
  let a (i : Instr) : Nat := t.word (r i) f.sa (c.low t)
  let b (i : Instr) : U64 := .ofNat 64 (t.word (r i) f.sb (c.low t))
  let q := quadOf t.core
  let drops (i : Instr) (p : Held → Bool) : Prop := Goes i s c t fun s' t' => t.flagOnly t' ∧
    s' = { s with teams := s'.teams, agenda := s'.agenda, tlb := s.tlb.filter fun h => !p h } ∧
    ∀ u, u ≠ c.uid → s'.team? u = s.team? u
  (IssuesOne (.tlbinvAll f) f s c t → drops (.tlbinvAll f) fun _ => true) ∧
  (IssuesOne (.tlbinvCtx f) f s c t → let x := a (.tlbinvCtx f) % 2 ^ 12
    (t.mode = .trap → x = t.ctx) → drops (.tlbinvCtx f) fun h => h.ctx = x) ∧
  (IssuesOne (.tlbinvVa f) f s c t → t.bad f.sa 1 (c.low t) = false → let x := f.imm.toNat % 2 ^ 12
    (t.mode = .trap → x = t.ctx) →
    let page (h : Held) := a (.tlbinvVa f) % 2 ^ 57 / 2 ^ levelShift h.level
    drops (.tlbinvVa f) fun h => h.ctx = x && (h.path = page h || (h.level = 3 && pteCont h.entry && h.path / 32 = page h / 32))) ∧
  (IssuesOne (.scanrun f) f s c t → a (.scanrun f) < 192 → Goes (.scanrun f) s c t fun s' t' => t.flagOnly t' ∧
    s' = { s with teams := s'.teams, agenda := s'.agenda, scanQueue := s.scanQueue ++ [a (.scanrun f)] } ∧
    ∀ u, u ≠ c.uid → s'.team? u = s.team? u) ∧
  (∀ pas w, IssuesOne (.accspill f) f s c t → t.bad f.sb 1 (c.low t) = false → a (.accspill f) < 4 →
    let x := (s.mwe q).accs.getD (a (.accspill f)) {}
    x.st = 2 → s.walkAt q x.rte = some w → w.state = .saved → w.seq = x.seq →
    s.spillAccess t .write (b (.accspill f)) = .ok pas → (∀ p ∈ pas, s.locked p = false) → pas.Nodup → s.stashless → s.fabricUp = true →
    Goes (.accspill f) s c t fun s' t' => t.flagOnly t' ∧ (s'.mwe q).accs.getD (a (.accspill f)) {} = {} ∧
      (∀ u, u ≠ c.uid → s'.team? u = s.team? u) ∧ (∀ p, p ∉ pas → Memory.read s'.mem p = Memory.read s.mem p) ∧
      let byte (k : Nat) : Byte := Memory.read s'.mem (pas.getD k 0)
      let word (k n : Nat) : Nat := leNat ((List.range n).map fun j => byte (k + j))
      word 0 4 = x.q % 2 ^ 32 ∧ word 4 2 = x.ctx % 2 ^ 16 ∧ word 6 1 = x.rte % 2 ^ 8 ∧ word 7 1 = 1 ∧ word 8 2 = 0x0100 + q ∧
      ∀ i j, i < 2 ^ w.prob.tmlog → j < 2 ^ w.prob.tnlog → i < 256 → j < 256 →
        word (64 + 4 * (256 * i + j)) 4 = (x.data.getD (i * 2 ^ w.prob.tnlog + j) 0).toNat ∧
          (i * 2 ^ w.prob.tnlog + j ∈ x.poison → NSet.mem s'.poison (pas.getD (64 + 4 * (256 * i + j)) 0 / 16) = true)) ∧
  ∀ pas w, IssuesOne (.accfill f) f s c t → t.bad f.sb 1 (c.low t) = false → a (.accfill f) < 4 → (s.mwe q).accs.length = 4 →
    ((s.mwe q).accs.getD (a (.accfill f)) {}).st = 0 →
    s.spillAccess t .read (b (.accfill f)) = .ok pas → s.stashless →
    let bytes := pas.map (Memory.read s.mem)
    s.walkAt q (leAt bytes 6 1) = some w → leAt bytes 8 2 = 0x0100 + q → leAt bytes 4 2 = w.ctx →
    Goes (.accfill f) s c t fun s' t' => t.flagOnly t' ∧ s.sameMemory s' ∧ (∀ u, u ≠ c.uid → s'.team? u = s.team? u) ∧
      let x := (s'.mwe q).accs.getD (a (.accfill f)) {}
      x.st = 2 ∧ x.q = leAt bytes 0 4 ∧ x.rte = leAt bytes 6 1 ∧ x.seq = w.seq ∧
      ∀ i j, i < 2 ^ w.prob.tmlog → j < 2 ^ w.prob.tnlog →
        x.data.getD (i * 2 ^ w.prob.tnlog + j) 0 = .ofNat 32 (leAt bytes (64 + 4 * (256 * i + j)) 4) ∧
          (i * 2 ^ w.prob.tnlog + j ∈ x.poison ↔ (s.gread [pas.getD (64 + 4 * (256 * i + j)) 0]).2 = true)

/-! ## Events of splits and teams -/

/-- 09 R160, R163, R164, R172, 16 R303, R304, 18 R310, 20 R357, R364: a HELD split issues again, a block-entry hold ends, a
sleeper and a monitor wake, a kite and the grants of a shed team end, a free trap frame starts a handler, and a cycle fills
the slots. The model's reading where the spec has several: logs 3 and 62. -/
def Obligations.SplitEvents : Prop := ∀ s : State,
  (∀ u e t, s.team? u = some t →
    let x := t.split e
    (x.state = .held → Happens (.divideRetry u e) s (s.becomes (t.setSplit e { x with state := .ready, waiting := .retry }))) ∧
    (3072 ≤ x.hold → e < t.splits.length →
      Happens (.blockEntryHoldExpiry u e) s (s.becomes (t.setSplit e { x with holdOver := true }))) ∧
    (∀ v, x.state = .blocked → x.waiting = .sleep v → v ≤ s.time →
      Happens (.sleepExpiry u e) s fun s' => s' = { s with teams := s'.teams, agenda := s'.agenda } ∧
        (∀ v, v ≠ u → s'.team? v = s.team? v) ∧ ∃ t', s'.team? u = some t' ∧ t.onlySplits t' ∧ t'.stands (x.pc + 12) x.mask) ∧
    (t.kind = .kite → Happens (.kiteTimeout u) s fun s' => s' = { s with teams := s'.teams } ∧ s'.team? u = none ∧
      ∀ v, v ≠ u → s'.team? v = s.team? v) ∧
    (∀ n v, t.notify = some (n, v) → v ≤ s.time → Happens (.notifyGrantExpiry u) s fun s' => ∃ t', s'.team? u = some t' ∧
      t'.notify = none ∧ t'.regs = t.regs) ∧
    (t.shedAt.isSome = true → s.classShed t.prio = true → Happens (.critcapExpiry u) s fun s' => ∃ t', s'.team? u = some t' ∧
      t'.critOver = true ∧ t'.regs = t.regs) ∧
    (∀ wide line raw g, x.state = .blocked → x.waiting = .monitor wide → x.word = some raw → decode raw = .ok (.waitmon g) →
      g.isp[0] = wide → t.uid = u → (∀ p ∈ t.traps, p.2.split ≠ e) → (∀ l, Mask.has x.mask l = true → t.splitOf l = some e) →
      NMap.sorted x.mon = true → s.stashless → s.fabricUp = true → s.preempting t.ctx = false →
      let keys (a : Nat) : List Nat := (List.range (if wide then 8 else 4)).map (a + ·)
      (∀ w ∈ x.mon, (s.gread (keys w.2.1)).2 = false) →
      let due (l : Nat) : Prop := Mask.has (x.mask &&& ~~~ x.did) l = true
      -- what a lane watches after the wake: the word's address, the value it expects, and the word as last read
      let read (l : Nat) (w : Nat × U64 × U64) : Nat × U64 × U64 :=
        if w.1 / 128 = line ∧ Mask.has (x.mask &&& ~~~ x.did) l = true ∧ w.2.1 = w.2.2 then
          (w.1, w.2.1, .ofNat 64 (leNat ((keys w.1).map (Memory.read s.mem)))) else w
      let over_ : Prop := ∀ l w, NMap.find? x.mon l = some w → due l → (read l w).2.1 ≠ (read l w).2.2
      Happens (.waitmonWake u e line) s fun s' => s.onlyMemory u s' ∧ s.sameMemory s' ∧
        ∃ t', s'.team? u = some t' ∧ t'.regs = t.regs ∧
          (¬ over_ → ∃ mon, t'.split e = { x with mon := mon } ∧ ∀ l, NMap.find? mon l = (NMap.find? x.mon l).map (read l)) ∧
          (over_ → t'.stands (x.pc + 12) x.mask ∧
            ((∃ w ∈ x.mon, s.nwrAt t.ctx = some w.2.1) → t'.notify = some (64, s.time + 1300000))))) ∧
  (∀ core f t g x c img, s.freeFrame core = some f → s.team? t.uid = some t → t.core = core → (t.traps.map (·.1)).Nodup →
    NMap.find? t.traps g = some x → x.handler = none → s.ctx? t.ctx = some c → c.trapImage = some img →
    (∀ t' g' x', s.team? t'.uid = some t' → t'.core = core → (g', x') ∈ t'.traps → x'.handler = none →
      (t' = t ∧ g' = g) ∨ x.gts < x'.gts) →
    Happens (.trapFrameGrant core) s fun s' => ∃ t' h, s'.team? t.uid = some t' ∧ s'.team? h.uid = some h ∧ s.team? h.uid = none ∧
      NMap.find? t'.traps g = some { x with handler := some h.uid } ∧
      h.kind = .trapHandler ∧ h.mode = .trap ∧ h.serves = some (t.uid, g) ∧ h.frame = f ∧ h.core = core ∧ h.ctx = t.ctx ∧
      h.lanes = 32 ∧ h.argp = c.targ ∧ h.prio = t.prio ∧ (h.split 0).state = .ready ∧
      (h.split 0).pc = img.base + .ofNat 64 img.entry ∧ (∀ l, Mask.has (h.split 0).mask l = decide (l < 32)) ∧
      ∀ n, n < 128 → h.regs.getS n = .ofNat 64 (([x.cls + g * 2 ^ 8 + x.split * 2 ^ 16 + t.ctx * 2 ^ 32,
        x.mask.toNat + x.detail % 2 ^ 32 * 2 ^ 32, x.pc.toNat, x.ea.toNat, t.team.toNat, t.image.toNat, x.gts] : List Nat).getD n 0)) ∧
  Happens .schedulerIssue s (fun s' => s'.time = s.time + 10) ∧
  ∀ core, (s.chooseCore core).length ≤ 4 ∧
    (∀ p ∈ s.chooseCore core, (s.team? p.main.uid).isSome = true ∧ ∀ d, p.joined = some d → d.uid = p.main.uid ∧ d.cls = p.main.cls ∧
      d.cls ∈ [PipeClass.vec, .f64, .sfu, .mem] ∧ d.group = p.main.group) ∧
    ∀ k ∈ [PipeClass.mem, .sfu, .ctrl, .uni], ((s.chooseCore core).filter fun p => p.main.cls == k).length ≤ 1

/-! ## Queues and placement -/

/-- 06 R95 to R102, R106, 07 R115 to R119, 12 R205, 19 R342, 23 R375, R381: wakes, packets, the master distributor and DONE.
The model's reading where the spec has several: logs 50 and 54; its choices of a team's registers at its start and of the core at the
grant: logs 7 and 86. -/
def Obligations.QueueEvents : Prop := ∀ s : State,
  (∀ fn off v, off % 8 = 0 → off < 32768 → s.status.getLsbD 0 = true → (s.fn fn).pasids = [] → Happens (.wakeWrite fn off 8 v) s fun s' =>
    s' = { s with wakes := s.wakes ++ [(fn, off / 8, s'.uidCtr, v)], uidCtr := s'.uidCtr, agenda := s'.agenda } ∧
    s.uidCtr < s'.uidCtr ∧ s'.awaits s.time .wakeApply) ∧
  (∀ fn q k v rest, s.power.a3 = false → s.wakes = (fn, q, k, v) :: rest → s.follows fn k = true →
    (64 ≤ s.wakes.length → ∀ x ∈ s.functions, x.2.posted = [] ∧ x.2.reads = []) →
    let x := s.queue q
    Happens .wakeApply s fun s' =>
      s' = { s with wakes := rest, queues := s'.queues, agenda := s'.agenda } ∧ (∀ k, k ≠ q → s'.queue k = s.queue k) ∧
      s'.queue q = if x.fn ≠ fn ∨ x.qstate ≠ 1 ∨ v.toNat ≤ x.wridx then x
        else if x.rdidx + 2 ^ x.rlog < v.toNat then { x with qstate := 2, qcode := 0x0A }
        else { x with wridx := v.toNat, wakes := x.wakes ++ [(v.toNat, s.gts)] }) ∧
  (∀ q pas, let x := s.queue q; let n := x.rdidx; let xl := s.xlatOf x.ctx 0
    s.stashless → s.mayRead q = true →
    s.fwAddrs x.ctx xl .read (x.rbase + .ofNat 64 (n % 2 ^ x.rlog * 64)) 64 = (s, .ok pas) →
    let b := pas.map (Memory.read s.mem)
    let only (s' : State) (y : Queue) : Prop := s'.queue q = y ∧ ∀ k, k ≠ q → s'.queue k = s.queue k
    let type := leAt b 0 1
    (type = 0 ∨ 4 < type ∨ 1 < leAt b 1 1 → HappensAs (.packetRead q) s (fun u s' => s' = { u with queues := s'.queues })
      fun s' => only s' { x with qstate := 2, qcode := 0x01 }) ∧
    (leAt b 1 1 = 0 ∨ leAt b 1 1 = 1 ∧ n ≤ x.doneidx →
      (type = 2 → leAt b 2 1 ≤ 63 → leAt b 3 1 ≤ 63 → leAt b 4 4 ≤ 1000000 → leAt b 8 56 = 0 →
        HappensAs (.packetRead q) s (fun u s' => s' = { u with queues := s'.queues, agenda := s'.agenda }) fun s' =>
          let node := (leAt b 3 1, if leAt b 4 4 = 0 then 2000 else leAt b 4 4)
          only s' (Queue.passed { x with rdidx := n + 1, nodes := NMap.insert x.nodes (leAt b 2 1) node } n)) ∧
      (∀ to_, type = 3 → leAt b 2 1 ≤ 1 → leAt b 3 1 ≤ 1 → leAt b 4 2 ≤ 2047 → leAt b 6 2 = 0 → leAt b 8 8 % 8 = 0 →
        leAt b 0x18 40 = 0 →
        s.fwAddrs x.ctx xl (if leAt b 2 1 = 1 then .atomic else .write) (.ofNat 64 (leAt b 8 8)) 8 = (s, .ok to_) → to_.Nodup →
        (∀ a ∈ to_, s.locked a = false) →
        HappensAs (.packetRead q) s
            (fun u s' => s' = { u with queues := s'.queues, agenda := s'.agenda, mem := s'.mem, poison := s'.poison, out := s'.out
                                       woken := s'.woken }) fun s' =>
          only s' (Queue.passed { x with rdidx := n + 1 } n) ∧
          s.stores s' to_ (leBytes 8 (leAt b 0x10 8 + if leAt b 2 1 = 1 then leNat (to_.map (Memory.read s.mem)) else 0)) ∧
          s'.out = s.out ++ if leAt b 3 1 = 1 then [.msix x.fn (leAt b 4 2)] else []) ∧
      (∀ at_, type = 4 → leAt b 2 1 ≤ 3 → leAt b 3 5 = 0 → leAt b 8 8 % 8 = 0 → leAt b 0x20 32 = 0 →
        s.fwAddrs x.ctx xl .read (.ofNat 64 (leAt b 8 8)) 8 = (s, .ok at_) →
        let word := leNat (at_.map (Memory.read s.mem)) &&& leAt b 0x18 8
        let v := leAt b 0x10 8
        let holds := match leAt b 2 1 with | 0 => word = v | 1 => word ≠ v | 2 => v ≤ word | _ => word < v
        HappensAs (.packetRead q) s (fun u s' => s' = { u with queues := s'.queues, agenda := s'.agenda }) fun s' =>
          (holds → only s' (Queue.passed { x with rdidx := n + 1 } n)) ∧
          (¬ holds → only s' { x with
            rdidx := n + 1, open_ := NSet.add x.open_ n
            waiting := some { cond := leAt b 2 1, addr := .ofNat 64 (leAt b 8 8), value := .ofNat 64 v
                              mask := .ofNat 64 (leAt b 0x18 8), phys := at_.headD 0, pidx := n } })) ∧
      (∀ img frames, type = 1 → leAt b 2 1 ≤ 7 → leAt b 3 1 = 0 → 1 ≤ leAt b 4 4 → leAt b 4 4 ≤ 2 ^ 24 → leAt b 8 8 % 2 ^ 16 = 0 →
        leAt b 0x18 8 % 8 = 0 → leAt b 0x2C 20 = 0 →
        (s.readImage x.ctx xl (.ofNat 64 (leAt b 8 8)) fun i => leAt b 4 4 % (i.clw * i.clh) = 0).2 = .ok img →
        s.launchCode x (leAt b 2 1) img = none → s.constPages x.ctx xl img = .ok frames →
        HappensAs (.packetRead q) s
            (fun u s' => s' = { u with queues := s'.queues, launches := s'.launches, agenda := s'.agenda, uidCtr := s'.uidCtr }) fun s' =>
          only s' { x with launching := true, nodes := [] } ∧ s'.awaits s.time .mdAccept ∧
          (∃ l : Launch, s'.launches = s.launches ++ [l] ∧ l.queue = q ∧
            l.wakeGts = ((x.wakes.find? fun w => n < w.1).map (·.2)).getD s.gts ∧
            let g := l.grid
            g.ctx = x.ctx ∧ g.queue = q ∧ g.pidx = n ∧ g.prio = leAt b 2 1 ∧ g.teams = leAt b 4 4 ∧ g.image = img ∧
            g.argp.toNat = leAt b 0x10 8 ∧ g.done.toNat = leAt b 0x18 8 ∧ g.donev.toNat = leAt b 0x20 8 ∧
            g.ctmr = (if leAt b 0x28 2 = 0 then 2000 else leAt b 0x28 2) ∧
            g.atmr = (if leAt b 0x2A 2 = 0 then 500 else leAt b 0x2A 2) ∧
            g.placed = 0 ∧ g.pending = x.nodes ∧ g.constFrames = frames)))) ∧
  (∀ q w pas, let x := s.queue q
    s.stashless → x.waiting = some w → x.qstate = 1 → x.parked = none → s.served q = true →
    s.fwAddrs x.ctx (s.xlatOf x.ctx 0) .read w.addr 8 = (s, .ok pas) →
    let word := leNat (pas.map (Memory.read s.mem)) &&& w.mask.toNat
    let holds := match w.cond with
      | 0 => word = w.value.toNat | 1 => word ≠ w.value.toNat | 2 => w.value.toNat ≤ word | _ => word < w.value.toNat
    HappensAs (.waitvalReevaluate q) s (fun u s' => s' = { u with queues := s'.queues, agenda := s'.agenda }) fun s' =>
      (holds → s'.queue q = Queue.passed { x with waiting := none } w.pidx) ∧
      (¬ holds → s'.queue q = { x with waiting := some { w with phys := pas.headD 0 } })) ∧
  (∀ l, l ∈ s.launches → (∀ y ∈ s.launches, y ≠ l → l.grid.prio < y.grid.prio ∨ (l.grid.prio = y.grid.prio ∧
      (l.wakeGts < y.wakeGts ∨ (l.wakeGts = y.wakeGts ∧ l.queue < y.queue)))) →
    let g := l.grid
    Happens .mdAccept s fun s' =>
      s' = { s with launches := s.launches.filter (fun y => y.grid.id ≠ g.id), grids := s'.grids, partitions := s'.partitions
                    cores := s'.cores, agenda := s'.agenda } ∧
      s'.grid? g.id = some g ∧ (s'.part g.part).line = (s.part g.part).line ++ [g.id] ∧
      ∀ k, g.prio ≤ 1 → (s.core k).scan = .scanning → (s.part g.part).hasQuad (quadOf k) = true →
        (s.cores.map (·.1)).Nodup → (s'.core k).scan = .inService) ∧
  (∀ u t, s.team? u = some t → (s.quadPower (quadOf t.core)).exiting = false →
    Happens (.windowZeroingDone u) s (s.becomes { t with started := true })) ∧
  (∀ p id rest g c slots base, (s.part p).pstate = 1 → (∀ u t, s.team? u = some t → s.awaitsPlace t p = false) →
    (s.part p).line = id :: rest → s.grid? id = some g → s.holdsBack g.ctx = false → g.pending = [] → g.reserves = [] →
    g.image.htCount = 0 → g.image.clw = 1 → g.image.clh = 1 → (∀ q, (s.mwe q).signal = none) →
    (g.placed = 0 → g.counts = true → ∀ d ∈ (s.queue g.queue).dones, d.parked = none) →
    let room (k : Nat) : Prop := k < 192 ∧ (s.part p).hasQuad (quadOf k) = true ∧ (s.core k).scan = .inService ∧
      (s.room k (g.image.need g.image.lanes)).isSome = true
    let free (k : Nat) : Nat := (s.freeSlots k).length
    room c → s.room c (g.image.need g.image.lanes) = some (slots, base) →
    (∀ k, room k → free k < free c ∨ (free k = free c ∧ c ≤ k)) →
    Happens (.placementGrant p) s fun s' => ∃ t, s.team? t.uid = none ∧ s'.team? t.uid = some t ∧ t.kind = .grid ∧ t.grid = id ∧
      t.ctx = g.ctx ∧ t.core = c ∧ t.slots = slots ∧ t.window.base = base ∧ t.window.size = g.image.scratch ∧
      t.team = .ofNat 32 g.placed ∧ t.cluster = .ofNat 32 g.placed ∧ t.cpos = 0 ∧ t.lanes = g.image.lanes ∧ t.prio = g.prio ∧
      t.mode = .user ∧ t.argp = g.argp ∧ t.regs = {} ∧ t.started = false ∧ (t.split 0).state = .ready ∧
      (t.split 0).pc = g.image.base + .ofNat 64 g.image.entry ∧ (t.split 0).mask = Mask.below g.image.lanes ∧
      (∃ due, s'.awaits due (.windowZeroingDone t.uid)) ∧
      (∀ a, a < g.image.scratch + 4096 → Memory.read s'.scratch (scratchKey c (base + a)) = 0) ∧
      (∃ g', s'.grid? id = some g' ∧ g'.placed = g.placed + 1 ∧ NSet.mem g'.ran c = true) ∧
      (s'.part p).line = (if g.teams ≤ g.placed + 1 then rest else id :: rest) ∧
      ∀ u, u ≠ t.uid → s'.team? u = s.team? u) ∧
  (∀ q p d pas, let x := s.queue q
    x.dones.find? (·.pidx = p) = some d → s.served q = true → d.addr ≠ 0 → s.stashless → pas.Nodup →
    s.fwAddrs d.ctx (s.xlatOf d.ctx 0) .write d.addr 8 = (s, .ok pas) → (∀ a ∈ pas, s.locked a = false) →
    Happens (.doneWrite q p) s fun s' =>
      s' = { s with queues := s'.queues, agenda := s'.agenda, mem := s'.mem, poison := s'.poison, woken := s'.woken } ∧
      s.stores s' pas (leBytes 8 d.value.toNat) ∧
      let y := { x with dones := x.dones.erase d }
      s'.queue q = if d.counts then Queue.passed y p else y) ∧
  (∀ qc rest, s.firmware.toMove = qc :: rest → (∃ k, k < 6 ∧ NSet.mem s.firmware.haltedCores k = false) →
    Happens .queueReassignment s fun s' =>
      s' = { s with firmware := s'.firmware, queues := s'.queues, agenda := s'.agenda } ∧
      s'.firmware = { s.firmware with toMove := rest, moved := s'.firmware.moved } ∧
      ∀ q, q < 4096 → (s.queueCore q ≠ qc → s'.queueCore q = s.queueCore q) ∧
        (s.queueCore q = qc → s'.queueCore q < 6 ∧ NSet.mem s.firmware.haltedCores (s'.queueCore q) = false ∧
          (s'.queueCore q = qc → ∀ k, k < 6 → k ≠ qc → NSet.mem s.firmware.haltedCores k = true)))

/-! ## Records, copies and parked accesses -/

/-- 06 R108, R109, 07 R119, 13 R242 to R245, 18 R326, 08 R137, R138, R140: records gather in batches that launch handler
teams, a copy performs a chunk, parked fetches go on, held fault records are written, invalidations complete, late teams are
killed. The model's reading where the spec has several: logs 3 and 53. -/
def Obligations.RecordAndEngineEvents : Prop := ∀ s : State,
  (∀ core r rest g, let c := s.core core
    c.inflight = r :: rest → s.grid? r.grid = some g → (c.batches.map (·.id)).Nodup →
    let mine (b : Batch) : Prop := b.closed = false ∧ b.grid = r.grid ∧ b.origin = r.origin ∧ b.hidx = r.hidx
    (∀ b ∈ c.batches, mine b → (∀ b' ∈ c.batches, mine b' → b' = b) → Happens (.recordArrival core) s fun s' =>
      let c' := s'.core core
      let new := { b with records := b.records ++ [r] }
      s' = { s with cores := s'.cores, agenda := s'.agenda } ∧ c'.inflight = rest ∧
      (b.records.length < 31 → c'.batches = c.batches.map fun x => if x.id = b.id then new else x) ∧
      (31 ≤ b.records.length → { new with closed := true } ∈ c'.batches)) ∧
    ((∀ b ∈ c.batches, ¬ mine b) → Happens (.recordArrival core) s fun s' => ∃ b, b ∈ (s'.core core).batches ∧
      (s'.core core).inflight = rest ∧ b.grid = r.grid ∧ b.origin = r.origin ∧ b.hidx = r.hidx ∧ b.records = [r] ∧
      (r.origin = 3 → b.closed = true) ∧
      (r.origin ≠ 3 → b.closed = false ∧ s'.awaits b.due (.batchTimerExpiry core b.id)) ∧
      (r.origin = 1 → b.due = s.time + 13 * g.ctmr) ∧ (r.origin = 2 → b.due = s.time + 13 * g.atmr) ∧
      (∀ n, r.origin = 4 → NMap.find? g.nodes (r.ospec.toNat % 2 ^ 8) = some n → b.due = s.time + 13 * n.ntmr))) ∧
  (∀ core b, b ∈ (s.core core).batches → ((s.core core).batches.map (·.id)).Nodup → b.closed = false → b.due ≤ s.time →
    Happens (.batchTimerExpiry core b.id) s fun s' => s' = { s with cores := s'.cores, agenda := s'.agenda } ∧
      { b with closed := true } ∈ (s'.core core).batches) ∧
  (∀ core b g r rest e, let c := s.core core
    b ∈ c.batches → (c.batches.map (·.id)).Nodup → b.closed = true → s.grid? b.grid = some g → s.holdsBack g.ctx = false →
    (∀ (k : Nat) (x : Batch), c.batches[k]? = some x → x.closed = true → x.grid = b.grid → x ≠ b →
      ∃ j : Nat, j < k ∧ c.batches[j]? = some b) →
    b.records = r :: rest → b.records.length ≤ 32 → (∀ x ∈ b.records, x.payload.length = 14 ∧ x.poison.length = 14) →
    c.scan = .inService → (s.part g.part).pstate = 1 →
    (g.reserves.find? fun x => x.core = core && x.user.isNone) = some e →
    let entry := g.image.handlers.getD b.hidx (0, 1)
    r.hidx = b.hidx → b.hidx < g.image.handlers.length →
    let word (x : Record) (k : Nat) : Nat :=
      ([x.origin + x.hidx * 2 ^ 8 + x.src * 2 ^ 16, x.ospec.toNat] ++ x.payload.map (·.toNat)).getD k 0 % 2 ^ 32
    let bad (x : Record) (k : Nat) : Bool := ([false, false] ++ x.poison).getD k false
    Happens (.batchLaunch core b.id) s fun s' => ∃ t, s.team? t.uid = none ∧ s'.team? t.uid = some t ∧
      t.kind = (if r.upcall.isSome then .upcall else .record) ∧ t.grid = g.id ∧ t.ctx = g.ctx ∧ t.core = core ∧ t.reserve = true ∧
      t.team = 0xFFFFFFFF ∧ t.window.base = e.base ∧ t.lanes = (if entry.2 = 2 then g.image.lanes else 32) ∧
      t.grant.isSome = r.upcall.isSome ∧ (t.split 0).pc = g.image.base + .ofNat 64 entry.1 ∧ (t.split 0).state = .ready ∧
      (∀ l, l < 1024 → Mask.has (t.split 0).mask l = decide (l < if entry.2 = 0 then b.records.length else t.lanes)) ∧
      (entry.2 = 0 → ∀ l k, k < 16 → ∀ x, b.records[l]? = some x →
        (t.regs.getV l k).toNat = word x k ∧ t.regs.badV l k = bad x k) ∧
      (entry.2 ≠ 0 → ∀ k, k < 8 → (t.regs.getS k).toNat = word r (2 * k) + 2 ^ 32 * word r (2 * k + 1) ∧
        t.regs.badS k = (bad r (2 * k) || bad r (2 * k + 1))) ∧
      (s'.core core).batches = (if entry.2 = 0 ∨ rest = [] then c.batches.filter (fun x => x.id ≠ b.id)
        else c.batches.map fun x => if x.id = b.id then { x with records := rest } else x)) ∧
  (∀ core job chunk k (a b : Nat → Nat), (s.core core).copies.find? (fun y => y.seq = job) = some k → k.desc.kind = 1 → k.desc.sscr = false →
    k.targets = [] → k.src = none → k.before = [] → k.lanes = [] → k.parked = [] → chunk < k.chunks → NSet.mem k.done chunk = false →
    s.jobBlocked k.ctx k.order k.foot = false → s.stashless →
    let n := min 512 (k.desc.len - 512 * chunk)
    let x := s.xlatOf k.ctx k.grid
    (∀ i, i < n → (s.walk k.ctx x .read (k.desc.src.toNat + (512 * chunk + i))).1 = .ok (a i) ∧
      (s.walk k.ctx x .write (k.desc.dst.toNat + (512 * chunk + i))).1 = .ok (b i) ∧ s.locked (b i) = false ∧ inPool (b i) = false ∧
      ∀ j, j < n → b i = b j → i = j) →
    k.discarded = 0 →
    Happens (.copyChunkDone core job chunk) s fun s' =>
      s.stores s' ((List.range n).map b) ((List.range n).map fun i => Memory.read s.mem (a i)) ∧
      let left := k.undone.filter (· ≠ chunk)
      (left ≠ [] → ∃ k' ∈ (s'.core core).copies, k'.seq = job ∧ NSet.mem k'.done chunk = true ∧ k'.written = k.written + n) ∧
      (left = [] → core < 192 → (∀ y ∈ (s'.core core).copies, y.seq ≠ job) ∧ ∀ j ∈ (s.core core).bte.ring, j.seq = job →
        ∃ j' ∈ (s'.core core).bte.ring, j'.seq = job ∧ j'.state = fDONE ∧ j'.count = k.written + n)) ∧
  (∀ line, let woken (e : Nat) : Prop := e / 128 = line ∧ NSet.mem s.woken e = true
    (∀ c ∈ s.cores, (∀ x ∈ c.2.oplog, ∀ e ∈ x.entries, ¬ woken e) ∧ ∀ x ∈ c.2.copies, ∀ e ∈ x.parked, ¬ woken e) →
    (∀ m ∈ s.mwes, ∀ w ∈ m.2.walks, (∀ e, w.2.parked = some e → ¬ woken e) ∧ ∀ o ∈ w.2.ops, ∀ e, o.parked = some e → ¬ woken e) →
    (∀ q ∈ s.queues, (∀ e, q.2.parked = some e → ¬ woken e) ∧ ∀ d ∈ q.2.dones, ∀ e, d.parked = some e → ¬ woken e) →
    (∀ f ∈ s.functions, (∀ p ∈ f.2.posted, ∀ e, p.entry = some e → ¬ woken e) ∧ ∀ r ∈ f.2.reads, ∀ e, r.entry = some e → ¬ woken e) →
    (∀ e, s.power.slotParked = some e → ¬ woken e) →
    Happens (.parkedAccessWake line) s fun s' => s' = { s with teams := s'.teams, armed := s'.armed, woken := s'.woken } ∧
      (∀ r, r ∈ s'.armed ↔ r ∈ s.armed ∧ ¬ woken r.2.1) ∧ (∀ e, e ∈ s'.woken ↔ e ∈ s.woken ∧ ¬ woken e) ∧
      ∀ u t e, s.team? u = some t → ∃ t', s'.team? u = some t' ∧ t' = { t with splits := t'.splits } ∧
        t'.split e = match (t.split e).state, (t.split e).waiting with
          | .blocked, .fetch a => if a / 128 = line ∧ NSet.mem s.woken a = true then { t.split e with state := .ready, waiting := .retry }
              else t.split e
          | _, _ => t.split e) ∧
  (∀ ctx c r rest, s.ctx? ctx = some c → c.held = r :: rest → c.frd ≤ c.fwr → c.fwr - c.frd ≠ 2 ^ c.frlog → s.stashless →
    -- the record comes after the newest of the ring in report order
    (c.fwr = c.frd ∨ recBefore r (Memory.readN s.mem (c.fring + (c.fwr - 1) % 2 ^ c.frlog * 32) 32) = false) →
    Happens (.faultRecordDeferredWrite ctx) s fun s' =>
      s' = { s with contexts := s'.contexts, agenda := s'.agenda, mem := s'.mem, poison := s'.poison, out := s'.out
                    woken := s'.woken } ∧
      s'.ctx? ctx = some { c with held := rest, fwr := c.fwr + 1 } ∧
      s.stores s' ((List.range r.length).map (c.fring + c.fwr % 2 ^ c.frlog * 32 + ·)) r ∧
      s'.out = s.out ++ if c.frd = c.fwr then [.msix c.owner c.fvec] else []) ∧
  (∀ fn r rest, (s.fn fn).tiq = r :: rest → Happens (.tlbInvalidationDone fn) s fun s' =>
    s' = { s with tlb := s'.tlb, functions := s'.functions } ∧ s'.fn fn = { s.fn fn with tiq := rest, tidone := (s.fn fn).tidone + 1 } ∧
    ∀ h, h ∈ s'.tlb ↔ h ∈ s.tlb ∧ match r with
      | none => True
      | some (0, _, _) => False
      | some (1, tag, _) => h.ctx ≠ tag
      | some (_, tag, va) =>
        let path := va.toNat % 2 ^ 57 / 2 ^ levelShift h.level
        ¬ (h.ctx = tag ∧ (h.path = path ∨ (h.level = 3 ∧ pteCont h.entry = true ∧ h.path / 32 = path / 32)))) ∧
  (∀ ctx c gts fn, s.ctx? ctx = some c → c.preempt = some (gts, fn) → Happens (.preemptDeadline ctx) s fun s' =>
    (∀ u t, s.team? u = some t → t.ctx = ctx → t.kind ≠ .kite → t.kind ≠ .trapHandler → t.kind ≠ .supervisor → t.retired = false →
      t.out ≠ .saved → t.out ≠ .held → (t.out = .saving ∨ ∃ e, (t.split e).state ∉ [SplitState.free, .blocked, .shed]) →
      ∀ t', s'.team? u = some t' → t'.live = 0) ∧
    s'.expects (· == .ctxPreempt fn) = true)

/-! ## The host -/

/-- 00 R3, 08 R137, R140, R393, 12 R216, 20 R352, 23 R378, R379, R383, R385: what a write of each register of BAR 0 does, where no
earlier posted write is in the way, and what some of them read. The model's reading where the spec has several: logs 24, 30 and 31. -/
def Obligations.RegisterWrites : Prop := ∀ (s : State) (fn : Nat), s.status.getLsbD 0 = true → (s.fn fn).posted = [] →
  (s.fn fn).pasids = [] → s.heldPost = false →
  let f := s.fn fn
  let sets (y : Function) (s' : State) : Prop :=
    s' = { s with functions := s'.functions, agenda := s'.agenda } ∧ s'.fn fn = y ∧ ∀ k, k ≠ fn → s'.fn k = s.fn k
  (∀ v, Happens (.migtail fn v) s (sets { f with
    migtail := if f.migtail.toNat < v.toNat ∧ v.toNat ≤ f.mighead.toNat + 64 then v else f.migtail })) ∧
  (∀ v, Happens (.abase fn v) s (sets { f with
    abase := if canonical v.toNat = true ∧ v.toNat % 2 ^ 40 = 0 then v else f.abase })) ∧
  (∀ v, Happens (.tistatClear fn v) s (sets { f with tistat := f.tistat &&& ~~~v })) ∧
  (∀ raw : U64, ∀ i ∈ [Instr.ticmdAll fn raw, .ticmdCtx fn raw, .ticmdVa fn raw],
    let kind := raw.toNat % 4; let tag := bitsAt raw.toNat 16 12
    let malformed : Prop := kind = 3 ∨ bitsAt raw.toNat 2 14 ≠ 0 ∨ 2 ^ 28 ≤ raw.toNat ∨ (kind = 0 ∧ tag ≠ 0)
    let mine : Prop := fn = 0 ∨ kind = 3 ∨ (kind ≠ 0 ∧ ∃ c, s.ctx? tag = some c ∧ c.owner = fn)
    let asked (r : Option (Nat × Nat × U64)) (bits : BitVec 64) : Function :=
      { f with tireq := f.tireq + 1, tiq := f.tiq ++ [r], tistat := f.tistat ||| bits }
    (malformed → mine → Happens i s (sets (asked none 2))) ∧
    (malformed → ¬ mine → Happens i s (sets (asked none 3))) ∧
    (¬ malformed → ¬ mine → Happens i s (sets (asked none 1))) ∧
    (¬ malformed → mine → Happens i s fun s' => sets (asked (some (kind, tag, f.tiva)) 0) s' ∧
      s'.awaits s.time (.tlbInvalidationDone fn))) ∧
  (∀ (v : U64) c, s.ctx? f.frctx.toNat = some c → Happens (.frdw fn v) s fun s' =>
    s' = { s with contexts := s'.contexts, agenda := s'.agenda } ∧ s'.ctx? f.frctx.toNat = some { c with
      frd := if (fn = 0 ∨ c.owner = fn) ∧ c.frd ≤ v.toNat ∧ v.toNat ≤ c.fwr then v.toNat else c.frd }) ∧
  (∀ v : U64, f.sctail < v.toNat → v.toNat ≤ f.schead + 64 → Happens (.sctail fn v) s fun s' => (s'.fn fn).sctail = v.toNat ∧
    ∀ i, s.expects isCommand = false → f.busy = false → (∀ k, k ≠ fn → (s.fn k).sctail ≤ (s.fn k).schead) → fn < 64 →
      f.schead < v.toNat → commandEvent fn (f.slot f.schead) = some i →
      (s'.fn fn).busy = true ∧ (s'.fn fn).taken = f.slot f.schead ∧ s'.awaits s.time i) ∧
  (fn = 0 → ∀ v : U64, s.logs.errrd ≤ v.toNat → v.toNat ≤ s.logs.errwr → Happens (.errrd v) s fun s' => s'.logs.errrd = v.toNat ∧
    (s.logs.errHeld = [] → s' = { s with logs := { s.logs with errrd := v.toNat } }) ∧
    ∀ r rest, s.logs.errHeld = r :: rest → s.logs.errwr - v.toNat < 128 →
      NMap.find? s'.logs.errWindow s.logs.errwr = some r ∧ s.logs.errwr < s'.logs.errwr) ∧
  (fn = 0 → ∀ v : U64, s.logs.clrd ≤ v.toNat → v.toNat ≤ s.logs.clwr → Happens (.clrd v) s fun s' => s'.logs.clrd = v.toNat ∧
    (s.logs.clHeld = [] → s' = { s with logs := { s.logs with clrd := v.toNat } }) ∧
    ∀ r rest, s.logs.clHeld = r :: rest → s.logs.clwr - v.toNat < 256 →
      NMap.find? s'.logs.clWindow s.logs.clwr = some r ∧ s.logs.clwr < s'.logs.clwr) ∧
  (∀ off (d : List Byte), d ≠ [] →
    (fn = 0 → 0x2000 ≤ off → off + d.length ≤ 0x2140 → Happens (.registerWrite fn off d) s fun s' =>
      s' = { s with power := { s.power with pending := s'.power.pending } } ∧ ∀ k, NMap.find? s'.power.pending k =
        if off ≤ k + 0x2000 ∧ k + 0x2000 < off + d.length then d[k + 0x2000 - off]? else NMap.find? s.power.pending k) ∧
    (0x8000 ≤ off → off + d.length ≤ 0x9000 → Happens (.registerWrite fn off d) s fun s' => ∃ m, sets { f with slots := m } s' ∧
      ∀ k, Memory.read m k = if off ≤ k + 0x8000 ∧ k + 0x8000 < off + d.length then d.getD (k + 0x8000 - off) 0
        else Memory.read f.slots k) ∧
    (0x1300 ≤ off → off + d.length ≤ 0x1380 → Happens (.registerWrite fn off d) s fun s' => ∃ m, sets { f with staging := m } s' ∧
      ∀ k, Memory.read m k = if off ≤ k + 0x1300 ∧ k + 0x1300 < off + d.length then d.getD (k + 0x1300 - off) 0
        else Memory.read f.staging k)) ∧
  s.bar0Read fn 0x1110 8 = leBytes 8 f.tireq ∧ s.bar0Read fn 0x1118 8 = leBytes 8 f.tidone ∧
  s.bar0Read fn 0x1120 8 = leBytes 8 f.tistat.toNat ∧ s.bar0Read fn 0x1140 8 = leBytes 8 f.frctx.toNat ∧
  (∀ c, s.ctx? f.frctx.toNat = some c →
    s.bar0Read fn 0x1148 8 = leBytes 8 (if fn = 0 ∨ c.owner = fn then c.fwr else 0) ∧ s.bar0Read fn 0x1150 8 = leBytes 8 c.frd) ∧
  ∀ k, k < 64 → s.bar0Read fn (0x8000 + 64 * k + 6) 2 = [0, 0]

/-- 15 R284, R285, 12 R217, R219, 20 R369, 23 R377, R379, R387: reads, writes and AtomicOps of the host through the aperture, which
wait for the exit from A3, page migration, back-invalidates and SPDM. The model's reading where the spec has several: logs 13, 30 and 57;
its choices of the room that a migration's job needs and of a peer's write: logs 44 and 87. -/
def Obligations.HostAccesses : Prop := ∀ (s : State) (fn : Nat), s.status.getLsbD 0 = true → s.stashless →
  let f := s.fn fn
  let quiet : Prop := (∀ x ∈ s.functions, x.2.posted = []) ∧ s.wakes.length < 64 ∧ f.reads = [] ∧ f.pasids = []
  -- a request that carries another PASID than the function's
  (∀ n rest, f.pasids = some n :: rest → f.pasid ≠ some n →
    let drops (out : List HostMsg) (s' : State) : Prop :=
      s' = { s with functions := s'.functions, out := s.out ++ out } ∧ s'.fn fn = { f with pasids := rest }
    (∀ tag off len, Happens (.apertureRead fn tag off len) s (drops [.unsupported fn tag])) ∧
    ∀ off d, Happens (.apertureWrite fn off d) s (drops [])) ∧
  (quiet → s.power.a3 = false → ∀ tag off,
    (f.apctx = none → ∀ len, Happens (.apertureRead fn tag off len) s fun s' => s.sameMemory s' ∧
      s'.out = s.out ++ [.unsupported fn tag] ∧ (s'.fn fn).reads = []) ∧
    ∀ c, f.apctx = some c →
      let va := f.abase + .ofNat 64 off
      let xl := s.xlatOf c 0
      (∀ len pas, s.xlatRange c xl .read va len = .ok pas → Happens (.apertureRead fn tag off len) s fun s' => s.sameMemory s' ∧
        s'.out = s.out ++ [.data fn tag (pas.map (Memory.read s.mem)) (s.gread pas).2] ∧ (s'.fn fn).reads = []) ∧
      (∀ (d : List Byte) pas, d ≠ [] → va.toNat % 16 + d.length ≤ 16 → s.xlatRange c xl .write va d.length = .ok pas → pas.Nodup →
        (∀ a ∈ pas, s.locked a = false) → Happens (.apertureWrite fn off d) s fun s' => s'.out = s.out ∧ s.stores s' pas d ∧
          (s'.fn fn).posted = []) ∧
      (∀ op wide (v cmp : U64) pas, let n := if wide then 8 else 4
        s.xlatRange c xl .atomic va n = .ok pas → pas.Nodup → (∀ a ∈ pas, s.locked a = false) →
        Happens (.apertureAtomic fn tag off op wide v cmp) s fun s' =>
          let old := leNat (pas.map (Memory.read s.mem))
          s'.out = s.out ++ [.data fn tag (pas.map (Memory.read s.mem)) (s.gread pas).2] ∧ (s'.fn fn).reads = [] ∧
          s.stores s' pas (leBytes n (match op with
            | .fetchAdd => old + v.toNat
            | .swap => v.toNat
            | .cas => if old = cmp.toNat % 2 ^ (8 * n) then v.toNat else old)))) ∧
  (quiet → s.power.a3 = true → f.apctx.isSome = true →
    let waits (s' : State) : Prop := s.sameMemory s' ∧ s'.out = s.out ∧ s'.expects (· == .idleExitComplete 48) = true
    (∀ off (d : List Byte), Happens (.apertureWrite fn off d) s fun s' => waits s' ∧
      ∃ k, (s'.fn fn).posted = [{ write := .mem off d, entry := none, stamp := k }]) ∧
    ∀ tag off len, Happens (.apertureRead fn tag off len) s fun s' => waits s' ∧ (s'.fn fn).reads.map (·.tag) = [tag]) ∧
  (∀ tag r, r ∈ f.reads → r.tag = tag → Happens (.apertureReadTimeout fn tag) s fun s' =>
    s' = { s with functions := s'.functions, out := s.out ++ [.abort fn tag] } ∧
    s'.fn fn = { f with reads := f.reads.filter (·.tag ≠ tag) }) ∧
  (f.migrating = none → f.mighead.toNat < f.migtail.toNat → ∀ c pas, s.migBytes fn 0 32 .read = some (c, .ok pas) →
    let b := pas.map (Memory.read s.mem)
    (s.migCheck fn b = none → Happens (.migrationRequest fn) s fun s' =>
      (s'.fn fn).migrating = none ∧ (s'.fn fn).mighead = f.mighead + 1 ∧ s'.locks = s.locks) ∧
    ∀ m, s.migCheck fn b = some m → (s.jobs m.ctx).length < 1024 → Happens (.migrationRequest fn) s fun s' => s.sameMemory s' ∧
      s'.locks = s.locks ++ [(m.old, m.size)] ∧ (∃ order, (s'.fn fn).migrating = some { m with order := order }) ∧
      (s'.fn fn).mighead = f.mighead ∧ ∃ due, s'.awaits due (.migrationDone fn)) ∧
  (∀ m, f.migrating = some m → s.jobBlocked m.ctx m.order [{ base := m.page, len := m.size, write := true }] = false →
    (∀ x ∈ s.functions, x.2.posted = [] ∧ x.2.reads = []) → f.apctx = none → s.memOk = true →
    m.size = 2 ^ 16 ∨ m.size = 2 ^ 21 ∨ m.size = 2 ^ 30 → m.new % m.size = 0 → m.new + m.size ≤ 2 ^ 52 →
    m.old + m.size ≤ m.new ∨ m.new + m.size ≤ m.old → m.leaf + 256 ≤ m.new ∨ m.new + m.size ≤ m.leaf →
    Happens (.migrationDone fn) s fun s' =>
      (∀ k, k < m.size → Memory.read s'.mem (m.new + k) = Memory.read s.mem (m.old + k)) ∧
      (∀ k, k < (if m.size = 2 ^ 21 then 32 else 1) →
        let e := s.phys64 (m.leaf + 8 * k); let e' := s'.phys64 (m.leaf + 8 * k)
        pteFrame e' = m.new + k * 2 ^ 16 ∧ e' &&& ~~~(0xFFFFFFFFF0000 : U64) = e &&& ~~~(0xFFFFFFFFF0000 : U64)) ∧
      s'.locks = s.locks.filter (fun l => l.1 ≠ m.old) ∧ (s'.fn fn).migrating = none ∧ (s'.fn fn).mighead = f.mighead + 1 ∧
      (∀ h ∈ s'.tlb, h.ctx = m.ctx → h.level = 3 →
        h.path * 2 ^ 16 < m.page % 2 ^ 57 ∨ m.page % 2 ^ 57 + m.size ≤ h.path * 2 ^ 16) ∧
      -- what a WAITMON of the context watches on the page, it watches on the new frame
      ∀ u t e l w, s.team? u = some t → t.ctx = m.ctx → NMap.find? (t.split e).mon l = some w → m.old ≤ w.1 → w.1 < m.old + m.size →
        ∃ t', s'.team? u = some t' ∧ NMap.find? (t'.split e).mon l = some (w.1 - m.old + m.new, w.2)) ∧
  (∀ line, inPool (128 * line) = true → s.fabricUp = true → Happens (.poolBackInvalidate line) s fun s' =>
    let data := Config.poolPeer s.freeCtr
    s'.out = s.out ++ [.backInvalidated line] ∧ s'.freeCtr = s.freeCtr + 1 ∧ NSet.mem s'.llc line = false ∧ line ∉ s'.snoop ∧
    (∀ k, NMap.find? (s'.core k).l1 line = none) ∧ s.sameMemory s' ∧
    (data.length ≠ 128 → s' = { s with cores := s'.cores, llc := s'.llc, snoop := s'.snoop, out := s'.out, freeCtr := s'.freeCtr }) ∧
    (data.length = 128 → s'.peer = [(line, data)])) ∧
  ∀ req, Happens (.spdmRequest req) s fun s' => s' = { s with
    out := s.out ++ [.spdm (Config.spdmAnswer req (s.firmware.running.map fun r => (r.1, r.2.1, r.2.2)))] }

/-! ## The supervisor's commands -/

/-- 23 R383, R384, R386, 18 R321 to R326, 19 R347, 20 R351: what each command does when its ARGS keep their limits and the
function may give it, and that a function other than the physical one is denied the commands reserved to that. The model's
reading where the spec has several: logs 13, 29, 51, 55, 56 and 82; that a restore is done once it has begun is its choice: log 28. -/
def Obligations.SupervisorCommands : Prop := ∀ (s : State) (fn : Nat) (a : List Byte),
  let f := s.fn fn
  let mine (c : Context) : Prop := fn = 0 ∨ c.owner = fn
  (fn ≠ 0 → ∀ p ∈ [(Instr.partSet fn, [(0, 1), (8, 48)]), (.partClear fn, [(0, 1)]), (.partReset fn, [(0, 1)]), (.partRun fn, [(0, 1)]),
      (.funcParts fn, [(0, 2), (8, 2)]), (.ctxReplayGrant fn, [(0, 3)]), (.ctxReplayRevoke fn, [(0, 3)]), (.queueAssign fn, [(0, 4)]),
      (.aperture fn, [(0, 4)]), (.fwLoad fn, [(0, 2), (8, 16)]), (.svnRaise fn, [(0, 1), (2, 2)]), (.railSet fn, [(0, 1), (2, 2)]),
      (.scanGap fn, [(0, 4)]), (.scanNow fn, [(0, 1)])],
    s.asks fn p.2 a → Carries p.1 fn s 3 fun s' => s' = { s with functions := s'.functions, out := s'.out }) ∧
  (fn = 0 → leAt a 0 1 ≤ 15 → let k := leAt a 0 1
    (s.asks fn [(0, 1), (8, 48)] a → leAt a 8 8 < 2 ^ 48 → (∀ c ∈ s.contexts, c.2.part ≠ k) →
      let p : Partition := {
        qmask := .ofNat 48 (leAt a 8 8), gbase := leAt a 0x10 8, gsize := leAt a 0x18 8, lbase := leAt a 0x20 8
        lsize := leAt a 0x28 8, pstate := 1, pooloff := leAt a 0x30 4 * 2 ^ 30, poolsz := leAt a 0x34 4 * 2 ^ 30
        line := (s.part k).line }
      let others := s.partitions.filter fun x => x.1 ≠ k && x.2.pstate ≠ 0
      (∀ x ∈ others, x.2.qmask &&& p.qmask = 0) → carveOk 0 gddrSize p.gbase p.gsize (others.map fun x => (x.2.gbase, x.2.gsize)) = true →
      carveOk lpddrBase lpddrSize p.lbase p.lsize (others.map fun x => (x.2.lbase, x.2.lsize)) = true →
      carveOk 0 poolSize p.pooloff p.poolsz (others.map fun x => (x.2.pooloff, x.2.poolsz)) = true →
      Carries (.partSet fn) fn s 1 fun s' => s'.part k = p ∧ ∀ j, j ≠ k → s'.part j = s.part j) ∧
    (s.asks fn [(0, 1)] a →
      ((∀ c ∈ s.contexts, c.2.part ≠ k) → Carries (.partClear fn) fn s 1 fun s' => s'.part k = { s.part k with pstate := 0 }) ∧
      (∃ s', exec (.partReset fn) s = .next (State.serve 64 s') ∧ (s'.part k).pstate = 2 ∧ (s'.part k).line = [] ∧
        s'.awaits (s.time + 130000000) (.partitionResetComplete k) ∧ (s'.fn fn).busy = true) ∧
      ((s.part k).pstate = 2 → s.expects (· == .partitionResetComplete k) = false →
        Carries (.partRun fn) fn s 1 fun s' => s'.part k = { s.part k with pstate := 1 }) ∧
      (leAt f.taken 0 2 = 3 → Carries (.partitionResetComplete k) fn s 1 fun s' => s'.partitions = s.partitions))) ∧
  (fn = 0 →
    (s.asks fn [(0, 2), (8, 2)] a → leAt a 0 2 ≤ 63 → Carries (.funcParts fn) fn s 1 fun s' =>
      (s'.fn (leAt a 0 2)).parts = .ofNat 16 (leAt a 8 2)) ∧
    (∀ c, s.asks fn [(0, 3)] a → leAt a 0 2 ≤ 4095 → s.ctx? (leAt a 0 2) = some c →
      (leAt a 2 1 = 1 → c.rpl = false → (∀ x ∈ s.contexts, x.1 ≠ leAt a 0 2 → x.2.rpl = false) →
        Carries (.ctxReplayGrant fn) fn s 1 fun s' => s'.power.replay = some (leAt a 0 2) ∧ s'.power.first = true ∧
          ∃ c', s'.ctx? (leAt a 0 2) = some c' ∧ c'.rpl = true) ∧
      (leAt a 2 1 ≤ 1 → c.rpl = true → Carries (.ctxReplayRevoke fn) fn s 1 fun s' => s'.power.replay = none ∧
        s'.power.first = true ∧ s'.ctx? (leAt a 0 2) = some { c with rpl := false })) ∧
    (s.asks fn [(0, 4)] a →
      (leAt a 0 2 ≤ 4095 → leAt a 2 2 ≤ 63 → (s.queue (leAt a 0 2)).qstate = 0 → Carries (.queueAssign fn) fn s 1 fun s' =>
        s'.queue (leAt a 0 2) = { s.queue (leAt a 0 2) with fn := leAt a 2 2 }) ∧
      (leAt a 0 2 ≤ 63 → leAt a 2 2 = 0xFFFF → Carries (.aperture fn) fn s 1 fun s' => (s'.fn (leAt a 0 2)).apctx = none) ∧
      (∀ c, leAt a 0 2 ≤ 63 → leAt a 2 2 ≤ 4095 → s.ctx? (leAt a 2 2) = some c → c.owner = leAt a 0 2 →
        Carries (.aperture fn) fn s 1 fun s' => (s'.fn (leAt a 0 2)).apctx = some (leAt a 2 2)) ∧
      (leAt a 0 4 ≤ 1000000 → Carries (.scanGap fn) fn s 1 fun s' => s'.rotgap = leAt a 0 4)) ∧
    (∀ c b, s.asks fn [(0, 2), (8, 16)] a → leAt a 0 1 = 2 ∧ leAt a 1 1 ≤ 5 ∨ leAt a 0 1 = 3 ∧ leAt a 1 1 = 0 →
      (leAt a 0 1 = 2 → NSet.mem s.firmware.haltedCores (leAt a 1 1) = true) → f.apctx = some c → leAt a 0x10 8 ≤ fwHeader + 2 ^ 24 →
      s.fwRead c (s.xlatOf c 0) (.ofNat 64 (leAt a 8 8)) (leAt a 0x10 8) = (s, .ok b) →
      (fwOk s.firmware.minSvn (leAt a 0 1) b = true →
        Carries (.fwLoad fn) fn s 1 fun s' => NMap.find? s'.firmware.running (fwKey (leAt a 0 1) (leAt a 1 1)) =
            some (Config.sha384 b, leAt b 6 2) ∧
          ∀ k, NSet.mem s'.firmware.haltedCores k =
            (NSet.mem s.firmware.haltedCores k && !decide (leAt a 0 1 = 2 ∧ k = leAt a 1 1))) ∧
      (fwOk s.firmware.minSvn (leAt a 0 1) b = false → ∃ s', exec (.fwLoad fn) s = .next (State.serve 64 s') ∧
        s'.firmware = s.firmware ∧ (s'.fn fn).schead = f.schead + 1 ∧ Memory.read (s'.fn fn).slots (64 * (f.schead % 64) + 2) = 2 ∧
        Memory.read (s'.fn fn).slots (64 * (f.schead % 64) + 3) = 5)) ∧
    (s.asks fn [(0, 1), (2, 2)] a →
      (1 ≤ leAt a 0 1 → leAt a 0 1 ≤ 3 → leAt a 2 2 ≤ 255 → NMap.get s.firmware.minSvn (leAt a 0 1) 0 ≤ leAt a 2 2 →
        Carries (.svnRaise fn) fn s 1 fun s' => NMap.get s'.firmware.minSvn (leAt a 0 1) 0 = leAt a 2 2) ∧
      (leAt a 0 1 ≤ 47 → leAt a 0 1 < s.power.quads.length → 550 ≤ leAt a 2 2 → leAt a 2 2 ≤ 950 → leAt a 2 2 % 5 = 0 →
        Carries (.railSet fn) fn s 1 fun s' =>
          s'.quadPower (leAt a 0 1) = { s.quadPower (leAt a 0 1) with rail := leAt a 2 2 })) ∧
    (s.asks fn [(0, 1)] a → leAt a 0 1 ≤ 191 → Carries (.scanNow fn) fn s 1 fun s' =>
      s'.scanQueue = s.scanQueue ++ [leAt a 0 1])) ∧
  (s.asks fn [(0, 3)] a → leAt a 0 2 ≤ 4095 → leAt a 2 1 ≤ 15 →
    let tag := leAt a 0 2
    let old := s.ctx? tag
    let b := Memory.readN f.staging 0 128
    let c : Context := { readCtx b with
      owner := fn, part := leAt a 2 1, fwr := (old.map (·.fwr)).getD 0, frd := (old.map (·.frd)).getD 0
      rpl := (old.map (·.rpl)).getD false, held := (old.map (·.held)).getD [], blocks := (old.map (·.blocks)).getD [] }
    (∀ x, old = some x → x.owner = fn) → s.hasGrid tag = false → c.fieldsOk b = true → c.memOk (s.part (leAt a 2 1)) = true →
    f.parts.getLsbD (leAt a 2 1) = true → (s.part (leAt a 2 1)).pstate ≠ 0 →
    let live := { s.setCtx tag c with tlb := s.tlb.filter fun h => h.ctx ≠ tag }
    (c.timg = 0 → s.power.replay ≠ some tag →
      Carries (.ctxSet fn) fn s 1 fun s' => s'.ctx? tag = some c ∧ ∀ h ∈ s'.tlb, h.ctx ≠ tag) ∧
    (∀ pas, c.timg = 0 → s.power.replay = some tag → c.nqbase ≠ 0 → live.xlatRange tag c.xlat .read (c.nqbase + 0x10) 16 = .ok pas →
      Carries (.ctxSet fn) fn s 1 fun s' => s'.ctx? tag = some c ∧ s'.power.slotLine = some (pas.headD 0 / 128)) ∧
    (∀ i, c.timg ≠ 0 → s.power.replay ≠ some tag → live.readImage tag c.xlat c.timg (fun _ => true) = (live, .ok i) → i.trapOk c = true →
      Carries (.ctxSet fn) fn s 1 fun s' => s'.ctx? tag = some { c with trapImage := some i })) ∧
  (∀ c, s.asks fn [(0, 2)] a → leAt a 0 2 ≤ 4095 → let tag := leAt a 0 2
    s.ctx? tag = some c → mine c →
    (Carries (.ctxDestroy fn) fn s 1 fun s' => s'.ctx? tag = none ∧ (∀ q, (s.queue q).ctx = tag → (s.queue q).rlog ≠ 0 →
      (s'.queue q).qstate = 0) ∧ (∀ k, (s'.fn k).apctx ≠ some tag) ∧ ∀ h ∈ s'.tlb, h.ctx ≠ tag) ∧
    (c.out = true → Carries (.ctxRestore fn) fn s 1 fun s' => s'.ctx? tag = some { c with out := false } ∧
      ∀ u t, s.team? u = some t → t.ctx = tag → t.out = .held → s'.team? u = some { t with
        out := if t.mode = .restore then .restoring else .in_ })) ∧
  (∀ c, s.asks fn [(0, 2), (8, 12)] a → leAt a 0 2 ≤ 4095 → let tag := leAt a 0 2
    s.ctx? tag = some c → mine c →
    (c.out = false → c.preempt = none → (∀ x ∈ s.contexts, x.1 ≠ tag → x.2.preempt = none) → s.preempted tag = [] →
      NMap.sorted s.teams = true → s.walksSaved tag = true → Carries (.ctxPreempt fn) fn s 1 fun s' =>
        s'.ctx? tag = some { c with out := true, preempt := none, late := 0 } ∧
        Memory.readN (s'.fn fn).slots (64 * (f.schead % 64) + 16) 12 = List.replicate 12 0) ∧
    (∀ u t e, c.out = false → c.preempt = none → (∀ x ∈ s.contexts, x.1 ≠ tag → x.2.preempt = none) → s.team? u = some t →
      t.ctx = tag → t.kind ≠ .kite → t.kind ≠ .trapHandler → t.kind ≠ .supervisor → t.retired = false → t.out = .in_ → (t.split e).state = .ready →
      ∃ s', exec (.ctxPreempt fn) s = .next (State.serve 64 s') ∧ s'.fn fn = f ∧
        s'.ctx? tag = some { c with preempt := some (s.gts, fn), late := 0 } ∧
        (c.pdl ≠ 2 ^ 64 - 1 → s'.awaits (s.time + 13 * c.pdl) (.preemptDeadline tag)))) ∧
  (s.asks fn [(0, 6), (8, 9)] a → leAt a 0 2 ≤ 4095 → let x := s.queue (leAt a 0 2)
    fn = 0 ∨ x.fn = fn →
    (∀ c, leAt a 2 1 ≤ 1 → leAt a 3 1 ≤ 1 → leAt a 4 2 ≤ 4095 → leAt a 8 8 % 2 ^ 12 = 0 → 4 ≤ leAt a 0x10 1 → leAt a 0x10 1 ≤ 16 →
      s.ctx? (leAt a 4 2) = some c → mine c → x.qstate ≠ 1 → Carries (.queueSet fn) fn s 1 fun s' => ∃ dones,
        s'.queue (leAt a 0 2) = { ({} : Queue) with
          rbase := .ofNat 64 (leAt a 8 8), rlog := leAt a 0x10 1, qstate := leAt a 2 1, ctx := leAt a 4 2, fn := x.fn
          dones := dones } ∧ dones = x.dones.map fun d => { d with counts := false }) ∧
    (leAt a 3 1 = 1 → x.qstate ≠ 3 → Carries (.queueSetRestart fn) fn s 1 fun s' =>
      s'.queue (leAt a 0 2) = { x with qstate := 1, qcode := 0 }) ∧
    (leAt a 3 1 = 1 → x.qstate = 3 → ∃ s', exec (.queueSetRestart fn) s = .next (State.serve 64 s') ∧ s'.queue (leAt a 0 2) = x ∧
      (s'.fn fn).schead = f.schead + 1 ∧ Memory.read (s'.fn fn).slots (64 * (f.schead % 64) + 2) = 2 ∧
      Memory.read (s'.fn fn).slots (64 * (f.schead % 64) + 3) = 3))

/-! ## Power -/

/-- 20 R350 to R358, R365 to R369: frames, decisions, the shed level and its timers, clock stretch, sensors and idle states.
The model's reading where the spec has several: logs 3, 24, 25, 49 and 80. -/
def Obligations.PowerEvents : Prop := ∀ s : State,
  let p := s.power
  let good (d : List Byte) : Prop := d.length = 16 ∧ leAt d 0 1 = 0x5A ∧ leAt d 12 2 = 0 ∧ leAt d 14 2 = crc16 (d.take 14) ∧
    (p.first = true ∨ 1 ≤ (leAt d 2 2 + 2 ^ 16 - p.frame.seq) % 2 ^ 16 ∧ (leAt d 2 2 + 2 ^ 16 - p.frame.seq) % 2 ^ 16 ≤ 32767)
  let taken (d : List Byte) (s' : State) : Prop := s'.power.frame = {
      flags := leAt d 1 1, seq := leAt d 2 2, freq := leAt d 4 4, vbus := leAt d 8 4, gts := s.gts } ∧
    s'.power.first = false ∧ s'.power.lost = false ∧ s'.awaits (s.time + 260000) .droopDecision
  let moves (p : Power) (t : Nat) (s' : State) : Prop := s'.power.target = t ∧
    (p.level < t → s'.power.level = t ∧ s'.power.fall = none) ∧ (t = p.level → s'.power.level = t ∧ s'.power.fall = none) ∧
    (t < p.level → s'.power.level = p.level ∧ s'.power.fall = some (p.fall.getD (s.time + 1300000)))
  (∀ d, p.replay = none →
    (good d → Happens (.thezenFrame d) s fun s' => taken d s' ∧ s'.awaits (s.time + 65000000) .stpLinkLoss) ∧
    (¬ good d → Happens (.thezenFrame d) s fun s' => s' = { s with power := { p with stprej := (p.stprej + 1) % 2 ^ 32 } })) ∧
  (∀ c pas, s.replaySlot = some (c, .ok pas) → s.stashless → let d := pas.map (Memory.read s.mem)
    p.previous ≠ some d → Happens .replaySlotRead s fun s' => s'.power.previous = some d ∧ (good d → taken d s') ∧
      (¬ good d → s'.power.stprej = (p.stprej + 1) % 2 ^ 32)) ∧
  (p.replay = none → Happens .stpLinkLoss s fun s' => s'.power.lost = true ∧ s'.power.first = true ∧
    let p := p.apply
    let t := if p.losslvl = 0xFF then p.level else p.losslvl
    moves p (if p.hot then max t p.tlvl else t) s') ∧
  (p.deciding.isSome = true → p.curve.length = 16 → Happens .droopDecision s fun s' => s'.power.deciding = none ∧
    let p := p.apply
    let dev := ((p.frame.freq : Int) - p.fnom).natAbs
    let on (k : Nat) : Prop := s'.power.tripped.getLsbD k = true
    (∀ k x, p.curve[k]? = some x → (on k ↔ x.lvl ≠ 0 ∧
      if p.tripped.getLsbD k then ¬ ((x.fdev = 0 ∨ dev < x.fdev - x.hys) ∧ (x.vmin = 0 ∨ x.vmin + x.hys < p.frame.vbus))
      else (x.fdev ≠ 0 ∧ x.fdev ≤ dev) ∨ (x.vmin ≠ 0 ∧ p.frame.vbus ≤ x.vmin))) ∧
    ∃ t, moves p t s' ∧ (∀ k x, p.curve[k]? = some x → on k → x.lvl ≤ t) ∧ (p.hot = true → p.tlvl ≤ t) ∧
      (t = 0 ∨ (p.hot = true ∧ t = p.tlvl) ∨ ∃ k x, p.curve[k]? = some x ∧ on k ∧ x.lvl = t)) ∧
  (p.fall.isSome = true → Happens .shedLevelFall s fun s' =>
    s'.power.level = (if p.target < p.level then p.level - 1 else p.level) ∧
    s'.power.fall = if p.target + 1 < p.level then some (s.time + 1300000) else none) ∧
  (∀ cls, s.classShed cls = true → Happens (.backstopExpiry cls) s fun s' => ∀ u t x e, s.team? u = some t → t.sheds = true →
    t.prio = cls → s.parks t = true → t.shedAt = some x → x + 13000 * p.backstop ≤ s.time → (t.split e).state = .ready →
    (t.split e).did = 0 → (t.split e).passed = 0 →
    ∃ t', s'.team? u = some t' ∧ t'.regs = t.regs ∧
      t'.split e = { t.split e with state := .shed, former := .ready, waiting := .retry }) ∧
  (∀ q, q < p.quads.length → let y := s.quadPower q
    (Happens (.droopDetectorTrip q) s fun s' => s'.quadPower q = { y with stretched := true } ∧
      ∃ due, s.time + 640 ≤ due ∧ s'.awaits due (.clockStretchEnd q)) ∧
    (Happens (.clockStretchEnd q) s fun s' => s' = { s with power := s'.power } ∧ s'.quadPower q = { y with stretched := false }) ∧
    (∀ x, s.quadIdle q = true → y.exiting = false → y.idleSince = some x →
      (x + 130000 ≤ s.time → 26000 ≤ 13 * p.ltr → y.idle = .a0 → Happens (.a1Entry q) s fun s' =>
        s' = { s with power := s'.power } ∧ s'.quadPower q = { y with idle := .a1 }) ∧
      (x + 13000000 ≤ s.time → 520000 ≤ 13 * p.ltr → y.idle ≠ .a2 → Happens (.a2Entry q) s fun s' =>
        s'.quadPower q = { y with idle := .a2 } ∧ s'.awaits (s.time + 1300000000) .a3Entry)) ∧
    (q < 48 → Happens (.idleExitComplete q) s fun s' => s'.quadPower q = { y with idle := .a0, exiting := false } ∧
      ∀ u t, s.team? u = some t → quadOf t.core = q → t.started = false →
        s'.expects (· == .windowZeroingDone u) = true)) ∧
  ((∀ q, q < 48 → (s.quadPower q).idle = .a2 ∧ s.quadIdle q = true) → (∀ q ∈ s.queues, q.2.wridx ≤ q.2.rdidx ∧ q.2.waiting = none) →
    26000000 ≤ 13 * p.ltr → Happens .a3Entry s fun s' => s' = { s with power := { p with a3 := true } }) ∧
  ((∀ k, (s.fn k).posted = [] ∧ (s.fn k).reads = []) → Happens (.idleExitComplete 48) s fun s' =>
    s'.power = { p with a3 := false } ∧ s'.awaits s.time .wakeApply) ∧
  (∀ on x y, Happens (.ltr on x y) s fun s' => s' = { s with power := { p with ltr := if on then min x y else 0 }, agenda := s'.agenda }) ∧
  ∀ (temps : List Int) t k, temps.length = 384 → temps[k]? = some t → (∀ j x, temps[j]? = some x → x < t ∨ (x = t ∧ k ≤ j)) →
    let hot := if p.hot then decide (p.ttrip - 80 ≤ t) else decide (p.ttrip ≤ t)
    Happens (.sensorSweep temps) s fun s' => s'.power = { p with
        scount := (p.scount + 1) % 2 ^ 32, sid := k, temp := t, hot := hot
        target := if hot then max p.target p.tlvl else p.target } ∧
      (t < 2000 → s' = { s with power := s'.power }) ∧ (2000 ≤ t → s'.stopped = true ∧ s'.contexts = [] ∧ s.reports s' 0x0C 9)

/-! ## Matrix walk engines -/

/-- 14 R249 to R254, R258, R259, R268, R272, R348, 04 R75, R76, 05 R84: a walk takes a live set, requests operands, gets the
array, passes slabs (where all PEs are sound, or a third pass follows two that agree in an element), saves its cursor and ends. The model's reading where the spec has several: logs 42, 43 and 59. -/
def Obligations.WalkEvents : Prop := ∀ (s : State) (q rte : Nat),
  let m := s.mwe q
  let same (w w' : Walk) : Prop := ∃ counters, w' = { w with counters := counters }
  (∀ w, s.walkAt q rte = some w →
    let p := w.prob
    (w.state = .queued → w.parked = none → w.cursor = [] → s.jobBlocked w.ctx w.order p.foot = false →
      (m.walks.filter fun x => x.2.state = .active || x.2.state = .saving || x.2.state = .stopping).length < 4 →
      (∀ x ∈ m.walks, x.1 ≠ rte → x.2.state = .queued → w.prio < x.2.prio ∨ (w.prio = x.2.prio ∧
        (w.age < x.2.age ∨ (w.age = x.2.age ∧ rte < x.1)))) →
      Happens (.walkActivate q rte) s fun s' => ∃ w', s'.walkAt q rte = some w' ∧ w'.began = true ∧
        w'.state = if s.preempting w.ctx then .saving else .active) ∧
    (∀ pas, w.state = .saving → w.parked = none → (∀ a, m.array = some a → a.rte ≠ rte) → (∀ a ∈ m.late, a.rte ≠ rte) →
      m.accs.length = 4 → s.stashless →
      s.xlatRange w.ctx (s.xlatOf w.ctx w.grid) .write p.save 256 = .ok pas → pas.Nodup → (∀ a ∈ pas, s.locked a = false) →
      Happens (.walkSave q rte) s fun s' => ∃ w', s'.walkAt q rte = some w' ∧ w'.state = .saved ∧ s.stores s' pas w'.cursor ∧
        w'.cursor.length = 256 ∧ leAt w'.cursor 0 4 = 0x57534B43 ∧ leAt w'.cursor 4 1 = rte % 2 ^ 8 ∧
        leAt w'.cursor 6 2 = (0x0100 + q) % 2 ^ 16 ∧ leAt w'.cursor 8 4 = w.next % 2 ^ 32 ∧ leAt w'.cursor 12 4 = w.donec % 2 ^ 32 ∧
        leAt w'.cursor 16 8 = s.gts % 2 ^ 64) ∧
    (∀ sideB ord t ks, w.state = .active → w.returns = [] → m.waitingAcc rte w = none → m.nextAsk ≤ s.time →
      (w.finished < p.tiles ∨ ∃ u ∈ w.upcalls, u.ukind = 3) →
      (w.needs m rte).find? (fun n => (w.op? n.1 n.2.1).isNone) = some (sideB, ord, t, ks) → w.ops.length < p.slots →
      let o := p.side sideB
      let core := s.upcallCore q w.grid
      (o.kind = 2 → Happens (.operandRequest q rte) s fun s' => ∃ w' x, s'.walkAt q rte = some w' ∧ w'.ops = w.ops ++ [x] ∧
        x.slot = some w.freeSlot ∧ x.sideB = sideB ∧ x.ordinal = ord ∧ x.st = 1 ∧ x.fetch = some {
          handle := none, shape := o.shape, bad := false
          origin := .ofNat 64 ((p.origin sideB ord).1 + (p.origin sideB ord).2 * 2 ^ 32) } ∧
        ∃ due, s'.awaits due (.fetcherFillDone q rte w.freeSlot)) ∧
      (o.kind ≠ 2 → s.classShed w.prio = false → s.upcallRoom core w.grid o.hidx = true →
        Happens (.operandRequest q rte) s fun s' => ∃ w' x u r, s'.walkAt q rte = some w' ∧ w'.ops = w.ops ++ [x] ∧
          x.slot = (if o.kind = 0 then some w.freeSlot else none) ∧ x.sideB = sideB ∧ x.ordinal = ord ∧ x.st = 1 ∧
          w'.upcalls = w.upcalls ++ [u] ∧ u.ukind = (if sideB then 2 else 1) ∧ u.slot = x.slot ∧ u.ordinal = ord ∧
          (s'.core core).inflight = (s.core core).inflight ++ [r] ∧ r.grid = w.grid ∧ r.origin = 3 ∧ r.hidx = o.hidx ∧
          r.upcall = some (q, rte, u.id) ∧ s'.awaits s.time (.recordArrival core))) ∧
    (w.state = .active → w.returns = [] → m.waitingAcc rte w = none → w.finished = p.tiles → (∀ a ∈ m.late, a.rte ≠ rte) →
      (∀ u ∈ w.upcalls, u.ukind ≠ 3) → q < 0x100 → Happens (.operandRequest q rte) s fun s' => s'.walkAt q rte = none ∧ ∀ j ∈ m.engine.ring, j.seq = w.seq →
        ∃ j' ∈ (s'.mwe q).engine.ring, j'.seq = w.seq ∧ j'.state = fDONE ∧ j'.count = w.donec) ∧
    (∀ st detail, w.state = .stopping → w.ending = some (st, detail) → q < 0x100 → Happens (.walkStopDone q rte) s fun s' =>
      s'.walkAt q rte = none ∧ ∀ j ∈ m.engine.ring, j.seq = w.seq →
        ∃ j' ∈ (s'.mwe q).engine.ring, j'.seq = w.seq ∧ j'.state = st ∧ j'.count = w.donec ∧ j'.detail = detail) ∧
    (∀ k, m.array = none → (∀ a ∈ m.late, ∀ x, s.walkAt q a.rte = some x → x.parked.isSome = true) → w.state = .active → w.next < p.tiles → s.classShed w.prio = false → w.prio ≤ s.cutClass q →
      w.holds false (p.ordA w.next 0) = true → w.holds true (p.ordB w.next 0) = true →
      (∀ x ∈ m.walks, x.1 ≠ rte → x.2.state = .active → w.prio < x.2.prio ∨ (w.prio = x.2.prio ∧
        (w.age < x.2.age ∨ (w.age = x.2.age ∧ rte < x.1)))) → NMap.sorted m.walks = true →
      m.accs.findIdx? (fun x => x.st = 0) = some k →
      Happens (.tileBegin q) s fun s' => ∃ w' a x, s'.walkAt q rte = some w' ∧ w'.next = w.next + 1 ∧ (s'.mwe q).array = some a ∧
        a.rte = rte ∧ a.q = w.next ∧ a.acc = k ∧ a.ks = 0 ∧ (s'.mwe q).accs[k]? = some x ∧ x.st = 1 ∧ x.ctx = w.ctx ∧ x.rte = rte ∧
        x.seq = w.seq ∧ x.q = w.next ∧ x.data = List.replicate (2 ^ p.tmlog * 2 ^ p.tnlog) 0) ∧
    (∀ a x r0 r1, m.array = some a → a.rte = rte → a.busy = true → a.ks + 1 < p.ksn → m.accs[a.acc]? = some x →
      p.a.sparse = none → a.passes = some (r0, r1) → r0.length = x.data.length → r1.length = x.data.length →
      Happens (.tileFinish q) s fun s' => ∃ x', (s'.mwe q).accs[a.acc]? = some x' ∧
        ∀ n v : Nat, r0[n]? = some (.ofNat 32 v) → r1[n]? = some (.ofNat 32 v) → x'.data[n]? = some (.ofNat 32 v)) ∧
    (∀ a x oa ob na nb, m.array = some a → a.rte = rte → a.busy = true → a.ks + 1 < p.ksn → m.accs[a.acc]? = some x →
      m.badPes = [] → a.passes = none → s.stashless →
      p.a.sparse = none → p.b.sparse = none → p.a.fmt = 9 → p.b.fmt = 9 → p.intsat = false → p.tk % 32 = 0 →
      w.op? false (p.ordA a.q a.ks) = some oa → w.op? true (p.ordB a.q a.ks) = some ob → oa.slot = some na → ob.slot = some nb →
      Happens (.tileFinish q) s fun s' => ∃ x', (s'.mwe q).accs[a.acc]? = some x' ∧ x'.data.length = x.data.length ∧
        x'.st = x.st ∧ ∀ i j, i < 2 ^ p.tmlog → j < 2 ^ p.tnlog →
          let at_ (slot row k : Nat) : Int := signed 8 (Memory.read s.scratch
            (scratchKey w.core (w.window.base + p.slotAt slot + (row * p.tk + k)))).toNat
          let n := i * 2 ^ p.tnlog + j
          ∀ y, x.data[n]? = some y → x'.data[n]? = some (
            if (p.tile a.q).1 * 2 ^ p.tmlog + i < p.m ∧ (p.tile a.q).2 * 2 ^ p.tnlog + j < p.n then
              y + .ofInt 32 ((List.range p.tk).foldl (fun z k =>
                if a.ks * p.tk + k < p.k then z + at_ na i k * at_ nb j k else z) 0)
            else y)) ∧
    (∀ slot, s.stashless → Happens (.operandHeld q rte slot) s fun s' => ∃ w', s'.walkAt q rte = some w' ∧
      let bad := (List.range p.slotSz).any fun k =>
        NSet.mem s.scratchPoison (scratchKey w.core (w.window.base + p.slotAt slot + k) / 16)
      same { w with ops := w.ops.map fun o =>
        if o.slot = some slot ∧ o.st = 1 then { o with st := if bad then 3 else 2 } else o } w') ∧
    (∀ slot o fe h pas, (w.ops.find? fun o => o.slot = some slot) = some o → o.fetch = some fe → o.parked = none → fe.handle = none →
      fe.shape = some h → s.stashless → w.ops.countP (fun x => x.slot = some slot) = 1 →
      let x := bitsAt fe.origin.toNat 0 32; let y := bitsAt fe.origin.toNat 32 32
      let pieces := h.pieces p o.sideB (if o.sideB then y else x) (if o.sideB then x else y)
      s.pieceAddrs w pieces = .ok pas →
      Happens (.fetcherFillDone q rte slot) s fun s' => ∃ w' o', s'.walkAt q rte = some w' ∧ o' ∈ w'.ops ∧ o'.slot = some slot ∧
        o'.sideB = o.sideB ∧ o'.ordinal = o.ordinal ∧ o'.fetch = none ∧
        let r := s.readPieces (pieces.zip pas)
        o'.st = (if r.2 = true ∨ fe.bad = true then 3 else 2) ∧
        ∀ k, k < (p.side o.sideB).tileBytes (p.rows o.sideB) p.tk →
          Memory.read s'.scratch (scratchKey w.core (w.window.base + p.slotAt slot + k)) = .ofNat 8 (r.1 / 2 ^ (8 * k)))) ∧
  Happens (.engineReset q) s (fun s' => (s'.mwe q).walks = [] ∧ (s'.mwe q).array = none ∧ (s'.mwe q).accs = [{}, {}, {}, {}] ∧
    (s'.mwe q).engine.next = m.engine.next)

/-! ## Errors and resets -/

/-- 06 R94, 19 R333 to R348, 23 R382, R388: each error is contained and recorded with its class and action; scans drain,
test, pass or remove a core; resets end contexts; release of PERST# brings the device up. The model's reading where the spec
has several: logs 4, 14, 15, 16 and 32. -/
def Obligations.ErrorsAndResets : Prop := ∀ s : State,
  (∀ u t, s.team? u = some t → t.retired = false → t.kind ≠ .trapHandler →
    (∀ l r, t.live.getLsbD l = true → r < t.vregs → t.kind ≠ .kite → Happens (.vectorRegisterError u l r) s fun s' =>
      s.reports s' 0x01 2 ∧ ∀ t', s'.team? u = some t' → Mask.word t'.live (l / 32) = 0) ∧
    (Happens (.teamStateError u) s fun s' => s.reports s' 0x02 3 ∧ ∀ t', s'.team? u = some t' → t'.live = 0)) ∧
  (∀ core sector, core < 192 → sector < 2 ^ 15 → Happens (.scratchpadError core sector) s fun s' => s.reports s' 0x03 1 ∧
    s'.scratch = s.scratch ∧ ∀ k, NSet.mem s'.scratchPoison k =
      (NSet.mem s.scratchPoison k || decide (k = (core * 2 ^ 20 + 16 * sector) / 16))) ∧
  (∀ line, lineExists line = true →
    let bad (s' : State) : Prop := s'.mem = s.mem ∧ ∀ k, NSet.mem s'.poison k = (NSet.mem s.poison k || decide (k / 8 = line))
    (Happens (.llcLineError line) s fun s' => s.reports s' 0x04 1 ∧ bad s') ∧
    (Happens (.dramError line) s fun s' => s.reports s' 0x05 1 ∧ bad s')) ∧
  (∀ core line x, core < 192 → NMap.find? (s.core core).l1 line = some x → x.2 = 0 → Happens (.cleanLineError core line) s fun s' =>
    s.sameMemory s' ∧ NMap.find? (s'.core core).l1 line = none ∧ ∃ ecls, s.reports s' ecls 0) ∧
  (∀ src, let n := NMap.get s.corrected src 0
    (n < 4095 → Happens (.correctableError src) s fun s' => s' = { s with corrected := s'.corrected } ∧
      NMap.get s'.corrected src 0 = n + 1) ∧
    (n = 4095 → Happens (.correctableError src) s fun s' => NMap.get s'.corrected src 0 = 0 ∧ s.reports s' 0x0E 0)) ∧
  (∀ link, let n := NMap.get s.retries link 0
    (n < 16 → Happens (.linkCrcFailure link) s fun s' => NMap.get s'.retries link 0 = n + 1 ∧ s.reports s' 0x08 4) ∧
    (n = 16 → Happens (.linkCrcFailure link) s fun s' => NMap.get s'.retries link 0 = 17 ∧ s.reports s' 0x08 5) ∧
    (n = 17 → Happens (.linkRetrain link true) s fun s' =>
      s' = { s with retries := NMap.erase s.retries link, retrains := NMap.erase s.retrains link }) ∧
    (n = 17 → NMap.get s.retrains link 0 = 2 → Happens (.linkRetrain link false) s fun s' =>
      ∀ k q, (s.part k).pstate ≠ 0 → q / 12 = Config.linkDie link → (s.part k).hasQuad q = true → (s'.part k).pstate = 2)) ∧
  (∀ qc, qc < 6 → NSet.mem s.firmware.haltedCores qc = false → Happens (.queueCoreImemError qc) s fun s' => s.reports s' 0x09 8 ∧
    NSet.mem s'.firmware.haltedCores qc = true ∧ qc ∈ s'.firmware.toMove ∧ s'.awaits (s.time + 13000000) .queueReassignment) ∧
  (∀ q, q < 4096 → Happens (.queueTableError q) s fun s' => s.reports s' 0x0A 1 ∧
    s'.queue q = { s.queue q with qstate := 3, launching := (s'.queue q).launching, nodes := (s'.queue q).nodes } ∧
    (∀ g, g ∈ s'.launches.map (·.grid) ∨ g ∈ s'.grids.map (·.2) → g.queue = q → g.counts = true → g.placed ≠ 0) ∧
    ∀ k, k ≠ q → s'.queue k = s.queue k) ∧
  (∀ quad, quad < 48 → ∀ i ∈ [Instr.quadClockRailFault quad, .railFault quad], Happens i s fun s' => s.reports s' 0x0B 6 ∧
    ∀ k, (s.part k).pstate ≠ 0 → (s.part k).hasQuad quad = true → (s'.part k).pstate = 2) ∧
  (Happens .baseDieFault s fun s' => s.reports s' 0x0C 9 ∧ s'.stopped = true ∧ s'.contexts = []) ∧
  (s.scanBusy = false → ∀ c rest, s.scanQueue = c :: rest → (s.core c).scan = .inService → Happens .rotationScanStart s fun s' =>
    s'.scanQueue = rest ∧ if s.coreEmpty c = true then (s'.core c).scan = .scanning ∧ (s'.core c).scanStart = s.gts ∧
        ∃ pass, s'.awaits (s.time + 2600000) (.scanComplete c pass)
      else (s'.core c).scan = .draining ∧ s'.awaits (s.time + 130000000) (.scanDrainTimeout c)) ∧
  (∀ c, (s.core c).scan = .draining → Happens (.scanDrainTimeout c) s fun s' => (s'.core c).scan = .inService) ∧
  (∀ c, (s.core c).scan = .scanning →
    (Happens (.scanComplete c true) s fun s' => (s'.core c).scan = .inService ∧ (s'.core c).lastPass = s.gts ∧
      (s'.core c).lastPassBegan = (s.core c).scanStart) ∧
    (Happens (.scanComplete c false) s fun s' => (s'.core c).scan = .removed ∧ s.reports s' 0x0D 7)) ∧
  (∀ ctx c, s.ctx? ctx = some c →
    (∀ fn, fn = 0 ∨ c.owner = fn → Happens (.functionLevelReset fn) s fun s' => s'.ctx? ctx = none) ∧
    (Happens .hotReset s fun s' => s'.contexts = [])) ∧
  (Happens .fabricLinkDown s fun s' => s'.fabricUp = false ∧ s.sameMemory s' ∧
    ∀ u t c p l, s.team? u = some t → p ∈ (s.core c).pending → p.uid = u → p.reg < 2 ^ 16 → l < 32 → p.pool.getLsbD l = true →
      ∃ t', s'.team? u = some t' ∧ t'.regs.badV (32 * (p.reg / 512) + l) (p.reg % 512) = true) ∧
  (Happens .fabricLinkRetrain s fun s' => s' = { s with fabricUp := true }) ∧
  (s.status = 0 →
    let image := Config.flash (fwKey 1 0)
    (Happens (.perstRelease false) s fun s' => s' = { s with status := 2 }) ∧
    Happens (.perstRelease true) s fun s' =>
      (fwOk s.firmware.minSvn 1 image = false → s' = { s with status := 2 }) ∧
      (fwOk s.firmware.minSvn 1 image = true → s'.status = 1 ∧ (∀ q, (s'.queue q).qstate = 0) ∧
        (∀ a, a < 96 * 2 ^ 30 ∨ (0x100000000000 ≤ a ∧ a < 0x100000000000 + 512 * 2 ^ 30) → Memory.read s'.mem a = 0) ∧
        NMap.find? s'.firmware.running (fwKey 1 0) = some (Config.sha384 image, leAt image 6 2) ∧
        s'.awaits (s.time + 65000000) .stpLinkLoss))

/-! ## The whole machine -/

/-- 02 R18, R32: the word of a well-formed instruction decodes to that instruction, with every operand; and a word the decoder
accepts is the word of a well-formed instruction. -/
def Obligations.EncodeDecode : Prop :=
  (∀ i : Instr, i.isWord = true → i.wellFormed = true → decode (encode i) = .ok i) ∧
  ∀ (w : Word96) (i : Instr), decode w = .ok i → i.wellFormed = true ∧ i.isWord = true ∧ encode i = w

/-- Device memory and the scratchpads keep their canonical form (the model's own; log 5) in every step. -/
def Obligations.MemoryStaysCanonical : Prop := ∀ s s' : State, s.memOk = true → step s = .next s' → s'.memOk = true

/-- 23 R388, R384, 20 R353, R361, R350: the device as reset leaves it. The model's reading where the spec has several: logs 5
and 8. -/
def Obligations.ResetState : Prop :=
  let s := State.reset
  s.memOk = true ∧ s.teams = [] ∧ s.grids = [] ∧ s.contexts = [] ∧ s.issueQ = [] ∧ s.status = 0 ∧ (s.fn 0).parts = 0xFFFF ∧
  (∀ q, (s.queue q).qstate = 0) ∧ (∀ a, Memory.read s.mem a = 0) ∧ (∀ c, (s.core c).tagCtr = 0 ∧ (s.core c).scan = .inService) ∧
  s.power.level = 0 ∧ s.power.fnom = 50000 ∧ s.power.backstop = 1000 ∧ s.power.critcap = 2000 ∧ s.power.losslvl = 0xFF ∧
  s.power.tlvl = 2 ∧ s.power.cap = 65536 ∧ s.power.step = 4096 ∧ (∀ q, q < 48 → (s.quadPower q).rail = 800 ∧ (s.quadPower q).alw = 65536)

/-- 08 R146, 02 R32: when no input is due and a split that is chosen to issue, and has begun no instruction, stands at bytes that
decode to an instruction, a step is `exec` of that instruction for the groups of its pass, in the state in which the ticket is gone, the
word and its translations are held, and the split is the one that issues; an earlier pass of an instruction that acts with its last one
only goes by. The model's reading where the spec has several: logs 1 and 79. -/
def Obligations.StepRuns : Prop := ∀ (s : State) k rest t w i,
  s.stopped = false → (∀ x ∈ s.inputs.head?, s.time < x.1) → s.issueQ = k :: rest → k.joined = false → k.replay = none →
  (∀ n ∈ rest.head?, n.joined = false) → s.team? k.uid = some t → t.retired = false → (t.split k.e).state = .ready →
  (t.split k.e).mask ≠ 0 → (t.split k.e).did = 0 → (t.split k.e).passed = 0 → s.passLanes = [] → s.stashless →
  let s1 := { s with choices := s.choices.drop 1, cur := none, issueQ := rest, shadow := none }
  let x := t.split k.e
  s1.fetchWord t.core t.ctx (t.xlat s1) x.pc = .ok w → decode w = .ok i →
  let s2 := (s1.keepWord t.core t.ctx (t.xlat s1) x.pc w).keepAccess t.ctx (t.xlat s1) .fetch x.pc.toNat 12
  let gs := match i.fields? with
    | some f => passGroups i f x
    | none => .allOnes 32
  let s3 := { s2 with cur := some {
    uid := k.uid, e := k.e, pc := x.pc, word := w, mask := x.mask, replay := none, shared := false, groups := gs } }
  (gs ≠ 0 → step s = exec i s3) ∧
  (gs = 0 → step s = .next (s3.onSplit k.uid k.e fun y => { y with
    passed := y.passed ||| GMask.one (x.toPass.headD 0), word := some w }))

/-- Words that the spec works out (02 R18; 10 R175 and the worked words of 02, 10, 11, 13, 14, 16, 17, 18, 22 and 24) decode to the
instructions they stand for. -/
def Obligations.DecodeWords : Prop :=
  let f : Fields := { grd := .always, dst := .none, sa := .none, sb := .none, feA := false, feB := false, ty := .i32, sat := false
                      rnd := .rne, isp := 0, imm := 0, hint := 0 }
  ∀ x ∈ ([
    (0x103E01802FFE080800001800, .cmp { f with dst := .p 3, sa := .v 2, sb := .imm, ty := .u32, isp := 1, imm := 3 }),
    (0x510FFF7FEFFC000000002800, .bra { f with grd := .p 3 false, imm := 5 }),
    (0x2C3C02804FFC000000003000, .cvt { f with dst := .v 5, sa := .v 4, imm := 6 }),
    (0x443C06401FFC003000000000, .vote { f with dst := .v 12, sa := .p 1, isp := 6 }),
    (0x633D06A0E418000000000000, .atoms { f with dst := .s 13, sa := .s 14, sb := .s 12 }),
    (0x60BFFF21B438002000000000, .st { f with sa := .s 27, sb := .s 28, isp := 4 }),
    (0x903F80204FFC000000000000, .walk { f with dst := .h 0, sa := .s 4 }),
    (0xA1BFFF014008000000001000, .amsg { f with sa := .v 20, sb := .v 4, imm := 2 }),
    (0x54BD04FFEFFC0007FFFF6000, .loop { f with dst := .s 9, imm := 0xFFFFEC }),
    (0xB23C02209FFC000000001800, .inspect { f with dst := .v 4, sa := .s 9, imm := 3 }),
    (0xB63D05FFEFFC000000000000, .pwrq { f with dst := .s 11 }),
    (0x003D02202FFE180008080000, .add { f with dst := .s 4, sa := .s 2, sb := .imm, ty := .u64, imm := 0x10100 })]
    : List (Word96 × Instr)), decode x.1 = .ok x.2
end

