-- ==== Sys2Proof/Laws/Maps.lean ====
section
/-!
SUPPORT. The laws of maps, sets and memories: what a read after a write gives, what a write leaves alone, and that every
operation keeps the canonical form.
-/
namespace Sys2Proof.Machine

/-! ## Folds -/

/-- A fold that no step of reaches a projection. -/
theorem foldl_keep {α β γ : Type} (proj : α → β) (f : α → γ → α) (ls : List γ)
    (hn : ∀ a x, x ∈ ls → proj (f a x) = proj a) (a : α) : proj (ls.foldl f a) = proj a := by
  induction ls generalizing a with
  | nil => rfl
  | cons y rest ih =>
    rw [List.foldl_cons, ih (fun a x hx => hn a x (List.mem_cons_of_mem _ hx)), hn a y List.mem_cons_self]

/-- A fold over a list that has `y`, read by a projection that the step of `y` makes `c` and no other step reaches. -/
theorem foldl_hit {α β γ : Type} (proj : α → β) (f : α → γ → α) (c : β) (y : γ) (ls : List γ)
    (hf : ∀ a, proj (f a y) = c) (hn : ∀ a x, x ∈ ls → x ≠ y → proj (f a x) = proj a) (a : α) (hy : y ∈ ls) :
    proj (ls.foldl f a) = c := by
  induction ls generalizing a with
  | nil => cases hy
  | cons z rest ih =>
    rw [List.foldl_cons]
    have hn' : ∀ a x, x ∈ rest → x ≠ y → proj (f a x) = proj a := fun a x hx => hn a x (List.mem_cons_of_mem _ hx)
    by_cases h : y ∈ rest
    · exact ih hn' _ h
    · have hz : y = z := by
        rcases List.mem_cons.1 hy with h' | h'
        · exact h'
        · exact absurd h' h
      rw [foldl_keep proj f rest (fun a x hx => hn' a x hx (fun e => h (e ▸ hx))), ← hz, hf]

/-! ## Maps -/

theorem NMap.find?_filter_ne {α : Type} (m : NMap α) (x y : Nat) :
    NMap.find? (m.filter fun c => c.1 != x) y = if y = x then none else NMap.find? m y := by
  induction m with
  | nil => simp [NMap.find?]
  | cons c rest ih =>
    obtain ⟨k, v⟩ := c
    by_cases hk : k = x
    · rw [List.filter_cons_of_neg (by simpa using hk), ih, NMap.find?]
      by_cases hy : y = x
      · simp [hy]
      · rw [if_neg hy, if_neg hy, if_neg (by omega)]
    · rw [List.filter_cons_of_pos (by simpa using hk), NMap.find?, NMap.find?, ih]
      by_cases hy : y = x
      · rw [if_neg (by omega), if_pos hy, if_pos hy]
      · simp [hy]

@[simp] theorem NMap.find?_erase {α : Type} (m : NMap α) (x y : Nat) :
    NMap.find? (NMap.erase m x) y = if y = x then none else NMap.find? m y := NMap.find?_filter_ne m x y

@[simp] theorem NMap.find?_insert {α : Type} (m : NMap α) (x y : Nat) (v : α) :
    NMap.find? (NMap.insert m x v) y = if y = x then some v else NMap.find? m y := by
  induction m with
  | nil => simp [NMap.insert, NMap.find?]
  | cons c rest ih =>
    obtain ⟨k, w⟩ := c
    simp only [NMap.insert]
    split
    · simp [NMap.find?]
    · split
      · next h => subst h; simp only [NMap.find?]; split <;> rfl
      · next h => simp only [NMap.find?, ih]; split <;> split <;> simp_all

@[simp] theorem NMap.find?_set {α : Type} [DecidableEq α] (d : α) (m : NMap α) (x y : Nat) (v : α) :
    NMap.find? (NMap.set d m x v) y = if y = x then (if v = d then none else some v) else NMap.find? m y := by
  unfold NMap.set
  split <;> simp

/-- A read after a write gives the value written; a write leaves every other key alone. -/
@[simp] theorem NMap.get_set {α : Type} [DecidableEq α] (d : α) (m : NMap α) (x y : Nat) (v : α) :
    NMap.get (NMap.set d m x v) y d = if y = x then v else NMap.get m y d := by
  unfold NMap.get
  simp only [NMap.find?_set]
  split
  · split <;> simp_all
  · rfl

@[simp] theorem NMap.get_insert {α : Type} (m : NMap α) (x y : Nat) (v d : α) :
    NMap.get (NMap.insert m x v) y d = if y = x then v else NMap.get m y d := by
  unfold NMap.get; simp only [NMap.find?_insert]; split <;> rfl

@[simp] theorem NMap.get_erase {α : Type} (m : NMap α) (x y : Nat) (d : α) :
    NMap.get (NMap.erase m x) y d = if y = x then d else NMap.get m y d := by
  unfold NMap.get; simp only [NMap.find?_erase]; split <;> rfl

/-! ### The canonical form -/

theorem NMap.sorted_iff {α : Type} (m : NMap α) :
    NMap.sorted m = true ↔ m.Pairwise fun a b => a.1 < b.1 := by
  induction m with
  | nil => simp [NMap.sorted]
  | cons c rest ih =>
    obtain ⟨k, v⟩ := c
    cases rest with
    | nil => simp [NMap.sorted]
    | cons c' rest' =>
      obtain ⟨k', v'⟩ := c'
      simp only [NMap.sorted, Bool.and_eq_true, decide_eq_true_eq, ih]
      constructor
      · rintro ⟨h, hp⟩
        refine List.pairwise_cons.2 ⟨?_, hp⟩
        intro a ha
        rcases List.mem_cons.1 ha with rfl | ha
        · exact h
        · exact Nat.lt_trans h ((List.pairwise_cons.1 hp).1 a ha)
      · intro hp
        exact ⟨(List.pairwise_cons.1 hp).1 (k', v') List.mem_cons_self, (List.pairwise_cons.1 hp).2⟩

theorem NMap.mem_insert {α : Type} (m : NMap α) (x : Nat) (v : α) (c : Nat × α) (h : c ∈ NMap.insert m x v) :
    c = (x, v) ∨ c ∈ m := by
  induction m with
  | nil => simpa [NMap.insert] using h
  | cons a rest ih =>
    obtain ⟨k, w⟩ := a
    simp only [NMap.insert] at h
    split at h
    · simp_all
    · split at h
      · rcases List.mem_cons.1 h with h | h
        · exact Or.inl h
        · exact Or.inr (List.mem_cons_of_mem _ h)
      · rcases List.mem_cons.1 h with h | h
        · exact Or.inr (h ▸ List.mem_cons_self)
        · exact (ih h).imp id (List.mem_cons_of_mem _)

theorem NMap.sorted_insert {α : Type} (m : NMap α) (x : Nat) (v : α) (h : NMap.sorted m = true) :
    NMap.sorted (NMap.insert m x v) = true := by
  rw [NMap.sorted_iff] at h ⊢
  induction m with
  | nil => simp [NMap.insert]
  | cons a rest ih =>
    obtain ⟨k, w⟩ := a
    obtain ⟨h1, h2⟩ := List.pairwise_cons.1 h
    simp only [NMap.insert]
    split
    · next hx =>
      refine List.pairwise_cons.2 ⟨fun b hb => ?_, h⟩
      rcases List.mem_cons.1 hb with rfl | hb
      · exact hx
      · exact Nat.lt_trans hx (h1 b hb)
    · split
      · next hx => subst hx; exact List.pairwise_cons.2 ⟨h1, h2⟩
      · next hx hne =>
        refine List.pairwise_cons.2 ⟨fun b hb => ?_, ih h2⟩
        rcases NMap.mem_insert rest x v b hb with rfl | hb
        · show k < x
          omega
        · exact h1 b hb

theorem NMap.sorted_filter {α : Type} (m : NMap α) (p : Nat × α → Bool) (h : NMap.sorted m = true) :
    NMap.sorted (m.filter p) = true := by
  rw [NMap.sorted_iff] at h ⊢
  exact h.filter p

/-- Setting a value keeps the canonical form. -/
theorem NMap.wf_set {α : Type} [DecidableEq α] (d : α) (m : NMap α) (x : Nat) (v : α) (h : NMap.wf d m = true) :
    NMap.wf d (NMap.set d m x v) = true := by
  unfold NMap.wf at h ⊢
  rw [Bool.and_eq_true, List.all_eq_true] at h ⊢
  obtain ⟨h1, h2⟩ := h
  unfold NMap.set
  split
  · exact ⟨NMap.sorted_filter m _ h1, fun c hc => h2 c (List.mem_filter.1 hc).1⟩
  · next hv =>
    refine ⟨NMap.sorted_insert m x v h1, fun c hc => ?_⟩
    rcases NMap.mem_insert m x v c hc with rfl | hc
    · simpa using hv
    · exact h2 c hc

/-- Taking entries away keeps the canonical form. -/
theorem NMap.wf_filter {α : Type} [DecidableEq α] (d : α) (m : NMap α) (p : Nat × α → Bool) (h : NMap.wf d m = true) :
    NMap.wf d (m.filter p) = true := by
  unfold NMap.wf at h ⊢
  rw [Bool.and_eq_true, List.all_eq_true] at h ⊢
  exact ⟨NMap.sorted_filter m _ h.1, fun c hc => h.2 c (List.mem_filter.1 hc).1⟩

/-! ## Sets -/

@[simp] theorem NSet.mem_add (s : NSet) (x y : Nat) : NSet.mem (NSet.add s x) y = (y == x || NSet.mem s y) := by
  unfold NSet.mem
  rw [Bool.beq_comm (a := y)]
  induction s with
  | nil => simp [NSet.add]
  | cons k rest ih =>
    simp only [NSet.add]
    split
    · simp
    · split
      · next h => subst h; simp only [List.any_cons]; cases (x == y) <;> simp
      · simp only [List.any_cons, ih]; cases (k == y) <;> simp

@[simp] theorem NSet.mem_remove (s : NSet) (x y : Nat) : NSet.mem (NSet.remove s x) y = (y != x && NSet.mem s y) := by
  unfold NSet.mem NSet.remove
  rw [Bool.eq_iff_iff]
  simp only [List.any_eq_true, List.mem_filter, bne_iff_ne, beq_iff_eq, Bool.and_eq_true]
  constructor
  · rintro ⟨a, ⟨h1, h2⟩, rfl⟩; exact ⟨h2, a, h1, rfl⟩
  · rintro ⟨h, a, h1, rfl⟩; exact ⟨a, ⟨h1, h⟩, rfl⟩

@[simp] theorem NSet.mem_put (s : NSet) (x y : Nat) (b : Bool) :
    NSet.mem (NSet.put s x b) y = if y = x then b else NSet.mem s y := by
  unfold NSet.put
  cases b <;> by_cases h : y = x <;> simp [h]

/-! ## Memories -/

/-- A read after a write of the same byte gives the byte written; a write leaves every other byte alone. -/
@[simp] theorem Memory.read_write (m : List Host.Cell) (a b : Nat) (x : Byte) :
    Memory.read (Memory.write m a x) b = if b = a then x else Memory.read m b :=
  NMap.get_set emptyByte m a b x

theorem Memory.read_writeN (l : List Byte) (m : List Host.Cell) (a b : Nat) :
    Memory.read (Memory.writeN m a l) b =
      if a ≤ b ∧ b < a + l.length then l.getD (b - a) 0 else Memory.read m b := by
  induction l generalizing m a with
  | nil => rw [if_neg (by simp)]; rfl
  | cons x rest ih =>
    simp only [Memory.writeN, ih, Memory.read_write, List.length_cons]
    by_cases h1 : a + 1 ≤ b ∧ b < a + 1 + rest.length
    · have h2 : a ≤ b ∧ b < a + (rest.length + 1) := by omega
      have h3 : b - a = (b - (a + 1)) + 1 := by omega
      simp [h1, h2, h3]
    · by_cases h2 : b = a
      · subst h2; rw [if_neg h1, if_pos rfl, if_pos (by omega)]; simp
      · have h3 : ¬ (a ≤ b ∧ b < a + (rest.length + 1)) := by omega
        rw [if_neg h1, if_neg h2, if_neg h3]

theorem Memory.wf_write (m : List Host.Cell) (a : Nat) (x : Byte) (h : Memory.wf m = true) :
    Memory.wf (Memory.write m a x) = true := NMap.wf_set emptyByte m a x h

theorem Memory.wf_writeN (l : List Byte) (m : List Host.Cell) (a : Nat) (h : Memory.wf m = true) :
    Memory.wf (Memory.writeN m a l) = true := by
  induction l generalizing m a with
  | nil => exact h
  | cons x rest ih => exact ih _ _ (Memory.wf_write m a x h)

theorem Memory.wf_clear (m : List Host.Cell) (lo hi : Nat) (h : Memory.wf m = true) :
    Memory.wf (Memory.clear m lo hi) = true := NMap.wf_filter emptyByte m _ h

theorem Memory.read_clear (m : List Host.Cell) (lo hi a : Nat) :
    Memory.read (Memory.clear m lo hi) a = if lo ≤ a ∧ a < hi then emptyByte else Memory.read m a := by
  unfold Memory.read Memory.clear NMap.get
  suffices NMap.find? (m.filter fun c => c.1 < lo || hi ≤ c.1) a =
      if lo ≤ a ∧ a < hi then none else NMap.find? m a by rw [this]; split <;> rfl
  induction m with
  | nil => simp [NMap.find?]
  | cons c rest ih =>
    obtain ⟨k, v⟩ := c
    by_cases hk : k < lo ∨ hi ≤ k
    · rw [List.filter_cons_of_pos (by simpa using hk)]
      simp only [NMap.find?]
      by_cases ha : a = k
      · rw [if_pos ha, if_neg (by omega)]; simp [ha]
      · rw [if_neg ha, ih, if_neg ha]
    · rw [List.filter_cons_of_neg (by simpa using hk)]
      rw [ih]
      simp only [NMap.find?]
      by_cases ha : a = k
      · have : lo ≤ a ∧ a < hi := by omega
        simp [this]
      · simp [ha]

end Sys2Proof.Machine
end

