-- ==== Sys2Proof/Laws/State.lean ====
section
/-!
SUPPORT. What each update of the state does to each field, and what reading a part of the state after changing one gives.
-/
namespace Sys2Proof.Machine

@[simp] theorem State.setTeam_time (s : State) (t : Team) : (s.setTeam t).time = s.time := rfl
@[simp] theorem State.setTeam_inputs (s : State) (t : Team) : (s.setTeam t).inputs = s.inputs := rfl
@[simp] theorem State.setTeam_agenda (s : State) (t : Team) : (s.setTeam t).agenda = s.agenda := rfl
@[simp] theorem State.setTeam_issueQ (s : State) (t : Team) : (s.setTeam t).issueQ = s.issueQ := rfl
@[simp] theorem State.setTeam_cur (s : State) (t : Team) : (s.setTeam t).cur = s.cur := rfl
@[simp] theorem State.setTeam_shadow (s : State) (t : Team) : (s.setTeam t).shadow = s.shadow := rfl
@[simp] theorem State.setTeam_passLanes (s : State) (t : Team) : (s.setTeam t).passLanes = s.passLanes := rfl
@[simp] theorem State.setTeam_choices (s : State) (t : Team) : (s.setTeam t).choices = s.choices := rfl
@[simp] theorem State.setTeam_freeCtr (s : State) (t : Team) : (s.setTeam t).freeCtr = s.freeCtr := rfl
@[simp] theorem State.setTeam_uidCtr (s : State) (t : Team) : (s.setTeam t).uidCtr = s.uidCtr := rfl
@[simp] theorem State.setTeam_out (s : State) (t : Team) : (s.setTeam t).out = s.out := rfl
@[simp] theorem State.setTeam_stopped (s : State) (t : Team) : (s.setTeam t).stopped = s.stopped := rfl
@[simp] theorem State.setTeam_mem (s : State) (t : Team) : (s.setTeam t).mem = s.mem := rfl
@[simp] theorem State.setTeam_poison (s : State) (t : Team) : (s.setTeam t).poison = s.poison := rfl
@[simp] theorem State.setTeam_scratch (s : State) (t : Team) : (s.setTeam t).scratch = s.scratch := rfl
@[simp] theorem State.setTeam_scratchPoison (s : State) (t : Team) : (s.setTeam t).scratchPoison = s.scratchPoison := rfl
@[simp] theorem State.setTeam_tlb (s : State) (t : Team) : (s.setTeam t).tlb = s.tlb := rfl
@[simp] theorem State.setTeam_armed (s : State) (t : Team) : (s.setTeam t).armed = s.armed := rfl
@[simp] theorem State.setTeam_llc (s : State) (t : Team) : (s.setTeam t).llc = s.llc := rfl
@[simp] theorem State.setTeam_snoop (s : State) (t : Team) : (s.setTeam t).snoop = s.snoop := rfl
@[simp] theorem State.setTeam_locks (s : State) (t : Team) : (s.setTeam t).locks = s.locks := rfl
@[simp] theorem State.setTeam_grids (s : State) (t : Team) : (s.setTeam t).grids = s.grids := rfl
@[simp] theorem State.setTeam_teams (s : State) (t : Team) : (s.setTeam t).teams = NMap.insert s.teams t.uid t := rfl
@[simp] theorem State.setTeam_cores (s : State) (t : Team) : (s.setTeam t).cores = s.cores := rfl
@[simp] theorem State.setTeam_mwes (s : State) (t : Team) : (s.setTeam t).mwes = s.mwes := rfl
@[simp] theorem State.setTeam_queues (s : State) (t : Team) : (s.setTeam t).queues = s.queues := rfl
@[simp] theorem State.setTeam_tableBase (s : State) (t : Team) : (s.setTeam t).tableBase = s.tableBase := rfl
@[simp] theorem State.setTeam_wakes (s : State) (t : Team) : (s.setTeam t).wakes = s.wakes := rfl
@[simp] theorem State.setTeam_launches (s : State) (t : Team) : (s.setTeam t).launches = s.launches := rfl
@[simp] theorem State.setTeam_partitions (s : State) (t : Team) : (s.setTeam t).partitions = s.partitions := rfl
@[simp] theorem State.setTeam_contexts (s : State) (t : Team) : (s.setTeam t).contexts = s.contexts := rfl
@[simp] theorem State.setTeam_functions (s : State) (t : Team) : (s.setTeam t).functions = s.functions := rfl
@[simp] theorem State.setTeam_nextFn (s : State) (t : Team) : (s.setTeam t).nextFn = s.nextFn := rfl
@[simp] theorem State.setTeam_power (s : State) (t : Team) : (s.setTeam t).power = s.power := rfl
@[simp] theorem State.setTeam_logs (s : State) (t : Team) : (s.setTeam t).logs = s.logs := rfl
@[simp] theorem State.setTeam_firmware (s : State) (t : Team) : (s.setTeam t).firmware = s.firmware := rfl
@[simp] theorem State.setTeam_scanQueue (s : State) (t : Team) : (s.setTeam t).scanQueue = s.scanQueue := rfl
@[simp] theorem State.setTeam_scanNext (s : State) (t : Team) : (s.setTeam t).scanNext = s.scanNext := rfl
@[simp] theorem State.setTeam_scanCore (s : State) (t : Team) : (s.setTeam t).scanCore = s.scanCore := rfl
@[simp] theorem State.setTeam_rotgap (s : State) (t : Team) : (s.setTeam t).rotgap = s.rotgap := rfl
@[simp] theorem State.setTeam_corrected (s : State) (t : Team) : (s.setTeam t).corrected = s.corrected := rfl
@[simp] theorem State.setTeam_retries (s : State) (t : Team) : (s.setTeam t).retries = s.retries := rfl
@[simp] theorem State.setTeam_retrains (s : State) (t : Team) : (s.setTeam t).retrains = s.retrains := rfl
@[simp] theorem State.setTeam_fabricUp (s : State) (t : Team) : (s.setTeam t).fabricUp = s.fabricUp := rfl
@[simp] theorem State.setTeam_status (s : State) (t : Team) : (s.setTeam t).status = s.status := rfl

@[simp] theorem State.dropTeam_time (s : State) (u : Nat) : (s.dropTeam u).time = s.time := rfl
@[simp] theorem State.dropTeam_inputs (s : State) (u : Nat) : (s.dropTeam u).inputs = s.inputs := rfl
@[simp] theorem State.dropTeam_agenda (s : State) (u : Nat) : (s.dropTeam u).agenda = s.agenda := rfl
@[simp] theorem State.dropTeam_issueQ (s : State) (u : Nat) : (s.dropTeam u).issueQ = s.issueQ := rfl
@[simp] theorem State.dropTeam_cur (s : State) (u : Nat) : (s.dropTeam u).cur = s.cur := rfl
@[simp] theorem State.dropTeam_shadow (s : State) (u : Nat) : (s.dropTeam u).shadow = s.shadow := rfl
@[simp] theorem State.dropTeam_passLanes (s : State) (u : Nat) : (s.dropTeam u).passLanes = s.passLanes := rfl
@[simp] theorem State.dropTeam_choices (s : State) (u : Nat) : (s.dropTeam u).choices = s.choices := rfl
@[simp] theorem State.dropTeam_freeCtr (s : State) (u : Nat) : (s.dropTeam u).freeCtr = s.freeCtr := rfl
@[simp] theorem State.dropTeam_uidCtr (s : State) (u : Nat) : (s.dropTeam u).uidCtr = s.uidCtr := rfl
@[simp] theorem State.dropTeam_out (s : State) (u : Nat) : (s.dropTeam u).out = s.out := rfl
@[simp] theorem State.dropTeam_stopped (s : State) (u : Nat) : (s.dropTeam u).stopped = s.stopped := rfl
@[simp] theorem State.dropTeam_mem (s : State) (u : Nat) : (s.dropTeam u).mem = s.mem := rfl
@[simp] theorem State.dropTeam_poison (s : State) (u : Nat) : (s.dropTeam u).poison = s.poison := rfl
@[simp] theorem State.dropTeam_scratch (s : State) (u : Nat) : (s.dropTeam u).scratch = s.scratch := rfl
@[simp] theorem State.dropTeam_scratchPoison (s : State) (u : Nat) : (s.dropTeam u).scratchPoison = s.scratchPoison := rfl
@[simp] theorem State.dropTeam_tlb (s : State) (u : Nat) : (s.dropTeam u).tlb = s.tlb := rfl
@[simp] theorem State.dropTeam_armed (s : State) (u : Nat) : (s.dropTeam u).armed = s.armed := rfl
@[simp] theorem State.dropTeam_llc (s : State) (u : Nat) : (s.dropTeam u).llc = s.llc := rfl
@[simp] theorem State.dropTeam_snoop (s : State) (u : Nat) : (s.dropTeam u).snoop = s.snoop := rfl
@[simp] theorem State.dropTeam_locks (s : State) (u : Nat) : (s.dropTeam u).locks = s.locks := rfl
@[simp] theorem State.dropTeam_grids (s : State) (u : Nat) : (s.dropTeam u).grids = s.grids := rfl
@[simp] theorem State.dropTeam_teams (s : State) (u : Nat) : (s.dropTeam u).teams = NMap.erase s.teams u := rfl
@[simp] theorem State.dropTeam_cores (s : State) (u : Nat) : (s.dropTeam u).cores = s.cores := rfl
@[simp] theorem State.dropTeam_mwes (s : State) (u : Nat) : (s.dropTeam u).mwes = s.mwes := rfl
@[simp] theorem State.dropTeam_queues (s : State) (u : Nat) : (s.dropTeam u).queues = s.queues := rfl
@[simp] theorem State.dropTeam_tableBase (s : State) (u : Nat) : (s.dropTeam u).tableBase = s.tableBase := rfl
@[simp] theorem State.dropTeam_wakes (s : State) (u : Nat) : (s.dropTeam u).wakes = s.wakes := rfl
@[simp] theorem State.dropTeam_launches (s : State) (u : Nat) : (s.dropTeam u).launches = s.launches := rfl
@[simp] theorem State.dropTeam_partitions (s : State) (u : Nat) : (s.dropTeam u).partitions = s.partitions := rfl
@[simp] theorem State.dropTeam_contexts (s : State) (u : Nat) : (s.dropTeam u).contexts = s.contexts := rfl
@[simp] theorem State.dropTeam_functions (s : State) (u : Nat) : (s.dropTeam u).functions = s.functions := rfl
@[simp] theorem State.dropTeam_nextFn (s : State) (u : Nat) : (s.dropTeam u).nextFn = s.nextFn := rfl
@[simp] theorem State.dropTeam_power (s : State) (u : Nat) : (s.dropTeam u).power = s.power := rfl
@[simp] theorem State.dropTeam_logs (s : State) (u : Nat) : (s.dropTeam u).logs = s.logs := rfl
@[simp] theorem State.dropTeam_firmware (s : State) (u : Nat) : (s.dropTeam u).firmware = s.firmware := rfl
@[simp] theorem State.dropTeam_scanQueue (s : State) (u : Nat) : (s.dropTeam u).scanQueue = s.scanQueue := rfl
@[simp] theorem State.dropTeam_scanNext (s : State) (u : Nat) : (s.dropTeam u).scanNext = s.scanNext := rfl
@[simp] theorem State.dropTeam_scanCore (s : State) (u : Nat) : (s.dropTeam u).scanCore = s.scanCore := rfl
@[simp] theorem State.dropTeam_rotgap (s : State) (u : Nat) : (s.dropTeam u).rotgap = s.rotgap := rfl
@[simp] theorem State.dropTeam_corrected (s : State) (u : Nat) : (s.dropTeam u).corrected = s.corrected := rfl
@[simp] theorem State.dropTeam_retries (s : State) (u : Nat) : (s.dropTeam u).retries = s.retries := rfl
@[simp] theorem State.dropTeam_retrains (s : State) (u : Nat) : (s.dropTeam u).retrains = s.retrains := rfl
@[simp] theorem State.dropTeam_fabricUp (s : State) (u : Nat) : (s.dropTeam u).fabricUp = s.fabricUp := rfl
@[simp] theorem State.dropTeam_status (s : State) (u : Nat) : (s.dropTeam u).status = s.status := rfl

@[simp] theorem State.setGrid_time (s : State) (g : Grid) : (s.setGrid g).time = s.time := rfl
@[simp] theorem State.setGrid_inputs (s : State) (g : Grid) : (s.setGrid g).inputs = s.inputs := rfl
@[simp] theorem State.setGrid_agenda (s : State) (g : Grid) : (s.setGrid g).agenda = s.agenda := rfl
@[simp] theorem State.setGrid_issueQ (s : State) (g : Grid) : (s.setGrid g).issueQ = s.issueQ := rfl
@[simp] theorem State.setGrid_cur (s : State) (g : Grid) : (s.setGrid g).cur = s.cur := rfl
@[simp] theorem State.setGrid_shadow (s : State) (g : Grid) : (s.setGrid g).shadow = s.shadow := rfl
@[simp] theorem State.setGrid_passLanes (s : State) (g : Grid) : (s.setGrid g).passLanes = s.passLanes := rfl
@[simp] theorem State.setGrid_choices (s : State) (g : Grid) : (s.setGrid g).choices = s.choices := rfl
@[simp] theorem State.setGrid_freeCtr (s : State) (g : Grid) : (s.setGrid g).freeCtr = s.freeCtr := rfl
@[simp] theorem State.setGrid_uidCtr (s : State) (g : Grid) : (s.setGrid g).uidCtr = s.uidCtr := rfl
@[simp] theorem State.setGrid_out (s : State) (g : Grid) : (s.setGrid g).out = s.out := rfl
@[simp] theorem State.setGrid_stopped (s : State) (g : Grid) : (s.setGrid g).stopped = s.stopped := rfl
@[simp] theorem State.setGrid_mem (s : State) (g : Grid) : (s.setGrid g).mem = s.mem := rfl
@[simp] theorem State.setGrid_poison (s : State) (g : Grid) : (s.setGrid g).poison = s.poison := rfl
@[simp] theorem State.setGrid_scratch (s : State) (g : Grid) : (s.setGrid g).scratch = s.scratch := rfl
@[simp] theorem State.setGrid_scratchPoison (s : State) (g : Grid) : (s.setGrid g).scratchPoison = s.scratchPoison := rfl
@[simp] theorem State.setGrid_tlb (s : State) (g : Grid) : (s.setGrid g).tlb = s.tlb := rfl
@[simp] theorem State.setGrid_armed (s : State) (g : Grid) : (s.setGrid g).armed = s.armed := rfl
@[simp] theorem State.setGrid_llc (s : State) (g : Grid) : (s.setGrid g).llc = s.llc := rfl
@[simp] theorem State.setGrid_snoop (s : State) (g : Grid) : (s.setGrid g).snoop = s.snoop := rfl
@[simp] theorem State.setGrid_locks (s : State) (g : Grid) : (s.setGrid g).locks = s.locks := rfl
@[simp] theorem State.setGrid_grids (s : State) (g : Grid) : (s.setGrid g).grids = NMap.insert s.grids g.id g := rfl
@[simp] theorem State.setGrid_teams (s : State) (g : Grid) : (s.setGrid g).teams = s.teams := rfl
@[simp] theorem State.setGrid_cores (s : State) (g : Grid) : (s.setGrid g).cores = s.cores := rfl
@[simp] theorem State.setGrid_mwes (s : State) (g : Grid) : (s.setGrid g).mwes = s.mwes := rfl
@[simp] theorem State.setGrid_queues (s : State) (g : Grid) : (s.setGrid g).queues = s.queues := rfl
@[simp] theorem State.setGrid_tableBase (s : State) (g : Grid) : (s.setGrid g).tableBase = s.tableBase := rfl
@[simp] theorem State.setGrid_wakes (s : State) (g : Grid) : (s.setGrid g).wakes = s.wakes := rfl
@[simp] theorem State.setGrid_launches (s : State) (g : Grid) : (s.setGrid g).launches = s.launches := rfl
@[simp] theorem State.setGrid_partitions (s : State) (g : Grid) : (s.setGrid g).partitions = s.partitions := rfl
@[simp] theorem State.setGrid_contexts (s : State) (g : Grid) : (s.setGrid g).contexts = s.contexts := rfl
@[simp] theorem State.setGrid_functions (s : State) (g : Grid) : (s.setGrid g).functions = s.functions := rfl
@[simp] theorem State.setGrid_nextFn (s : State) (g : Grid) : (s.setGrid g).nextFn = s.nextFn := rfl
@[simp] theorem State.setGrid_power (s : State) (g : Grid) : (s.setGrid g).power = s.power := rfl
@[simp] theorem State.setGrid_logs (s : State) (g : Grid) : (s.setGrid g).logs = s.logs := rfl
@[simp] theorem State.setGrid_firmware (s : State) (g : Grid) : (s.setGrid g).firmware = s.firmware := rfl
@[simp] theorem State.setGrid_scanQueue (s : State) (g : Grid) : (s.setGrid g).scanQueue = s.scanQueue := rfl
@[simp] theorem State.setGrid_scanNext (s : State) (g : Grid) : (s.setGrid g).scanNext = s.scanNext := rfl
@[simp] theorem State.setGrid_scanCore (s : State) (g : Grid) : (s.setGrid g).scanCore = s.scanCore := rfl
@[simp] theorem State.setGrid_rotgap (s : State) (g : Grid) : (s.setGrid g).rotgap = s.rotgap := rfl
@[simp] theorem State.setGrid_corrected (s : State) (g : Grid) : (s.setGrid g).corrected = s.corrected := rfl
@[simp] theorem State.setGrid_retries (s : State) (g : Grid) : (s.setGrid g).retries = s.retries := rfl
@[simp] theorem State.setGrid_retrains (s : State) (g : Grid) : (s.setGrid g).retrains = s.retrains := rfl
@[simp] theorem State.setGrid_fabricUp (s : State) (g : Grid) : (s.setGrid g).fabricUp = s.fabricUp := rfl
@[simp] theorem State.setGrid_status (s : State) (g : Grid) : (s.setGrid g).status = s.status := rfl

@[simp] theorem State.setCtx_time (s : State) (c : Nat) (x : Context) : (s.setCtx c x).time = s.time := rfl
@[simp] theorem State.setCtx_inputs (s : State) (c : Nat) (x : Context) : (s.setCtx c x).inputs = s.inputs := rfl
@[simp] theorem State.setCtx_agenda (s : State) (c : Nat) (x : Context) : (s.setCtx c x).agenda = s.agenda := rfl
@[simp] theorem State.setCtx_issueQ (s : State) (c : Nat) (x : Context) : (s.setCtx c x).issueQ = s.issueQ := rfl
@[simp] theorem State.setCtx_cur (s : State) (c : Nat) (x : Context) : (s.setCtx c x).cur = s.cur := rfl
@[simp] theorem State.setCtx_shadow (s : State) (c : Nat) (x : Context) : (s.setCtx c x).shadow = s.shadow := rfl
@[simp] theorem State.setCtx_passLanes (s : State) (c : Nat) (x : Context) : (s.setCtx c x).passLanes = s.passLanes := rfl
@[simp] theorem State.setCtx_choices (s : State) (c : Nat) (x : Context) : (s.setCtx c x).choices = s.choices := rfl
@[simp] theorem State.setCtx_freeCtr (s : State) (c : Nat) (x : Context) : (s.setCtx c x).freeCtr = s.freeCtr := rfl
@[simp] theorem State.setCtx_uidCtr (s : State) (c : Nat) (x : Context) : (s.setCtx c x).uidCtr = s.uidCtr := rfl
@[simp] theorem State.setCtx_out (s : State) (c : Nat) (x : Context) : (s.setCtx c x).out = s.out := rfl
@[simp] theorem State.setCtx_stopped (s : State) (c : Nat) (x : Context) : (s.setCtx c x).stopped = s.stopped := rfl
@[simp] theorem State.setCtx_mem (s : State) (c : Nat) (x : Context) : (s.setCtx c x).mem = s.mem := rfl
@[simp] theorem State.setCtx_poison (s : State) (c : Nat) (x : Context) : (s.setCtx c x).poison = s.poison := rfl
@[simp] theorem State.setCtx_scratch (s : State) (c : Nat) (x : Context) : (s.setCtx c x).scratch = s.scratch := rfl
@[simp] theorem State.setCtx_scratchPoison (s : State) (c : Nat) (x : Context) : (s.setCtx c x).scratchPoison = s.scratchPoison := rfl
@[simp] theorem State.setCtx_tlb (s : State) (c : Nat) (x : Context) : (s.setCtx c x).tlb = s.tlb := rfl
@[simp] theorem State.setCtx_armed (s : State) (c : Nat) (x : Context) : (s.setCtx c x).armed = s.armed := rfl
@[simp] theorem State.setCtx_llc (s : State) (c : Nat) (x : Context) : (s.setCtx c x).llc = s.llc := rfl
@[simp] theorem State.setCtx_snoop (s : State) (c : Nat) (x : Context) : (s.setCtx c x).snoop = s.snoop := rfl
@[simp] theorem State.setCtx_locks (s : State) (c : Nat) (x : Context) : (s.setCtx c x).locks = s.locks := rfl
@[simp] theorem State.setCtx_grids (s : State) (c : Nat) (x : Context) : (s.setCtx c x).grids = s.grids := rfl
@[simp] theorem State.setCtx_teams (s : State) (c : Nat) (x : Context) : (s.setCtx c x).teams = s.teams := rfl
@[simp] theorem State.setCtx_cores (s : State) (c : Nat) (x : Context) : (s.setCtx c x).cores = s.cores := rfl
@[simp] theorem State.setCtx_mwes (s : State) (c : Nat) (x : Context) : (s.setCtx c x).mwes = s.mwes := rfl
@[simp] theorem State.setCtx_queues (s : State) (c : Nat) (x : Context) : (s.setCtx c x).queues = s.queues := rfl
@[simp] theorem State.setCtx_tableBase (s : State) (c : Nat) (x : Context) : (s.setCtx c x).tableBase = s.tableBase := rfl
@[simp] theorem State.setCtx_wakes (s : State) (c : Nat) (x : Context) : (s.setCtx c x).wakes = s.wakes := rfl
@[simp] theorem State.setCtx_launches (s : State) (c : Nat) (x : Context) : (s.setCtx c x).launches = s.launches := rfl
@[simp] theorem State.setCtx_partitions (s : State) (c : Nat) (x : Context) : (s.setCtx c x).partitions = s.partitions := rfl
@[simp] theorem State.setCtx_contexts (s : State) (c : Nat) (x : Context) : (s.setCtx c x).contexts = NMap.insert s.contexts c x := rfl
@[simp] theorem State.setCtx_functions (s : State) (c : Nat) (x : Context) : (s.setCtx c x).functions = s.functions := rfl
@[simp] theorem State.setCtx_nextFn (s : State) (c : Nat) (x : Context) : (s.setCtx c x).nextFn = s.nextFn := rfl
@[simp] theorem State.setCtx_power (s : State) (c : Nat) (x : Context) : (s.setCtx c x).power = s.power := rfl
@[simp] theorem State.setCtx_logs (s : State) (c : Nat) (x : Context) : (s.setCtx c x).logs = s.logs := rfl
@[simp] theorem State.setCtx_firmware (s : State) (c : Nat) (x : Context) : (s.setCtx c x).firmware = s.firmware := rfl
@[simp] theorem State.setCtx_scanQueue (s : State) (c : Nat) (x : Context) : (s.setCtx c x).scanQueue = s.scanQueue := rfl
@[simp] theorem State.setCtx_scanNext (s : State) (c : Nat) (x : Context) : (s.setCtx c x).scanNext = s.scanNext := rfl
@[simp] theorem State.setCtx_scanCore (s : State) (c : Nat) (x : Context) : (s.setCtx c x).scanCore = s.scanCore := rfl
@[simp] theorem State.setCtx_rotgap (s : State) (c : Nat) (x : Context) : (s.setCtx c x).rotgap = s.rotgap := rfl
@[simp] theorem State.setCtx_corrected (s : State) (c : Nat) (x : Context) : (s.setCtx c x).corrected = s.corrected := rfl
@[simp] theorem State.setCtx_retries (s : State) (c : Nat) (x : Context) : (s.setCtx c x).retries = s.retries := rfl
@[simp] theorem State.setCtx_retrains (s : State) (c : Nat) (x : Context) : (s.setCtx c x).retrains = s.retrains := rfl
@[simp] theorem State.setCtx_fabricUp (s : State) (c : Nat) (x : Context) : (s.setCtx c x).fabricUp = s.fabricUp := rfl
@[simp] theorem State.setCtx_status (s : State) (c : Nat) (x : Context) : (s.setCtx c x).status = s.status := rfl

@[simp] theorem State.setCore_time (s : State) (c : Nat) (x : Core) : (s.setCore c x).time = s.time := rfl
@[simp] theorem State.setCore_inputs (s : State) (c : Nat) (x : Core) : (s.setCore c x).inputs = s.inputs := rfl
@[simp] theorem State.setCore_agenda (s : State) (c : Nat) (x : Core) : (s.setCore c x).agenda = s.agenda := rfl
@[simp] theorem State.setCore_issueQ (s : State) (c : Nat) (x : Core) : (s.setCore c x).issueQ = s.issueQ := rfl
@[simp] theorem State.setCore_cur (s : State) (c : Nat) (x : Core) : (s.setCore c x).cur = s.cur := rfl
@[simp] theorem State.setCore_shadow (s : State) (c : Nat) (x : Core) : (s.setCore c x).shadow = s.shadow := rfl
@[simp] theorem State.setCore_passLanes (s : State) (c : Nat) (x : Core) : (s.setCore c x).passLanes = s.passLanes := rfl
@[simp] theorem State.setCore_choices (s : State) (c : Nat) (x : Core) : (s.setCore c x).choices = s.choices := rfl
@[simp] theorem State.setCore_freeCtr (s : State) (c : Nat) (x : Core) : (s.setCore c x).freeCtr = s.freeCtr := rfl
@[simp] theorem State.setCore_uidCtr (s : State) (c : Nat) (x : Core) : (s.setCore c x).uidCtr = s.uidCtr := rfl
@[simp] theorem State.setCore_out (s : State) (c : Nat) (x : Core) : (s.setCore c x).out = s.out := rfl
@[simp] theorem State.setCore_stopped (s : State) (c : Nat) (x : Core) : (s.setCore c x).stopped = s.stopped := rfl
@[simp] theorem State.setCore_mem (s : State) (c : Nat) (x : Core) : (s.setCore c x).mem = s.mem := rfl
@[simp] theorem State.setCore_poison (s : State) (c : Nat) (x : Core) : (s.setCore c x).poison = s.poison := rfl
@[simp] theorem State.setCore_scratch (s : State) (c : Nat) (x : Core) : (s.setCore c x).scratch = s.scratch := rfl
@[simp] theorem State.setCore_scratchPoison (s : State) (c : Nat) (x : Core) : (s.setCore c x).scratchPoison = s.scratchPoison := rfl
@[simp] theorem State.setCore_tlb (s : State) (c : Nat) (x : Core) : (s.setCore c x).tlb = s.tlb := rfl
@[simp] theorem State.setCore_armed (s : State) (c : Nat) (x : Core) : (s.setCore c x).armed = s.armed := rfl
@[simp] theorem State.setCore_llc (s : State) (c : Nat) (x : Core) : (s.setCore c x).llc = s.llc := rfl
@[simp] theorem State.setCore_snoop (s : State) (c : Nat) (x : Core) : (s.setCore c x).snoop = s.snoop := rfl
@[simp] theorem State.setCore_locks (s : State) (c : Nat) (x : Core) : (s.setCore c x).locks = s.locks := rfl
@[simp] theorem State.setCore_grids (s : State) (c : Nat) (x : Core) : (s.setCore c x).grids = s.grids := rfl
@[simp] theorem State.setCore_teams (s : State) (c : Nat) (x : Core) : (s.setCore c x).teams = s.teams := rfl
@[simp] theorem State.setCore_cores (s : State) (c : Nat) (x : Core) : (s.setCore c x).cores = NMap.set {} s.cores c x := rfl
@[simp] theorem State.setCore_mwes (s : State) (c : Nat) (x : Core) : (s.setCore c x).mwes = s.mwes := rfl
@[simp] theorem State.setCore_queues (s : State) (c : Nat) (x : Core) : (s.setCore c x).queues = s.queues := rfl
@[simp] theorem State.setCore_tableBase (s : State) (c : Nat) (x : Core) : (s.setCore c x).tableBase = s.tableBase := rfl
@[simp] theorem State.setCore_wakes (s : State) (c : Nat) (x : Core) : (s.setCore c x).wakes = s.wakes := rfl
@[simp] theorem State.setCore_launches (s : State) (c : Nat) (x : Core) : (s.setCore c x).launches = s.launches := rfl
@[simp] theorem State.setCore_partitions (s : State) (c : Nat) (x : Core) : (s.setCore c x).partitions = s.partitions := rfl
@[simp] theorem State.setCore_contexts (s : State) (c : Nat) (x : Core) : (s.setCore c x).contexts = s.contexts := rfl
@[simp] theorem State.setCore_functions (s : State) (c : Nat) (x : Core) : (s.setCore c x).functions = s.functions := rfl
@[simp] theorem State.setCore_nextFn (s : State) (c : Nat) (x : Core) : (s.setCore c x).nextFn = s.nextFn := rfl
@[simp] theorem State.setCore_power (s : State) (c : Nat) (x : Core) : (s.setCore c x).power = s.power := rfl
@[simp] theorem State.setCore_logs (s : State) (c : Nat) (x : Core) : (s.setCore c x).logs = s.logs := rfl
@[simp] theorem State.setCore_firmware (s : State) (c : Nat) (x : Core) : (s.setCore c x).firmware = s.firmware := rfl
@[simp] theorem State.setCore_scanQueue (s : State) (c : Nat) (x : Core) : (s.setCore c x).scanQueue = s.scanQueue := rfl
@[simp] theorem State.setCore_scanNext (s : State) (c : Nat) (x : Core) : (s.setCore c x).scanNext = s.scanNext := rfl
@[simp] theorem State.setCore_scanCore (s : State) (c : Nat) (x : Core) : (s.setCore c x).scanCore = s.scanCore := rfl
@[simp] theorem State.setCore_rotgap (s : State) (c : Nat) (x : Core) : (s.setCore c x).rotgap = s.rotgap := rfl
@[simp] theorem State.setCore_corrected (s : State) (c : Nat) (x : Core) : (s.setCore c x).corrected = s.corrected := rfl
@[simp] theorem State.setCore_retries (s : State) (c : Nat) (x : Core) : (s.setCore c x).retries = s.retries := rfl
@[simp] theorem State.setCore_retrains (s : State) (c : Nat) (x : Core) : (s.setCore c x).retrains = s.retrains := rfl
@[simp] theorem State.setCore_fabricUp (s : State) (c : Nat) (x : Core) : (s.setCore c x).fabricUp = s.fabricUp := rfl
@[simp] theorem State.setCore_status (s : State) (c : Nat) (x : Core) : (s.setCore c x).status = s.status := rfl

@[simp] theorem State.setMwe_time (s : State) (q : Nat) (x : Mwe) : (s.setMwe q x).time = s.time := rfl
@[simp] theorem State.setMwe_inputs (s : State) (q : Nat) (x : Mwe) : (s.setMwe q x).inputs = s.inputs := rfl
@[simp] theorem State.setMwe_agenda (s : State) (q : Nat) (x : Mwe) : (s.setMwe q x).agenda = s.agenda := rfl
@[simp] theorem State.setMwe_issueQ (s : State) (q : Nat) (x : Mwe) : (s.setMwe q x).issueQ = s.issueQ := rfl
@[simp] theorem State.setMwe_cur (s : State) (q : Nat) (x : Mwe) : (s.setMwe q x).cur = s.cur := rfl
@[simp] theorem State.setMwe_shadow (s : State) (q : Nat) (x : Mwe) : (s.setMwe q x).shadow = s.shadow := rfl
@[simp] theorem State.setMwe_passLanes (s : State) (q : Nat) (x : Mwe) : (s.setMwe q x).passLanes = s.passLanes := rfl
@[simp] theorem State.setMwe_choices (s : State) (q : Nat) (x : Mwe) : (s.setMwe q x).choices = s.choices := rfl
@[simp] theorem State.setMwe_freeCtr (s : State) (q : Nat) (x : Mwe) : (s.setMwe q x).freeCtr = s.freeCtr := rfl
@[simp] theorem State.setMwe_uidCtr (s : State) (q : Nat) (x : Mwe) : (s.setMwe q x).uidCtr = s.uidCtr := rfl
@[simp] theorem State.setMwe_out (s : State) (q : Nat) (x : Mwe) : (s.setMwe q x).out = s.out := rfl
@[simp] theorem State.setMwe_stopped (s : State) (q : Nat) (x : Mwe) : (s.setMwe q x).stopped = s.stopped := rfl
@[simp] theorem State.setMwe_mem (s : State) (q : Nat) (x : Mwe) : (s.setMwe q x).mem = s.mem := rfl
@[simp] theorem State.setMwe_poison (s : State) (q : Nat) (x : Mwe) : (s.setMwe q x).poison = s.poison := rfl
@[simp] theorem State.setMwe_scratch (s : State) (q : Nat) (x : Mwe) : (s.setMwe q x).scratch = s.scratch := rfl
@[simp] theorem State.setMwe_scratchPoison (s : State) (q : Nat) (x : Mwe) : (s.setMwe q x).scratchPoison = s.scratchPoison := rfl
@[simp] theorem State.setMwe_tlb (s : State) (q : Nat) (x : Mwe) : (s.setMwe q x).tlb = s.tlb := rfl
@[simp] theorem State.setMwe_armed (s : State) (q : Nat) (x : Mwe) : (s.setMwe q x).armed = s.armed := rfl
@[simp] theorem State.setMwe_llc (s : State) (q : Nat) (x : Mwe) : (s.setMwe q x).llc = s.llc := rfl
@[simp] theorem State.setMwe_snoop (s : State) (q : Nat) (x : Mwe) : (s.setMwe q x).snoop = s.snoop := rfl
@[simp] theorem State.setMwe_locks (s : State) (q : Nat) (x : Mwe) : (s.setMwe q x).locks = s.locks := rfl
@[simp] theorem State.setMwe_grids (s : State) (q : Nat) (x : Mwe) : (s.setMwe q x).grids = s.grids := rfl
@[simp] theorem State.setMwe_teams (s : State) (q : Nat) (x : Mwe) : (s.setMwe q x).teams = s.teams := rfl
@[simp] theorem State.setMwe_cores (s : State) (q : Nat) (x : Mwe) : (s.setMwe q x).cores = s.cores := rfl
@[simp] theorem State.setMwe_mwes (s : State) (q : Nat) (x : Mwe) : (s.setMwe q x).mwes = NMap.set {} s.mwes q x := rfl
@[simp] theorem State.setMwe_queues (s : State) (q : Nat) (x : Mwe) : (s.setMwe q x).queues = s.queues := rfl
@[simp] theorem State.setMwe_tableBase (s : State) (q : Nat) (x : Mwe) : (s.setMwe q x).tableBase = s.tableBase := rfl
@[simp] theorem State.setMwe_wakes (s : State) (q : Nat) (x : Mwe) : (s.setMwe q x).wakes = s.wakes := rfl
@[simp] theorem State.setMwe_launches (s : State) (q : Nat) (x : Mwe) : (s.setMwe q x).launches = s.launches := rfl
@[simp] theorem State.setMwe_partitions (s : State) (q : Nat) (x : Mwe) : (s.setMwe q x).partitions = s.partitions := rfl
@[simp] theorem State.setMwe_contexts (s : State) (q : Nat) (x : Mwe) : (s.setMwe q x).contexts = s.contexts := rfl
@[simp] theorem State.setMwe_functions (s : State) (q : Nat) (x : Mwe) : (s.setMwe q x).functions = s.functions := rfl
@[simp] theorem State.setMwe_nextFn (s : State) (q : Nat) (x : Mwe) : (s.setMwe q x).nextFn = s.nextFn := rfl
@[simp] theorem State.setMwe_power (s : State) (q : Nat) (x : Mwe) : (s.setMwe q x).power = s.power := rfl
@[simp] theorem State.setMwe_logs (s : State) (q : Nat) (x : Mwe) : (s.setMwe q x).logs = s.logs := rfl
@[simp] theorem State.setMwe_firmware (s : State) (q : Nat) (x : Mwe) : (s.setMwe q x).firmware = s.firmware := rfl
@[simp] theorem State.setMwe_scanQueue (s : State) (q : Nat) (x : Mwe) : (s.setMwe q x).scanQueue = s.scanQueue := rfl
@[simp] theorem State.setMwe_scanNext (s : State) (q : Nat) (x : Mwe) : (s.setMwe q x).scanNext = s.scanNext := rfl
@[simp] theorem State.setMwe_scanCore (s : State) (q : Nat) (x : Mwe) : (s.setMwe q x).scanCore = s.scanCore := rfl
@[simp] theorem State.setMwe_rotgap (s : State) (q : Nat) (x : Mwe) : (s.setMwe q x).rotgap = s.rotgap := rfl
@[simp] theorem State.setMwe_corrected (s : State) (q : Nat) (x : Mwe) : (s.setMwe q x).corrected = s.corrected := rfl
@[simp] theorem State.setMwe_retries (s : State) (q : Nat) (x : Mwe) : (s.setMwe q x).retries = s.retries := rfl
@[simp] theorem State.setMwe_retrains (s : State) (q : Nat) (x : Mwe) : (s.setMwe q x).retrains = s.retrains := rfl
@[simp] theorem State.setMwe_fabricUp (s : State) (q : Nat) (x : Mwe) : (s.setMwe q x).fabricUp = s.fabricUp := rfl
@[simp] theorem State.setMwe_status (s : State) (q : Nat) (x : Mwe) : (s.setMwe q x).status = s.status := rfl

@[simp] theorem State.setQueue_time (s : State) (q : Nat) (x : Queue) : (s.setQueue q x).time = s.time := rfl
@[simp] theorem State.setQueue_inputs (s : State) (q : Nat) (x : Queue) : (s.setQueue q x).inputs = s.inputs := rfl
@[simp] theorem State.setQueue_agenda (s : State) (q : Nat) (x : Queue) : (s.setQueue q x).agenda = s.agenda := rfl
@[simp] theorem State.setQueue_issueQ (s : State) (q : Nat) (x : Queue) : (s.setQueue q x).issueQ = s.issueQ := rfl
@[simp] theorem State.setQueue_cur (s : State) (q : Nat) (x : Queue) : (s.setQueue q x).cur = s.cur := rfl
@[simp] theorem State.setQueue_shadow (s : State) (q : Nat) (x : Queue) : (s.setQueue q x).shadow = s.shadow := rfl
@[simp] theorem State.setQueue_passLanes (s : State) (q : Nat) (x : Queue) : (s.setQueue q x).passLanes = s.passLanes := rfl
@[simp] theorem State.setQueue_choices (s : State) (q : Nat) (x : Queue) : (s.setQueue q x).choices = s.choices := rfl
@[simp] theorem State.setQueue_freeCtr (s : State) (q : Nat) (x : Queue) : (s.setQueue q x).freeCtr = s.freeCtr := rfl
@[simp] theorem State.setQueue_uidCtr (s : State) (q : Nat) (x : Queue) : (s.setQueue q x).uidCtr = s.uidCtr := rfl
@[simp] theorem State.setQueue_out (s : State) (q : Nat) (x : Queue) : (s.setQueue q x).out = s.out := rfl
@[simp] theorem State.setQueue_stopped (s : State) (q : Nat) (x : Queue) : (s.setQueue q x).stopped = s.stopped := rfl
@[simp] theorem State.setQueue_mem (s : State) (q : Nat) (x : Queue) : (s.setQueue q x).mem = s.mem := rfl
@[simp] theorem State.setQueue_poison (s : State) (q : Nat) (x : Queue) : (s.setQueue q x).poison = s.poison := rfl
@[simp] theorem State.setQueue_scratch (s : State) (q : Nat) (x : Queue) : (s.setQueue q x).scratch = s.scratch := rfl
@[simp] theorem State.setQueue_scratchPoison (s : State) (q : Nat) (x : Queue) : (s.setQueue q x).scratchPoison = s.scratchPoison := rfl
@[simp] theorem State.setQueue_tlb (s : State) (q : Nat) (x : Queue) : (s.setQueue q x).tlb = s.tlb := rfl
@[simp] theorem State.setQueue_armed (s : State) (q : Nat) (x : Queue) : (s.setQueue q x).armed = s.armed := rfl
@[simp] theorem State.setQueue_llc (s : State) (q : Nat) (x : Queue) : (s.setQueue q x).llc = s.llc := rfl
@[simp] theorem State.setQueue_snoop (s : State) (q : Nat) (x : Queue) : (s.setQueue q x).snoop = s.snoop := rfl
@[simp] theorem State.setQueue_locks (s : State) (q : Nat) (x : Queue) : (s.setQueue q x).locks = s.locks := rfl
@[simp] theorem State.setQueue_grids (s : State) (q : Nat) (x : Queue) : (s.setQueue q x).grids = s.grids := rfl
@[simp] theorem State.setQueue_teams (s : State) (q : Nat) (x : Queue) : (s.setQueue q x).teams = s.teams := rfl
@[simp] theorem State.setQueue_cores (s : State) (q : Nat) (x : Queue) : (s.setQueue q x).cores = s.cores := rfl
@[simp] theorem State.setQueue_mwes (s : State) (q : Nat) (x : Queue) : (s.setQueue q x).mwes = s.mwes := rfl
@[simp] theorem State.setQueue_queues (s : State) (q : Nat) (x : Queue) : (s.setQueue q x).queues = NMap.set {} s.queues q x := rfl
@[simp] theorem State.setQueue_tableBase (s : State) (q : Nat) (x : Queue) : (s.setQueue q x).tableBase = s.tableBase := rfl
@[simp] theorem State.setQueue_wakes (s : State) (q : Nat) (x : Queue) : (s.setQueue q x).wakes = s.wakes := rfl
@[simp] theorem State.setQueue_launches (s : State) (q : Nat) (x : Queue) : (s.setQueue q x).launches = s.launches := rfl
@[simp] theorem State.setQueue_partitions (s : State) (q : Nat) (x : Queue) : (s.setQueue q x).partitions = s.partitions := rfl
@[simp] theorem State.setQueue_contexts (s : State) (q : Nat) (x : Queue) : (s.setQueue q x).contexts = s.contexts := rfl
@[simp] theorem State.setQueue_functions (s : State) (q : Nat) (x : Queue) : (s.setQueue q x).functions = s.functions := rfl
@[simp] theorem State.setQueue_nextFn (s : State) (q : Nat) (x : Queue) : (s.setQueue q x).nextFn = s.nextFn := rfl
@[simp] theorem State.setQueue_power (s : State) (q : Nat) (x : Queue) : (s.setQueue q x).power = s.power := rfl
@[simp] theorem State.setQueue_logs (s : State) (q : Nat) (x : Queue) : (s.setQueue q x).logs = s.logs := rfl
@[simp] theorem State.setQueue_firmware (s : State) (q : Nat) (x : Queue) : (s.setQueue q x).firmware = s.firmware := rfl
@[simp] theorem State.setQueue_scanQueue (s : State) (q : Nat) (x : Queue) : (s.setQueue q x).scanQueue = s.scanQueue := rfl
@[simp] theorem State.setQueue_scanNext (s : State) (q : Nat) (x : Queue) : (s.setQueue q x).scanNext = s.scanNext := rfl
@[simp] theorem State.setQueue_scanCore (s : State) (q : Nat) (x : Queue) : (s.setQueue q x).scanCore = s.scanCore := rfl
@[simp] theorem State.setQueue_rotgap (s : State) (q : Nat) (x : Queue) : (s.setQueue q x).rotgap = s.rotgap := rfl
@[simp] theorem State.setQueue_corrected (s : State) (q : Nat) (x : Queue) : (s.setQueue q x).corrected = s.corrected := rfl
@[simp] theorem State.setQueue_retries (s : State) (q : Nat) (x : Queue) : (s.setQueue q x).retries = s.retries := rfl
@[simp] theorem State.setQueue_retrains (s : State) (q : Nat) (x : Queue) : (s.setQueue q x).retrains = s.retrains := rfl
@[simp] theorem State.setQueue_fabricUp (s : State) (q : Nat) (x : Queue) : (s.setQueue q x).fabricUp = s.fabricUp := rfl
@[simp] theorem State.setQueue_status (s : State) (q : Nat) (x : Queue) : (s.setQueue q x).status = s.status := rfl

@[simp] theorem State.setPart_time (s : State) (p : Nat) (x : Partition) : (s.setPart p x).time = s.time := rfl
@[simp] theorem State.setPart_inputs (s : State) (p : Nat) (x : Partition) : (s.setPart p x).inputs = s.inputs := rfl
@[simp] theorem State.setPart_agenda (s : State) (p : Nat) (x : Partition) : (s.setPart p x).agenda = s.agenda := rfl
@[simp] theorem State.setPart_issueQ (s : State) (p : Nat) (x : Partition) : (s.setPart p x).issueQ = s.issueQ := rfl
@[simp] theorem State.setPart_cur (s : State) (p : Nat) (x : Partition) : (s.setPart p x).cur = s.cur := rfl
@[simp] theorem State.setPart_shadow (s : State) (p : Nat) (x : Partition) : (s.setPart p x).shadow = s.shadow := rfl
@[simp] theorem State.setPart_passLanes (s : State) (p : Nat) (x : Partition) : (s.setPart p x).passLanes = s.passLanes := rfl
@[simp] theorem State.setPart_choices (s : State) (p : Nat) (x : Partition) : (s.setPart p x).choices = s.choices := rfl
@[simp] theorem State.setPart_freeCtr (s : State) (p : Nat) (x : Partition) : (s.setPart p x).freeCtr = s.freeCtr := rfl
@[simp] theorem State.setPart_uidCtr (s : State) (p : Nat) (x : Partition) : (s.setPart p x).uidCtr = s.uidCtr := rfl
@[simp] theorem State.setPart_out (s : State) (p : Nat) (x : Partition) : (s.setPart p x).out = s.out := rfl
@[simp] theorem State.setPart_stopped (s : State) (p : Nat) (x : Partition) : (s.setPart p x).stopped = s.stopped := rfl
@[simp] theorem State.setPart_mem (s : State) (p : Nat) (x : Partition) : (s.setPart p x).mem = s.mem := rfl
@[simp] theorem State.setPart_poison (s : State) (p : Nat) (x : Partition) : (s.setPart p x).poison = s.poison := rfl
@[simp] theorem State.setPart_scratch (s : State) (p : Nat) (x : Partition) : (s.setPart p x).scratch = s.scratch := rfl
@[simp] theorem State.setPart_scratchPoison (s : State) (p : Nat) (x : Partition) : (s.setPart p x).scratchPoison = s.scratchPoison := rfl
@[simp] theorem State.setPart_tlb (s : State) (p : Nat) (x : Partition) : (s.setPart p x).tlb = s.tlb := rfl
@[simp] theorem State.setPart_armed (s : State) (p : Nat) (x : Partition) : (s.setPart p x).armed = s.armed := rfl
@[simp] theorem State.setPart_llc (s : State) (p : Nat) (x : Partition) : (s.setPart p x).llc = s.llc := rfl
@[simp] theorem State.setPart_snoop (s : State) (p : Nat) (x : Partition) : (s.setPart p x).snoop = s.snoop := rfl
@[simp] theorem State.setPart_locks (s : State) (p : Nat) (x : Partition) : (s.setPart p x).locks = s.locks := rfl
@[simp] theorem State.setPart_grids (s : State) (p : Nat) (x : Partition) : (s.setPart p x).grids = s.grids := rfl
@[simp] theorem State.setPart_teams (s : State) (p : Nat) (x : Partition) : (s.setPart p x).teams = s.teams := rfl
@[simp] theorem State.setPart_cores (s : State) (p : Nat) (x : Partition) : (s.setPart p x).cores = s.cores := rfl
@[simp] theorem State.setPart_mwes (s : State) (p : Nat) (x : Partition) : (s.setPart p x).mwes = s.mwes := rfl
@[simp] theorem State.setPart_queues (s : State) (p : Nat) (x : Partition) : (s.setPart p x).queues = s.queues := rfl
@[simp] theorem State.setPart_tableBase (s : State) (p : Nat) (x : Partition) : (s.setPart p x).tableBase = s.tableBase := rfl
@[simp] theorem State.setPart_wakes (s : State) (p : Nat) (x : Partition) : (s.setPart p x).wakes = s.wakes := rfl
@[simp] theorem State.setPart_launches (s : State) (p : Nat) (x : Partition) : (s.setPart p x).launches = s.launches := rfl
@[simp] theorem State.setPart_partitions (s : State) (p : Nat) (x : Partition) : (s.setPart p x).partitions = NMap.set {} s.partitions p x := rfl
@[simp] theorem State.setPart_contexts (s : State) (p : Nat) (x : Partition) : (s.setPart p x).contexts = s.contexts := rfl
@[simp] theorem State.setPart_functions (s : State) (p : Nat) (x : Partition) : (s.setPart p x).functions = s.functions := rfl
@[simp] theorem State.setPart_nextFn (s : State) (p : Nat) (x : Partition) : (s.setPart p x).nextFn = s.nextFn := rfl
@[simp] theorem State.setPart_power (s : State) (p : Nat) (x : Partition) : (s.setPart p x).power = s.power := rfl
@[simp] theorem State.setPart_logs (s : State) (p : Nat) (x : Partition) : (s.setPart p x).logs = s.logs := rfl
@[simp] theorem State.setPart_firmware (s : State) (p : Nat) (x : Partition) : (s.setPart p x).firmware = s.firmware := rfl
@[simp] theorem State.setPart_scanQueue (s : State) (p : Nat) (x : Partition) : (s.setPart p x).scanQueue = s.scanQueue := rfl
@[simp] theorem State.setPart_scanNext (s : State) (p : Nat) (x : Partition) : (s.setPart p x).scanNext = s.scanNext := rfl
@[simp] theorem State.setPart_scanCore (s : State) (p : Nat) (x : Partition) : (s.setPart p x).scanCore = s.scanCore := rfl
@[simp] theorem State.setPart_rotgap (s : State) (p : Nat) (x : Partition) : (s.setPart p x).rotgap = s.rotgap := rfl
@[simp] theorem State.setPart_corrected (s : State) (p : Nat) (x : Partition) : (s.setPart p x).corrected = s.corrected := rfl
@[simp] theorem State.setPart_retries (s : State) (p : Nat) (x : Partition) : (s.setPart p x).retries = s.retries := rfl
@[simp] theorem State.setPart_retrains (s : State) (p : Nat) (x : Partition) : (s.setPart p x).retrains = s.retrains := rfl
@[simp] theorem State.setPart_fabricUp (s : State) (p : Nat) (x : Partition) : (s.setPart p x).fabricUp = s.fabricUp := rfl
@[simp] theorem State.setPart_status (s : State) (p : Nat) (x : Partition) : (s.setPart p x).status = s.status := rfl

@[simp] theorem State.setFn_time (s : State) (f : Nat) (x : Function) : (s.setFn f x).time = s.time := rfl
@[simp] theorem State.setFn_inputs (s : State) (f : Nat) (x : Function) : (s.setFn f x).inputs = s.inputs := rfl
@[simp] theorem State.setFn_agenda (s : State) (f : Nat) (x : Function) : (s.setFn f x).agenda = s.agenda := rfl
@[simp] theorem State.setFn_issueQ (s : State) (f : Nat) (x : Function) : (s.setFn f x).issueQ = s.issueQ := rfl
@[simp] theorem State.setFn_cur (s : State) (f : Nat) (x : Function) : (s.setFn f x).cur = s.cur := rfl
@[simp] theorem State.setFn_shadow (s : State) (f : Nat) (x : Function) : (s.setFn f x).shadow = s.shadow := rfl
@[simp] theorem State.setFn_passLanes (s : State) (f : Nat) (x : Function) : (s.setFn f x).passLanes = s.passLanes := rfl
@[simp] theorem State.setFn_choices (s : State) (f : Nat) (x : Function) : (s.setFn f x).choices = s.choices := rfl
@[simp] theorem State.setFn_freeCtr (s : State) (f : Nat) (x : Function) : (s.setFn f x).freeCtr = s.freeCtr := rfl
@[simp] theorem State.setFn_uidCtr (s : State) (f : Nat) (x : Function) : (s.setFn f x).uidCtr = s.uidCtr := rfl
@[simp] theorem State.setFn_out (s : State) (f : Nat) (x : Function) : (s.setFn f x).out = s.out := rfl
@[simp] theorem State.setFn_stopped (s : State) (f : Nat) (x : Function) : (s.setFn f x).stopped = s.stopped := rfl
@[simp] theorem State.setFn_mem (s : State) (f : Nat) (x : Function) : (s.setFn f x).mem = s.mem := rfl
@[simp] theorem State.setFn_poison (s : State) (f : Nat) (x : Function) : (s.setFn f x).poison = s.poison := rfl
@[simp] theorem State.setFn_scratch (s : State) (f : Nat) (x : Function) : (s.setFn f x).scratch = s.scratch := rfl
@[simp] theorem State.setFn_scratchPoison (s : State) (f : Nat) (x : Function) : (s.setFn f x).scratchPoison = s.scratchPoison := rfl
@[simp] theorem State.setFn_tlb (s : State) (f : Nat) (x : Function) : (s.setFn f x).tlb = s.tlb := rfl
@[simp] theorem State.setFn_armed (s : State) (f : Nat) (x : Function) : (s.setFn f x).armed = s.armed := rfl
@[simp] theorem State.setFn_llc (s : State) (f : Nat) (x : Function) : (s.setFn f x).llc = s.llc := rfl
@[simp] theorem State.setFn_snoop (s : State) (f : Nat) (x : Function) : (s.setFn f x).snoop = s.snoop := rfl
@[simp] theorem State.setFn_locks (s : State) (f : Nat) (x : Function) : (s.setFn f x).locks = s.locks := rfl
@[simp] theorem State.setFn_grids (s : State) (f : Nat) (x : Function) : (s.setFn f x).grids = s.grids := rfl
@[simp] theorem State.setFn_teams (s : State) (f : Nat) (x : Function) : (s.setFn f x).teams = s.teams := rfl
@[simp] theorem State.setFn_cores (s : State) (f : Nat) (x : Function) : (s.setFn f x).cores = s.cores := rfl
@[simp] theorem State.setFn_mwes (s : State) (f : Nat) (x : Function) : (s.setFn f x).mwes = s.mwes := rfl
@[simp] theorem State.setFn_queues (s : State) (f : Nat) (x : Function) : (s.setFn f x).queues = s.queues := rfl
@[simp] theorem State.setFn_tableBase (s : State) (f : Nat) (x : Function) : (s.setFn f x).tableBase = s.tableBase := rfl
@[simp] theorem State.setFn_wakes (s : State) (f : Nat) (x : Function) : (s.setFn f x).wakes = s.wakes := rfl
@[simp] theorem State.setFn_launches (s : State) (f : Nat) (x : Function) : (s.setFn f x).launches = s.launches := rfl
@[simp] theorem State.setFn_partitions (s : State) (f : Nat) (x : Function) : (s.setFn f x).partitions = s.partitions := rfl
@[simp] theorem State.setFn_contexts (s : State) (f : Nat) (x : Function) : (s.setFn f x).contexts = s.contexts := rfl
@[simp] theorem State.setFn_functions (s : State) (f : Nat) (x : Function) : (s.setFn f x).functions = NMap.set {} s.functions f x := rfl
@[simp] theorem State.setFn_nextFn (s : State) (f : Nat) (x : Function) : (s.setFn f x).nextFn = s.nextFn := rfl
@[simp] theorem State.setFn_power (s : State) (f : Nat) (x : Function) : (s.setFn f x).power = s.power := rfl
@[simp] theorem State.setFn_logs (s : State) (f : Nat) (x : Function) : (s.setFn f x).logs = s.logs := rfl
@[simp] theorem State.setFn_firmware (s : State) (f : Nat) (x : Function) : (s.setFn f x).firmware = s.firmware := rfl
@[simp] theorem State.setFn_scanQueue (s : State) (f : Nat) (x : Function) : (s.setFn f x).scanQueue = s.scanQueue := rfl
@[simp] theorem State.setFn_scanNext (s : State) (f : Nat) (x : Function) : (s.setFn f x).scanNext = s.scanNext := rfl
@[simp] theorem State.setFn_scanCore (s : State) (f : Nat) (x : Function) : (s.setFn f x).scanCore = s.scanCore := rfl
@[simp] theorem State.setFn_rotgap (s : State) (f : Nat) (x : Function) : (s.setFn f x).rotgap = s.rotgap := rfl
@[simp] theorem State.setFn_corrected (s : State) (f : Nat) (x : Function) : (s.setFn f x).corrected = s.corrected := rfl
@[simp] theorem State.setFn_retries (s : State) (f : Nat) (x : Function) : (s.setFn f x).retries = s.retries := rfl
@[simp] theorem State.setFn_retrains (s : State) (f : Nat) (x : Function) : (s.setFn f x).retrains = s.retrains := rfl
@[simp] theorem State.setFn_fabricUp (s : State) (f : Nat) (x : Function) : (s.setFn f x).fabricUp = s.fabricUp := rfl
@[simp] theorem State.setFn_status (s : State) (f : Nat) (x : Function) : (s.setFn f x).status = s.status := rfl

@[simp] theorem State.onCore_time (s : State) (c : Nat) (f : Core → Core) : (s.onCore c f).time = s.time := rfl
@[simp] theorem State.onCore_inputs (s : State) (c : Nat) (f : Core → Core) : (s.onCore c f).inputs = s.inputs := rfl
@[simp] theorem State.onCore_agenda (s : State) (c : Nat) (f : Core → Core) : (s.onCore c f).agenda = s.agenda := rfl
@[simp] theorem State.onCore_issueQ (s : State) (c : Nat) (f : Core → Core) : (s.onCore c f).issueQ = s.issueQ := rfl
@[simp] theorem State.onCore_cur (s : State) (c : Nat) (f : Core → Core) : (s.onCore c f).cur = s.cur := rfl
@[simp] theorem State.onCore_shadow (s : State) (c : Nat) (f : Core → Core) : (s.onCore c f).shadow = s.shadow := rfl
@[simp] theorem State.onCore_passLanes (s : State) (c : Nat) (f : Core → Core) : (s.onCore c f).passLanes = s.passLanes := rfl
@[simp] theorem State.onCore_choices (s : State) (c : Nat) (f : Core → Core) : (s.onCore c f).choices = s.choices := rfl
@[simp] theorem State.onCore_freeCtr (s : State) (c : Nat) (f : Core → Core) : (s.onCore c f).freeCtr = s.freeCtr := rfl
@[simp] theorem State.onCore_uidCtr (s : State) (c : Nat) (f : Core → Core) : (s.onCore c f).uidCtr = s.uidCtr := rfl
@[simp] theorem State.onCore_out (s : State) (c : Nat) (f : Core → Core) : (s.onCore c f).out = s.out := rfl
@[simp] theorem State.onCore_stopped (s : State) (c : Nat) (f : Core → Core) : (s.onCore c f).stopped = s.stopped := rfl
@[simp] theorem State.onCore_mem (s : State) (c : Nat) (f : Core → Core) : (s.onCore c f).mem = s.mem := rfl
@[simp] theorem State.onCore_poison (s : State) (c : Nat) (f : Core → Core) : (s.onCore c f).poison = s.poison := rfl
@[simp] theorem State.onCore_scratch (s : State) (c : Nat) (f : Core → Core) : (s.onCore c f).scratch = s.scratch := rfl
@[simp] theorem State.onCore_scratchPoison (s : State) (c : Nat) (f : Core → Core) : (s.onCore c f).scratchPoison = s.scratchPoison := rfl
@[simp] theorem State.onCore_tlb (s : State) (c : Nat) (f : Core → Core) : (s.onCore c f).tlb = s.tlb := rfl
@[simp] theorem State.onCore_armed (s : State) (c : Nat) (f : Core → Core) : (s.onCore c f).armed = s.armed := rfl
@[simp] theorem State.onCore_llc (s : State) (c : Nat) (f : Core → Core) : (s.onCore c f).llc = s.llc := rfl
@[simp] theorem State.onCore_snoop (s : State) (c : Nat) (f : Core → Core) : (s.onCore c f).snoop = s.snoop := rfl
@[simp] theorem State.onCore_locks (s : State) (c : Nat) (f : Core → Core) : (s.onCore c f).locks = s.locks := rfl
@[simp] theorem State.onCore_grids (s : State) (c : Nat) (f : Core → Core) : (s.onCore c f).grids = s.grids := rfl
@[simp] theorem State.onCore_teams (s : State) (c : Nat) (f : Core → Core) : (s.onCore c f).teams = s.teams := rfl
@[simp] theorem State.onCore_cores (s : State) (c : Nat) (f : Core → Core) : (s.onCore c f).cores = NMap.set {} s.cores c (f (s.core c)) := rfl
@[simp] theorem State.onCore_mwes (s : State) (c : Nat) (f : Core → Core) : (s.onCore c f).mwes = s.mwes := rfl
@[simp] theorem State.onCore_queues (s : State) (c : Nat) (f : Core → Core) : (s.onCore c f).queues = s.queues := rfl
@[simp] theorem State.onCore_tableBase (s : State) (c : Nat) (f : Core → Core) : (s.onCore c f).tableBase = s.tableBase := rfl
@[simp] theorem State.onCore_wakes (s : State) (c : Nat) (f : Core → Core) : (s.onCore c f).wakes = s.wakes := rfl
@[simp] theorem State.onCore_launches (s : State) (c : Nat) (f : Core → Core) : (s.onCore c f).launches = s.launches := rfl
@[simp] theorem State.onCore_partitions (s : State) (c : Nat) (f : Core → Core) : (s.onCore c f).partitions = s.partitions := rfl
@[simp] theorem State.onCore_contexts (s : State) (c : Nat) (f : Core → Core) : (s.onCore c f).contexts = s.contexts := rfl
@[simp] theorem State.onCore_functions (s : State) (c : Nat) (f : Core → Core) : (s.onCore c f).functions = s.functions := rfl
@[simp] theorem State.onCore_nextFn (s : State) (c : Nat) (f : Core → Core) : (s.onCore c f).nextFn = s.nextFn := rfl
@[simp] theorem State.onCore_power (s : State) (c : Nat) (f : Core → Core) : (s.onCore c f).power = s.power := rfl
@[simp] theorem State.onCore_logs (s : State) (c : Nat) (f : Core → Core) : (s.onCore c f).logs = s.logs := rfl
@[simp] theorem State.onCore_firmware (s : State) (c : Nat) (f : Core → Core) : (s.onCore c f).firmware = s.firmware := rfl
@[simp] theorem State.onCore_scanQueue (s : State) (c : Nat) (f : Core → Core) : (s.onCore c f).scanQueue = s.scanQueue := rfl
@[simp] theorem State.onCore_scanNext (s : State) (c : Nat) (f : Core → Core) : (s.onCore c f).scanNext = s.scanNext := rfl
@[simp] theorem State.onCore_scanCore (s : State) (c : Nat) (f : Core → Core) : (s.onCore c f).scanCore = s.scanCore := rfl
@[simp] theorem State.onCore_rotgap (s : State) (c : Nat) (f : Core → Core) : (s.onCore c f).rotgap = s.rotgap := rfl
@[simp] theorem State.onCore_corrected (s : State) (c : Nat) (f : Core → Core) : (s.onCore c f).corrected = s.corrected := rfl
@[simp] theorem State.onCore_retries (s : State) (c : Nat) (f : Core → Core) : (s.onCore c f).retries = s.retries := rfl
@[simp] theorem State.onCore_retrains (s : State) (c : Nat) (f : Core → Core) : (s.onCore c f).retrains = s.retrains := rfl
@[simp] theorem State.onCore_fabricUp (s : State) (c : Nat) (f : Core → Core) : (s.onCore c f).fabricUp = s.fabricUp := rfl
@[simp] theorem State.onCore_status (s : State) (c : Nat) (f : Core → Core) : (s.onCore c f).status = s.status := rfl

@[simp] theorem State.onMwe_time (s : State) (q : Nat) (f : Mwe → Mwe) : (s.onMwe q f).time = s.time := rfl
@[simp] theorem State.onMwe_inputs (s : State) (q : Nat) (f : Mwe → Mwe) : (s.onMwe q f).inputs = s.inputs := rfl
@[simp] theorem State.onMwe_agenda (s : State) (q : Nat) (f : Mwe → Mwe) : (s.onMwe q f).agenda = s.agenda := rfl
@[simp] theorem State.onMwe_issueQ (s : State) (q : Nat) (f : Mwe → Mwe) : (s.onMwe q f).issueQ = s.issueQ := rfl
@[simp] theorem State.onMwe_cur (s : State) (q : Nat) (f : Mwe → Mwe) : (s.onMwe q f).cur = s.cur := rfl
@[simp] theorem State.onMwe_shadow (s : State) (q : Nat) (f : Mwe → Mwe) : (s.onMwe q f).shadow = s.shadow := rfl
@[simp] theorem State.onMwe_passLanes (s : State) (q : Nat) (f : Mwe → Mwe) : (s.onMwe q f).passLanes = s.passLanes := rfl
@[simp] theorem State.onMwe_choices (s : State) (q : Nat) (f : Mwe → Mwe) : (s.onMwe q f).choices = s.choices := rfl
@[simp] theorem State.onMwe_freeCtr (s : State) (q : Nat) (f : Mwe → Mwe) : (s.onMwe q f).freeCtr = s.freeCtr := rfl
@[simp] theorem State.onMwe_uidCtr (s : State) (q : Nat) (f : Mwe → Mwe) : (s.onMwe q f).uidCtr = s.uidCtr := rfl
@[simp] theorem State.onMwe_out (s : State) (q : Nat) (f : Mwe → Mwe) : (s.onMwe q f).out = s.out := rfl
@[simp] theorem State.onMwe_stopped (s : State) (q : Nat) (f : Mwe → Mwe) : (s.onMwe q f).stopped = s.stopped := rfl
@[simp] theorem State.onMwe_mem (s : State) (q : Nat) (f : Mwe → Mwe) : (s.onMwe q f).mem = s.mem := rfl
@[simp] theorem State.onMwe_poison (s : State) (q : Nat) (f : Mwe → Mwe) : (s.onMwe q f).poison = s.poison := rfl
@[simp] theorem State.onMwe_scratch (s : State) (q : Nat) (f : Mwe → Mwe) : (s.onMwe q f).scratch = s.scratch := rfl
@[simp] theorem State.onMwe_scratchPoison (s : State) (q : Nat) (f : Mwe → Mwe) : (s.onMwe q f).scratchPoison = s.scratchPoison := rfl
@[simp] theorem State.onMwe_tlb (s : State) (q : Nat) (f : Mwe → Mwe) : (s.onMwe q f).tlb = s.tlb := rfl
@[simp] theorem State.onMwe_armed (s : State) (q : Nat) (f : Mwe → Mwe) : (s.onMwe q f).armed = s.armed := rfl
@[simp] theorem State.onMwe_llc (s : State) (q : Nat) (f : Mwe → Mwe) : (s.onMwe q f).llc = s.llc := rfl
@[simp] theorem State.onMwe_snoop (s : State) (q : Nat) (f : Mwe → Mwe) : (s.onMwe q f).snoop = s.snoop := rfl
@[simp] theorem State.onMwe_locks (s : State) (q : Nat) (f : Mwe → Mwe) : (s.onMwe q f).locks = s.locks := rfl
@[simp] theorem State.onMwe_grids (s : State) (q : Nat) (f : Mwe → Mwe) : (s.onMwe q f).grids = s.grids := rfl
@[simp] theorem State.onMwe_teams (s : State) (q : Nat) (f : Mwe → Mwe) : (s.onMwe q f).teams = s.teams := rfl
@[simp] theorem State.onMwe_cores (s : State) (q : Nat) (f : Mwe → Mwe) : (s.onMwe q f).cores = s.cores := rfl
@[simp] theorem State.onMwe_mwes (s : State) (q : Nat) (f : Mwe → Mwe) : (s.onMwe q f).mwes = NMap.set {} s.mwes q (f (s.mwe q)) := rfl
@[simp] theorem State.onMwe_queues (s : State) (q : Nat) (f : Mwe → Mwe) : (s.onMwe q f).queues = s.queues := rfl
@[simp] theorem State.onMwe_tableBase (s : State) (q : Nat) (f : Mwe → Mwe) : (s.onMwe q f).tableBase = s.tableBase := rfl
@[simp] theorem State.onMwe_wakes (s : State) (q : Nat) (f : Mwe → Mwe) : (s.onMwe q f).wakes = s.wakes := rfl
@[simp] theorem State.onMwe_launches (s : State) (q : Nat) (f : Mwe → Mwe) : (s.onMwe q f).launches = s.launches := rfl
@[simp] theorem State.onMwe_partitions (s : State) (q : Nat) (f : Mwe → Mwe) : (s.onMwe q f).partitions = s.partitions := rfl
@[simp] theorem State.onMwe_contexts (s : State) (q : Nat) (f : Mwe → Mwe) : (s.onMwe q f).contexts = s.contexts := rfl
@[simp] theorem State.onMwe_functions (s : State) (q : Nat) (f : Mwe → Mwe) : (s.onMwe q f).functions = s.functions := rfl
@[simp] theorem State.onMwe_nextFn (s : State) (q : Nat) (f : Mwe → Mwe) : (s.onMwe q f).nextFn = s.nextFn := rfl
@[simp] theorem State.onMwe_power (s : State) (q : Nat) (f : Mwe → Mwe) : (s.onMwe q f).power = s.power := rfl
@[simp] theorem State.onMwe_logs (s : State) (q : Nat) (f : Mwe → Mwe) : (s.onMwe q f).logs = s.logs := rfl
@[simp] theorem State.onMwe_firmware (s : State) (q : Nat) (f : Mwe → Mwe) : (s.onMwe q f).firmware = s.firmware := rfl
@[simp] theorem State.onMwe_scanQueue (s : State) (q : Nat) (f : Mwe → Mwe) : (s.onMwe q f).scanQueue = s.scanQueue := rfl
@[simp] theorem State.onMwe_scanNext (s : State) (q : Nat) (f : Mwe → Mwe) : (s.onMwe q f).scanNext = s.scanNext := rfl
@[simp] theorem State.onMwe_scanCore (s : State) (q : Nat) (f : Mwe → Mwe) : (s.onMwe q f).scanCore = s.scanCore := rfl
@[simp] theorem State.onMwe_rotgap (s : State) (q : Nat) (f : Mwe → Mwe) : (s.onMwe q f).rotgap = s.rotgap := rfl
@[simp] theorem State.onMwe_corrected (s : State) (q : Nat) (f : Mwe → Mwe) : (s.onMwe q f).corrected = s.corrected := rfl
@[simp] theorem State.onMwe_retries (s : State) (q : Nat) (f : Mwe → Mwe) : (s.onMwe q f).retries = s.retries := rfl
@[simp] theorem State.onMwe_retrains (s : State) (q : Nat) (f : Mwe → Mwe) : (s.onMwe q f).retrains = s.retrains := rfl
@[simp] theorem State.onMwe_fabricUp (s : State) (q : Nat) (f : Mwe → Mwe) : (s.onMwe q f).fabricUp = s.fabricUp := rfl
@[simp] theorem State.onMwe_status (s : State) (q : Nat) (f : Mwe → Mwe) : (s.onMwe q f).status = s.status := rfl

@[simp] theorem State.onQueue_time (s : State) (q : Nat) (f : Queue → Queue) : (s.onQueue q f).time = s.time := rfl
@[simp] theorem State.onQueue_inputs (s : State) (q : Nat) (f : Queue → Queue) : (s.onQueue q f).inputs = s.inputs := rfl
@[simp] theorem State.onQueue_agenda (s : State) (q : Nat) (f : Queue → Queue) : (s.onQueue q f).agenda = s.agenda := rfl
@[simp] theorem State.onQueue_issueQ (s : State) (q : Nat) (f : Queue → Queue) : (s.onQueue q f).issueQ = s.issueQ := rfl
@[simp] theorem State.onQueue_cur (s : State) (q : Nat) (f : Queue → Queue) : (s.onQueue q f).cur = s.cur := rfl
@[simp] theorem State.onQueue_shadow (s : State) (q : Nat) (f : Queue → Queue) : (s.onQueue q f).shadow = s.shadow := rfl
@[simp] theorem State.onQueue_passLanes (s : State) (q : Nat) (f : Queue → Queue) : (s.onQueue q f).passLanes = s.passLanes := rfl
@[simp] theorem State.onQueue_choices (s : State) (q : Nat) (f : Queue → Queue) : (s.onQueue q f).choices = s.choices := rfl
@[simp] theorem State.onQueue_freeCtr (s : State) (q : Nat) (f : Queue → Queue) : (s.onQueue q f).freeCtr = s.freeCtr := rfl
@[simp] theorem State.onQueue_uidCtr (s : State) (q : Nat) (f : Queue → Queue) : (s.onQueue q f).uidCtr = s.uidCtr := rfl
@[simp] theorem State.onQueue_out (s : State) (q : Nat) (f : Queue → Queue) : (s.onQueue q f).out = s.out := rfl
@[simp] theorem State.onQueue_stopped (s : State) (q : Nat) (f : Queue → Queue) : (s.onQueue q f).stopped = s.stopped := rfl
@[simp] theorem State.onQueue_mem (s : State) (q : Nat) (f : Queue → Queue) : (s.onQueue q f).mem = s.mem := rfl
@[simp] theorem State.onQueue_poison (s : State) (q : Nat) (f : Queue → Queue) : (s.onQueue q f).poison = s.poison := rfl
@[simp] theorem State.onQueue_scratch (s : State) (q : Nat) (f : Queue → Queue) : (s.onQueue q f).scratch = s.scratch := rfl
@[simp] theorem State.onQueue_scratchPoison (s : State) (q : Nat) (f : Queue → Queue) : (s.onQueue q f).scratchPoison = s.scratchPoison := rfl
@[simp] theorem State.onQueue_tlb (s : State) (q : Nat) (f : Queue → Queue) : (s.onQueue q f).tlb = s.tlb := rfl
@[simp] theorem State.onQueue_armed (s : State) (q : Nat) (f : Queue → Queue) : (s.onQueue q f).armed = s.armed := rfl
@[simp] theorem State.onQueue_llc (s : State) (q : Nat) (f : Queue → Queue) : (s.onQueue q f).llc = s.llc := rfl
@[simp] theorem State.onQueue_snoop (s : State) (q : Nat) (f : Queue → Queue) : (s.onQueue q f).snoop = s.snoop := rfl
@[simp] theorem State.onQueue_locks (s : State) (q : Nat) (f : Queue → Queue) : (s.onQueue q f).locks = s.locks := rfl
@[simp] theorem State.onQueue_grids (s : State) (q : Nat) (f : Queue → Queue) : (s.onQueue q f).grids = s.grids := rfl
@[simp] theorem State.onQueue_teams (s : State) (q : Nat) (f : Queue → Queue) : (s.onQueue q f).teams = s.teams := rfl
@[simp] theorem State.onQueue_cores (s : State) (q : Nat) (f : Queue → Queue) : (s.onQueue q f).cores = s.cores := rfl
@[simp] theorem State.onQueue_mwes (s : State) (q : Nat) (f : Queue → Queue) : (s.onQueue q f).mwes = s.mwes := rfl
@[simp] theorem State.onQueue_queues (s : State) (q : Nat) (f : Queue → Queue) : (s.onQueue q f).queues = NMap.set {} s.queues q (f (s.queue q)) := rfl
@[simp] theorem State.onQueue_tableBase (s : State) (q : Nat) (f : Queue → Queue) : (s.onQueue q f).tableBase = s.tableBase := rfl
@[simp] theorem State.onQueue_wakes (s : State) (q : Nat) (f : Queue → Queue) : (s.onQueue q f).wakes = s.wakes := rfl
@[simp] theorem State.onQueue_launches (s : State) (q : Nat) (f : Queue → Queue) : (s.onQueue q f).launches = s.launches := rfl
@[simp] theorem State.onQueue_partitions (s : State) (q : Nat) (f : Queue → Queue) : (s.onQueue q f).partitions = s.partitions := rfl
@[simp] theorem State.onQueue_contexts (s : State) (q : Nat) (f : Queue → Queue) : (s.onQueue q f).contexts = s.contexts := rfl
@[simp] theorem State.onQueue_functions (s : State) (q : Nat) (f : Queue → Queue) : (s.onQueue q f).functions = s.functions := rfl
@[simp] theorem State.onQueue_nextFn (s : State) (q : Nat) (f : Queue → Queue) : (s.onQueue q f).nextFn = s.nextFn := rfl
@[simp] theorem State.onQueue_power (s : State) (q : Nat) (f : Queue → Queue) : (s.onQueue q f).power = s.power := rfl
@[simp] theorem State.onQueue_logs (s : State) (q : Nat) (f : Queue → Queue) : (s.onQueue q f).logs = s.logs := rfl
@[simp] theorem State.onQueue_firmware (s : State) (q : Nat) (f : Queue → Queue) : (s.onQueue q f).firmware = s.firmware := rfl
@[simp] theorem State.onQueue_scanQueue (s : State) (q : Nat) (f : Queue → Queue) : (s.onQueue q f).scanQueue = s.scanQueue := rfl
@[simp] theorem State.onQueue_scanNext (s : State) (q : Nat) (f : Queue → Queue) : (s.onQueue q f).scanNext = s.scanNext := rfl
@[simp] theorem State.onQueue_scanCore (s : State) (q : Nat) (f : Queue → Queue) : (s.onQueue q f).scanCore = s.scanCore := rfl
@[simp] theorem State.onQueue_rotgap (s : State) (q : Nat) (f : Queue → Queue) : (s.onQueue q f).rotgap = s.rotgap := rfl
@[simp] theorem State.onQueue_corrected (s : State) (q : Nat) (f : Queue → Queue) : (s.onQueue q f).corrected = s.corrected := rfl
@[simp] theorem State.onQueue_retries (s : State) (q : Nat) (f : Queue → Queue) : (s.onQueue q f).retries = s.retries := rfl
@[simp] theorem State.onQueue_retrains (s : State) (q : Nat) (f : Queue → Queue) : (s.onQueue q f).retrains = s.retrains := rfl
@[simp] theorem State.onQueue_fabricUp (s : State) (q : Nat) (f : Queue → Queue) : (s.onQueue q f).fabricUp = s.fabricUp := rfl
@[simp] theorem State.onQueue_status (s : State) (q : Nat) (f : Queue → Queue) : (s.onQueue q f).status = s.status := rfl

@[simp] theorem State.onPart_time (s : State) (p : Nat) (f : Partition → Partition) : (s.onPart p f).time = s.time := rfl
@[simp] theorem State.onPart_inputs (s : State) (p : Nat) (f : Partition → Partition) : (s.onPart p f).inputs = s.inputs := rfl
@[simp] theorem State.onPart_agenda (s : State) (p : Nat) (f : Partition → Partition) : (s.onPart p f).agenda = s.agenda := rfl
@[simp] theorem State.onPart_issueQ (s : State) (p : Nat) (f : Partition → Partition) : (s.onPart p f).issueQ = s.issueQ := rfl
@[simp] theorem State.onPart_cur (s : State) (p : Nat) (f : Partition → Partition) : (s.onPart p f).cur = s.cur := rfl
@[simp] theorem State.onPart_shadow (s : State) (p : Nat) (f : Partition → Partition) : (s.onPart p f).shadow = s.shadow := rfl
@[simp] theorem State.onPart_passLanes (s : State) (p : Nat) (f : Partition → Partition) : (s.onPart p f).passLanes = s.passLanes := rfl
@[simp] theorem State.onPart_choices (s : State) (p : Nat) (f : Partition → Partition) : (s.onPart p f).choices = s.choices := rfl
@[simp] theorem State.onPart_freeCtr (s : State) (p : Nat) (f : Partition → Partition) : (s.onPart p f).freeCtr = s.freeCtr := rfl
@[simp] theorem State.onPart_uidCtr (s : State) (p : Nat) (f : Partition → Partition) : (s.onPart p f).uidCtr = s.uidCtr := rfl
@[simp] theorem State.onPart_out (s : State) (p : Nat) (f : Partition → Partition) : (s.onPart p f).out = s.out := rfl
@[simp] theorem State.onPart_stopped (s : State) (p : Nat) (f : Partition → Partition) : (s.onPart p f).stopped = s.stopped := rfl
@[simp] theorem State.onPart_mem (s : State) (p : Nat) (f : Partition → Partition) : (s.onPart p f).mem = s.mem := rfl
@[simp] theorem State.onPart_poison (s : State) (p : Nat) (f : Partition → Partition) : (s.onPart p f).poison = s.poison := rfl
@[simp] theorem State.onPart_scratch (s : State) (p : Nat) (f : Partition → Partition) : (s.onPart p f).scratch = s.scratch := rfl
@[simp] theorem State.onPart_scratchPoison (s : State) (p : Nat) (f : Partition → Partition) : (s.onPart p f).scratchPoison = s.scratchPoison := rfl
@[simp] theorem State.onPart_tlb (s : State) (p : Nat) (f : Partition → Partition) : (s.onPart p f).tlb = s.tlb := rfl
@[simp] theorem State.onPart_armed (s : State) (p : Nat) (f : Partition → Partition) : (s.onPart p f).armed = s.armed := rfl
@[simp] theorem State.onPart_llc (s : State) (p : Nat) (f : Partition → Partition) : (s.onPart p f).llc = s.llc := rfl
@[simp] theorem State.onPart_snoop (s : State) (p : Nat) (f : Partition → Partition) : (s.onPart p f).snoop = s.snoop := rfl
@[simp] theorem State.onPart_locks (s : State) (p : Nat) (f : Partition → Partition) : (s.onPart p f).locks = s.locks := rfl
@[simp] theorem State.onPart_grids (s : State) (p : Nat) (f : Partition → Partition) : (s.onPart p f).grids = s.grids := rfl
@[simp] theorem State.onPart_teams (s : State) (p : Nat) (f : Partition → Partition) : (s.onPart p f).teams = s.teams := rfl
@[simp] theorem State.onPart_cores (s : State) (p : Nat) (f : Partition → Partition) : (s.onPart p f).cores = s.cores := rfl
@[simp] theorem State.onPart_mwes (s : State) (p : Nat) (f : Partition → Partition) : (s.onPart p f).mwes = s.mwes := rfl
@[simp] theorem State.onPart_queues (s : State) (p : Nat) (f : Partition → Partition) : (s.onPart p f).queues = s.queues := rfl
@[simp] theorem State.onPart_tableBase (s : State) (p : Nat) (f : Partition → Partition) : (s.onPart p f).tableBase = s.tableBase := rfl
@[simp] theorem State.onPart_wakes (s : State) (p : Nat) (f : Partition → Partition) : (s.onPart p f).wakes = s.wakes := rfl
@[simp] theorem State.onPart_launches (s : State) (p : Nat) (f : Partition → Partition) : (s.onPart p f).launches = s.launches := rfl
@[simp] theorem State.onPart_partitions (s : State) (p : Nat) (f : Partition → Partition) : (s.onPart p f).partitions = NMap.set {} s.partitions p (f (s.part p)) := rfl
@[simp] theorem State.onPart_contexts (s : State) (p : Nat) (f : Partition → Partition) : (s.onPart p f).contexts = s.contexts := rfl
@[simp] theorem State.onPart_functions (s : State) (p : Nat) (f : Partition → Partition) : (s.onPart p f).functions = s.functions := rfl
@[simp] theorem State.onPart_nextFn (s : State) (p : Nat) (f : Partition → Partition) : (s.onPart p f).nextFn = s.nextFn := rfl
@[simp] theorem State.onPart_power (s : State) (p : Nat) (f : Partition → Partition) : (s.onPart p f).power = s.power := rfl
@[simp] theorem State.onPart_logs (s : State) (p : Nat) (f : Partition → Partition) : (s.onPart p f).logs = s.logs := rfl
@[simp] theorem State.onPart_firmware (s : State) (p : Nat) (f : Partition → Partition) : (s.onPart p f).firmware = s.firmware := rfl
@[simp] theorem State.onPart_scanQueue (s : State) (p : Nat) (f : Partition → Partition) : (s.onPart p f).scanQueue = s.scanQueue := rfl
@[simp] theorem State.onPart_scanNext (s : State) (p : Nat) (f : Partition → Partition) : (s.onPart p f).scanNext = s.scanNext := rfl
@[simp] theorem State.onPart_scanCore (s : State) (p : Nat) (f : Partition → Partition) : (s.onPart p f).scanCore = s.scanCore := rfl
@[simp] theorem State.onPart_rotgap (s : State) (p : Nat) (f : Partition → Partition) : (s.onPart p f).rotgap = s.rotgap := rfl
@[simp] theorem State.onPart_corrected (s : State) (p : Nat) (f : Partition → Partition) : (s.onPart p f).corrected = s.corrected := rfl
@[simp] theorem State.onPart_retries (s : State) (p : Nat) (f : Partition → Partition) : (s.onPart p f).retries = s.retries := rfl
@[simp] theorem State.onPart_retrains (s : State) (p : Nat) (f : Partition → Partition) : (s.onPart p f).retrains = s.retrains := rfl
@[simp] theorem State.onPart_fabricUp (s : State) (p : Nat) (f : Partition → Partition) : (s.onPart p f).fabricUp = s.fabricUp := rfl
@[simp] theorem State.onPart_status (s : State) (p : Nat) (f : Partition → Partition) : (s.onPart p f).status = s.status := rfl

@[simp] theorem State.onFn_time (s : State) (n : Nat) (f : Function → Function) : (s.onFn n f).time = s.time := rfl
@[simp] theorem State.onFn_inputs (s : State) (n : Nat) (f : Function → Function) : (s.onFn n f).inputs = s.inputs := rfl
@[simp] theorem State.onFn_agenda (s : State) (n : Nat) (f : Function → Function) : (s.onFn n f).agenda = s.agenda := rfl
@[simp] theorem State.onFn_issueQ (s : State) (n : Nat) (f : Function → Function) : (s.onFn n f).issueQ = s.issueQ := rfl
@[simp] theorem State.onFn_cur (s : State) (n : Nat) (f : Function → Function) : (s.onFn n f).cur = s.cur := rfl
@[simp] theorem State.onFn_shadow (s : State) (n : Nat) (f : Function → Function) : (s.onFn n f).shadow = s.shadow := rfl
@[simp] theorem State.onFn_passLanes (s : State) (n : Nat) (f : Function → Function) : (s.onFn n f).passLanes = s.passLanes := rfl
@[simp] theorem State.onFn_choices (s : State) (n : Nat) (f : Function → Function) : (s.onFn n f).choices = s.choices := rfl
@[simp] theorem State.onFn_freeCtr (s : State) (n : Nat) (f : Function → Function) : (s.onFn n f).freeCtr = s.freeCtr := rfl
@[simp] theorem State.onFn_uidCtr (s : State) (n : Nat) (f : Function → Function) : (s.onFn n f).uidCtr = s.uidCtr := rfl
@[simp] theorem State.onFn_out (s : State) (n : Nat) (f : Function → Function) : (s.onFn n f).out = s.out := rfl
@[simp] theorem State.onFn_stopped (s : State) (n : Nat) (f : Function → Function) : (s.onFn n f).stopped = s.stopped := rfl
@[simp] theorem State.onFn_mem (s : State) (n : Nat) (f : Function → Function) : (s.onFn n f).mem = s.mem := rfl
@[simp] theorem State.onFn_poison (s : State) (n : Nat) (f : Function → Function) : (s.onFn n f).poison = s.poison := rfl
@[simp] theorem State.onFn_scratch (s : State) (n : Nat) (f : Function → Function) : (s.onFn n f).scratch = s.scratch := rfl
@[simp] theorem State.onFn_scratchPoison (s : State) (n : Nat) (f : Function → Function) : (s.onFn n f).scratchPoison = s.scratchPoison := rfl
@[simp] theorem State.onFn_tlb (s : State) (n : Nat) (f : Function → Function) : (s.onFn n f).tlb = s.tlb := rfl
@[simp] theorem State.onFn_armed (s : State) (n : Nat) (f : Function → Function) : (s.onFn n f).armed = s.armed := rfl
@[simp] theorem State.onFn_llc (s : State) (n : Nat) (f : Function → Function) : (s.onFn n f).llc = s.llc := rfl
@[simp] theorem State.onFn_snoop (s : State) (n : Nat) (f : Function → Function) : (s.onFn n f).snoop = s.snoop := rfl
@[simp] theorem State.onFn_locks (s : State) (n : Nat) (f : Function → Function) : (s.onFn n f).locks = s.locks := rfl
@[simp] theorem State.onFn_grids (s : State) (n : Nat) (f : Function → Function) : (s.onFn n f).grids = s.grids := rfl
@[simp] theorem State.onFn_teams (s : State) (n : Nat) (f : Function → Function) : (s.onFn n f).teams = s.teams := rfl
@[simp] theorem State.onFn_cores (s : State) (n : Nat) (f : Function → Function) : (s.onFn n f).cores = s.cores := rfl
@[simp] theorem State.onFn_mwes (s : State) (n : Nat) (f : Function → Function) : (s.onFn n f).mwes = s.mwes := rfl
@[simp] theorem State.onFn_queues (s : State) (n : Nat) (f : Function → Function) : (s.onFn n f).queues = s.queues := rfl
@[simp] theorem State.onFn_tableBase (s : State) (n : Nat) (f : Function → Function) : (s.onFn n f).tableBase = s.tableBase := rfl
@[simp] theorem State.onFn_wakes (s : State) (n : Nat) (f : Function → Function) : (s.onFn n f).wakes = s.wakes := rfl
@[simp] theorem State.onFn_launches (s : State) (n : Nat) (f : Function → Function) : (s.onFn n f).launches = s.launches := rfl
@[simp] theorem State.onFn_partitions (s : State) (n : Nat) (f : Function → Function) : (s.onFn n f).partitions = s.partitions := rfl
@[simp] theorem State.onFn_contexts (s : State) (n : Nat) (f : Function → Function) : (s.onFn n f).contexts = s.contexts := rfl
@[simp] theorem State.onFn_functions (s : State) (n : Nat) (f : Function → Function) : (s.onFn n f).functions = NMap.set {} s.functions n (f (s.fn n)) := rfl
@[simp] theorem State.onFn_nextFn (s : State) (n : Nat) (f : Function → Function) : (s.onFn n f).nextFn = s.nextFn := rfl
@[simp] theorem State.onFn_power (s : State) (n : Nat) (f : Function → Function) : (s.onFn n f).power = s.power := rfl
@[simp] theorem State.onFn_logs (s : State) (n : Nat) (f : Function → Function) : (s.onFn n f).logs = s.logs := rfl
@[simp] theorem State.onFn_firmware (s : State) (n : Nat) (f : Function → Function) : (s.onFn n f).firmware = s.firmware := rfl
@[simp] theorem State.onFn_scanQueue (s : State) (n : Nat) (f : Function → Function) : (s.onFn n f).scanQueue = s.scanQueue := rfl
@[simp] theorem State.onFn_scanNext (s : State) (n : Nat) (f : Function → Function) : (s.onFn n f).scanNext = s.scanNext := rfl
@[simp] theorem State.onFn_scanCore (s : State) (n : Nat) (f : Function → Function) : (s.onFn n f).scanCore = s.scanCore := rfl
@[simp] theorem State.onFn_rotgap (s : State) (n : Nat) (f : Function → Function) : (s.onFn n f).rotgap = s.rotgap := rfl
@[simp] theorem State.onFn_corrected (s : State) (n : Nat) (f : Function → Function) : (s.onFn n f).corrected = s.corrected := rfl
@[simp] theorem State.onFn_retries (s : State) (n : Nat) (f : Function → Function) : (s.onFn n f).retries = s.retries := rfl
@[simp] theorem State.onFn_retrains (s : State) (n : Nat) (f : Function → Function) : (s.onFn n f).retrains = s.retrains := rfl
@[simp] theorem State.onFn_fabricUp (s : State) (n : Nat) (f : Function → Function) : (s.onFn n f).fabricUp = s.fabricUp := rfl
@[simp] theorem State.onFn_status (s : State) (n : Nat) (f : Function → Function) : (s.onFn n f).status = s.status := rfl

@[simp] theorem State.onPower_time (s : State) (f : Power → Power) : (s.onPower f).time = s.time := rfl
@[simp] theorem State.onPower_inputs (s : State) (f : Power → Power) : (s.onPower f).inputs = s.inputs := rfl
@[simp] theorem State.onPower_agenda (s : State) (f : Power → Power) : (s.onPower f).agenda = s.agenda := rfl
@[simp] theorem State.onPower_issueQ (s : State) (f : Power → Power) : (s.onPower f).issueQ = s.issueQ := rfl
@[simp] theorem State.onPower_cur (s : State) (f : Power → Power) : (s.onPower f).cur = s.cur := rfl
@[simp] theorem State.onPower_shadow (s : State) (f : Power → Power) : (s.onPower f).shadow = s.shadow := rfl
@[simp] theorem State.onPower_passLanes (s : State) (f : Power → Power) : (s.onPower f).passLanes = s.passLanes := rfl
@[simp] theorem State.onPower_choices (s : State) (f : Power → Power) : (s.onPower f).choices = s.choices := rfl
@[simp] theorem State.onPower_freeCtr (s : State) (f : Power → Power) : (s.onPower f).freeCtr = s.freeCtr := rfl
@[simp] theorem State.onPower_uidCtr (s : State) (f : Power → Power) : (s.onPower f).uidCtr = s.uidCtr := rfl
@[simp] theorem State.onPower_out (s : State) (f : Power → Power) : (s.onPower f).out = s.out := rfl
@[simp] theorem State.onPower_stopped (s : State) (f : Power → Power) : (s.onPower f).stopped = s.stopped := rfl
@[simp] theorem State.onPower_mem (s : State) (f : Power → Power) : (s.onPower f).mem = s.mem := rfl
@[simp] theorem State.onPower_poison (s : State) (f : Power → Power) : (s.onPower f).poison = s.poison := rfl
@[simp] theorem State.onPower_scratch (s : State) (f : Power → Power) : (s.onPower f).scratch = s.scratch := rfl
@[simp] theorem State.onPower_scratchPoison (s : State) (f : Power → Power) : (s.onPower f).scratchPoison = s.scratchPoison := rfl
@[simp] theorem State.onPower_tlb (s : State) (f : Power → Power) : (s.onPower f).tlb = s.tlb := rfl
@[simp] theorem State.onPower_armed (s : State) (f : Power → Power) : (s.onPower f).armed = s.armed := rfl
@[simp] theorem State.onPower_llc (s : State) (f : Power → Power) : (s.onPower f).llc = s.llc := rfl
@[simp] theorem State.onPower_snoop (s : State) (f : Power → Power) : (s.onPower f).snoop = s.snoop := rfl
@[simp] theorem State.onPower_locks (s : State) (f : Power → Power) : (s.onPower f).locks = s.locks := rfl
@[simp] theorem State.onPower_grids (s : State) (f : Power → Power) : (s.onPower f).grids = s.grids := rfl
@[simp] theorem State.onPower_teams (s : State) (f : Power → Power) : (s.onPower f).teams = s.teams := rfl
@[simp] theorem State.onPower_cores (s : State) (f : Power → Power) : (s.onPower f).cores = s.cores := rfl
@[simp] theorem State.onPower_mwes (s : State) (f : Power → Power) : (s.onPower f).mwes = s.mwes := rfl
@[simp] theorem State.onPower_queues (s : State) (f : Power → Power) : (s.onPower f).queues = s.queues := rfl
@[simp] theorem State.onPower_tableBase (s : State) (f : Power → Power) : (s.onPower f).tableBase = s.tableBase := rfl
@[simp] theorem State.onPower_wakes (s : State) (f : Power → Power) : (s.onPower f).wakes = s.wakes := rfl
@[simp] theorem State.onPower_launches (s : State) (f : Power → Power) : (s.onPower f).launches = s.launches := rfl
@[simp] theorem State.onPower_partitions (s : State) (f : Power → Power) : (s.onPower f).partitions = s.partitions := rfl
@[simp] theorem State.onPower_contexts (s : State) (f : Power → Power) : (s.onPower f).contexts = s.contexts := rfl
@[simp] theorem State.onPower_functions (s : State) (f : Power → Power) : (s.onPower f).functions = s.functions := rfl
@[simp] theorem State.onPower_nextFn (s : State) (f : Power → Power) : (s.onPower f).nextFn = s.nextFn := rfl
@[simp] theorem State.onPower_power (s : State) (f : Power → Power) : (s.onPower f).power = f s.power := rfl
@[simp] theorem State.onPower_logs (s : State) (f : Power → Power) : (s.onPower f).logs = s.logs := rfl
@[simp] theorem State.onPower_firmware (s : State) (f : Power → Power) : (s.onPower f).firmware = s.firmware := rfl
@[simp] theorem State.onPower_scanQueue (s : State) (f : Power → Power) : (s.onPower f).scanQueue = s.scanQueue := rfl
@[simp] theorem State.onPower_scanNext (s : State) (f : Power → Power) : (s.onPower f).scanNext = s.scanNext := rfl
@[simp] theorem State.onPower_scanCore (s : State) (f : Power → Power) : (s.onPower f).scanCore = s.scanCore := rfl
@[simp] theorem State.onPower_rotgap (s : State) (f : Power → Power) : (s.onPower f).rotgap = s.rotgap := rfl
@[simp] theorem State.onPower_corrected (s : State) (f : Power → Power) : (s.onPower f).corrected = s.corrected := rfl
@[simp] theorem State.onPower_retries (s : State) (f : Power → Power) : (s.onPower f).retries = s.retries := rfl
@[simp] theorem State.onPower_retrains (s : State) (f : Power → Power) : (s.onPower f).retrains = s.retrains := rfl
@[simp] theorem State.onPower_fabricUp (s : State) (f : Power → Power) : (s.onPower f).fabricUp = s.fabricUp := rfl
@[simp] theorem State.onPower_status (s : State) (f : Power → Power) : (s.onPower f).status = s.status := rfl

@[simp] theorem State.onLogs_time (s : State) (f : Logs → Logs) : (s.onLogs f).time = s.time := rfl
@[simp] theorem State.onLogs_inputs (s : State) (f : Logs → Logs) : (s.onLogs f).inputs = s.inputs := rfl
@[simp] theorem State.onLogs_agenda (s : State) (f : Logs → Logs) : (s.onLogs f).agenda = s.agenda := rfl
@[simp] theorem State.onLogs_issueQ (s : State) (f : Logs → Logs) : (s.onLogs f).issueQ = s.issueQ := rfl
@[simp] theorem State.onLogs_cur (s : State) (f : Logs → Logs) : (s.onLogs f).cur = s.cur := rfl
@[simp] theorem State.onLogs_shadow (s : State) (f : Logs → Logs) : (s.onLogs f).shadow = s.shadow := rfl
@[simp] theorem State.onLogs_passLanes (s : State) (f : Logs → Logs) : (s.onLogs f).passLanes = s.passLanes := rfl
@[simp] theorem State.onLogs_choices (s : State) (f : Logs → Logs) : (s.onLogs f).choices = s.choices := rfl
@[simp] theorem State.onLogs_freeCtr (s : State) (f : Logs → Logs) : (s.onLogs f).freeCtr = s.freeCtr := rfl
@[simp] theorem State.onLogs_uidCtr (s : State) (f : Logs → Logs) : (s.onLogs f).uidCtr = s.uidCtr := rfl
@[simp] theorem State.onLogs_out (s : State) (f : Logs → Logs) : (s.onLogs f).out = s.out := rfl
@[simp] theorem State.onLogs_stopped (s : State) (f : Logs → Logs) : (s.onLogs f).stopped = s.stopped := rfl
@[simp] theorem State.onLogs_mem (s : State) (f : Logs → Logs) : (s.onLogs f).mem = s.mem := rfl
@[simp] theorem State.onLogs_poison (s : State) (f : Logs → Logs) : (s.onLogs f).poison = s.poison := rfl
@[simp] theorem State.onLogs_scratch (s : State) (f : Logs → Logs) : (s.onLogs f).scratch = s.scratch := rfl
@[simp] theorem State.onLogs_scratchPoison (s : State) (f : Logs → Logs) : (s.onLogs f).scratchPoison = s.scratchPoison := rfl
@[simp] theorem State.onLogs_tlb (s : State) (f : Logs → Logs) : (s.onLogs f).tlb = s.tlb := rfl
@[simp] theorem State.onLogs_armed (s : State) (f : Logs → Logs) : (s.onLogs f).armed = s.armed := rfl
@[simp] theorem State.onLogs_llc (s : State) (f : Logs → Logs) : (s.onLogs f).llc = s.llc := rfl
@[simp] theorem State.onLogs_snoop (s : State) (f : Logs → Logs) : (s.onLogs f).snoop = s.snoop := rfl
@[simp] theorem State.onLogs_locks (s : State) (f : Logs → Logs) : (s.onLogs f).locks = s.locks := rfl
@[simp] theorem State.onLogs_grids (s : State) (f : Logs → Logs) : (s.onLogs f).grids = s.grids := rfl
@[simp] theorem State.onLogs_teams (s : State) (f : Logs → Logs) : (s.onLogs f).teams = s.teams := rfl
@[simp] theorem State.onLogs_cores (s : State) (f : Logs → Logs) : (s.onLogs f).cores = s.cores := rfl
@[simp] theorem State.onLogs_mwes (s : State) (f : Logs → Logs) : (s.onLogs f).mwes = s.mwes := rfl
@[simp] theorem State.onLogs_queues (s : State) (f : Logs → Logs) : (s.onLogs f).queues = s.queues := rfl
@[simp] theorem State.onLogs_tableBase (s : State) (f : Logs → Logs) : (s.onLogs f).tableBase = s.tableBase := rfl
@[simp] theorem State.onLogs_wakes (s : State) (f : Logs → Logs) : (s.onLogs f).wakes = s.wakes := rfl
@[simp] theorem State.onLogs_launches (s : State) (f : Logs → Logs) : (s.onLogs f).launches = s.launches := rfl
@[simp] theorem State.onLogs_partitions (s : State) (f : Logs → Logs) : (s.onLogs f).partitions = s.partitions := rfl
@[simp] theorem State.onLogs_contexts (s : State) (f : Logs → Logs) : (s.onLogs f).contexts = s.contexts := rfl
@[simp] theorem State.onLogs_functions (s : State) (f : Logs → Logs) : (s.onLogs f).functions = s.functions := rfl
@[simp] theorem State.onLogs_nextFn (s : State) (f : Logs → Logs) : (s.onLogs f).nextFn = s.nextFn := rfl
@[simp] theorem State.onLogs_power (s : State) (f : Logs → Logs) : (s.onLogs f).power = s.power := rfl
@[simp] theorem State.onLogs_logs (s : State) (f : Logs → Logs) : (s.onLogs f).logs = f s.logs := rfl
@[simp] theorem State.onLogs_firmware (s : State) (f : Logs → Logs) : (s.onLogs f).firmware = s.firmware := rfl
@[simp] theorem State.onLogs_scanQueue (s : State) (f : Logs → Logs) : (s.onLogs f).scanQueue = s.scanQueue := rfl
@[simp] theorem State.onLogs_scanNext (s : State) (f : Logs → Logs) : (s.onLogs f).scanNext = s.scanNext := rfl
@[simp] theorem State.onLogs_scanCore (s : State) (f : Logs → Logs) : (s.onLogs f).scanCore = s.scanCore := rfl
@[simp] theorem State.onLogs_rotgap (s : State) (f : Logs → Logs) : (s.onLogs f).rotgap = s.rotgap := rfl
@[simp] theorem State.onLogs_corrected (s : State) (f : Logs → Logs) : (s.onLogs f).corrected = s.corrected := rfl
@[simp] theorem State.onLogs_retries (s : State) (f : Logs → Logs) : (s.onLogs f).retries = s.retries := rfl
@[simp] theorem State.onLogs_retrains (s : State) (f : Logs → Logs) : (s.onLogs f).retrains = s.retrains := rfl
@[simp] theorem State.onLogs_fabricUp (s : State) (f : Logs → Logs) : (s.onLogs f).fabricUp = s.fabricUp := rfl
@[simp] theorem State.onLogs_status (s : State) (f : Logs → Logs) : (s.onLogs f).status = s.status := rfl

@[simp] theorem State.later_time (s : State) (d : Nat) (i : Instr) : (s.later d i).time = s.time := rfl
@[simp] theorem State.later_inputs (s : State) (d : Nat) (i : Instr) : (s.later d i).inputs = s.inputs := rfl
@[simp] theorem State.later_agenda (s : State) (d : Nat) (i : Instr) : (s.later d i).agenda = s.agenda ++ [(d, i)] := rfl
@[simp] theorem State.later_issueQ (s : State) (d : Nat) (i : Instr) : (s.later d i).issueQ = s.issueQ := rfl
@[simp] theorem State.later_cur (s : State) (d : Nat) (i : Instr) : (s.later d i).cur = s.cur := rfl
@[simp] theorem State.later_shadow (s : State) (d : Nat) (i : Instr) : (s.later d i).shadow = s.shadow := rfl
@[simp] theorem State.later_passLanes (s : State) (d : Nat) (i : Instr) : (s.later d i).passLanes = s.passLanes := rfl
@[simp] theorem State.later_choices (s : State) (d : Nat) (i : Instr) : (s.later d i).choices = s.choices := rfl
@[simp] theorem State.later_freeCtr (s : State) (d : Nat) (i : Instr) : (s.later d i).freeCtr = s.freeCtr := rfl
@[simp] theorem State.later_uidCtr (s : State) (d : Nat) (i : Instr) : (s.later d i).uidCtr = s.uidCtr := rfl
@[simp] theorem State.later_out (s : State) (d : Nat) (i : Instr) : (s.later d i).out = s.out := rfl
@[simp] theorem State.later_stopped (s : State) (d : Nat) (i : Instr) : (s.later d i).stopped = s.stopped := rfl
@[simp] theorem State.later_mem (s : State) (d : Nat) (i : Instr) : (s.later d i).mem = s.mem := rfl
@[simp] theorem State.later_poison (s : State) (d : Nat) (i : Instr) : (s.later d i).poison = s.poison := rfl
@[simp] theorem State.later_scratch (s : State) (d : Nat) (i : Instr) : (s.later d i).scratch = s.scratch := rfl
@[simp] theorem State.later_scratchPoison (s : State) (d : Nat) (i : Instr) : (s.later d i).scratchPoison = s.scratchPoison := rfl
@[simp] theorem State.later_tlb (s : State) (d : Nat) (i : Instr) : (s.later d i).tlb = s.tlb := rfl
@[simp] theorem State.later_armed (s : State) (d : Nat) (i : Instr) : (s.later d i).armed = s.armed := rfl
@[simp] theorem State.later_llc (s : State) (d : Nat) (i : Instr) : (s.later d i).llc = s.llc := rfl
@[simp] theorem State.later_snoop (s : State) (d : Nat) (i : Instr) : (s.later d i).snoop = s.snoop := rfl
@[simp] theorem State.later_locks (s : State) (d : Nat) (i : Instr) : (s.later d i).locks = s.locks := rfl
@[simp] theorem State.later_grids (s : State) (d : Nat) (i : Instr) : (s.later d i).grids = s.grids := rfl
@[simp] theorem State.later_teams (s : State) (d : Nat) (i : Instr) : (s.later d i).teams = s.teams := rfl
@[simp] theorem State.later_cores (s : State) (d : Nat) (i : Instr) : (s.later d i).cores = s.cores := rfl
@[simp] theorem State.later_mwes (s : State) (d : Nat) (i : Instr) : (s.later d i).mwes = s.mwes := rfl
@[simp] theorem State.later_queues (s : State) (d : Nat) (i : Instr) : (s.later d i).queues = s.queues := rfl
@[simp] theorem State.later_tableBase (s : State) (d : Nat) (i : Instr) : (s.later d i).tableBase = s.tableBase := rfl
@[simp] theorem State.later_wakes (s : State) (d : Nat) (i : Instr) : (s.later d i).wakes = s.wakes := rfl
@[simp] theorem State.later_launches (s : State) (d : Nat) (i : Instr) : (s.later d i).launches = s.launches := rfl
@[simp] theorem State.later_partitions (s : State) (d : Nat) (i : Instr) : (s.later d i).partitions = s.partitions := rfl
@[simp] theorem State.later_contexts (s : State) (d : Nat) (i : Instr) : (s.later d i).contexts = s.contexts := rfl
@[simp] theorem State.later_functions (s : State) (d : Nat) (i : Instr) : (s.later d i).functions = s.functions := rfl
@[simp] theorem State.later_nextFn (s : State) (d : Nat) (i : Instr) : (s.later d i).nextFn = s.nextFn := rfl
@[simp] theorem State.later_power (s : State) (d : Nat) (i : Instr) : (s.later d i).power = s.power := rfl
@[simp] theorem State.later_logs (s : State) (d : Nat) (i : Instr) : (s.later d i).logs = s.logs := rfl
@[simp] theorem State.later_firmware (s : State) (d : Nat) (i : Instr) : (s.later d i).firmware = s.firmware := rfl
@[simp] theorem State.later_scanQueue (s : State) (d : Nat) (i : Instr) : (s.later d i).scanQueue = s.scanQueue := rfl
@[simp] theorem State.later_scanNext (s : State) (d : Nat) (i : Instr) : (s.later d i).scanNext = s.scanNext := rfl
@[simp] theorem State.later_scanCore (s : State) (d : Nat) (i : Instr) : (s.later d i).scanCore = s.scanCore := rfl
@[simp] theorem State.later_rotgap (s : State) (d : Nat) (i : Instr) : (s.later d i).rotgap = s.rotgap := rfl
@[simp] theorem State.later_corrected (s : State) (d : Nat) (i : Instr) : (s.later d i).corrected = s.corrected := rfl
@[simp] theorem State.later_retries (s : State) (d : Nat) (i : Instr) : (s.later d i).retries = s.retries := rfl
@[simp] theorem State.later_retrains (s : State) (d : Nat) (i : Instr) : (s.later d i).retrains = s.retrains := rfl
@[simp] theorem State.later_fabricUp (s : State) (d : Nat) (i : Instr) : (s.later d i).fabricUp = s.fabricUp := rfl
@[simp] theorem State.later_status (s : State) (d : Nat) (i : Instr) : (s.later d i).status = s.status := rfl

@[simp] theorem State.soon_time (s : State) (i : Instr) : (s.soon i).time = s.time := rfl
@[simp] theorem State.soon_inputs (s : State) (i : Instr) : (s.soon i).inputs = s.inputs := rfl
@[simp] theorem State.soon_agenda (s : State) (i : Instr) : (s.soon i).agenda = s.agenda ++ [(s.time, i)] := rfl
@[simp] theorem State.soon_issueQ (s : State) (i : Instr) : (s.soon i).issueQ = s.issueQ := rfl
@[simp] theorem State.soon_cur (s : State) (i : Instr) : (s.soon i).cur = s.cur := rfl
@[simp] theorem State.soon_shadow (s : State) (i : Instr) : (s.soon i).shadow = s.shadow := rfl
@[simp] theorem State.soon_passLanes (s : State) (i : Instr) : (s.soon i).passLanes = s.passLanes := rfl
@[simp] theorem State.soon_choices (s : State) (i : Instr) : (s.soon i).choices = s.choices := rfl
@[simp] theorem State.soon_freeCtr (s : State) (i : Instr) : (s.soon i).freeCtr = s.freeCtr := rfl
@[simp] theorem State.soon_uidCtr (s : State) (i : Instr) : (s.soon i).uidCtr = s.uidCtr := rfl
@[simp] theorem State.soon_out (s : State) (i : Instr) : (s.soon i).out = s.out := rfl
@[simp] theorem State.soon_stopped (s : State) (i : Instr) : (s.soon i).stopped = s.stopped := rfl
@[simp] theorem State.soon_mem (s : State) (i : Instr) : (s.soon i).mem = s.mem := rfl
@[simp] theorem State.soon_poison (s : State) (i : Instr) : (s.soon i).poison = s.poison := rfl
@[simp] theorem State.soon_scratch (s : State) (i : Instr) : (s.soon i).scratch = s.scratch := rfl
@[simp] theorem State.soon_scratchPoison (s : State) (i : Instr) : (s.soon i).scratchPoison = s.scratchPoison := rfl
@[simp] theorem State.soon_tlb (s : State) (i : Instr) : (s.soon i).tlb = s.tlb := rfl
@[simp] theorem State.soon_armed (s : State) (i : Instr) : (s.soon i).armed = s.armed := rfl
@[simp] theorem State.soon_llc (s : State) (i : Instr) : (s.soon i).llc = s.llc := rfl
@[simp] theorem State.soon_snoop (s : State) (i : Instr) : (s.soon i).snoop = s.snoop := rfl
@[simp] theorem State.soon_locks (s : State) (i : Instr) : (s.soon i).locks = s.locks := rfl
@[simp] theorem State.soon_grids (s : State) (i : Instr) : (s.soon i).grids = s.grids := rfl
@[simp] theorem State.soon_teams (s : State) (i : Instr) : (s.soon i).teams = s.teams := rfl
@[simp] theorem State.soon_cores (s : State) (i : Instr) : (s.soon i).cores = s.cores := rfl
@[simp] theorem State.soon_mwes (s : State) (i : Instr) : (s.soon i).mwes = s.mwes := rfl
@[simp] theorem State.soon_queues (s : State) (i : Instr) : (s.soon i).queues = s.queues := rfl
@[simp] theorem State.soon_tableBase (s : State) (i : Instr) : (s.soon i).tableBase = s.tableBase := rfl
@[simp] theorem State.soon_wakes (s : State) (i : Instr) : (s.soon i).wakes = s.wakes := rfl
@[simp] theorem State.soon_launches (s : State) (i : Instr) : (s.soon i).launches = s.launches := rfl
@[simp] theorem State.soon_partitions (s : State) (i : Instr) : (s.soon i).partitions = s.partitions := rfl
@[simp] theorem State.soon_contexts (s : State) (i : Instr) : (s.soon i).contexts = s.contexts := rfl
@[simp] theorem State.soon_functions (s : State) (i : Instr) : (s.soon i).functions = s.functions := rfl
@[simp] theorem State.soon_nextFn (s : State) (i : Instr) : (s.soon i).nextFn = s.nextFn := rfl
@[simp] theorem State.soon_power (s : State) (i : Instr) : (s.soon i).power = s.power := rfl
@[simp] theorem State.soon_logs (s : State) (i : Instr) : (s.soon i).logs = s.logs := rfl
@[simp] theorem State.soon_firmware (s : State) (i : Instr) : (s.soon i).firmware = s.firmware := rfl
@[simp] theorem State.soon_scanQueue (s : State) (i : Instr) : (s.soon i).scanQueue = s.scanQueue := rfl
@[simp] theorem State.soon_scanNext (s : State) (i : Instr) : (s.soon i).scanNext = s.scanNext := rfl
@[simp] theorem State.soon_scanCore (s : State) (i : Instr) : (s.soon i).scanCore = s.scanCore := rfl
@[simp] theorem State.soon_rotgap (s : State) (i : Instr) : (s.soon i).rotgap = s.rotgap := rfl
@[simp] theorem State.soon_corrected (s : State) (i : Instr) : (s.soon i).corrected = s.corrected := rfl
@[simp] theorem State.soon_retries (s : State) (i : Instr) : (s.soon i).retries = s.retries := rfl
@[simp] theorem State.soon_retrains (s : State) (i : Instr) : (s.soon i).retrains = s.retrains := rfl
@[simp] theorem State.soon_fabricUp (s : State) (i : Instr) : (s.soon i).fabricUp = s.fabricUp := rfl
@[simp] theorem State.soon_status (s : State) (i : Instr) : (s.soon i).status = s.status := rfl

@[simp] theorem State.cancel_time (s : State) (p : Instr → Bool) : (s.cancel p).time = s.time := rfl
@[simp] theorem State.cancel_inputs (s : State) (p : Instr → Bool) : (s.cancel p).inputs = s.inputs := rfl
@[simp] theorem State.cancel_agenda (s : State) (p : Instr → Bool) : (s.cancel p).agenda = s.agenda.filter fun x => !p x.2 := rfl
@[simp] theorem State.cancel_issueQ (s : State) (p : Instr → Bool) : (s.cancel p).issueQ = s.issueQ := rfl
@[simp] theorem State.cancel_cur (s : State) (p : Instr → Bool) : (s.cancel p).cur = s.cur := rfl
@[simp] theorem State.cancel_shadow (s : State) (p : Instr → Bool) : (s.cancel p).shadow = s.shadow := rfl
@[simp] theorem State.cancel_passLanes (s : State) (p : Instr → Bool) : (s.cancel p).passLanes = s.passLanes := rfl
@[simp] theorem State.cancel_choices (s : State) (p : Instr → Bool) : (s.cancel p).choices = s.choices := rfl
@[simp] theorem State.cancel_freeCtr (s : State) (p : Instr → Bool) : (s.cancel p).freeCtr = s.freeCtr := rfl
@[simp] theorem State.cancel_uidCtr (s : State) (p : Instr → Bool) : (s.cancel p).uidCtr = s.uidCtr := rfl
@[simp] theorem State.cancel_out (s : State) (p : Instr → Bool) : (s.cancel p).out = s.out := rfl
@[simp] theorem State.cancel_stopped (s : State) (p : Instr → Bool) : (s.cancel p).stopped = s.stopped := rfl
@[simp] theorem State.cancel_mem (s : State) (p : Instr → Bool) : (s.cancel p).mem = s.mem := rfl
@[simp] theorem State.cancel_poison (s : State) (p : Instr → Bool) : (s.cancel p).poison = s.poison := rfl
@[simp] theorem State.cancel_scratch (s : State) (p : Instr → Bool) : (s.cancel p).scratch = s.scratch := rfl
@[simp] theorem State.cancel_scratchPoison (s : State) (p : Instr → Bool) : (s.cancel p).scratchPoison = s.scratchPoison := rfl
@[simp] theorem State.cancel_tlb (s : State) (p : Instr → Bool) : (s.cancel p).tlb = s.tlb := rfl
@[simp] theorem State.cancel_armed (s : State) (p : Instr → Bool) : (s.cancel p).armed = s.armed := rfl
@[simp] theorem State.cancel_llc (s : State) (p : Instr → Bool) : (s.cancel p).llc = s.llc := rfl
@[simp] theorem State.cancel_snoop (s : State) (p : Instr → Bool) : (s.cancel p).snoop = s.snoop := rfl
@[simp] theorem State.cancel_locks (s : State) (p : Instr → Bool) : (s.cancel p).locks = s.locks := rfl
@[simp] theorem State.cancel_grids (s : State) (p : Instr → Bool) : (s.cancel p).grids = s.grids := rfl
@[simp] theorem State.cancel_teams (s : State) (p : Instr → Bool) : (s.cancel p).teams = s.teams := rfl
@[simp] theorem State.cancel_cores (s : State) (p : Instr → Bool) : (s.cancel p).cores = s.cores := rfl
@[simp] theorem State.cancel_mwes (s : State) (p : Instr → Bool) : (s.cancel p).mwes = s.mwes := rfl
@[simp] theorem State.cancel_queues (s : State) (p : Instr → Bool) : (s.cancel p).queues = s.queues := rfl
@[simp] theorem State.cancel_tableBase (s : State) (p : Instr → Bool) : (s.cancel p).tableBase = s.tableBase := rfl
@[simp] theorem State.cancel_wakes (s : State) (p : Instr → Bool) : (s.cancel p).wakes = s.wakes := rfl
@[simp] theorem State.cancel_launches (s : State) (p : Instr → Bool) : (s.cancel p).launches = s.launches := rfl
@[simp] theorem State.cancel_partitions (s : State) (p : Instr → Bool) : (s.cancel p).partitions = s.partitions := rfl
@[simp] theorem State.cancel_contexts (s : State) (p : Instr → Bool) : (s.cancel p).contexts = s.contexts := rfl
@[simp] theorem State.cancel_functions (s : State) (p : Instr → Bool) : (s.cancel p).functions = s.functions := rfl
@[simp] theorem State.cancel_nextFn (s : State) (p : Instr → Bool) : (s.cancel p).nextFn = s.nextFn := rfl
@[simp] theorem State.cancel_power (s : State) (p : Instr → Bool) : (s.cancel p).power = s.power := rfl
@[simp] theorem State.cancel_logs (s : State) (p : Instr → Bool) : (s.cancel p).logs = s.logs := rfl
@[simp] theorem State.cancel_firmware (s : State) (p : Instr → Bool) : (s.cancel p).firmware = s.firmware := rfl
@[simp] theorem State.cancel_scanQueue (s : State) (p : Instr → Bool) : (s.cancel p).scanQueue = s.scanQueue := rfl
@[simp] theorem State.cancel_scanNext (s : State) (p : Instr → Bool) : (s.cancel p).scanNext = s.scanNext := rfl
@[simp] theorem State.cancel_scanCore (s : State) (p : Instr → Bool) : (s.cancel p).scanCore = s.scanCore := rfl
@[simp] theorem State.cancel_rotgap (s : State) (p : Instr → Bool) : (s.cancel p).rotgap = s.rotgap := rfl
@[simp] theorem State.cancel_corrected (s : State) (p : Instr → Bool) : (s.cancel p).corrected = s.corrected := rfl
@[simp] theorem State.cancel_retries (s : State) (p : Instr → Bool) : (s.cancel p).retries = s.retries := rfl
@[simp] theorem State.cancel_retrains (s : State) (p : Instr → Bool) : (s.cancel p).retrains = s.retrains := rfl
@[simp] theorem State.cancel_fabricUp (s : State) (p : Instr → Bool) : (s.cancel p).fabricUp = s.fabricUp := rfl
@[simp] theorem State.cancel_status (s : State) (p : Instr → Bool) : (s.cancel p).status = s.status := rfl

@[simp] theorem State.emit_time (s : State) (m : HostMsg) : (s.emit m).time = s.time := rfl
@[simp] theorem State.emit_inputs (s : State) (m : HostMsg) : (s.emit m).inputs = s.inputs := rfl
@[simp] theorem State.emit_agenda (s : State) (m : HostMsg) : (s.emit m).agenda = s.agenda := rfl
@[simp] theorem State.emit_issueQ (s : State) (m : HostMsg) : (s.emit m).issueQ = s.issueQ := rfl
@[simp] theorem State.emit_cur (s : State) (m : HostMsg) : (s.emit m).cur = s.cur := rfl
@[simp] theorem State.emit_shadow (s : State) (m : HostMsg) : (s.emit m).shadow = s.shadow := rfl
@[simp] theorem State.emit_passLanes (s : State) (m : HostMsg) : (s.emit m).passLanes = s.passLanes := rfl
@[simp] theorem State.emit_choices (s : State) (m : HostMsg) : (s.emit m).choices = s.choices := rfl
@[simp] theorem State.emit_freeCtr (s : State) (m : HostMsg) : (s.emit m).freeCtr = s.freeCtr := rfl
@[simp] theorem State.emit_uidCtr (s : State) (m : HostMsg) : (s.emit m).uidCtr = s.uidCtr := rfl
@[simp] theorem State.emit_out (s : State) (m : HostMsg) : (s.emit m).out = s.out ++ [m] := rfl
@[simp] theorem State.emit_stopped (s : State) (m : HostMsg) : (s.emit m).stopped = s.stopped := rfl
@[simp] theorem State.emit_mem (s : State) (m : HostMsg) : (s.emit m).mem = s.mem := rfl
@[simp] theorem State.emit_poison (s : State) (m : HostMsg) : (s.emit m).poison = s.poison := rfl
@[simp] theorem State.emit_scratch (s : State) (m : HostMsg) : (s.emit m).scratch = s.scratch := rfl
@[simp] theorem State.emit_scratchPoison (s : State) (m : HostMsg) : (s.emit m).scratchPoison = s.scratchPoison := rfl
@[simp] theorem State.emit_tlb (s : State) (m : HostMsg) : (s.emit m).tlb = s.tlb := rfl
@[simp] theorem State.emit_armed (s : State) (m : HostMsg) : (s.emit m).armed = s.armed := rfl
@[simp] theorem State.emit_llc (s : State) (m : HostMsg) : (s.emit m).llc = s.llc := rfl
@[simp] theorem State.emit_snoop (s : State) (m : HostMsg) : (s.emit m).snoop = s.snoop := rfl
@[simp] theorem State.emit_locks (s : State) (m : HostMsg) : (s.emit m).locks = s.locks := rfl
@[simp] theorem State.emit_grids (s : State) (m : HostMsg) : (s.emit m).grids = s.grids := rfl
@[simp] theorem State.emit_teams (s : State) (m : HostMsg) : (s.emit m).teams = s.teams := rfl
@[simp] theorem State.emit_cores (s : State) (m : HostMsg) : (s.emit m).cores = s.cores := rfl
@[simp] theorem State.emit_mwes (s : State) (m : HostMsg) : (s.emit m).mwes = s.mwes := rfl
@[simp] theorem State.emit_queues (s : State) (m : HostMsg) : (s.emit m).queues = s.queues := rfl
@[simp] theorem State.emit_tableBase (s : State) (m : HostMsg) : (s.emit m).tableBase = s.tableBase := rfl
@[simp] theorem State.emit_wakes (s : State) (m : HostMsg) : (s.emit m).wakes = s.wakes := rfl
@[simp] theorem State.emit_launches (s : State) (m : HostMsg) : (s.emit m).launches = s.launches := rfl
@[simp] theorem State.emit_partitions (s : State) (m : HostMsg) : (s.emit m).partitions = s.partitions := rfl
@[simp] theorem State.emit_contexts (s : State) (m : HostMsg) : (s.emit m).contexts = s.contexts := rfl
@[simp] theorem State.emit_functions (s : State) (m : HostMsg) : (s.emit m).functions = s.functions := rfl
@[simp] theorem State.emit_nextFn (s : State) (m : HostMsg) : (s.emit m).nextFn = s.nextFn := rfl
@[simp] theorem State.emit_power (s : State) (m : HostMsg) : (s.emit m).power = s.power := rfl
@[simp] theorem State.emit_logs (s : State) (m : HostMsg) : (s.emit m).logs = s.logs := rfl
@[simp] theorem State.emit_firmware (s : State) (m : HostMsg) : (s.emit m).firmware = s.firmware := rfl
@[simp] theorem State.emit_scanQueue (s : State) (m : HostMsg) : (s.emit m).scanQueue = s.scanQueue := rfl
@[simp] theorem State.emit_scanNext (s : State) (m : HostMsg) : (s.emit m).scanNext = s.scanNext := rfl
@[simp] theorem State.emit_scanCore (s : State) (m : HostMsg) : (s.emit m).scanCore = s.scanCore := rfl
@[simp] theorem State.emit_rotgap (s : State) (m : HostMsg) : (s.emit m).rotgap = s.rotgap := rfl
@[simp] theorem State.emit_corrected (s : State) (m : HostMsg) : (s.emit m).corrected = s.corrected := rfl
@[simp] theorem State.emit_retries (s : State) (m : HostMsg) : (s.emit m).retries = s.retries := rfl
@[simp] theorem State.emit_retrains (s : State) (m : HostMsg) : (s.emit m).retrains = s.retrains := rfl
@[simp] theorem State.emit_fabricUp (s : State) (m : HostMsg) : (s.emit m).fabricUp = s.fabricUp := rfl
@[simp] theorem State.emit_status (s : State) (m : HostMsg) : (s.emit m).status = s.status := rfl

/-! ## Reading a part after changing one -/

@[simp] theorem State.team?_setTeam (s : State) (t : Team) (u : Nat) :
    (s.setTeam t).team? u = if u = t.uid then some t else s.team? u := by
  unfold State.team?
  rw [State.setTeam_teams, NMap.find?_insert]
  split
  · next h => subst h; simp [Option.filter]
  · rfl

@[simp] theorem State.team?_dropTeam (s : State) (v u : Nat) :
    (s.dropTeam v).team? u = if u = v then none else s.team? u := by
  unfold State.team?
  rw [State.dropTeam_teams, NMap.find?_erase]
  split <;> rfl

/-- A team stands under its own number. -/
theorem State.team?_uid {s : State} {u : Nat} {t : Team} (h : s.team? u = some t) : t.uid = u := by
  unfold State.team? at h
  rw [Option.filter_eq_some_iff] at h
  exact eq_of_beq h.2

/-- A grid stands under its own number. -/
theorem State.grid?_id {s : State} {n : Nat} {g : Grid} (h : s.grid? n = some g) : g.id = n := by
  unfold State.grid? at h
  rw [Option.filter_eq_some_iff] at h
  exact eq_of_beq h.2

@[simp] theorem State.grid?_setGrid (s : State) (g : Grid) (n : Nat) :
    (s.setGrid g).grid? n = if n = g.id then some g else s.grid? n := by
  unfold State.grid?
  rw [State.setGrid_grids, NMap.find?_insert]
  split
  · next h => subst h; simp [Option.filter]
  · rfl

@[simp] theorem State.ctx?_setCtx (s : State) (c n : Nat) (x : Context) :
    (s.setCtx c x).ctx? n = if n = c then some x else s.ctx? n := by
  unfold State.ctx?; rw [State.setCtx_contexts, NMap.find?_insert]

@[simp] theorem State.core_setCore (s : State) (c n : Nat) (x : Core) :
    (s.setCore c x).core n = if n = c then x else s.core n := by
  unfold State.core; rw [State.setCore_cores, NMap.get_set]

@[simp] theorem State.core_onCore (s : State) (c n : Nat) (f : Core → Core) :
    (s.onCore c f).core n = if n = c then f (s.core c) else s.core n := State.core_setCore s c n _

@[simp] theorem State.mwe_setMwe (s : State) (c n : Nat) (x : Mwe) :
    (s.setMwe c x).mwe n = if n = c then x else s.mwe n := by
  unfold State.mwe; rw [State.setMwe_mwes, NMap.get_set]

@[simp] theorem State.mwe_onMwe (s : State) (c n : Nat) (f : Mwe → Mwe) :
    (s.onMwe c f).mwe n = if n = c then f (s.mwe c) else s.mwe n := State.mwe_setMwe s c n _

@[simp] theorem State.queue_setQueue (s : State) (c n : Nat) (x : Queue) :
    (s.setQueue c x).queue n = if n = c then x else s.queue n := by
  unfold State.queue; rw [State.setQueue_queues, NMap.get_set]

@[simp] theorem State.queue_onQueue (s : State) (c n : Nat) (f : Queue → Queue) :
    (s.onQueue c f).queue n = if n = c then f (s.queue c) else s.queue n := State.queue_setQueue s c n _

@[simp] theorem State.part_setPart (s : State) (c n : Nat) (x : Partition) :
    (s.setPart c x).part n = if n = c then x else s.part n := by
  unfold State.part; rw [State.setPart_partitions, NMap.get_set]

@[simp] theorem State.part_onPart (s : State) (c n : Nat) (f : Partition → Partition) :
    (s.onPart c f).part n = if n = c then f (s.part c) else s.part n := State.part_setPart s c n _

@[simp] theorem State.fn_setFn (s : State) (c n : Nat) (x : Function) :
    (s.setFn c x).fn n = if n = c then x else s.fn n := by
  unfold State.fn; rw [State.setFn_functions, NMap.get_set]

@[simp] theorem State.fn_onFn (s : State) (c n : Nat) (f : Function → Function) :
    (s.onFn c f).fn n = if n = c then f (s.fn c) else s.fn n := State.fn_setFn s c n _

theorem State.onTeam_some {s : State} {u : Nat} {t : Team} (f : Team → Team) (h : s.team? u = some t) :
    s.onTeam u f = s.setTeam (f t) := by
  unfold State.onTeam; rw [h]

theorem State.onTeam_none {s : State} {u : Nat} (f : Team → Team) (h : s.team? u = none) : s.onTeam u f = s := by
  unfold State.onTeam; rw [h]

theorem State.onSplit_some {s : State} {u : Nat} {t : Team} (e : Nat) (f : Split → Split) (h : s.team? u = some t) :
    s.onSplit u e f = s.setTeam (t.onSplit e f) := State.onTeam_some _ h

theorem State.onCtx_some {s : State} {c : Nat} {x : Context} (f : Context → Context) (h : s.ctx? c = some x) :
    s.onCtx c f = s.setCtx c (f x) := by
  unfold State.onCtx; rw [h]

theorem State.onGrid_some {s : State} {n : Nat} {g : Grid} (f : Grid → Grid) (h : s.grid? n = some g) :
    s.onGrid n f = s.setGrid (f g) := by
  unfold State.onGrid; rw [h]

/-! ## Splits of a team -/

theorem Team.split_setSplit (t : Team) (e k : Nat) (x : Split) :
    (t.setSplit e x).split k = if k = e ∧ e < t.splits.length then x else t.split k := by
  unfold Team.split Team.setSplit
  simp only [List.getD_eq_getElem?_getD, List.getElem?_set]
  by_cases h : e = k
  · subst h
    by_cases h2 : e < t.splits.length
    · simp [h2]
    · simp [h2]
  · have : ¬ (k = e ∧ e < t.splits.length) := fun h' => h h'.1.symm
    simp [h, this]

theorem Team.split_onSplit (t : Team) (e k : Nat) (f : Split → Split) :
    (t.onSplit e f).split k = if k = e ∧ e < t.splits.length then f (t.split e) else t.split k :=
  Team.split_setSplit t e k _

/-- An entry that holds a split is one of the table's. -/
theorem Team.split_lt {t : Team} {e : Nat} (h : (t.split e).state ≠ .free) : e < t.splits.length := by
  by_cases h2 : e < t.splits.length
  · exact h2
  · refine absurd ?_ h
    unfold Team.split
    rw [List.getD_eq_getElem?_getD, List.getElem?_eq_none (by omega)]
    rfl

@[simp] theorem Team.setSplit_length (t : Team) (e : Nat) (x : Split) :
    (t.setSplit e x).splits.length = t.splits.length := by
  simp [Team.setSplit]

/-- Changing a split changes nothing else of its team. -/
theorem Team.onSplit_rest (t : Team) (e : Nat) (f : Split → Split) :
    t.onSplit e f = { t with splits := (t.onSplit e f).splits } := rfl

end Sys2Proof.Machine
end

