-- ==== Sys2Proof/Laws/Finish.lean ====
section
/-!
SUPPORT. What ending an instruction may change: moving a split, its arrival, and the stop of a stepped one.
-/
namespace Sys2Proof.Machine

/-! ## Splits -/

theorem Team.onlySplits_refl (t : Team) : t.onlySplits t := rfl

theorem Team.onlySplits.trans {a b c : Team} (h : a.onlySplits b) (h' : b.onlySplits c) : a.onlySplits c := by
  unfold Team.onlySplits at *
  rw [h', h]

theorem Team.onlySplits_setSplit (t : Team) (e : Nat) (x : Split) : t.onlySplits (t.setSplit e x) := rfl

theorem Team.onlySplits_onSplit (t : Team) (e : Nat) (f : Split → Split) : t.onlySplits (t.onSplit e f) := rfl

theorem Team.onlySplits_reenter (t : Team) : t.onlySplits t.reenter := by
  unfold Team.reenter
  split <;> rfl

theorem Team.onlySplits_stopGroup (t : Team) (cls detail gts : Nat) (w : Word96) (rpc : U64) (b : Bool) (e g : Nat)
    (m : GMask) : t.onlySplits (t.stopGroup cls detail gts w rpc b e g m) := by
  rw [Team.stopGroup]
  by_cases h : (NMap.find? t.traps g).isSome = true
  · rw [if_pos h]; rfl
  · rw [if_neg h]; rfl

theorem Team.onlySplits_foldl {α : Type} (l : List α) (f : Team → α → Team) (h : ∀ (t : Team) x, t.onlySplits (f t x)) (t : Team) :
    t.onlySplits (l.foldl f t) := by
  induction l generalizing t with
  | nil => exact t.onlySplits_refl
  | cons x rest ih => exact (h t x).trans (ih _)

/-! ## What a change of one team leaves alone -/

theorem State.onlyTeam.refl (uid : Nat) (s : State) : State.onlyTeam uid s s := ⟨rfl, fun _ _ => rfl, fun _ => rfl⟩

theorem State.onlyTeam.trans {uid : Nat} {a b c : State} (h : State.onlyTeam uid a b) (h' : State.onlyTeam uid b c) :
    State.onlyTeam uid a c := by
  refine ⟨?_, fun u hu => (h'.2.1 u hu).trans (h.2.1 u hu), fun k => ?_⟩
  · rw [h'.1, h.1]
  · rw [h'.2.2 k, h.2.2 k]

theorem State.onlyTeam_setTeam (s : State) (t : Team) : State.onlyTeam t.uid s (s.setTeam t) := by
  refine ⟨rfl, fun u hu => ?_, fun _ => rfl⟩
  rw [State.team?_setTeam, if_neg hu]

theorem State.onlyTeam_setTeam_of {uid : Nat} (s : State) {t : Team} (h : t.uid = uid) :
    State.onlyTeam uid s (s.setTeam t) := by
  subst h; exact State.onlyTeam_setTeam s t

/-! ## Ending -/

/-- The change that ending an instruction makes: of team `uid` only splits, and of the rest what a change of one team may reach. -/
structure State.Ends (uid : Nat) (s s' : State) : Prop where
  onlyTeam : State.onlyTeam uid s s'
  mine : ∀ t, s.team? uid = some t → ∃ t', s'.team? uid = some t' ∧ t.onlySplits t'
  gone : s.team? uid = none → s'.team? uid = none

theorem State.Ends.refl (uid : Nat) (s : State) : State.Ends uid s s :=
  ⟨.refl uid s, fun t h => ⟨t, h, t.onlySplits_refl⟩, id⟩

theorem State.Ends.trans {uid : Nat} {a b c : State} (h : State.Ends uid a b) (h' : State.Ends uid b c) :
    State.Ends uid a c := by
  refine ⟨h.onlyTeam.trans h'.onlyTeam, fun t ht => ?_, fun hn => h'.gone (h.gone hn)⟩
  obtain ⟨t1, h1, e1⟩ := h.mine t ht
  obtain ⟨t2, h2, e2⟩ := h'.mine t1 h1
  exact ⟨t2, h2, e1.trans e2⟩

theorem State.Ends.foldl {α : Type} {uid : Nat} (l : List α) (f : State → α → State)
    (h : ∀ s x, State.Ends uid s (f s x)) (s : State) : State.Ends uid s (l.foldl f s) := by
  induction l generalizing s with
  | nil => exact .refl uid s
  | cons x rest ih => exact (h s x).trans (ih _)

theorem State.ends_setTeam {s : State} {uid : Nat} {t t' : Team} (h : s.team? uid = some t) (e : t.onlySplits t') :
    State.Ends uid s (s.setTeam t') := by
  have hu : t'.uid = uid := by rw [← State.team?_uid h, e]
  refine ⟨State.onlyTeam_setTeam_of s hu, fun t0 h0 => ⟨t', ?_, ?_⟩, fun hn => by simp [h] at hn⟩
  · rw [State.team?_setTeam, if_pos hu.symm]
  · rw [h] at h0; cases h0; exact e

theorem State.ends_onSplit (s : State) (uid e : Nat) (f : Split → Split) : State.Ends uid s (s.onSplit uid e f) := by
  cases h : s.team? uid with
  | none => unfold State.onSplit; rw [State.onTeam_none _ h]; exact .refl uid s
  | some t => rw [State.onSplit_some e f h]; exact State.ends_setTeam h (t.onlySplits_onSplit e f)

theorem State.ends_soon (s : State) (uid : Nat) (i : Instr) : State.Ends uid s (s.soon i) :=
  ⟨⟨rfl, fun _ _ => rfl, fun _ => rfl⟩, fun t h => ⟨t, h, t.onlySplits_refl⟩, id⟩

theorem State.ends_retryHeld (s : State) (uid v : Nat) : State.Ends uid s (s.retryHeld v) := by
  unfold State.retryHeld
  split
  · exact .refl uid s
  · refine State.Ends.foldl _ _ (fun s e => ?_) s
    split
    · exact State.ends_soon s uid _
    · exact .refl uid s

theorem State.ends_arrive (s : State) (uid e : Nat) : State.Ends uid s (s.arrive uid e) := by
  unfold State.arrive
  refine (State.ends_onSplit s uid e fun x => { x with hold := 0, holdOver := false }).trans ?_
  generalize s.onSplit uid e (fun x => { x with hold := 0, holdOver := false }) = s
  dsimp only
  split
  · exact .refl uid _
  · next t h =>
    split
    · exact .refl uid _
    · split
      · exact .refl uid _
      · refine State.Ends.trans (State.ends_setTeam h ?_) (State.ends_retryHeld _ uid uid)
        refine Team.onlySplits.trans ?_ (Team.onlySplits_foldl _ _ (fun t k => ?_) _)
        · rfl
        · split
          · exact t.onlySplits_refl
          · exact (t.onlySplits_setSplit k {}).trans (Team.onlySplits_reenter _)

theorem State.ends_restStall (s : State) (uid : Nat) : State.Ends uid s (s.restStall uid) := by
  unfold State.restStall
  split
  · exact .refl uid s
  · refine State.Ends.foldl _ _ (fun s e => ?_) s
    split
    · exact State.ends_onSplit ..
    · exact .refl uid s

theorem State.ends_stepStop (s : State) (uid : Nat) (es : List Nat) : State.Ends uid s (s.stepStop uid es) := by
  unfold State.stepStop
  split
  · exact .refl uid s
  · next t h =>
    refine State.Ends.trans (State.ends_setTeam h ?_) (State.ends_soon _ uid _)
    refine Team.onlySplits_foldl _ _ (fun t e => ?_) t
    refine (t.onlySplits_onSplit e _).trans (Team.onlySplits_foldl _ _ (fun t g => ?_) _)
    exact Team.onlySplits_stopGroup ..

theorem State.ends_moveTo (s : State) (uid e : Nat) (pc : U64) : State.Ends uid s (s.moveTo uid e pc) := by
  unfold State.moveTo
  dsimp only
  split
  · exact (State.ends_onSplit ..).trans (State.ends_stepStop ..)
  · exact ((State.ends_onSplit ..).trans (State.ends_arrive ..)).trans (State.ends_restStall ..)

theorem State.ends_goOn (s : State) (uid e : Nat) (w : Word96) : State.Ends uid s (s.goOn uid e w) := by
  unfold State.goOn State.hints
  split
  · exact .refl uid s
  · exact (State.ends_onSplit ..).trans (State.ends_moveTo ..)

theorem State.ends_pass (s : State) (c : Cur) (gs : GMask) : State.Ends c.uid s (s.pass c gs) := by
  unfold State.pass
  split
  · exact .refl _ s
  · exact State.ends_onSplit ..

/-- Ending an instruction that the scheduler issued changes of its team only splits, and of the rest only events. -/
theorem State.ends_finish (s : State) (c : Cur) (h : c.replay = none) : State.Ends c.uid s (s.finish c) := by
  unfold State.finish
  rw [h]
  dsimp only
  split
  · exact .refl _ s
  · split
    · exact .refl _ s
    · split
      · exact State.ends_goOn ..
      · exact State.ends_pass ..

/-! ## Where the split stands -/

/-- A split that holds an entry keeps it, whatever enters a free one. -/
theorem Team.split_reenter {t : Team} {k : Nat} (h : (t.split k).state ≠ .free) : t.reenter.split k = t.split k := by
  unfold Team.reenter
  cases hf : t.freeEntry with
  | none => rfl
  | some e =>
    cases hr : t.frontier with
    | nil => rfl
    | cons r rest =>
      have he : (t.split e).state = .free := by
        unfold Team.freeEntry at hf
        simpa using List.find?_some hf
      have hne : k ≠ e := by
        rintro rfl; exact h he
      show (t.addSplit e r.pc r.age r.mask).split k = t.split k
      unfold Team.addSplit
      rw [Team.split_setSplit, if_neg (fun h => hne h.1)]

theorem Team.keep_fold {keep : Nat} {x : Split} (hx : x.state ≠ .free) (ls : List Nat) (t : Team) (h : t.split keep = x) :
    (ls.foldl (fun t k => if k = keep then t else (t.setSplit k {}).reenter) t).split keep = x := by
  induction ls generalizing t with
  | nil => exact h
  | cons k rest ih =>
    rw [List.foldl_cons]
    apply ih
    by_cases hk : k = keep
    · rw [if_pos hk]; exact h
    · rw [if_neg hk]
      have h1 : (t.setSplit k {}).split keep = x := by
        rw [Team.split_setSplit, if_neg (fun h => hk h.1.symm)]; exact h
      rw [Team.split_reenter (by rw [h1]; exact hx)]
      exact h1

theorem foldl_choice {α : Type} (P : α → Prop) (p : α → α → Bool) (ls : List α) (a : α) (ha : P a)
    (hl : ∀ x ∈ ls, P x) : P (ls.foldl (fun b k => if p b k then k else b) a) := by
  induction ls generalizing a with
  | nil => exact ha
  | cons x rest ih =>
    rw [List.foldl_cons]
    apply ih
    · split
      · exact hl x List.mem_cons_self
      · exact ha
    · exact fun y hy => hl y (List.mem_cons_of_mem _ hy)

theorem Mask.has_foldl_or {α : Type} (g : α → Mask) (ls : List α) (m : Mask) (l : Nat)
    (h : Mask.has m l = true ∨ ∃ x ∈ ls, Mask.has (g x) l = true) :
    Mask.has (ls.foldl (fun m x => m ||| g x) m) l = true := by
  induction ls generalizing m with
  | nil =>
    rcases h with h | ⟨x, hx, _⟩
    · exact h
    · cases hx
  | cons x rest ih =>
    rw [List.foldl_cons]
    apply ih
    rcases h with h | ⟨y, hy, hy'⟩
    · left; simp [Mask.has] at *; simp [h]
    · rcases List.mem_cons.1 hy with rfl | hy
      · left; simp [Mask.has] at *; simp [hy']
      · exact .inr ⟨y, hy, hy'⟩

theorem State.team?_retryHeld (s : State) (v u : Nat) : (s.retryHeld v).team? u = s.team? u := by
  have h := State.ends_retryHeld s (u + 1) v
  exact h.onlyTeam.2.1 u (by omega)

/-- After its arrival, the lanes of a split stand where it has arrived. -/
theorem State.arrive_stands {s : State} {uid e : Nat} {t : Team} (h : s.team? uid = some t)
    (hs : (t.split e).state ≠ .free) : ∃ t', (s.arrive uid e).team? uid = some t' ∧
      t'.stands (t.split e).pc (t.split e).mask := by
  have hlt := Team.split_lt hs
  have hu := State.team?_uid h
  unfold State.arrive
  rw [State.onSplit_some e _ h]
  dsimp only
  generalize ht1 : t.onSplit e (fun x => { x with hold := 0, holdOver := false }) = t1
  have h1 : (s.setTeam t1).team? uid = some t1 := by
    rw [State.team?_setTeam, if_pos]; rw [← ht1]; exact hu.symm
  have hx : t1.split e = { t.split e with hold := 0, holdOver := false } := by
    rw [← ht1, Team.split_onSplit, if_pos ⟨rfl, hlt⟩]
  have hlt1 : e < t1.splits.length := Team.split_lt (by rw [hx]; exact hs)
  have hbase : t1.stands (t.split e).pc (t.split e).mask := ⟨e, by rw [hx]; exact hs, by rw [hx], fun l hl => by rw [hx]; exact hl⟩
  rw [h1]
  dsimp only
  split
  · exact ⟨t1, h1, hbase⟩
  · split
    · exact ⟨t1, h1, hbase⟩
    · next hready _ =>
      generalize hps : t1.entries.filter (fun k => k ≠ e && (t1.split k).state = .ready && (t1.split k).pc = (t1.split e).pc &&
        !(s.setTeam t1).cur.any fun c => c.uid = uid && c.e = k && c.pc = (t1.split e).pc) = partners at *
      generalize hk : (e :: partners).foldl (fun b k =>
        if (t1.split k).age < (t1.split b).age || ((t1.split k).age = (t1.split b).age && k < b) then k else b) e = keep
      have hkp : (t1.split keep).state = .ready ∧ (t1.split keep).pc = (t1.split e).pc := by
        have he : (t1.split e).state = .ready ∧ (t1.split e).pc = (t1.split e).pc := by
          refine ⟨?_, rfl⟩
          by_cases hr : (t1.split e).state = .ready
          · exact hr
          · exact absurd (by simp [hr]) hready
        rw [← hk]
        refine foldl_choice (fun k => (t1.split k).state = .ready ∧ (t1.split k).pc = (t1.split e).pc) _ _ _ he ?_
        intro x hx
        rcases List.mem_cons.1 hx with rfl | hx
        · exact he
        · rw [← hps, List.mem_filter] at hx
          have := hx.2
          simp at this
          exact ⟨this.1.1.2, this.1.2⟩
      have hklt : keep < t1.splits.length := Team.split_lt (by rw [hkp.1]; simp)
      have hready' : ∀ y : Split, y.state = .ready → y.state ≠ .free := by intro y hy; rw [hy]; simp
      -- the team after the merge
      suffices ∀ (s1 : State) (t2 : Team), t1.onlySplits t2 → ∀ y : Split, t2.split keep = y → y.state ≠ .free → y.pc = (t1.split e).pc →
          (∀ l, Mask.has (t1.split e).mask l = true → Mask.has y.mask l = true) →
          ∃ t', ((s1.setTeam t2).retryHeld uid).team? uid = some t' ∧
            t'.stands (t.split e).pc (t.split e).mask by
        refine this _ _ ?_ _ (Team.keep_fold (hready' _ ?_) _ _ (Team.split_onSplit _ _ _ _ |>.trans
          (if_pos ⟨rfl, hklt⟩))) (hready' _ ?_) ?_ ?_
        · refine Team.onlySplits.trans ?_ (Team.onlySplits_foldl _ _ (fun t k => ?_) _)
          · rfl
          · split
            · exact t.onlySplits_refl
            · exact (t.onlySplits_setSplit k {}).trans (Team.onlySplits_reenter _)
        · exact hkp.1
        · exact hkp.1
        · exact hkp.2
        · intro l hl
          exact Mask.has_foldl_or _ _ _ _ (.inl (Mask.has_foldl_or (fun k => (t1.split k).mask) _ _ _
            (.inr ⟨e, List.mem_cons_self, hl⟩)))
      intro s1 t2 ho y hy hfree hpc hmask
      refine ⟨t2, ?_, keep, by rw [hy]; exact hfree, ?_, fun l hl => ?_⟩
      · rw [State.team?_retryHeld, State.team?_setTeam, if_pos]
        have : t2.uid = t1.uid := by rw [ho]
        rw [this, ← ht1]; exact hu.symm
      · rw [hy, hpc, hx]
      · rw [hy]; apply hmask; rw [hx]; exact hl

theorem Team.stands.onlySplits_traps {t t' : Team} (h : t'.splits = t.splits) {pc : U64} {m : Mask}
    (hs : t.stands pc m) : t'.stands pc m := by
  obtain ⟨e, h0, h1, h2⟩ := hs
  refine ⟨e, ?_, ?_, ?_⟩ <;> (unfold Team.split at *; rw [h]; assumption)

theorem Team.stopGroup_splits (t : Team) (cls detail gts : Nat) (w : Word96) (rpc : U64) (b : Bool) (e g : Nat)
    (m : GMask) : (t.stopGroup cls detail gts w rpc b e g m).splits = t.splits := by
  rw [Team.stopGroup]
  by_cases h : (NMap.find? t.traps g).isSome = true
  · rw [if_pos h]
  · rw [if_neg h]

theorem State.stepStop_stands {s : State} {uid e : Nat} {t : Team} (h : s.team? uid = some t)
    (hs : (t.split e).state ≠ .free) : ∃ t', (s.stepStop uid [e]).team? uid = some t' ∧
      t'.stands (t.split e).pc (t.split e).mask := by
  have hlt := Team.split_lt hs
  have hu := State.team?_uid h
  unfold State.stepStop
  rw [h]
  dsimp only
  suffices ∀ t2 : Team, t.onlySplits t2 → t2.stands (t.split e).pc (t.split e).mask →
      ∃ t', ((s.setTeam t2).soon (.trapFrameGrant t2.core)).team? uid = some t' ∧
        t'.stands (t.split e).pc (t.split e).mask by
    rw [List.foldl_cons, List.foldl_nil]
    refine this _ ?_ ?_
    · exact (t.onlySplits_onSplit e _).trans (Team.onlySplits_foldl _ _ (fun t g => Team.onlySplits_stopGroup ..) _)
    · apply Team.stands.onlySplits_traps (t := t.onSplit e fun x =>
        { x.fresh with state := .debug, stepping := false, stopped := true })
      · exact foldl_keep Team.splits _ _ (fun t x _ => Team.stopGroup_splits ..) _
      · refine ⟨e, ?_, ?_, fun l hl => ?_⟩ <;> rw [Team.split_onSplit, if_pos ⟨rfl, hlt⟩]
        · simp
        · rfl
        · exact hl
  intro t2 ho hst
  refine ⟨t2, ?_, hst⟩
  show (s.setTeam t2).team? uid = _
  rw [State.team?_setTeam, if_pos]
  rw [ho]; exact hu.symm

/-- A change of a split that leaves its address, its lanes and that it holds an entry leaves lanes where they stand. -/
theorem State.onSplit_stands {s : State} {uid k : Nat} {pc : U64} {m : Mask} {t : Team} (f : Split → Split)
    (hf : ∀ x, (f x).pc = x.pc ∧ (f x).mask = x.mask ∧ (x.state ≠ .free → (f x).state ≠ .free)) (h : s.team? uid = some t)
    (hs : t.stands pc m) : ∃ t', (s.onSplit uid k f).team? uid = some t' ∧ t'.stands pc m := by
  rw [State.onSplit_some _ _ h]
  refine ⟨t.onSplit k f, by rw [State.team?_setTeam, if_pos]; exact (State.team?_uid h).symm, ?_⟩
  obtain ⟨e, h0, h1, h2⟩ := hs
  refine ⟨e, ?_, ?_, fun l hl => ?_⟩ <;> rw [Team.split_onSplit] <;> split
  · next hk => rw [← hk.1]; exact (hf _).2.2 h0
  · exact h0
  · next hk => rw [← hk.1, (hf _).1]; exact h1
  · exact h1
  · next hk => rw [← hk.1, (hf _).2.1]; exact h2 l hl
  · exact h2 l hl

theorem State.restStall_stands {s : State} {uid : Nat} {pc : U64} {m : Mask} {t : Team} (h : s.team? uid = some t)
    (hs : t.stands pc m) : ∃ t', (s.restStall uid).team? uid = some t' ∧ t'.stands pc m := by
  unfold State.restStall
  rw [h]
  dsimp only
  suffices ∀ (ls : List Nat) (s : State), (∃ t, s.team? uid = some t ∧ t.stands pc m) →
      ∃ t', (ls.foldl (fun s e => if (t.split e).state = .ready && (t.split e).stall ≠ 0 && !s.entryHolds t e then
        s.onSplit uid e fun x => { x with state := .wait, waiting := .stall } else s) s).team? uid = some t' ∧ t'.stands pc m from
    this _ s ⟨t, h, hs⟩
  intro ls
  induction ls with
  | nil => exact fun s h => h
  | cons k rest ih =>
    rintro s ⟨t1, h1, hs1⟩
    rw [List.foldl_cons]
    apply ih
    split
    · exact State.onSplit_stands _ (fun x => ⟨rfl, rfl, fun _ => by simp⟩) h1 hs1
    · exact ⟨t1, h1, hs1⟩

/-- A split that moves past its instruction stands, with all its lanes, at the next one. -/
theorem State.goOn_stands {s : State} {uid e : Nat} {w : Word96} {t : Team} (h : s.team? uid = some t)
    (hs : (t.split e).state ≠ .free) :
    ∃ t', (s.goOn uid e w).team? uid = some t' ∧ t'.stands ((t.split e).pc + 12) (t.split e).mask := by
  have hlt := Team.split_lt hs
  have hu := State.team?_uid h
  unfold State.goOn State.hints
  rw [h]
  dsimp only
  rw [State.onSplit_some _ _ h]
  generalize ht1 : t.onSplit e (fun x => { x with stall := x.stall + bitsAt w.toNat 8 3, yld := w[7] }) = t1
  have h1 : (s.setTeam t1).team? uid = some t1 := by
    rw [State.team?_setTeam, if_pos]; rw [← ht1]; exact hu.symm
  have hm1 : (t1.split e).mask = (t.split e).mask := by
    rw [← ht1, Team.split_onSplit, if_pos ⟨rfl, hlt⟩]
  have hlt1 : e < t1.splits.length := by rw [← ht1]; simpa [Team.onSplit] using hlt
  unfold State.moveTo
  dsimp only
  rw [State.onSplit_some _ _ h1]
  generalize ht2 : t1.onSplit e (fun x => { x.fresh with pc := (t.split e).pc + 12, stopped := false }) = t2
  have h2 : ((s.setTeam t1).setTeam t2).team? uid = some t2 := by
    rw [State.team?_setTeam, if_pos]; rw [← ht2, ← ht1]; exact hu.symm
  have hx2 : (t2.split e).pc = (t.split e).pc + 12 ∧ (t2.split e).mask = (t.split e).mask ∧ (t2.split e).state = .ready := by
    rw [← ht2, Team.split_onSplit, if_pos ⟨rfl, hlt1⟩]
    exact ⟨rfl, hm1, rfl⟩
  rw [← hx2.1, ← hx2.2.1]
  split
  · exact State.stepStop_stands h2 (by rw [hx2.2.2]; simp)
  · obtain ⟨t3, h3, hs3⟩ := State.arrive_stands h2 (by rw [hx2.2.2]; simp)
    exact State.restStall_stands h3 hs3

/-- After an instruction that the scheduler issued, its passes are over. -/
theorem State.finish_ends {s : State} {c : Cur} {t : Team} (h : s.team? c.uid = some t) (hp : c.replay = none)
    (hs : (t.split c.e).state ≠ .free) (hpc : c.pc = (t.split c.e).pc) (hm : c.mask = (t.split c.e).mask)
    (hm0 : (t.split c.e).mask ≠ 0) : ∃ t', (s.finish c).team? c.uid = some t' ∧ t'.ends t c := by
  have hlt := Team.split_lt hs
  unfold State.finish
  rw [hp]
  dsimp only
  rw [h]
  dsimp only
  rw [if_neg (by rw [Bool.or_eq_true, decide_eq_true_iff, decide_eq_true_iff, hm, BitVec.and_self]; exact fun h' => h'.elim hs hm0)]
  split
  · next hl =>
    obtain ⟨t', h1, h2⟩ := State.goOn_stands (w := c.word) h hs
    refine ⟨t', h1, fun _ => ?_, fun hn => absurd hl hn⟩
    rw [hpc, hm]; exact h2
  · next hl =>
    unfold State.pass
    rw [hp, if_neg (by simp), State.onSplit_some _ _ h]
    refine ⟨_, by rw [State.team?_setTeam, if_pos]; exact (State.team?_uid h).symm, fun hl' => absurd hl' hl, fun _ => ⟨c.word, rfl, ?_⟩⟩
    rw [Team.split_onSplit, if_pos ⟨rfl, hlt⟩]

/-- The passes are over, whatever register of the team has changed since. -/
theorem Team.ends.of_splits {t' t u : Team} {c : Cur} (h : t'.ends u c) (e : u.splits = t.splits) : t'.ends t c := by
  have : ∀ k, u.split k = t.split k := fun k => by unfold Team.split; rw [e]
  unfold Team.ends Cur.isLast at *
  rw [← this]; exact h

end Sys2Proof.Machine
end

