-- ==== Sys2Proof/Laws/Mask.lean ====
section
/-!
SUPPORT. Masks: which lanes the operations on masks of lanes and sets of groups give.
-/
namespace Sys2Proof.Machine

theorem Mask.has_lt {m : Mask} {l : Nat} (h : Mask.has m l = true) : l < 1024 := by
  unfold Mask.has at h
  exact BitVec.lt_of_getLsbD h

@[simp] theorem Mask.has_zero (l : Nat) : Mask.has 0#1024 l = false := by simp [Mask.has]

@[simp] theorem Mask.has_or (a b : Mask) (l : Nat) : Mask.has (a ||| b) l = (Mask.has a l || Mask.has b l) := by
  simp [Mask.has]

@[simp] theorem Mask.has_and (a b : Mask) (l : Nat) : Mask.has (a &&& b) l = (Mask.has a l && Mask.has b l) := by
  simp [Mask.has]

theorem Mask.has_not (a : Mask) (l : Nat) : Mask.has (~~~a) l = (decide (l < 1024) && !Mask.has a l) := by
  simp [Mask.has]

@[simp] theorem Mask.has_one (a l : Nat) : Mask.has (Mask.one a) l = (decide (l < 1024) && decide (l = a)) := by
  unfold Mask.has Mask.one
  rw [BitVec.getLsbD_shiftLeft]
  rw [Bool.eq_iff_iff]
  simp
  omega

theorem Mask.eq_of_has {a b : Mask} (h : ∀ l, l < 1024 → Mask.has a l = Mask.has b l) : a = b :=
  BitVec.eq_of_getLsbD_eq h

theorem GMask.mem_list (w : GMask) (k : Nat) : k ∈ GMask.list w ↔ w.getLsbD k = true := by
  unfold GMask.list
  rw [List.mem_filter, List.mem_range]
  exact ⟨fun h => h.2, fun h => ⟨BitVec.lt_of_getLsbD h, h⟩⟩

theorem GMask.nodup_list (w : GMask) : (GMask.list w).Nodup := List.Pairwise.filter _ List.nodup_range

theorem Mask.word_bit (m : Mask) (g k : Nat) : (Mask.word m g).getLsbD k = (decide (k < 32) && Mask.has m (32 * g + k)) := by
  unfold Mask.word Mask.has
  rw [BitVec.getLsbD_extractLsb']

/-- The lanes of group `g` of a mask. -/
theorem Mask.mem_lanesOf (m : Mask) (g l : Nat) : l ∈ Mask.lanesOf m g ↔ l / 32 = g ∧ Mask.has m l = true := by
  unfold Mask.lanesOf
  rw [List.mem_map]
  constructor
  · rintro ⟨k, hk, rfl⟩
    rw [GMask.mem_list, Mask.word_bit] at hk
    simp at hk
    exact ⟨by omega, hk.2⟩
  · rintro ⟨hg, hm⟩
    refine ⟨l % 32, ?_, by omega⟩
    rw [GMask.mem_list, Mask.word_bit, show 32 * g + l % 32 = l by omega]
    simp [hm]; omega

theorem Mask.nodup_lanesOf (m : Mask) (g : Nat) : (Mask.lanesOf m g).Nodup := by
  unfold Mask.lanesOf
  refine List.Pairwise.map _ ?_ (GMask.nodup_list _)
  intro a b hab h
  exact hab (by omega)

theorem Mask.word_eq_zero (m : Mask) (g : Nat) : Mask.word m g = 0 ↔ ∀ l, l / 32 = g → Mask.has m l = false := by
  constructor
  · intro h l hl
    have := Mask.word_bit m g (l % 32)
    rw [h, show 32 * g + l % 32 = l by omega] at this
    simp [Nat.mod_lt] at this
    exact this
  · intro h
    apply BitVec.eq_of_getLsbD_eq
    intro k hk
    rw [Mask.word_bit, h (32 * g + k) (by omega)]
    simp

theorem GMask.bit_or_one (w : GMask) (g k : Nat) :
    (w ||| ((1 : GMask) <<< g)).getLsbD k = (w.getLsbD k || (decide (k < 32) && decide (k = g))) := by
  rw [BitVec.getLsbD_or, BitVec.getLsbD_shiftLeft]
  by_cases hk : k < 32
  · by_cases hg : k = g
    · subst hg; simp [hk]
    · by_cases hlt : k < g
      · simp [hg, hlt]
      · have : k - g ≠ 0 := by omega
        simp [hk, hg, hlt, this]
  · simp [hk]

theorem Mask.groups_fold (m : Mask) (ls : List Nat) (w : GMask) (k : Nat) :
    (ls.foldl (fun acc g => if Mask.word m g = 0 then acc else acc ||| ((1 : GMask) <<< g)) w).getLsbD k =
      (w.getLsbD k || (decide (k < 32) && (ls.contains k && Mask.word m k != 0))) := by
  induction ls generalizing w with
  | nil => simp
  | cons g rest ih =>
    rw [List.foldl_cons, ih, List.contains_cons]
    by_cases h : Mask.word m g = 0
    · rw [if_pos h]
      by_cases hk : k = g
      · subst hk; simp [h]
      · have : (k == g) = false := by simpa using hk
        rw [this, Bool.false_or]
    · rw [if_neg h, GMask.bit_or_one]
      by_cases hk : k = g
      · subst hk
        have h' : (Mask.word m k != 0) = true := by simpa using h
        rw [h']
        simp
        cases BitVec.getLsbD w k <;> simp
        intro a _; exact a
      · have : (k == g) = false := by simpa using hk
        rw [this, Bool.false_or]
        simp [hk]

/-- The groups with a lane of a mask. -/
theorem Mask.mem_groups (m : Mask) (g : Nat) :
    g ∈ GMask.list (Mask.groups m) ↔ ∃ l, l / 32 = g ∧ Mask.has m l = true := by
  rw [GMask.mem_list]
  unfold Mask.groups
  rw [Mask.groups_fold]
  have hz : (0 : GMask).getLsbD g = false := by simp
  rw [hz, Bool.false_or, Bool.and_eq_true, Bool.and_eq_true, decide_eq_true_iff, bne_iff_ne]
  constructor
  · rintro ⟨_, _, h⟩
    rw [Ne, Mask.word_eq_zero] at h
    simpa using h
  · rintro ⟨l, hl, hm⟩
    have hlt := Mask.has_lt hm
    refine ⟨by omega, by simp; omega, fun h => ?_⟩
    rw [Mask.word_eq_zero] at h
    rw [h l hl] at hm
    cases hm

theorem Mask.mem_list (m : Mask) (l : Nat) : l ∈ Mask.list m ↔ Mask.has m l = true := by
  unfold Mask.list
  rw [List.mem_flatMap]
  constructor
  · rintro ⟨g, _, h⟩; exact ((Mask.mem_lanesOf m g l).1 h).2
  · intro h
    exact ⟨l / 32, (Mask.mem_groups m _).2 ⟨l, rfl, h⟩, (Mask.mem_lanesOf m _ l).2 ⟨rfl, h⟩⟩

theorem Mask.has_foldl_one (ls : List Nat) (a : Mask) (l : Nat) :
    Mask.has (ls.foldl (fun acc x => acc ||| Mask.one x) a) l =
      (Mask.has a l || (decide (l < 1024) && ls.contains l)) := by
  induction ls generalizing a with
  | nil => simp
  | cons x rest ih =>
    rw [List.foldl_cons, ih, Mask.has_or, Mask.has_one, List.contains_cons]
    by_cases h : l = x
    · subst h; cases Mask.has a l <;> by_cases h1 : l < 1024 <;> simp [h1]
    · have : (l == x) = false := by simpa using h
      simp [h, this]

@[simp] theorem Mask.has_ofList (ls : List Nat) (l : Nat) :
    Mask.has (Mask.ofList ls) l = (decide (l < 1024) && ls.contains l) := by
  unfold Mask.ofList
  rw [Mask.has_foldl_one, show (0 : Mask) = 0#1024 from rfl, Mask.has_zero, Bool.false_or]

theorem Mask.has_ofWord (g l : Nat) (w : GMask) :
    Mask.has (Mask.ofWord g w) l = (decide (l < 1024) && decide (l / 32 = g) && w.getLsbD (l % 32)) := by
  unfold Mask.has Mask.ofWord
  rw [BitVec.getLsbD_shiftLeft, BitVec.getLsbD_setWidth]
  by_cases h : l / 32 = g
  · subst h
    have h2 : ¬ l < 32 * (l / 32) := by omega
    rw [show l - 32 * (l / 32) = l % 32 by omega]
    by_cases h1 : l < 1024
    · have : l % 32 < 1024 := by omega
      simp [h1, this, h2]
    · simp [h1]
  · by_cases h1 : l < 32 * g
    · simp [h, h1]
    · have : w.getLsbD (l - 32 * g) = false := BitVec.getLsbD_of_ge _ _ (by omega)
      simp [h, this]

theorem Mask.inGroups_fold (m : Mask) (gs : List Nat) (a : Mask) (l : Nat) :
    Mask.has (gs.foldl (fun acc g => acc ||| Mask.ofWord g (Mask.word m g)) a) l =
      (Mask.has a l || (Mask.has m l && gs.contains (l / 32))) := by
  induction gs generalizing a with
  | nil => simp
  | cons g rest ih =>
    rw [List.foldl_cons, ih, Mask.has_or, Mask.has_ofWord, Mask.word_bit, List.contains_cons]
    by_cases hg : l / 32 = g
    · rw [show 32 * g + l % 32 = l by omega]
      by_cases hl : l < 1024
      · simp [hg, hl, Nat.mod_lt]
        cases Mask.has a l <;> cases Mask.has m l <;> simp
      · have : Mask.has m l = false := by
          cases h : Mask.has m l
          · rfl
          · exact absurd (Mask.has_lt h) hl
        simp [this]
    · have : (l / 32 == g) = false := by simpa using hg
      rw [this]; simp [hg]

/-- The lanes of the groups of a set. -/
@[simp] theorem Mask.has_inGroups (m : Mask) (gs : GMask) (l : Nat) :
    Mask.has (Mask.inGroups m gs) l = (Mask.has m l && gs.getLsbD (l / 32)) := by
  unfold Mask.inGroups
  rw [Mask.inGroups_fold, show (0 : Mask) = 0#1024 from rfl, Mask.has_zero, Bool.false_or]
  congr 1
  rw [Bool.eq_iff_iff, List.contains_iff_mem, GMask.mem_list]

end Sys2Proof.Machine
end

