-- ==== Sys2Proof/Laws/Regs.lean ====
section
/-!
SUPPORT. Registers: a read after a write, and what a write leaves alone. Vector register numbers stay below 512 and
predicate numbers below 16, so that the keys of different lanes differ.
-/
namespace Sys2Proof.Machine

theorem vKey_eq {l n l' n' : Nat} (h : n < 512) (h' : n' < 512) : vKey l n = vKey l' n' ↔ l = l' ∧ n = n' := by
  unfold vKey; omega

theorem pKey_eq {l n l' n' : Nat} (h : n < 16) (h' : n' < 16) : pKey l n = pKey l' n' ↔ l = l' ∧ n = n' := by
  unfold pKey; omega

/-! ## Fields that an update leaves alone, by `rfl` -/

@[simp] theorem Regs.setV_s (r : Regs) (l n : Nat) (x : U32) (b : Bool) : (r.setV l n x b).s = r.s := rfl
@[simp] theorem Regs.setV_sPoison (r : Regs) (l n : Nat) (x : U32) (b : Bool) : (r.setV l n x b).sPoison = r.sPoison := rfl
@[simp] theorem Regs.setV_p (r : Regs) (l n : Nat) (x : U32) (b : Bool) : (r.setV l n x b).p = r.p := rfl
@[simp] theorem Regs.setV_pPoison (r : Regs) (l n : Nat) (x : U32) (b : Bool) : (r.setV l n x b).pPoison = r.pPoison := rfl
@[simp] theorem Regs.setP_v (r : Regs) (l n : Nat) (x b : Bool) : (r.setP l n x b).v = r.v := rfl
@[simp] theorem Regs.setP_vPoison (r : Regs) (l n : Nat) (x b : Bool) : (r.setP l n x b).vPoison = r.vPoison := rfl
@[simp] theorem Regs.setP_s (r : Regs) (l n : Nat) (x b : Bool) : (r.setP l n x b).s = r.s := rfl
@[simp] theorem Regs.setP_sPoison (r : Regs) (l n : Nat) (x b : Bool) : (r.setP l n x b).sPoison = r.sPoison := rfl
@[simp] theorem Regs.setS_v (r : Regs) (n : Nat) (x : U64) (b : Bool) : (r.setS n x b).v = r.v := rfl
@[simp] theorem Regs.setS_p (r : Regs) (n : Nat) (x : U64) (b : Bool) : (r.setS n x b).p = r.p := rfl
@[simp] theorem Regs.setFlag_v (r : Regs) (a b : Mask) : (r.setFlag a b).v = r.v := rfl
@[simp] theorem Regs.setFlag_s (r : Regs) (a b : Mask) : (r.setFlag a b).s = r.s := rfl
@[simp] theorem Regs.setFlag_p (r : Regs) (a b : Mask) : (r.setFlag a b).p = r.p := rfl

/-! ## One register -/

theorem Regs.getV_setV (r : Regs) {l n l' n' : Nat} (x : U32) (b : Bool) (h : n < 512) (h' : n' < 512) :
    (r.setV l n x b).getV l' n' = if l' = l ∧ n' = n then x else r.getV l' n' := by
  unfold Regs.setV Regs.getV
  simp only [NMap.get_set, vKey_eq h' h]

theorem Regs.badV_setV (r : Regs) {l n l' n' : Nat} (x : U32) (b : Bool) (h : n < 512) (h' : n' < 512) :
    (r.setV l n x b).badV l' n' = if l' = l ∧ n' = n then b else r.badV l' n' := by
  unfold Regs.setV Regs.badV
  simp only [NSet.mem_put, vKey_eq h' h]

theorem Regs.getP_setP (r : Regs) {l n l' n' : Nat} (x b : Bool) (h : n < 16) (h' : n' < 16) :
    (r.setP l n x b).getP l' n' = if l' = l ∧ n' = n then x else r.getP l' n' := by
  unfold Regs.setP Regs.getP
  simp only [NSet.mem_put, pKey_eq h' h]

theorem Regs.badP_setP (r : Regs) {l n l' n' : Nat} (x b : Bool) (h : n < 16) (h' : n' < 16) :
    (r.setP l n x b).badP l' n' = if l' = l ∧ n' = n then b else r.badP l' n' := by
  unfold Regs.setP Regs.badP
  simp only [NSet.mem_put, pKey_eq h' h]

@[simp] theorem Regs.getS_setS (r : Regs) (n n' : Nat) (x : U64) (b : Bool) :
    (r.setS n x b).getS n' = if n' = n then x else r.getS n' := by
  unfold Regs.setS Regs.getS; simp only [NMap.get_set]

@[simp] theorem Regs.badS_setS (r : Regs) (n n' : Nat) (x : U64) (b : Bool) :
    (r.setS n x b).badS n' = if n' = n then b else r.badS n' := by
  unfold Regs.setS Regs.badS; simp only [NSet.mem_put]

@[simp] theorem Regs.getH_setH (r : Regs) (n n' : Nat) (x : U64) (b : Bool) :
    (r.setH n x b).getH n' = if n' = n then x else r.getH n' := by
  unfold Regs.setH Regs.getH; simp only [NMap.get_set]

@[simp] theorem Regs.link_setLink (r : Regs) (l l' : Nat) (x : List U64) :
    (r.setLink l x).link l' = if l' = l then x else r.link l' := by
  unfold Regs.setLink Regs.link; simp only [NMap.get_set]

@[simp] theorem Regs.getV_setP (r : Regs) (l n l' n' : Nat) (x b : Bool) : (r.setP l n x b).getV l' n' = r.getV l' n' := rfl
@[simp] theorem Regs.badV_setP (r : Regs) (l n l' n' : Nat) (x b : Bool) : (r.setP l n x b).badV l' n' = r.badV l' n' := rfl
@[simp] theorem Regs.getP_setV (r : Regs) (l n l' n' : Nat) (x : U32) (b : Bool) : (r.setV l n x b).getP l' n' = r.getP l' n' := rfl
@[simp] theorem Regs.badP_setV (r : Regs) (l n l' n' : Nat) (x : U32) (b : Bool) : (r.setV l n x b).badP l' n' = r.badP l' n' := rfl

/-! ## Groups of vector registers -/

theorem Regs.getV_setVs (k : Nat) (r : Regs) {l n l' n' : Nat} (b : Bool) (x : Nat) (h : n + k ≤ 512) (h' : n' < 512)
    (hne : l' ≠ l ∨ n' < n ∨ n + k ≤ n') : (r.setVs l n b k x).getV l' n' = r.getV l' n' := by
  induction k generalizing r n x with
  | zero => rfl
  | succ k ih =>
    rw [Regs.setVs, ih _ _ (by omega) (by omega), Regs.getV_setV _ _ _ (by omega) h', if_neg (by omega)]

theorem Regs.badV_setVs (k : Nat) (r : Regs) {l n l' n' : Nat} (b : Bool) (x : Nat) (h : n + k ≤ 512) (h' : n' < 512)
    (hne : l' ≠ l ∨ n' < n ∨ n + k ≤ n') : (r.setVs l n b k x).badV l' n' = r.badV l' n' := by
  induction k generalizing r n x with
  | zero => rfl
  | succ k ih =>
    rw [Regs.setVs, ih _ _ (by omega) (by omega), Regs.badV_setV _ _ _ (by omega) h', if_neg (by omega)]

@[simp] theorem Regs.getP_setVs (k : Nat) (r : Regs) (l n l' n' : Nat) (b : Bool) (x : Nat) :
    (r.setVs l n b k x).getP l' n' = r.getP l' n' := by
  induction k generalizing r n x with
  | zero => rfl
  | succ k ih => rw [Regs.setVs, ih, Regs.getP_setV]

@[simp] theorem Regs.badP_setVs (k : Nat) (r : Regs) (l n l' n' : Nat) (b : Bool) (x : Nat) :
    (r.setVs l n b k x).badP l' n' = r.badP l' n' := by
  induction k generalizing r n x with
  | zero => rfl
  | succ k ih => rw [Regs.setVs, ih, Regs.badP_setV]

/-- Writing a group of vector registers changes, besides the values and poison of vector registers, nothing. -/
theorem Regs.setVs_rest (k : Nat) (r : Regs) (l n : Nat) (b : Bool) (x : Nat) :
    r.setVs l n b k x = { r with v := (r.setVs l n b k x).v, vPoison := (r.setVs l n b k x).vPoison } := by
  induction k generalizing r n x with
  | zero => rfl
  | succ k ih => rw [Regs.setVs, ih]; rfl

theorem Regs.getVs_congr {r r' : Regs} (l n k : Nat) (h : ∀ j, j < k → r'.getV l (n + j) = r.getV l (n + j)) :
    r'.getVs l n k = r.getVs l n k := by
  induction k generalizing n with
  | zero => rfl
  | succ k ih =>
    rw [Regs.getVs, Regs.getVs, ih (n + 1) (fun j hj => by
      have := h (j + 1) (by omega)
      rwa [show n + (j + 1) = n + 1 + j by omega] at this)]
    have := h 0 (by omega)
    rw [Nat.add_zero] at this
    rw [this]

theorem Regs.badVs_congr {r r' : Regs} (l n k : Nat) (h : ∀ j, j < k → r'.badV l (n + j) = r.badV l (n + j)) :
    r'.badVs l n k = r.badVs l n k := by
  induction k generalizing n with
  | zero => rfl
  | succ k ih =>
    rw [Regs.badVs, Regs.badVs, ih (n + 1) (fun j hj => by
      have := h (j + 1) (by omega)
      rwa [show n + (j + 1) = n + 1 + j by omega] at this)]
    have := h 0 (by omega)
    rw [Nat.add_zero] at this
    rw [this]

@[simp] theorem Regs.getVs_setFlag (r : Regs) (a b : Mask) (l n k : Nat) :
    (r.setFlag a b).getVs l n k = r.getVs l n k := Regs.getVs_congr l n k fun _ _ => rfl
@[simp] theorem Regs.badVs_setFlag (r : Regs) (a b : Mask) (l n k : Nat) :
    (r.setFlag a b).badVs l n k = r.badVs l n k := Regs.badVs_congr l n k fun _ _ => rfl

@[simp] theorem Regs.getVs_setP (r : Regs) (a p : Nat) (x b : Bool) (l n k : Nat) :
    (r.setP a p x b).getVs l n k = r.getVs l n k := Regs.getVs_congr l n k fun _ _ => rfl
@[simp] theorem Regs.badVs_setP (r : Regs) (a p : Nat) (x b : Bool) (l n k : Nat) :
    (r.setP a p x b).badVs l n k = r.badVs l n k := Regs.badVs_congr l n k fun _ _ => rfl

/-- A group of vector registers reads as the value written to it. -/
theorem Regs.getVs_setVs (k : Nat) (r : Regs) (l n : Nat) (b : Bool) (x : Nat) (h : n + k ≤ 512) :
    (r.setVs l n b k x).getVs l n k = x % 2 ^ (32 * k) := by
  induction k generalizing r n x with
  | zero => simp [Regs.getVs, Nat.mod_one]
  | succ k ih =>
    rw [Regs.setVs, Regs.getVs, ih _ _ _ (by omega), Regs.getV_setVs _ _ _ _ (by omega) (by omega) (by omega),
      Regs.getV_setV _ _ _ (by omega) (by omega), if_pos ⟨rfl, rfl⟩, BitVec.toNat_ofNat,
      show 32 * (k + 1) = 32 + 32 * k by omega, Nat.pow_add, Nat.mod_mul]

theorem Regs.badVs_setVs (k : Nat) (r : Regs) (l n : Nat) (b : Bool) (x : Nat) (h : n + k ≤ 512) (hk : 0 < k) :
    (r.setVs l n b k x).badVs l n k = b := by
  induction k generalizing r n x with
  | zero => omega
  | succ k ih =>
    rw [Regs.setVs, Regs.badVs, Regs.badV_setVs _ _ _ _ (by omega) (by omega) (by omega),
      Regs.badV_setV _ _ _ (by omega) (by omega), if_pos ⟨rfl, rfl⟩]
    cases k with
    | zero => simp [Regs.badVs]
    | succ k => rw [ih _ _ _ (by omega) (by omega)]; simp

theorem Regs.getVs_lt (r : Regs) (l n k : Nat) : r.getVs l n k < 2 ^ (32 * k) := by
  induction k generalizing n with
  | zero => simp [Regs.getVs]
  | succ k ih =>
    have h1 := ih (n + 1)
    have h2 := (r.getV l n).isLt
    rw [Regs.getVs, show 32 * (k + 1) = 32 + 32 * k by omega, Nat.pow_add]
    have h3 : 2 ^ 32 * (r.getVs l (n + 1) k + 1) ≤ 2 ^ 32 * 2 ^ (32 * k) := Nat.mul_le_mul_left _ h1
    omega

/-- Writing a group of vector registers with the values another has copies them. -/
theorem Regs.getV_setVs_getVs (k : Nat) (r r' : Regs) {l n l' n' : Nat} (b : Bool) (h : n + k ≤ 512) (h' : n' < 512) :
    (r.setVs l n b k (r'.getVs l n k)).getV l' n' =
      if l' = l ∧ n ≤ n' ∧ n' < n + k then r'.getV l' n' else r.getV l' n' := by
  induction k generalizing r n with
  | zero => rw [if_neg (by omega)]; rfl
  | succ k ih =>
    have hlt := (r'.getV l n).isLt
    rw [Regs.setVs, Regs.getVs,
      show ((r'.getV l n).toNat + 2 ^ 32 * r'.getVs l (n + 1) k) / 2 ^ 32 = r'.getVs l (n + 1) k by omega,
      ih _ (by omega), Regs.getV_setV _ _ _ (by omega) h']
    by_cases h1 : l' = l ∧ n' = n
    · obtain ⟨rfl, rfl⟩ := h1
      rw [if_neg (by omega), if_pos ⟨rfl, rfl⟩, if_pos (by omega)]
      apply BitVec.eq_of_toNat_eq
      rw [BitVec.toNat_ofNat]
      omega
    · rw [if_neg h1]
      by_cases h2 : l' = l ∧ n + 1 ≤ n' ∧ n' < n + 1 + k
      · rw [if_pos h2, if_pos (by omega)]
      · rw [if_neg h2, if_neg (by omega)]

/-- A scalar destination reads as the value written to it. -/
theorem Regs.getSs_setSs (r : Regs) (n k : Nat) (x : Nat) (b : Bool) (hk : k = 1 ∨ k = 2 ∨ k = 4) :
    (r.setSs n k x b).getSs n k = x % 2 ^ (32 * k) := by
  rcases hk with rfl | rfl | rfl
  · simp [Regs.setSs, Regs.getSs, BitVec.toNat_ofNat]
  · simp [Regs.setSs, Regs.getSs, BitVec.toNat_ofNat]
  · simp [Regs.setSs, Regs.getSs, BitVec.toNat_ofNat]; omega

end Sys2Proof.Machine
end

