-- ==== Sys2Proof/Laws/Pass.lean ====
section
/-!
SUPPORT. What one pass of a vector form does to the registers of its team, lane by lane.
-/
namespace Sys2Proof.Machine

/-! ## Registers that agree for the lanes of a group -/

/-- `b` has the registers of `a` for the lanes of group `g`, and the same scalars, handles, links and full/empty bits. -/
structure Regs.SameAt (a b : Regs) (g : Nat) : Prop where
  v : ∀ l n, l / 32 = g → n < 512 → b.getV l n = a.getV l n
  vBad : ∀ l n, l / 32 = g → n < 512 → b.badV l n = a.badV l n
  p : ∀ l n, l / 32 = g → n < 16 → b.getP l n = a.getP l n
  pBad : ∀ l n, l / 32 = g → n < 16 → b.badP l n = a.badP l n
  flag : ∀ l, l / 32 = g → Mask.has b.flag l = Mask.has a.flag l
  rest : b = { a with v := b.v, vPoison := b.vPoison, p := b.p, pPoison := b.pPoison, flag := b.flag }

theorem Regs.SameAt.refl (a : Regs) (g : Nat) : a.SameAt a g :=
  ⟨fun _ _ _ _ => rfl, fun _ _ _ _ => rfl, fun _ _ _ _ => rfl, fun _ _ _ _ => rfl, fun _ _ => rfl, rfl⟩

theorem Regs.SameAt.trans {a b c : Regs} {g : Nat} (h : a.SameAt b g) (h' : b.SameAt c g) : a.SameAt c g :=
  ⟨fun l n hl hn => (h'.v l n hl hn).trans (h.v l n hl hn), fun l n hl hn => (h'.vBad l n hl hn).trans (h.vBad l n hl hn),
   fun l n hl hn => (h'.p l n hl hn).trans (h.p l n hl hn), fun l n hl hn => (h'.pBad l n hl hn).trans (h.pBad l n hl hn),
   fun l hl => (h'.flag l hl).trans (h.flag l hl), by rw [h'.rest, h.rest]⟩

/-- Reading a source in a lane of the group gives the same from registers that agree there. -/
theorem Team.src_congr {t : Team} {r : Regs} {g : Nat} (h : t.regs.SameAt r g) (rd : Rd) (o : Opnd) {k l : Nat}
    (hl : l / 32 = g) (hk : k ≤ 256) : ({ t with regs := r } : Team).src rd o k l = t.src rd o k l := by
  have hs : r.s = t.regs.s := by rw [h.rest]
  have hh : r.h = t.regs.h := by rw [h.rest]
  have ho : r.origlane = t.regs.origlane := by rw [h.rest]
  cases o with
  | v n =>
    refine Regs.getVs_congr l n.toNat k fun j hj => h.v l _ hl ?_
    have := n.isLt; omega
  | s n => simp only [Team.src, Regs.getSs, Regs.getS, hs]
  | p n =>
    have := h.p l n.toNat hl n.isLt
    simp only [Team.src]
    rw [this]
  | sp x =>
    cases x <;> simp only [Team.src, Team.special, Regs.orig, ho]
    rw [h.flag l hl]
  | h n => simp only [Team.src, Regs.getH, hh]
  | imm => rfl
  | none => rfl

theorem Team.bad_congr {t : Team} {r : Regs} {g : Nat} (h : t.regs.SameAt r g) (o : Opnd) {k l : Nat}
    (hl : l / 32 = g) (hk : k ≤ 256) : ({ t with regs := r } : Team).bad o k l = t.bad o k l := by
  have hs : r.sPoison = t.regs.sPoison := by rw [h.rest]
  cases o with
  | v n =>
    refine Regs.badVs_congr l n.toNat k fun j hj => h.vBad l _ hl ?_
    have := n.isLt; omega
  | s n => simp only [Team.bad, Regs.badS, hs]
  | p n => exact h.pBad l n.toNat hl n.isLt
  | _ => rfl

theorem Team.guard_congr {t : Team} {r : Regs} {g : Nat} (h : t.regs.SameAt r g) (gd : Guard) {l : Nat}
    (hl : l / 32 = g) : ({ t with regs := r } : Team).guard gd l = t.guard gd l := by
  cases gd with
  | always => rfl
  | p n neg => simp only [Team.guard]; rw [h.p l n.toNat hl n.isLt]

theorem Team.guardBad_congr {t : Team} {r : Regs} {g : Nat} (h : t.regs.SameAt r g) (gd : Guard) {l : Nat}
    (hl : l / 32 = g) : ({ t with regs := r } : Team).guardBad gd l = t.guardBad gd l := by
  cases gd with
  | always => rfl
  | p n neg => exact h.pBad l n.toNat hl n.isLt

/-! ## One lane -/

/-- A lane's write leaves every projection of the registers alone that writes of that lane do not reach. -/
theorem Regs.proj_put {β : Type} (proj : Regs → β) (dst : Opnd) (k a : Nat) (pred : Option Nat)
    (hv : ∀ n, dst = .v n → ∀ r b x, proj (r.setVs a n.toNat b k x) = proj r)
    (hp : ∀ n : Nat, (∃ q, dst = .p q ∧ q.toNat = n) ∨ pred = some n → ∀ r x b, proj (r.setP a n x b) = proj r)
    (r : Regs) (x : LaneOut) (hx : ∀ q, x.pred = some q → pred = some q.1) : proj (r.put dst k a x) = proj r := by
  have h1 : ∀ r' : Regs, proj (match x.pred with | some (n, b) => r'.setP a n b x.bad | none => r') = proj r' := by
    intro r'
    rcases hq : x.pred with _ | q
    · rfl
    · exact hp q.1 (.inr (hx q hq)) _ _ _
  unfold Regs.put
  rcases dst with n | n | n | n | n | n | n
  · exact (h1 _).trans (hv n rfl _ _ _)
  · exact h1 _
  · exact (h1 _).trans (hp n.toNat (.inl ⟨n, rfl, rfl⟩) _ _ _)
  all_goals exact h1 _

theorem Regs.proj_taint {β : Type} (proj : Regs → β) (dst : Opnd) (k a : Nat) (pred : Option Nat)
    (hv : ∀ n, dst = .v n → ∀ r, proj (r.setVs a n.toNat true k (r.getVs a n.toNat k)) = proj r)
    (hp : ∀ n : Nat, (∃ q, dst = .p q ∧ q.toNat = n) ∨ pred = some n → ∀ r, proj (r.setP a n (r.getP a n) true) = proj r)
    (r : Regs) : proj (r.taint dst k a pred) = proj r := by
  rcases pred with _ | q
  · rcases dst with n | n | n | n | n | n | n
    · exact hv n rfl _
    · rfl
    · exact hp n.toNat (.inl ⟨n, rfl, rfl⟩) _
    all_goals rfl
  · have h1 := fun r => hp q (.inr rfl) r
    rcases dst with n | n | n | n | n | n | n
    · exact (h1 _).trans (hv n rfl _)
    · exact h1 _
    · exact (h1 _).trans (hp n.toNat (.inl ⟨n, rfl, rfl⟩) _)
    all_goals exact h1 _

/-! ## One pass -/

/-- The carry predicate that results name is the instruction's. -/
def predOf (pred : Option Nat) (fn : Team → Rd → Nat → LaneOut) : Prop :=
  ∀ u r l q, (fn u r l).pred = some q → pred = some q.1

/-- The registers of a pass before `$poison` is set. -/
def Team.passRegs (t seen : Team) (i : Instr) (f : Fields) (gts e : Nat) (m : Mask) (pred : Option Nat)
    (fn : Team → Rd → Nat → LaneOut) (g : Nat) : Regs :=
  ((Mask.lanesOf m g).filter fun l => t.guardBad f.grd l && !t.guard f.grd l).foldl
    (fun q l => q.taint f.dst i.widths.1 l pred)
    (((Mask.lanesOf m g).filter (t.guard f.grd)).foldl
      (fun q l => q.put f.dst i.widths.1 l (t.laneOut seen i f gts e fn l)) t.regs)

section Pass

variable {t seen : Team} {i : Instr} {f : Fields} {gts e : Nat} {m : Mask} {readsD : Bool} {pred : Option Nat}
  {fn : Team → Rd → Nat → LaneOut} {g : Nat}

theorem Team.pass_eq : ∃ a b : Mask, (∀ l, Mask.has a l = true → l / 32 = g) ∧
    t.pass seen i f gts e m readsD pred fn g =
      { t with regs := (t.passRegs seen i f gts e m pred fn g).setFlag a b } := by
  refine ⟨Mask.ofList (if f.grd ≠ .always then Mask.lanesOf m g
      else if opndIsReg f.sa || opndIsReg f.sb || readsD then (Mask.lanesOf m g).filter (t.guard f.grd) else []),
    Mask.ofList ((Mask.lanesOf m g).filter (t.guardBad f.grd) ++
      ((((Mask.lanesOf m g).filter (t.guard f.grd)).map fun l => (l, t.laneOut seen i f gts e fn l)).filter
        (·.2.bad)).map (·.1)), ?_, ?_⟩
  · intro l hl
    rw [Mask.has_ofList, Bool.and_eq_true, List.contains_iff_mem] at hl
    have hmem : l ∈ Mask.lanesOf m g := by
      have := hl.2
      split at this
      · exact this
      · split at this
        · exact (List.mem_filter.1 this).1
        · cases this
    exact ((Mask.mem_lanesOf m g l).1 hmem).1
  · unfold Team.pass Team.passRegs
    simp only [List.foldl_map]

/-- A projection that the writes of the lanes concerned do not reach is the same after a pass. -/
theorem Team.passRegs_keep {β : Type} (proj : Regs → β) (hq : predOf pred fn)
    (hv : ∀ a n, a / 32 = g → Mask.has m a = true → f.dst = .v n →
      ∀ r b x, proj (r.setVs a n.toNat b i.widths.1 x) = proj r)
    (hp : ∀ a n : Nat, a / 32 = g → Mask.has m a = true → ((∃ q, f.dst = .p q ∧ q.toNat = n) ∨ pred = some n) →
      ∀ r x b, proj (r.setP a n x b) = proj r) :
    proj (t.passRegs seen i f gts e m pred fn g) = proj t.regs := by
  unfold Team.passRegs
  rw [foldl_keep proj, foldl_keep proj]
  · intro r a ha
    obtain ⟨h1, h2⟩ := (Mask.mem_lanesOf m g a).1 (List.mem_filter.1 ha).1
    exact Regs.proj_put proj _ _ a pred (fun n hn => hv a n h1 h2 hn) (fun n hn => hp a n h1 h2 hn) r _
      fun q h => hq _ _ _ q h
  · intro r a ha
    obtain ⟨h1, h2⟩ := (Mask.mem_lanesOf m g a).1 (List.mem_filter.1 ha).1
    exact Regs.proj_taint proj _ _ a pred (fun n hn r => hv a n h1 h2 hn _ _ _) (fun n hn r => hp a n h1 h2 hn _ _ _) r

/-- What a lane whose guard holds has written, read by a projection of that lane alone. -/
theorem Team.passRegs_hit {β : Type} (proj : Regs → β) (c : β) (hq : predOf pred fn) {l : Nat} (hl : l / 32 = g)
    (hm : Mask.has m l = true) (hg : t.guard f.grd l = true)
    (hput : ∀ r : Regs, proj (r.put f.dst i.widths.1 l (t.laneOut seen i f gts e fn l)) = c)
    (hv : ∀ a n, a ≠ l → f.dst = .v n → ∀ r b x, proj (r.setVs a n.toNat b i.widths.1 x) = proj r)
    (hp : ∀ a n : Nat, a ≠ l → ((∃ q, f.dst = .p q ∧ q.toNat = n) ∨ pred = some n) →
      ∀ r x b, proj (r.setP a n x b) = proj r) :
    proj (t.passRegs seen i f gts e m pred fn g) = c := by
  unfold Team.passRegs
  rw [foldl_keep proj]
  · refine foldl_hit proj _ c l _ hput (fun r a _ hne => ?_) _
      (List.mem_filter.2 ⟨(Mask.mem_lanesOf m g l).2 ⟨hl, hm⟩, hg⟩)
    exact Regs.proj_put proj _ _ a pred (fun n hn => hv a n hne hn) (fun n hn => hp a n hne hn) r _
      fun q h => hq _ _ _ q h
  · intro r a ha
    have hne : a ≠ l := by
      rintro rfl
      have := (List.mem_filter.1 ha).2
      rw [hg] at this
      simp at this
    exact Regs.proj_taint proj _ _ a pred (fun n hn r => hv a n hne hn _ _ _) (fun n hn r => hp a n hne hn _ _ _) r

/-- A projection of one lane whose guard does not hold is the same after a pass, if its own taint does not reach it. -/
theorem Team.passRegs_miss {β : Type} (proj : Regs → β) (hq : predOf pred fn) {l : Nat}
    (hg : ¬ (Mask.has m l = true ∧ t.guard f.grd l = true))
    (hv : ∀ a n, a ≠ l → f.dst = .v n → ∀ r b x, proj (r.setVs a n.toNat b i.widths.1 x) = proj r)
    (hp : ∀ a n : Nat, a ≠ l → ((∃ q, f.dst = .p q ∧ q.toNat = n) ∨ pred = some n) →
      ∀ r x b, proj (r.setP a n x b) = proj r)
    (ht : (Mask.has m l = true ∧ t.guardBad f.grd l = true) → ∀ r : Regs, proj (r.taint f.dst i.widths.1 l pred) = proj r) :
    proj (t.passRegs seen i f gts e m pred fn g) = proj t.regs := by
  unfold Team.passRegs
  rw [foldl_keep proj, foldl_keep proj]
  · intro r a ha
    obtain ⟨h1, h2⟩ := List.mem_filter.1 ha
    have hne : a ≠ l := by
      rintro rfl
      exact hg ⟨((Mask.mem_lanesOf m g a).1 h1).2, h2⟩
    exact Regs.proj_put proj _ _ a pred (fun n hn => hv a n hne hn) (fun n hn => hp a n hne hn) r _
      fun q h => hq _ _ _ q h
  · intro r a ha
    obtain ⟨h1, h2⟩ := List.mem_filter.1 ha
    by_cases hne : a = l
    · subst hne
      rw [Bool.and_eq_true] at h2
      exact ht ⟨((Mask.mem_lanesOf m g a).1 h1).2, h2.1⟩ r
    · exact Regs.proj_taint proj _ _ a pred (fun n hn r => hv a n hne hn _ _ _) (fun n hn r => hp a n hne hn _ _ _) r

/-- A lane's taint changes no value. -/
theorem Regs.getV_taint (r : Regs) (dst : Opnd) {k l l' n' : Nat} (pred : Option Nat) (hk : k ≤ 256) (h' : n' < 512) :
    (r.taint dst k l pred).getV l' n' = r.getV l' n' := by
  refine Regs.proj_taint (fun r => r.getV l' n') dst k l pred (fun n _ r => ?_) (fun n _ r => rfl) r
  have := n.isLt
  rw [Regs.getV_setVs_getVs _ _ _ _ (by omega) h']
  split <;> rfl

theorem Regs.getP_taint (r : Regs) (dst : Opnd) {k l l' n' : Nat} (pred : Option Nat) (hq : ∀ q, pred = some q → q < 16)
    (h' : n' < 16) : (r.taint dst k l pred).getP l' n' = r.getP l' n' := by
  refine Regs.proj_taint (fun r => r.getP l' n') dst k l pred (fun n _ r => Regs.getP_setVs ..) (fun n hn r => ?_) r
  have hn' : n < 16 := by
    rcases hn with ⟨q, _, rfl⟩ | h
    · exact q.isLt
    · exact hq n h
  rw [Regs.getP_setP _ _ _ hn' h']
  split
  · next h => obtain ⟨rfl, rfl⟩ := h; rfl
  · rfl

end Pass

end Sys2Proof.Machine
end

