-- ==== Sys2Proof/Laws/Vector.lean ====
section
/-!
SUPPORT. The vector form of an instruction: that it completes, what its lanes write, and what it leaves alone.
-/
namespace Sys2Proof.Machine

/-! ## What a change of one team leaves alone -/

theorem State.onlyTeam_pending (s : State) (uid k : Nat) (f : Core → Core)
    (h : ∀ x, f x = { x with pending := (f x).pending }) : State.onlyTeam uid s (s.onCore k f) := by
  refine ⟨rfl, fun _ _ => rfl, fun j => ?_⟩
  rw [State.core_onCore]
  split
  · next hj =>
    subst hj
    exact h _
  · rfl

theorem Regs.markKey_fold (ks : List Nat) (r : Regs) : ks.foldl (fun r n => r.markKey n true) r =
    { r with vEmpty := (ks.foldl (fun r n => r.markKey n true) r).vEmpty
             sEmpty := (ks.foldl (fun r n => r.markKey n true) r).sEmpty } := by
  induction ks generalizing r with
  | nil => rfl
  | cons x rest ih =>
    rw [List.foldl_cons, ih]
    unfold Regs.markKey
    split <;> rfl

/-- Marking a destination pending changes the full/empty bits of the team and the results on their way, and no more. -/
theorem State.markPending_spec {s : State} {uid : Nat} {t : Team} (h : s.team? uid = some t) (dst : Opnd) (k : Nat)
    (gs : List Nat) (due : Nat) (pool : GMask) (earlier : List Nat) :
    ∃ t', (s.markPending uid dst k gs due pool earlier).team? uid = some t' ∧
      t' = { t with regs := { t.regs with vEmpty := t'.regs.vEmpty, sEmpty := t'.regs.sEmpty } } ∧
      State.onlyTeam uid s (s.markPending uid dst k gs due pool earlier) := by
  obtain rfl := State.team?_uid h
  unfold State.markPending
  rw [h]
  dsimp only
  split
  · exact ⟨t, h, rfl, .refl t.uid s⟩
  · refine ⟨{ t with regs := (pendingKeys dst k gs).foldl (fun r n => r.markKey n true) t.regs }, ?_, ?_, ?_⟩
    · show (s.setTeam _).team? t.uid = _
      rw [State.team?_setTeam, if_pos rfl]
    · dsimp only
      rw [← Regs.markKey_fold]
    · exact (State.onlyTeam_setTeam s { t with regs := (pendingKeys dst k gs).foldl (fun r n => r.markKey n true) t.regs }).trans
        (State.onlyTeam_pending _ _ _ _ fun _ => rfl)

/-! ## Passes in a row -/

theorem Regs.setVs_core (r : Regs) (l n : Nat) (b : Bool) (k x : Nat) :
    ({ r.setVs l n b k x with v := [], vPoison := [], p := [], pPoison := [], flag := 0 } : Regs) =
      { r with v := [], vPoison := [], p := [], pPoison := [], flag := 0 } := by
  rw [Regs.setVs_rest]

theorem Regs.eq_of_core {a b : Regs}
    (h : ({ b with v := [], vPoison := [], p := [], pPoison := [], flag := 0 } : Regs) =
      { a with v := [], vPoison := [], p := [], pPoison := [], flag := 0 }) :
    b = { a with v := b.v, vPoison := b.vPoison, p := b.p, pPoison := b.pPoison, flag := b.flag } := by
  cases a; cases b
  simp only [Regs.mk.injEq] at h ⊢
  simp [h]

section Passes

variable {t : Team} {i : Instr} {f : Fields} {gts e : Nat} {m : Mask} {readsD : Bool} {pred : Option Nat}
  {fn : Team → Rd → Nat → LaneOut} {g : Nat}

/-- The limits on register numbers that keep a lane's registers apart from another's. -/
def destOk (i : Instr) (pred : Option Nat) : Prop := i.widths.1 ≤ 256 ∧ ∀ q, pred = some q → q < 16

/-- A pass over one group leaves the lanes of every other alone. -/
theorem Team.pass_other (seen : Team) (hd : destOk i pred) (hq : predOf pred fn) {g' : Nat} (hne : g' ≠ g) :
    t.regs.SameAt (t.pass seen i f gts e m readsD pred fn g).regs g' := by
  obtain ⟨a, b, ha, he⟩ := Team.pass_eq (t := t) (seen := seen) (i := i) (f := f) (gts := gts) (e := e) (m := m)
    (readsD := readsD) (pred := pred) (fn := fn) (g := g)
  rw [he]
  have hv : ∀ n : BitVec 8, n.toNat + i.widths.1 ≤ 512 := fun n => by
    have := n.isLt; have := hd.1; omega
  have hp : ∀ n : Nat, ((∃ q, f.dst = .p q ∧ q.toNat = n) ∨ pred = some n) → n < 16 := by
    rintro n (⟨q, _, rfl⟩ | h)
    · exact q.isLt
    · exact hd.2 n h
  refine ⟨fun l n hl hn => ?_, fun l n hl hn => ?_, fun l n hl hn => ?_, fun l n hl hn => ?_, fun l hl => ?_, ?_⟩
  · exact Team.passRegs_keep (fun r => r.getV l n) hq
      (fun a k h1 _ h3 r b x => Regs.getV_setVs _ _ _ _ (hv k) hn (.inl (by omega)))
      (fun a k h1 _ h3 r x b => rfl)
  · exact Team.passRegs_keep (fun r => r.badV l n) hq
      (fun a k h1 _ h3 r b x => Regs.badV_setVs _ _ _ _ (hv k) hn (.inl (by omega)))
      (fun a k h1 _ h3 r x b => rfl)
  · exact Team.passRegs_keep (fun r => r.getP l n) hq
      (fun a k h1 _ h3 r b x => Regs.getP_setVs ..)
      (fun a k h1 _ h3 r x b => by rw [Regs.getP_setP _ _ _ (hp k h3) hn, if_neg (by omega)])
  · exact Team.passRegs_keep (fun r => r.badP l n) hq
      (fun a k h1 _ h3 r b x => Regs.badP_setVs ..)
      (fun a k h1 _ h3 r x b => by rw [Regs.badP_setP _ _ _ (hp k h3) hn, if_neg (by omega)])
  · have hf := Team.passRegs_keep (t := t) (seen := seen) (i := i) (f := f) (gts := gts) (e := e) (m := m)
      (pred := pred) (fn := fn) (g := g) (fun r => r.flag) hq
      (fun a k _ _ _ r b x => by rw [Regs.setVs_rest]) (fun a k _ _ _ r x b => rfl)
    dsimp only
    unfold Regs.setFlag
    dsimp only
    rw [hf, Mask.has_or, Mask.has_and, Mask.has_and, Mask.has_not]
    have hal : Mask.has a l = false := by
      cases hx : Mask.has a l
      · rfl
      · exact absurd ((ha l hx).symm.trans hl) (Ne.symm hne)
    rw [hal]
    cases hx : Mask.has t.regs.flag l
    · simp
    · simp [Mask.has_lt hx]
  · apply Regs.eq_of_core
    exact Team.passRegs_keep (fun r => ({ r with v := [], vPoison := [], p := [], pPoison := [], flag := 0 } : Regs)) hq
      (fun a k _ _ _ r b x => Regs.setVs_core ..) (fun a k _ _ _ r x b => rfl)

/-- The passes of the groups of a list: each lane's registers change in the pass of its own group alone. -/
theorem Team.passes_spec (s : State) (hd : destOk i pred) (hq : predOf pred fn) (gs : List Nat) (hn : gs.Nodup) :
    ∃ q : Regs, gs.foldl (fun t' g => t'.pass (s.seen t') i f gts e m readsD pred fn g) t = { t with regs := q } ∧
      (∀ g, g ∉ gs → t.regs.SameAt q g) ∧
      ∀ g, g ∈ gs → ∃ r : Regs, t.regs.SameAt r g ∧
        (({ t with regs := r } : Team).pass (s.seen { t with regs := r }) i f gts e m readsD pred fn g).regs.SameAt q g := by
  suffices ∀ (done gs : List Nat) (r0 : Regs), (done ++ gs).Nodup →
      (∀ g, g ∉ done → t.regs.SameAt r0 g) →
      (∀ g, g ∈ done → ∃ r : Regs, t.regs.SameAt r g ∧
        (({ t with regs := r } : Team).pass (s.seen { t with regs := r }) i f gts e m readsD pred fn g).regs.SameAt r0 g) →
      ∃ q : Regs, gs.foldl (fun t' g => t'.pass (s.seen t') i f gts e m readsD pred fn g) { t with regs := r0 } =
          { t with regs := q } ∧
        (∀ g, g ∉ done ++ gs → t.regs.SameAt q g) ∧
        ∀ g, g ∈ done ++ gs → ∃ r : Regs, t.regs.SameAt r g ∧
          (({ t with regs := r } : Team).pass (s.seen { t with regs := r }) i f gts e m readsD pred fn g).regs.SameAt q g by
    exact this [] gs t.regs (by simpa using hn) (fun g _ => .refl _ _) (fun g hg => by cases hg)
  intro done gs
  induction gs generalizing done with
  | nil =>
    intro r0 _ h1 h2
    exact ⟨r0, rfl, by simpa using h1, by simpa using h2⟩
  | cons g rest ih =>
    intro r0 hnd h1 h2
    have hg : g ∉ done := fun h => by
      have := List.nodup_append.1 hnd
      exact this.2.2 g h g List.mem_cons_self rfl
    have hpass : ({ t with regs := r0 } : Team).pass (s.seen { t with regs := r0 }) i f gts e m readsD pred fn g =
        { t with regs := (({ t with regs := r0 } : Team).pass (s.seen { t with regs := r0 }) i f gts e m readsD pred
          fn g).regs } := rfl
    rw [List.foldl_cons, hpass]
    obtain ⟨q, e1, e2, e3⟩ := ih (done ++ [g]) (({ t with regs := r0 } : Team).pass (s.seen { t with regs := r0 }) i f gts e
        m readsD pred fn g).regs
      (by simpa using hnd)
      (fun g' hg' => by
        have h3 : g' ∉ done := fun h => hg' (List.mem_append_left _ h)
        have h4 : g' ≠ g := fun h => hg' (List.mem_append_right _ (by simp [h]))
        exact (h1 g' h3).trans (Team.pass_other (t := { t with regs := r0 }) _ hd hq h4))
      (fun g' hg' => by
        rcases List.mem_append.1 hg' with h | h
        · obtain ⟨r, hr, hr'⟩ := h2 g' h
          have h4 : g' ≠ g := fun e => hg (e ▸ h)
          exact ⟨r, hr, hr'.trans (Team.pass_other (t := { t with regs := r0 }) _ hd hq h4)⟩
        · obtain rfl : g' = g := by simpa using h
          exact ⟨r0, h1 g' hg, .refl _ _⟩)
    exact ⟨q, e1, by simpa using e2, by simpa using e3⟩

/-! ## What the lanes of a vector form write -/

/-- What a lane writes does not depend on what the passes of other groups have written. -/
def Local (s : State) (t : Team) (i : Instr) (f : Fields) (gts e : Nat) (fn : Team → Rd → Nat → LaneOut) : Prop :=
  ∀ (r : Regs) (l : Nat), t.regs.SameAt r (l / 32) →
    fn (s.seen { t with regs := r }) { gts := gts, e := e, i := i, f := f } l =
      fn (s.seen t) { gts := gts, e := e, i := i, f := f } l

theorem Team.laneOut_congr {s : State} (hl : Local s t i f gts e fn) {r : Regs} {l : Nat}
    (h : t.regs.SameAt r (l / 32)) : ({ t with regs := r } : Team).laneOut (s.seen { t with regs := r }) i f gts e fn l =
      t.laneOut (s.seen t) i f gts e fn l := by
  unfold Team.laneOut
  rw [hl r l h, Team.guardBad_congr h f.grd rfl]

theorem Team.passes_result (s : State) (hd : destOk i pred) (hq : predOf pred fn) (hl : Local s t i f gts e fn)
    (gs : List Nat) (hn : gs.Nodup) :
    ∃ q : Regs, gs.foldl (fun t' g => t'.pass (s.seen t') i f gts e m readsD pred fn g) t = { t with regs := q } ∧
      VecResult t q f.dst i.widths.1 pred
        (fun l => Mask.has m l = true ∧ t.guard f.grd l = true ∧ l / 32 ∈ gs)
        (fun l => Mask.has m l = true ∧ t.guardBad f.grd l = true ∧ l / 32 ∈ gs)
        (t.laneOut (s.seen t) i f gts e fn) := by
  obtain ⟨q, hF, hout, hin⟩ := Team.passes_spec (t := t) (i := i) (f := f) (gts := gts) (e := e) (m := m)
    (readsD := readsD) s hd hq gs hn
  refine ⟨q, hF, ?_⟩
  have hv : ∀ n : BitVec 8, n.toNat + i.widths.1 ≤ 512 := fun n => by
    have := n.isLt; have := hd.1; omega
  have hp : ∀ n : Nat, ((∃ q, f.dst = .p q ∧ q.toNat = n) ∨ pred = some n) → n < 16 := by
    rintro n (⟨q, _, rfl⟩ | h)
    · exact q.isLt
    · exact hd.2 n h
  -- a lane of a group in the list reads as its pass has left it
  have hpass : ∀ l, l / 32 ∈ gs → ∃ (r : Regs) (a b : Mask), t.regs.SameAt r (l / 32) ∧
      ((({ t with regs := r } : Team).passRegs (s.seen { t with regs := r }) i f gts e m pred fn (l / 32)).setFlag
        a b).SameAt q (l / 32) := by
    intro l hl
    obtain ⟨r, h1, h2⟩ := hin _ hl
    obtain ⟨a, b, _, he⟩ := Team.pass_eq (t := { t with regs := r }) (seen := s.seen { t with regs := r }) (i := i)
      (f := f) (gts := gts) (e := e) (m := m) (readsD := readsD) (pred := pred) (fn := fn) (g := l / 32)
    rw [he] at h2
    exact ⟨r, a, b, h1, h2⟩
  refine ⟨?_, ?_, ?_, ?_, ?_, ?_, ?_, ?_⟩
  · rintro n l hdst ⟨hm, hg, hmem⟩
    obtain ⟨r, a, b, h1, h2⟩ := hpass l hmem
    have hg' : ({ t with regs := r } : Team).guard f.grd l = true := by rw [Team.guard_congr h1 _ rfl]; exact hg
    have hlo := Team.laneOut_congr (gts := gts) (e := e) hl h1
    have hnl := n.isLt
    have hvn := hv n
    refine ⟨?_, fun hk => ?_⟩
    · rw [Regs.getVs_congr l n.toNat _ fun j hj => h2.v l _ rfl (by omega), Regs.getVs_setFlag]
      refine Team.passRegs_hit (t := { t with regs := r }) (fun r => r.getVs l n.toNat i.widths.1) _ hq rfl hm hg'
        (fun r' => ?_) (fun a n' hne hn' r' b x => ?_) (fun a n' _ _ r' x b => Regs.getVs_congr _ _ _ fun _ _ => rfl)
      · rw [hlo, hdst]
        unfold Regs.put
        dsimp only
        cases (t.laneOut (s.seen t) i f gts e fn l).pred with
        | none => exact Regs.getVs_setVs _ _ _ _ _ _ hvn
        | some p => dsimp only; rw [Regs.getVs_setP]; exact Regs.getVs_setVs _ _ _ _ _ _ hvn
      · exact Regs.getVs_congr _ _ _ fun j hj => Regs.getV_setVs _ _ _ _ (hv n') (by omega) (.inl (Ne.symm hne))
    · rw [Regs.badVs_congr l n.toNat _ fun j hj => h2.vBad l _ rfl (by omega), Regs.badVs_setFlag]
      refine Team.passRegs_hit (t := { t with regs := r }) (fun r => r.badVs l n.toNat i.widths.1) _ hq rfl hm hg'
        (fun r' => ?_) (fun a n' hne hn' r' b x => ?_) (fun a n' _ _ r' x b => Regs.badVs_congr _ _ _ fun _ _ => rfl)
      · rw [hlo, hdst]
        unfold Regs.put
        dsimp only
        cases (t.laneOut (s.seen t) i f gts e fn l).pred with
        | none => exact Regs.badVs_setVs _ _ _ _ _ _ hvn hk
        | some p => dsimp only; rw [Regs.badVs_setP]; exact Regs.badVs_setVs _ _ _ _ _ _ hvn hk
      · exact Regs.badVs_congr _ _ _ fun j hj => Regs.badV_setVs _ _ _ _ (hv n') (by omega) (.inl (Ne.symm hne))
  · rintro n l hdst hnone ⟨hm, hg, hmem⟩
    obtain ⟨r, a, b, h1, h2⟩ := hpass l hmem
    have hg' : ({ t with regs := r } : Team).guard f.grd l = true := by rw [Team.guard_congr h1 _ rfl]; exact hg
    have hlo := Team.laneOut_congr (gts := gts) (e := e) hl h1
    have hnl := n.isLt
    have hput : ∀ r' : Regs, r'.put f.dst i.widths.1 l (t.laneOut (s.seen t) i f gts e fn l) =
        r'.setP l n.toNat ((t.laneOut (s.seen t) i f gts e fn l).val % 2 = 1)
          (t.laneOut (s.seen t) i f gts e fn l).bad := by
      intro r'
      have hpn : (t.laneOut (s.seen t) i f gts e fn l).pred = none := by
        cases hx : (t.laneOut (s.seen t) i f gts e fn l).pred with
        | none => rfl
        | some p => have := hq _ _ _ p hx; rw [hnone] at this; cases this
      unfold Regs.put
      rw [hdst, hpn]
    refine ⟨?_, ?_⟩
    · rw [h2.p l _ rfl hnl]
      have := Team.passRegs_hit (t := { t with regs := r }) (seen := s.seen { t with regs := r }) (i := i) (f := f)
        (gts := gts) (e := e) (m := m) (pred := pred) (fn := fn)
        (fun r => r.getP l n.toNat) (decide ((t.laneOut (s.seen t) i f gts e fn l).val % 2 = 1)) hq rfl hm hg'
        (fun r' => by rw [hlo, hput, Regs.getP_setP _ _ _ hnl hnl, if_pos ⟨rfl, rfl⟩])
        (fun a n' _ _ r' b x => Regs.getP_setVs ..)
        (fun a n' hne hn' r' x b => by
          rw [Regs.getP_setP _ _ _ (hp n' hn') hnl, if_neg (fun h => hne h.1.symm)])
      show ((Team.passRegs _ _ _ _ _ _ _ _ _ _).getP l n.toNat = true) = _
      rw [this]
      simp
    · rw [h2.pBad l _ rfl hnl]
      exact Team.passRegs_hit (t := { t with regs := r }) (fun r => r.badP l n.toNat) _ hq rfl hm hg'
        (fun r' => by rw [hlo, hput, Regs.badP_setP _ _ _ hnl hnl, if_pos ⟨rfl, rfl⟩])
        (fun a n' _ _ r' b x => Regs.badP_setVs ..)
        (fun a n' hne hn' r' x b => by
          rw [Regs.badP_setP _ _ _ (hp n' hn') hnl, if_neg (fun h => hne h.1.symm)])
  · rintro l p b0 hnp ⟨hm, hg, hmem⟩ hx
    obtain ⟨r, a, b, h1, h2⟩ := hpass l hmem
    have hg' : ({ t with regs := r } : Team).guard f.grd l = true := by rw [Team.guard_congr h1 _ rfl]; exact hg
    have hlo := Team.laneOut_congr (gts := gts) (e := e) hl h1
    have hp16 : p < 16 := hd.2 p (hq _ _ _ _ hx)
    refine ⟨?_, ?_⟩
    · rw [h2.p l _ rfl hp16]
      exact Team.passRegs_hit (t := { t with regs := r }) (fun r => r.getP l p) _ hq rfl hm hg'
        (fun r' => by
          rw [hlo]; unfold Regs.put; rw [hx]
          dsimp only
          rw [Regs.getP_setP _ _ _ hp16 hp16, if_pos ⟨rfl, rfl⟩])
        (fun a n' _ _ r' b x => Regs.getP_setVs ..)
        (fun a n' hne hn' r' x b => by
          rw [Regs.getP_setP _ _ _ (hp n' hn') hp16, if_neg (fun h => hne h.1.symm)])
    · rw [h2.pBad l _ rfl hp16]
      exact Team.passRegs_hit (t := { t with regs := r }) (fun r => r.badP l p) _ hq rfl hm hg'
        (fun r' => by
          rw [hlo]; unfold Regs.put; rw [hx]
          dsimp only
          rw [Regs.badP_setP _ _ _ hp16 hp16, if_pos ⟨rfl, rfl⟩])
        (fun a n' _ _ r' b x => Regs.badP_setVs ..)
        (fun a n' hne hn' r' x b => by
          rw [Regs.badP_setP _ _ _ (hp n' hn') hp16, if_neg (fun h => hne h.1.symm)])
  · intro l n' hn' hkeep
    by_cases hmem : l / 32 ∈ gs
    · obtain ⟨r, a, b, h1, h2⟩ := hpass l hmem
      rw [h2.v l n' rfl hn', ← h1.v l n' rfl hn']
      by_cases hw : Mask.has m l = true ∧ t.guard f.grd l = true
      · exact Team.passRegs_keep (t := { t with regs := r }) (fun r => r.getV l n') hq
          (fun a n _ _ hn r' b x => Regs.getV_setVs _ _ _ _ (hv n) hn' (.inr (hkeep ⟨hw.1, hw.2, hmem⟩ n hn)))
          (fun a n _ _ _ r' x b => rfl)
      · exact Team.passRegs_miss (t := { t with regs := r }) (fun r => r.getV l n') hq (l := l)
          (by rw [Team.guard_congr h1 _ rfl]; exact hw)
          (fun a n hne hn r' b x => Regs.getV_setVs _ _ _ _ (hv n) hn' (.inl (Ne.symm hne)))
          (fun a n _ _ r' x b => rfl)
          (fun _ r' => Regs.getV_taint _ _ _ hd.1 hn')
    · exact (hout _ hmem).v l n' rfl hn'
  · intro l n' hn' hkeep
    by_cases hmem : l / 32 ∈ gs
    · obtain ⟨r, a, b, h1, h2⟩ := hpass l hmem
      rw [h2.vBad l n' rfl hn', ← h1.vBad l n' rfl hn']
      by_cases hw : (Mask.has m l = true ∧ t.guard f.grd l = true) ∨ (Mask.has m l = true ∧ t.guardBad f.grd l = true)
      · exact Team.passRegs_keep (t := { t with regs := r }) (fun r => r.badV l n') hq
          (fun a n _ _ hn r' b x => Regs.badV_setVs _ _ _ _ (hv n) hn' (.inr (hkeep
            (hw.imp (fun h => ⟨h.1, h.2, hmem⟩) (fun h => ⟨h.1, h.2, hmem⟩)) n hn)))
          (fun a n _ _ _ r' x b => rfl)
      · exact Team.passRegs_miss (t := { t with regs := r }) (fun r => r.badV l n') hq (l := l)
          (by rw [Team.guard_congr h1 _ rfl]; exact fun h => hw (.inl h))
          (fun a n hne hn r' b x => Regs.badV_setVs _ _ _ _ (hv n) hn' (.inl (Ne.symm hne)))
          (fun a n _ _ r' x b => rfl)
          (fun h => absurd (by rwa [Team.guardBad_congr h1 _ rfl] at h) (fun h => hw (.inr h)))
    · exact (hout _ hmem).vBad l n' rfl hn'
  · intro l n' hn' hkeep
    by_cases hmem : l / 32 ∈ gs
    · obtain ⟨r, a, b, h1, h2⟩ := hpass l hmem
      rw [h2.p l n' rfl hn', ← h1.p l n' rfl hn']
      by_cases hw : Mask.has m l = true ∧ t.guard f.grd l = true
      · have hk := hkeep ⟨hw.1, hw.2, hmem⟩
        exact Team.passRegs_keep (t := { t with regs := r }) (fun r => r.getP l n') hq
          (fun a n _ _ hn r' b x => Regs.getP_setVs ..)
          (fun a n _ _ hn r' x b => by
            rw [Regs.getP_setP _ _ _ (hp n hn) hn', if_neg]
            rintro ⟨_, rfl⟩
            rcases hn with ⟨z, hz, hz'⟩ | h
            · exact hk.1 z hz hz'.symm
            · exact hk.2 h)
      · exact Team.passRegs_miss (t := { t with regs := r }) (fun r => r.getP l n') hq (l := l)
          (by rw [Team.guard_congr h1 _ rfl]; exact hw)
          (fun a n hne hn r' b x => Regs.getP_setVs ..)
          (fun a n hne hn r' x b => by
            rw [Regs.getP_setP _ _ _ (hp n hn) hn', if_neg (fun h => hne h.1.symm)])
          (fun _ r' => Regs.getP_taint _ _ _ hd.2 hn')
    · exact (hout _ hmem).p l n' rfl hn'
  · intro l n' hn' hkeep
    by_cases hmem : l / 32 ∈ gs
    · obtain ⟨r, a, b, h1, h2⟩ := hpass l hmem
      rw [h2.pBad l n' rfl hn', ← h1.pBad l n' rfl hn']
      by_cases hw : (Mask.has m l = true ∧ t.guard f.grd l = true) ∨ (Mask.has m l = true ∧ t.guardBad f.grd l = true)
      · have hk := hkeep (hw.imp (fun h => ⟨h.1, h.2, hmem⟩) (fun h => ⟨h.1, h.2, hmem⟩))
        exact Team.passRegs_keep (t := { t with regs := r }) (fun r => r.badP l n') hq
          (fun a n _ _ hn r' b x => Regs.badP_setVs ..)
          (fun a n _ _ hn r' x b => by
            rw [Regs.badP_setP _ _ _ (hp n hn) hn', if_neg]
            rintro ⟨_, rfl⟩
            rcases hn with ⟨z, hz, hz'⟩ | h
            · exact hk.1 z hz hz'.symm
            · exact hk.2 h)
      · exact Team.passRegs_miss (t := { t with regs := r }) (fun r => r.badP l n') hq (l := l)
          (by rw [Team.guard_congr h1 _ rfl]; exact fun h => hw (.inl h))
          (fun a n hne hn r' b x => Regs.badP_setVs ..)
          (fun a n hne hn r' x b => by
            rw [Regs.badP_setP _ _ _ (hp n hn) hn', if_neg (fun h => hne h.1.symm)])
          (fun h => absurd (by rwa [Team.guardBad_congr h1 _ rfl] at h) (fun h => hw (.inr h)))
    · exact (hout _ hmem).pBad l n' rfl hn'
  · apply Regs.eq_of_core
    have hcore : ∀ (gs : List Nat) (t0 : Team),
        ({ (gs.foldl (fun t' g => t'.pass (s.seen t') i f gts e m readsD pred fn g) t0).regs with
          v := [], vPoison := [], p := [], pPoison := [], flag := 0 } : Regs) =
        { t0.regs with v := [], vPoison := [], p := [], pPoison := [], flag := 0 } := by
      intro gs
      induction gs with
      | nil => intro t0; rfl
      | cons g rest ih =>
        intro t0
        rw [List.foldl_cons, ih]
        obtain ⟨a, b, _, he⟩ := Team.pass_eq (t := t0) (seen := s.seen t0) (i := i) (f := f) (gts := gts) (e := e)
          (m := m) (readsD := readsD) (pred := pred) (fn := fn) (g := g)
        rw [he]
        exact Team.passRegs_keep
          (fun r => ({ r with v := [], vPoison := [], p := [], pPoison := [], flag := 0 } : Regs)) hq
          (fun a k _ _ _ r b x => Regs.setVs_core ..) (fun a k _ _ _ r x b => rfl)
    have := hcore gs t
    rw [hF] at this
    exact this

end Passes

/-! ## The whole form -/

/-- Ending an instruction that has changed of its own team only registers. -/
theorem Issues.finish {i : Instr} {f : Fields} {s s2 : State} {c : Cur} {t t2 : Team} (h : Issues i f s c t)
    (h2 : s2.team? c.uid = some t2) (ho : State.onlyTeam c.uid s s2) (he : t2 = { t with regs := t2.regs }) :
    ∃ t', (s2.finish c).team? c.uid = some t' ∧ State.onlyTeam c.uid s (s2.finish c) ∧ t.onlyRegs t' ∧
      t'.regs = t2.regs ∧ t'.ends t c := by
  have hfin := State.ends_finish s2 c h.plain
  obtain ⟨t', h3, h4⟩ := hfin.mine t2 h2
  have hsp : t2.split c.e = t.split c.e := by rw [he]; rfl
  obtain ⟨t'', h5, h6⟩ := State.finish_ends h2 h.plain (by rw [hsp, h.ready]; simp) (by rw [hsp, h.pc])
    (by rw [hsp, h.mask]) (by rw [hsp]; exact h.lanes)
  rw [h3] at h5
  cases h5
  unfold Team.onlySplits at h4
  refine ⟨t', h3, ho.trans hfin.onlyTeam, ?_, by rw [h4], h6.of_splits (by rw [he])⟩
  unfold Team.onlyRegs; rw [h4, he]

/-- With no register empty, nothing holds a group's pass. -/
theorem Team.gate_full {t : Team} {i : Instr} {f : Fields} (h : t.allFull i f) (g : Nat) :
    t.gate g (readsOf i f) [(f.dst, i.widths.1)] = .go := by
  obtain ⟨h1, h2, h3⟩ := h g
  unfold Team.gate readsOf
  simp [h1, h2, h3]

theorem firstGate_go {gate : Nat → Gate} (h : ∀ g, gate g = .go) (gs : List Nat) : firstGate gate gs = none := by
  induction gs with
  | nil => rfl
  | cons g rest ih => unfold firstGate; rw [h, ih]

/-- With no register empty, nothing holds a pass. -/
theorem Team.gates_full {t : Team} {i : Instr} {f : Fields} (h : t.allFull i f) (gs : List Nat) :
    t.gates (readsOf i f) [(f.dst, i.widths.1)] gs = none :=
  firstGate_go (t.gate_full h) gs

theorem State.gated_go {gate : Team → Nat → Gate} {t : Team} (h : ∀ g, gate t g = .go) (s : State) (c : Cur) (m : Mask)
    (body : State) : s.gated c t gate m false body = body := by
  unfold State.gated
  dsimp only
  rw [firstGate_go h]
  rfl

theorem issue_eq {i : Instr} {f : Fields} {s : State} {c : Cur} {t : Team} (h : Issues i f s c t)
    (body : Cur → Team → State) : issue i f s body = .next (body c t) := by
  unfold issue
  rw [h.cur]
  dsimp only
  rw [h.team]
  have hk : ¬ ((decide (t.kind = TeamKind.kite) && !kiteMay i f) = true) := by
    intro hx
    rw [Bool.and_eq_true, decide_eq_true_iff] at hx
    rw [h.kite hx.1] at hx
    simp at hx
  dsimp only
  rw [if_neg hk, if_neg (by simp [h.holds, h.mode]), if_neg (by simp [h.priv]), if_neg (by simp [h.logged])]

/-- Marking a long-latency destination changes no more of the device than marking a destination does. -/
theorem State.markLong_spec {s : State} {c : Cur} {t0 : Team} (h : s.team? c.uid = some t0) (t : Team) (i : Instr) (f : Fields)
    (m : Mask) : ∃ t', (s.markLong c t i f m).team? c.uid = some t' ∧
      t' = { t0 with regs := { t0.regs with vEmpty := t'.regs.vEmpty, sEmpty := t'.regs.sEmpty } } ∧
      State.onlyTeam c.uid s (s.markLong c t i f m) := by
  unfold State.markLong
  dsimp only
  split
  · exact ⟨t0, h, rfl, .refl _ s⟩
  · exact State.markPending_spec h ..

/-- The vector form of an instruction completes: the lanes whose guard holds write what `fn` gives them, no other lane and no
other register changes its value, and nothing else of the device does but the split's place and events. -/
theorem vectorForm_completes {i : Instr} {f : Fields} {s : State} {c : Cur} {t : Team} (h : Issues i f s c t) (sh : VecForm)
    (readsD : Bool) (pred : Option Nat) (fn : Team → Mask → Team → Rd → Nat → LaneOut) (hfull : t.allFull i f)
    (hgate : ∀ k, sh.gate = some k → ∀ g, k s t g = .go) (hd : destOk i pred)
    (hq : predOf pred (fn (s.seen t) (sh.sel t (c.lanes t))))
    (hl : Local s t i f s.gts c.e (fn (s.seen t) (sh.sel t (c.lanes t)))) :
    ∃ s' t' q, vectorForm i f sh readsD pred fn s = .next s' ∧ State.onlyTeam c.uid s s' ∧ s'.team? c.uid = some t' ∧
      t.onlyRegs t' ∧ t'.ends t c ∧ t'.regs = { q with vEmpty := t'.regs.vEmpty, sEmpty := t'.regs.sEmpty } ∧
      VecResult t q f.dst i.widths.1 pred
        (fun l => Mask.has (sh.sel t (c.lanes t)) l = true ∧ t.guard f.grd l = true)
        (fun l => Mask.has (sh.sel t (c.lanes t)) l = true ∧ t.guardBad f.grd l = true)
        (t.laneOut (s.seen t) i f s.gts c.e (fn (s.seen t) (sh.sel t (c.lanes t)))) := by
  unfold vectorForm
  rw [issue_eq h]
  dsimp only
  have htaint : ((GMask.list (Mask.groups (t.guardPoison f.grd (sh.sel t (c.due t))))).any
      fun g => t.isEmpty i.widths.1 g f.dst) = false := by
    rw [List.any_eq_false]
    exact fun g _ => by rw [(hfull g).1]; simp
  rw [htaint, State.gated_go]
  case h =>
    intro g
    cases hk : sh.gate with
    | none => exact t.gate_full hfull g
    | some k => exact hgate k hk g
  generalize hm : sh.sel t (c.lanes t) = m at *
  have hnd : (GMask.list (Mask.groups m)).Nodup := GMask.nodup_list _
  obtain ⟨q, hF, hR⟩ := Team.passes_result (t := t) (i := i) (f := f) (gts := s.gts) (e := c.e) (m := m) (readsD := readsD)
    (pred := pred) (fn := fn (s.seen t) m) s hd hq hl _ hnd
  rw [hF]
  have hmem : ∀ l, Mask.has m l = true → l / 32 ∈ GMask.list (Mask.groups m) := fun l h1 =>
    (Mask.mem_groups m _).2 ⟨l, rfl, h1⟩
  have hw : (fun l => Mask.has m l = true ∧ t.guard f.grd l = true ∧ l / 32 ∈ GMask.list (Mask.groups m)) =
      fun l => Mask.has m l = true ∧ t.guard f.grd l = true := by
    funext l
    exact propext ⟨fun h => ⟨h.1, h.2.1⟩, fun h => ⟨h.1, h.2, hmem l h.1⟩⟩
  have ht : (fun l => Mask.has m l = true ∧ t.guardBad f.grd l = true ∧ l / 32 ∈ GMask.list (Mask.groups m)) =
      fun l => Mask.has m l = true ∧ t.guardBad f.grd l = true := by
    funext l
    exact propext ⟨fun h => ⟨h.1, h.2.1⟩, fun h => ⟨h.1, h.2, hmem l h.1⟩⟩
  rw [hw, ht] at hR
  have huid := State.team?_uid h.team
  -- after the passes
  have h1 : (s.setTeam { t with regs := q }).team? c.uid = some { t with regs := q } := by
    rw [State.team?_setTeam, if_pos huid.symm]
  have h1o : State.onlyTeam c.uid s (s.setTeam { t with regs := q }) :=
    State.onlyTeam_setTeam_of s huid
  -- after marking the destination, and ending
  obtain ⟨t2, h2, h2e, h2o⟩ := State.markLong_spec h1 t i f m
  obtain ⟨t', h3, h4, h5, h6, h7⟩ := h.finish h2 (h1o.trans h2o) (by rw [h2e])
  refine ⟨_, t', q, rfl, h4, h3, h5, h7, ?_, hR⟩
  rw [h6, h2e]

end Sys2Proof.Machine
end

