-- ==== Sys2Proof/Laws/Uniform.lean ====
section
/-!
SUPPORT. Uniform instructions and scalar forms: that they complete, what they write, and what they leave alone.
-/
namespace Sys2Proof.Machine

/-- A uniform instruction whose guard holds in the lowest lane and carries no poison runs its body. -/
theorem uniform_eq {i : Instr} {f : Fields} {s : State} {c : Cur} {t : Team} (h : Issues i f s c t)
    (hg : t.guard f.grd (c.low t) = true) (hb : t.guardBad f.grd (c.low t) = false) (body : Cur → Team → Nat → State) :
    uniform i f s body = .next (body c t (c.low t)) := by
  unfold uniform
  rw [issue_eq h]
  dsimp only
  rw [hb, hg]
  simp

/-- A uniform instruction whose guard is false in the lowest lane, and carries no poison, only clears `$poison` of the split's lanes,
whose guard it has read. -/
theorem uniform_skip {i : Instr} {f : Fields} {s : State} {c : Cur} {t : Team} (h : Issues i f s c t)
    (hg : t.guard f.grd (c.low t) = false) (hb : t.guardBad f.grd (c.low t) = false) (body : Cur → Team → Nat → State) :
    uniform i f s body = .next ((s.setTeam { t with regs := t.regs.setFlag (c.lanes t) 0 }).finish c) := by
  unfold uniform
  rw [issue_eq h]
  dsimp only
  rw [hb, hg]
  simp

theorem Regs.setP_fold_rest (ls : List Nat) (n : Nat) (x b : Bool) (r : Regs) :
    ls.foldl (fun q k => q.setP k n x b) r =
      { r with p := (ls.foldl (fun q k => q.setP k n x b) r).p
               pPoison := (ls.foldl (fun q k => q.setP k n x b) r).pPoison } := by
  induction ls generalizing r with
  | nil => rfl
  | cons k rest ih => rw [List.foldl_cons, ih]; rfl

theorem Regs.getP_setP_fold (ls : List Nat) {n l n' : Nat} (x b : Bool) (r : Regs) (h : n < 16) (h' : n' < 16) :
    (ls.foldl (fun q k => q.setP k n x b) r).getP l n' = if l ∈ ls ∧ n' = n then x else r.getP l n' := by
  induction ls generalizing r with
  | nil => simp
  | cons k rest ih =>
    rw [List.foldl_cons, ih, Regs.getP_setP _ _ _ h h']
    by_cases h1 : l ∈ rest ∧ n' = n
    · rw [if_pos h1, if_pos ⟨List.mem_cons_of_mem _ h1.1, h1.2⟩]
    · rw [if_neg h1]
      by_cases h2 : l = k ∧ n' = n
      · rw [if_pos h2, if_pos ⟨h2.1 ▸ List.mem_cons_self, h2.2⟩]
      · rw [if_neg h2, if_neg]
        rintro ⟨h3, h4⟩
        rcases List.mem_cons.1 h3 with h5 | h5
        · exact h2 ⟨h5, h4⟩
        · exact h1 ⟨h5, h4⟩

/-- The scalar form of an instruction completes: it writes the scalar destination, and in every lane of the split the carry
predicate if it has one; no other register changes its value, and nothing else of the device does but the split's place and
events. -/
theorem scalarFrom_completes {i : Instr} {f : Fields} {s : State} {c : Cur} {t : Team} (h : Issues i f s c t)
    (readsD : Bool) (from_ : Team → Mask → List Nat) (fn : Team → Mask → Rd → Nat → LaneOut) (hfull : t.allFull i f)
    (hg : t.guard f.grd (c.low t) = true) (hb : t.guardBad f.grd (c.low t) = false) {n : BitVec 7} (hdst : f.dst = .s n) :
    ∃ s' t', scalarFrom i f readsD from_ fn s = .next s' ∧ State.onlyTeam c.uid s s' ∧ s'.team? c.uid = some t' ∧
      t.onlyRegs t' ∧ t'.ends t c ∧
      (let o := fn t (c.lanes t) { gts := s.gts, e := c.e, i := i, f := f } (c.low t)
       t'.regs.getSs n.toNat i.widths.1 = (t.regs.setSs n.toNat i.widths.1 o.val o.bad).getSs n.toNat i.widths.1 ∧
       t'.regs.s = (t.regs.setSs n.toNat i.widths.1 o.val o.bad).s ∧
       t'.regs.sPoison = (t.regs.setSs n.toNat i.widths.1 o.val o.bad).sPoison ∧
       (∀ p b, o.pred = some (p, b) → p < 16 → ∀ l, l < 1024 →
          ∀ p', p' < 16 → t'.regs.getP l p' = if Mask.has (c.lanes t) l ∧ p' = p then b else t.regs.getP l p') ∧
       (o.pred = none → t'.regs.p = t.regs.p ∧ t'.regs.pPoison = t.regs.pPoison)) ∧
      t'.regs = { t.regs with s := t'.regs.s, sPoison := t'.regs.sPoison, sEmpty := t'.regs.sEmpty, p := t'.regs.p
                              pPoison := t'.regs.pPoison, vEmpty := t'.regs.vEmpty, flag := t'.regs.flag } := by
  unfold scalarFrom
  rw [uniform_eq h hg hb]
  dsimp only
  rw [Team.gates_full hfull]
  dsimp only
  rw [hdst]
  dsimp only
  generalize ho : fn t (c.lanes t) { gts := s.gts, e := c.e, i := i, f := f } (c.low t) = o
  have hsr : ∀ (r : Regs) (k x : Nat) (b : Bool), r.setSs n.toNat k x b =
      { r with s := (r.setSs n.toNat k x b).s, sPoison := (r.setSs n.toNat k x b).sPoison } := by
    intro r k x b
    unfold Regs.setSs
    split
    · rfl
    · split <;> rfl
  have hpr : ∀ r : Regs, r.setPs (c.lanes t) o.bad o.pred =
      { r with p := (r.setPs (c.lanes t) o.bad o.pred).p, pPoison := (r.setPs (c.lanes t) o.bad o.pred).pPoison } := by
    intro r
    cases o.pred with
    | none => rfl
    | some p => exact Regs.setP_fold_rest _ _ _ _ _
  have hfr : ∀ (r : Regs) (cond : Prop) [Decidable cond] (a b : Mask), (if cond then r.setFlag a b else r) =
      { r with flag := (if cond then r.setFlag a b else r).flag } := by
    intro r cond _ a b
    split <;> rfl
  -- the registers after the write
  generalize hq0 : t.regs.setSs n.toNat i.widths.1 o.val o.bad = q0
  have e0 := hsr t.regs i.widths.1 o.val o.bad
  rw [hq0] at e0
  generalize hq1 : q0.setPs (c.lanes t) o.bad o.pred = q1
  have e1 := hpr q0
  rw [hq1] at e1
  have e2 := hfr q1 ((opndIsReg f.sa || opndIsReg f.sb || readsD || decide (f.grd ≠ Guard.always)) = true) (c.lanes t)
    (if o.bad = true then c.lanes t else 0)
  generalize hq2 : (if (opndIsReg f.sa || opndIsReg f.sb || readsD || decide (f.grd ≠ Guard.always)) = true then
      q1.setFlag (c.lanes t) (if o.bad = true then c.lanes t else 0) else q1) = q2 at e2
  have huid := State.team?_uid h.team
  have h1 : (s.setTeam { t with regs := q2 }).team? c.uid = some { t with regs := q2 } := by
    rw [State.team?_setTeam, if_pos huid.symm]
  have h1o := State.onlyTeam_setTeam_of s (t := { t with regs := q2 }) huid
  have hend : ∀ (s2 : State) (t2 : Team), s2.team? c.uid = some t2 → State.onlyTeam c.uid s s2 →
      t2 = { t with regs := { q2 with vEmpty := t2.regs.vEmpty, sEmpty := t2.regs.sEmpty } } →
      ∃ s' t', (Host.Outcome.next (s2.finish c) : Host.Outcome State Fault Refusal) = .next s' ∧
        State.onlyTeam c.uid s s' ∧ s'.team? c.uid = some t' ∧ t.onlyRegs t' ∧ t'.ends t c ∧
        (t'.regs.getSs n.toNat i.widths.1 = q0.getSs n.toNat i.widths.1 ∧ t'.regs.s = q0.s ∧
         t'.regs.sPoison = q0.sPoison ∧
         (∀ p b, o.pred = some (p, b) → p < 16 → ∀ l, l < 1024 →
            ∀ p', p' < 16 → t'.regs.getP l p' = if Mask.has (c.lanes t) l ∧ p' = p then b else t.regs.getP l p') ∧
         (o.pred = none → t'.regs.p = t.regs.p ∧ t'.regs.pPoison = t.regs.pPoison)) ∧
        t'.regs = { t.regs with s := t'.regs.s, sPoison := t'.regs.sPoison, sEmpty := t'.regs.sEmpty, p := t'.regs.p
                                pPoison := t'.regs.pPoison, vEmpty := t'.regs.vEmpty, flag := t'.regs.flag } := by
    intro s2 t2 h2 h2o h2e
    obtain ⟨t', h3, h4, h5, h6, h7⟩ := h.finish h2 h2o (by rw [h2e])
    have hregs : t'.regs = { q2 with vEmpty := t2.regs.vEmpty, sEmpty := t2.regs.sEmpty } := by rw [h6, h2e]
    have hs : t'.regs.s = q0.s := by rw [hregs, e2, e1]
    refine ⟨_, t', rfl, h4, h3, h5, h7, ⟨?_, hs, ?_, ?_, ?_⟩, ?_⟩
    · unfold Regs.getSs Regs.getS; rw [hs]
    · rw [hregs, e2, e1]
    · intro p b hp hp16 l hl p' hp'
      have : t'.regs.p = q1.p := by rw [hregs, e2]
      unfold Regs.getP
      rw [this]
      have hq1' : q1 = (Mask.list (c.lanes t)).foldl (fun (q : Regs) k => q.setP k p b o.bad) q0 := by rw [← hq1, hp]; rfl
      show q1.getP l p' = _
      rw [hq1', Regs.getP_setP_fold _ _ _ _ hp16 hp']
      have hp0 : q0.p = t.regs.p := by rw [e0]
      have : q0.getP l p' = t.regs.getP l p' := by unfold Regs.getP; rw [hp0]
      rw [this]
      by_cases hx : Mask.has (c.lanes t) l = true ∧ p' = p
      · rw [if_pos hx, if_pos ⟨(Mask.mem_list _ _).2 hx.1, hx.2⟩]
      · rw [if_neg hx, if_neg (fun h => hx ⟨(Mask.mem_list _ _).1 h.1, h.2⟩)]
        rfl
    · intro hn
      have hq1' : q1 = q0 := by rw [← hq1, hn]; rfl
      refine ⟨?_, ?_⟩ <;> rw [hregs, e2, hq1', e0]
    · rw [hregs, e2, e1, e0]
  cases hlat : longLatency i f (GMask.list (Mask.groups (t.split c.e).mask)).length with
  | none => exact hend _ _ h1 h1o rfl
  | some k =>
    obtain ⟨t2, h2, h2e, h2o⟩ := State.markPending_spec h1 (.s n) i.widths.1 []
      ((s.setTeam { t with regs := q2 }).time + cycles k) 0 []
    exact hend _ t2 h2 (h1o.trans h2o) h2e

end Sys2Proof.Machine
end

