-- ==== Sys2Proof/Laws/Alu.lean ====
section
/-!
SUPPORT. Instructions with one function of the lane's own operands: what they compute, once for all of them.
-/
namespace Sys2Proof.Machine

/-- No operand is wider than 256 registers. -/
theorem widths_le (i : Instr) : i.widths.1 ≤ 256 ∧ i.widths.2.1 ≤ 256 ∧ i.widths.2.2 ≤ 256 := by
  have hw : ∀ t : Ty, t.words ≤ 2 := by intro t; cases t <;> simp [Ty.words]
  have hb : ∀ isp : BitVec 5, widthWords isp ≤ 32 := by decide +kernel
  have hd : ∀ b, wordWords b ≤ 2 := by decide
  have hc : ∀ c, cvtWords c ≤ 2 := by intro c; unfold cvtWords; split <;> omega
  have hs : ∀ c : Nat, (if c = 5 then 2 else 1) ≤ 2 := by intro c; split <;> omega
  unfold Instr.widths
  split
  all_goals first
    | (next f => have h1 := hw f.ty; have h2 := hb f.isp; have h3 := hd f.isp[4]; have h4 := hd f.isp[0]
                 have h5 := hc (f.imm.toNat % 32); have h6 := hc (f.imm.toNat / 256 % 32); have h7 := hs (selKind f.imm)
                 refine ⟨?_, ?_, ?_⟩ <;> dsimp only <;> omega)
    | skip
  split
  · next f _ => have h1 := hw f.ty; refine ⟨?_, ?_, ?_⟩ <;> dsimp only <;> omega
  · decide

/-- No byte of memory differs where only a team does. -/
theorem State.onlyTeam.sameBytes {uid : Nat} {s s' : State} (h : State.onlyTeam uid s s') : s.sameBytes s' := by
  intro a
  have h1 : s'.mem = s.mem := by rw [h.1]
  have h2 : s'.scratch = s.scratch := by rw [h.1]
  rw [h1, h2]
  exact ⟨rfl, rfl⟩

/-- The registers that a pass sees, of a team whose registers agree with another's for a group. -/
theorem State.seen_congr (s : State) (t : Team) {r : Regs} {g : Nat} (h : t.regs.SameAt r g) :
    ∃ q : Regs, (s.seen t).regs.SameAt q g ∧ s.seen { t with regs := r } = { s.seen t with regs := q } := by
  unfold State.seen
  cases s.shadow with
  | none => exact ⟨r, h, rfl⟩
  | some p =>
    obtain ⟨uid, q⟩ := p
    dsimp only
    by_cases hu : uid = t.uid
    · refine ⟨q, ?_, ?_⟩
      · simp only [if_pos hu]; exact .refl _ _
      · simp only [if_pos hu]
    · refine ⟨r, ?_, ?_⟩
      · simp only [if_neg hu]; exact h
      · simp only [if_neg hu]

/-- A result that reads the lane's own operands and predicates alone does not depend on other groups' passes. -/
theorem local_of_congr {s : State} {t : Team} {i : Instr} {f : Fields} {gts e : Nat} {fn : Team → Rd → Nat → LaneOut}
    (h : ∀ (u : Team) (q : Regs) (l : Nat), u.regs.SameAt q (l / 32) →
      fn { u with regs := q } { gts := gts, e := e, i := i, f := f } l = fn u { gts := gts, e := e, i := i, f := f } l) :
    Local s t i f gts e fn := by
  intro r l hr
  obtain ⟨q, h1, h2⟩ := State.seen_congr s t hr
  rw [h2]
  exact h _ _ _ h1

/-- A vector form without a carry predicate, as claims about it are stated. -/
theorem vectorForm_lanes {i : Instr} {f : Fields} {s : State} {c : Cur} {t : Team} (h : Issues i f s c t)
    (hx : ∀ s, exec i s = vectorForm i f sh readsD pred fn s) (hsel : ∀ t m, sh.sel t m = m)
    (hfull : t.allFull i f) (hgate : sh.gate = none) (hpred : ∀ q, pred = some q → q < 16)
    (hq : predOf pred (fn (s.seen t) (c.lanes t))) (hl : Local s t i f s.gts c.e (fn (s.seen t) (c.lanes t))) :
    Completes i s c t fun _ t' => LanesWrite c t t' f i.widths.1 pred fun l x =>
      x = t.laneOut (s.seen t) i f s.gts c.e (fn (s.seen t) (c.lanes t)) l := by
  obtain ⟨s', t', q, h1, h2, h3, h4, h5, h6, h7⟩ := vectorForm_completes h sh readsD pred fn hfull
    (fun k hk => by rw [hgate] at hk; cases hk)
    ⟨(widths_le i).1, hpred⟩ (by rw [hsel]; exact hq) (by rw [hsel]; exact hl)
  rw [hsel] at h7
  exact ⟨s', t', (hx s).trans h1, h3, h2, h2.sameBytes, h4, h5, q, _, h6, h7, fun l _ => rfl⟩

theorem LanesWrite.imp {c : Cur} {t t' : Team} {f : Fields} {k : Nat} {pred : Option Nat} {R R' : Nat → LaneOut → Prop}
    (h : LanesWrite c t t' f k pred R) (hr : ∀ l x, Performs c t f l → R l x → R' l x) : LanesWrite c t t' f k pred R' := by
  obtain ⟨q, x, h1, h2, h3⟩ := h
  exact ⟨q, x, h1, h2, fun l hl => hr l _ hl (h3 l hl)⟩

theorem Completes.imp {i : Instr} {s : State} {c : Cur} {t : Team} {P Q : State → Team → Prop} (h : Completes i s c t P)
    (hpq : ∀ s' t', P s' t' → Q s' t') : Completes i s c t Q := by
  obtain ⟨s', t', h1, h2, h3, h4, h5, h6, h7⟩ := h
  exact ⟨s', t', h1, h2, h3, h4, h5, h6, hpq _ _ h7⟩

/-- A scalar form without a carry predicate, as claims about it are stated. -/
theorem scalarFrom_writes {i : Instr} {f : Fields} {s : State} {c : Cur} {t : Team} (h : Issues i f s c t)
    (hx : ∀ s, exec i s = scalarFrom i f readsD from_ fn s) (hfull : t.allFull i f)
    (hg : t.guard f.grd (c.low t) = true) (hb : t.guardBad f.grd (c.low t) = false) {n : BitVec 7} (hdst : f.dst = .s n)
    (hp : (fn t (c.lanes t) { gts := s.gts, e := c.e, i := i, f := f } (c.low t)).pred = none) :
    Completes i s c t fun _ t' => ScalarWrites t t' n.toNat i.widths.1 fun x bad =>
      let o := fn t (c.lanes t) { gts := s.gts, e := c.e, i := i, f := f } (c.low t)
      x = o.val % 2 ^ (32 * i.widths.1) ∧ bad = o.bad := by
  obtain ⟨s', t', h1, h2, h3, h4, h5, ⟨h6, h7, h8, h9, h10⟩, h11⟩ :=
    scalarFrom_completes h readsD from_ fn hfull hg hb hdst
  refine ⟨s', t', (hx s).trans h1, h3, h2, h2.sameBytes, h4, h5, _, _, ⟨rfl, rfl⟩, ?_⟩
  obtain ⟨h12, h13⟩ := h10 hp
  rw [h11, h7, h8, h12, h13]
  have hsr : ∀ (r : Regs) (k x : Nat) (b : Bool), r.setSs n.toNat k x b =
      { r with s := (r.setSs n.toNat k x b).s, sPoison := (r.setSs n.toNat k x b).sPoison } := by
    intro r k x b
    unfold Regs.setSs
    split
    · rfl
    · split <;> rfl
  rw [hsr]

/-- What an instruction of this shape computes. -/
theorem aluOp_computes {i : Instr} {f : Fields} {readsD : Bool} {op : Nat → Nat → Nat → Nat}
    (hx : ∀ s, exec i s = aluOp i f readsD op s) {V : Nat → Nat → Nat → Nat → Prop}
    (hV : ∀ d a b, V d a b (op d a b % 2 ^ (32 * i.widths.1))) : Computes i f readsD V := by
  intro s c t h hfull
  have hw := widths_le i
  refine ⟨fun hns => ?_, fun n hn hg hb => ?_⟩
  · refine (vectorForm_lanes h (sh := {}) (readsD := readsD) (pred := none)
      (fn := fun _ _ t r l =>
        { val := op (if readsD then t.src r f.dst i.widths.1 l else 0) (t.src r f.sa i.widths.2.1 l)
            (t.src r f.sb i.widths.2.2 l)
          bad := (readsD && t.bad f.dst i.widths.1 l) || t.bad f.sa i.widths.2.1 l || t.bad f.sb i.widths.2.2 l })
      (fun s => by rw [hx]; unfold aluOp; rw [hns]; rfl) (fun _ _ => rfl) hfull rfl
      (fun _ h => by cases h) (fun _ _ _ _ h => by cases h) ?_).imp fun s' t' hl => hl.imp fun l x _ hx => ?_
    · apply local_of_congr
      intro u q l hq
      simp only [Team.src_congr hq _ _ rfl hw.1, Team.src_congr hq _ _ rfl hw.2.1, Team.src_congr hq _ _ rfl hw.2.2,
        Team.bad_congr hq _ rfl hw.1, Team.bad_congr hq _ rfl hw.2.1, Team.bad_congr hq _ rfl hw.2.2]
    · rw [hx]
      exact ⟨hV _ _ _, rfl⟩
  · refine (scalarFrom_writes h (readsD := readsD) (from_ := fun _ m => [(Mask.lowest m).getD 0 / 32]) (fn := fun t _ r l =>
        { val := op (if readsD then t.src r f.dst i.widths.1 l else 0) (t.src r f.sa i.widths.2.1 l)
            (t.src r f.sb i.widths.2.2 l)
          bad := (readsD && t.bad f.dst i.widths.1 l) || t.bad f.sa i.widths.2.1 l || t.bad f.sb i.widths.2.2 l })
      (fun s => by
        rw [hx]; unfold aluOp; rw [show f.dst.isKind .s = true by rw [hn]; rfl]; rfl) hfull hg hb hn rfl).imp fun s' t' hs => ?_
    obtain ⟨x, bad, ⟨h1, h2⟩, h3⟩ := hs
    refine ⟨x, bad, ⟨?_, h2⟩, h3⟩
    rw [h1]
    exact hV _ _ _

/-! ## Elements -/

theorem elemW_pos (t : Ty) : 0 < elemW t := by cases t <;> simp [elemW]

/-- Joined elements read as the elements, each in its width. -/
theorem elemAt_joinElems (t : Ty) (l : List Nat) (e : Nat) :
    elemAt t (joinElems t l) e = if e < l.length then l.getD e 0 % 2 ^ elemW t else 0 := by
  unfold elemAt bitsAt
  induction l generalizing e with
  | nil => simp [joinElems]
  | cons x rest ih =>
    rw [joinElems]
    cases e with
    | zero => simp [Nat.add_mul_mod_self_left]
    | succ e =>
      have hp : 0 < 2 ^ elemW t := Nat.two_pow_pos _
      rw [Nat.mul_succ, Nat.add_comm (elemW t * e), Nat.pow_add, ← Nat.div_div_eq_div_mul,
        Nat.add_mul_div_left _ _ hp, Nat.div_eq_of_lt (Nat.mod_lt _ hp), Nat.zero_add, ih]
      simp

theorem joinElems_lt (t : Ty) (l : List Nat) : joinElems t l < 2 ^ (elemW t * l.length) := by
  induction l with
  | nil => simp [joinElems]
  | cons x rest ih =>
    rw [joinElems, List.length_cons, Nat.mul_succ, Nat.add_comm (elemW t * rest.length), Nat.pow_add]
    have hp : 0 < 2 ^ elemW t := Nat.two_pow_pos _
    have h1 : x % 2 ^ elemW t < 2 ^ elemW t := Nat.mod_lt _ hp
    have h2 : 2 ^ elemW t * (joinElems t rest + 1) ≤ 2 ^ elemW t * 2 ^ (elemW t * rest.length) := Nat.mul_le_mul_left _ ih
    rw [Nat.mul_succ] at h2
    omega

theorem elem_width (t : Ty) : elemW t * elemN t = 32 * t.words := by cases t <;> rfl

/-- Element `e` of an operation on elements. -/
theorem elemAt_mapElems (t : Ty) (op : Nat → Nat → Nat → Nat) (d a b e : Nat) (he : e < elemN t) :
    elemAt t (mapElems t op d a b % 2 ^ (32 * t.words)) e =
      op (elemAt t d e) (elemAt t a e) (elemAt t b e) % 2 ^ elemW t := by
  unfold mapElems
  have hl : ((List.range (elemN t)).map fun e => op (elemAt t d e) (elemAt t a e) (elemAt t b e)).length = elemN t := by
    simp
  rw [Nat.mod_eq_of_lt, elemAt_joinElems, hl, if_pos he, List.getD_eq_getElem?_getD, List.getElem?_map,
    List.getElem?_range he]
  · rfl
  · have := joinElems_lt t ((List.range (elemN t)).map fun e => op (elemAt t d e) (elemAt t a e) (elemAt t b e))
    rwa [hl, elem_width] at this

theorem elemAt_lt (t : Ty) (x e : Nat) : elemAt t x e < 2 ^ elemW t := Nat.mod_lt _ (Nat.two_pow_pos _)

theorem wrap_lt (w : Nat) (x : Int) : wrap w x < 2 ^ w := by
  unfold wrap
  have h : (0 : Int) < ((2 ^ w : Nat) : Int) := by exact_mod_cast Nat.two_pow_pos w
  have h1 := Int.emod_lt_of_pos x h
  have h2 := Int.emod_nonneg x (Int.ne_of_gt h)
  omega

theorem wrap_cast (w : Nat) (x : Int) : ((wrap w x : Nat) : Int) = x % 2 ^ w := by
  unfold wrap
  have h : (0 : Int) < ((2 ^ w : Nat) : Int) := by exact_mod_cast Nat.two_pow_pos w
  have h2 := Int.emod_nonneg x (Int.ne_of_gt h)
  rw [Int.toNat_of_nonneg h2]
  simp

/-- A signed value of a width, wrapped to the width, reads as itself. -/
theorem signed_wrap (w : Nat) (hw : 0 < w) (x : Int) (h1 : -(2 ^ (w - 1) : Int) ≤ x) (h2 : x < 2 ^ (w - 1)) :
    signed w (wrap w x) = x := by
  obtain ⟨v, rfl⟩ : ∃ v, w = v + 1 := ⟨w - 1, by omega⟩
  simp only [Nat.add_sub_cancel] at h1 h2
  have hp : (2 : Int) ^ (v + 1) = 2 * 2 ^ v := by rw [Int.pow_succ]; omega
  have hpn : (2 : Nat) ^ (v + 1) = 2 * 2 ^ v := by rw [Nat.pow_succ]; omega
  have hc := wrap_cast (v + 1) x
  rw [hp] at hc
  have hcast : ((2 ^ v : Nat) : Int) = 2 ^ v := by simp
  have hpos : (0 : Int) < 2 ^ v := by rw [← hcast]; exact_mod_cast Nat.two_pow_pos v
  have hx : x % (2 * 2 ^ v) = if 0 ≤ x then x else x + 2 * 2 ^ v := by
    split
    · rw [Int.emod_eq_of_lt] <;> omega
    · rw [← Int.add_emod_right, Int.emod_eq_of_lt] <;> omega
  rw [hx] at hc
  unfold signed
  rw [hpn]
  split at hc
  · rw [if_pos (by omega)]; exact hc
  · rw [if_neg (by omega)]
    omega

/-- Fitting an exact integer to a width gives it as R56 says. -/
theorem fits_fitW (sgn sat : Bool) (w : Nat) (hw : 0 < w) (x : Int) : Fits sgn sat w x (fitW sgn sat w x) := by
  unfold Fits fitW
  refine ⟨wrap_lt _ _, ?_⟩
  have hcast : ∀ k : Nat, ((2 ^ k : Nat) : Int) = 2 ^ k := by intro k; simp
  have hpos : ∀ k : Nat, (0 : Int) < 2 ^ k := by intro k; rw [← hcast]; exact_mod_cast Nat.two_pow_pos k
  have h1 := hpos (w - 1)
  have h2 := hpos w
  cases sat with
  | false =>
    simp only [Bool.false_eq_true, if_false]
    rw [wrap_cast, Int.emod_emod]
  | true =>
    simp only [if_true]
    cases sgn with
    | true =>
      simp only [if_true]
      apply signed_wrap w hw
      · unfold clampInt minInt maxInt
        simp only [if_true, hcast]
        split
        · omega
        · split <;> omega
      · unfold clampInt minInt maxInt
        simp only [if_true, hcast]
        split
        · omega
        · split <;> omega
    | false =>
      simp only [Bool.false_eq_true, if_false]
      rw [wrap_cast, Int.emod_eq_of_lt]
      · unfold clampInt minInt maxInt
        simp only [Bool.false_eq_true, if_false, hcast]
        split
        · omega
        · split <;> omega
      · unfold clampInt minInt maxInt
        simp only [Bool.false_eq_true, if_false, hcast]
        split
        · omega
        · split <;> omega

/-- An element operation on integers gives each element as R177 says. -/
theorem intOp_elementwise (t : Ty) (sat : Bool) (op : Int → Int → Int → Int) (d a b : Nat) :
    Elementwise t sat op d a b
      (mapElems t (fun d a b => fit t sat (op (intOf t d) (intOf t a) (intOf t b))) d a b % 2 ^ (32 * t.words)) := by
  intro e he
  rw [elemAt_mapElems _ _ _ _ _ _ he]
  unfold fit
  rw [Nat.mod_eq_of_lt]
  · exact fits_fitW _ _ _ (elemW_pos t) _
  · exact wrap_lt _ _

end Sys2Proof.Machine
end

