-- ==== Sys2Proof/Laws/PerInstr.lean ====
section
/-!
SUPPORT. What holds of every instruction as syntax, one lemma for each constructor.
-/
namespace Sys2Proof.Laws

/-- The top nine bits of a packed word are its opcode (02 R18). -/
theorem toWord_opc (r : Raw) : r.toWord.extractLsb' 87 9 = r.opc := by
  obtain ⟨opc, grd, dst, sa, sb, fe, ty, sat, rnd, isp, imm, hint⟩ := r
  ext k hk
  simp only [Raw.toWord, BitVec.getElem_extractLsb', BitVec.getLsbD_append]
  repeat rw [if_neg (by omega)]
  rw [show 87 + k - 11 - 24 - 5 - 2 - 1 - 4 - 2 - 11 - 11 - 11 - 5 = k by omega, BitVec.getLsbD_eq_getElem hk]

namespace OpcodeField

/-- An instruction's word holds its opcode of 02 R29 in its top nine bits; what has no opcode is an event, and has no fields. -/
def Statement (i : Instr) : Prop :=
  match i.opc? with
  | some o => (encode i).extractLsb' 87 9 = o
  | none => i.fields? = none

theorem add (f : Fields) : Statement (.add f) := toWord_opc _
theorem sub (f : Fields) : Statement (.sub f) := toWord_opc _
theorem addc (f : Fields) : Statement (.addc f) := toWord_opc _
theorem subb (f : Fields) : Statement (.subb f) := toWord_opc _
theorem mul (f : Fields) : Statement (.mul f) := toWord_opc _
theorem mulh (f : Fields) : Statement (.mulh f) := toWord_opc _
theorem mad (f : Fields) : Statement (.mad f) := toWord_opc _
theorem div (f : Fields) : Statement (.div f) := toWord_opc _
theorem rem (f : Fields) : Statement (.rem f) := toWord_opc _
theorem abs (f : Fields) : Statement (.abs f) := toWord_opc _
theorem neg (f : Fields) : Statement (.neg f) := toWord_opc _
theorem min (f : Fields) : Statement (.min f) := toWord_opc _
theorem max (f : Fields) : Statement (.max f) := toWord_opc _
theorem sad (f : Fields) : Statement (.sad f) := toWord_opc _
theorem addmin (f : Fields) : Statement (.addmin f) := toWord_opc _
theorem addmax (f : Fields) : Statement (.addmax f) := toWord_opc _
theorem and (f : Fields) : Statement (.and f) := toWord_opc _
theorem or (f : Fields) : Statement (.or f) := toWord_opc _
theorem xor (f : Fields) : Statement (.xor f) := toWord_opc _
theorem andn (f : Fields) : Statement (.andn f) := toWord_opc _
theorem not (f : Fields) : Statement (.not f) := toWord_opc _
theorem shl (f : Fields) : Statement (.shl f) := toWord_opc _
theorem shr (f : Fields) : Statement (.shr f) := toWord_opc _
theorem sar (f : Fields) : Statement (.sar f) := toWord_opc _
theorem rotl (f : Fields) : Statement (.rotl f) := toWord_opc _
theorem funsh (f : Fields) : Statement (.funsh f) := toWord_opc _
theorem popc (f : Fields) : Statement (.popc f) := toWord_opc _
theorem clz (f : Fields) : Statement (.clz f) := toWord_opc _
theorem ctz (f : Fields) : Statement (.ctz f) := toWord_opc _
theorem brev (f : Fields) : Statement (.brev f) := toWord_opc _
theorem bfx (f : Fields) : Statement (.bfx f) := toWord_opc _
theorem bfi (f : Fields) : Statement (.bfi f) := toWord_opc _
theorem cmp (f : Fields) : Statement (.cmp f) := toWord_opc _
theorem sel (f : Fields) : Statement (.sel f) := toWord_opc _
theorem lea (f : Fields) : Statement (.lea f) := toWord_opc _
theorem dot4 (f : Fields) : Statement (.dot4 f) := toWord_opc _
theorem dot2 (f : Fields) : Statement (.dot2 f) := toWord_opc _
theorem clamp (f : Fields) : Statement (.clamp f) := toWord_opc _
theorem ext (f : Fields) : Statement (.ext f) := toWord_opc _
theorem fadd (f : Fields) : Statement (.fadd f) := toWord_opc _
theorem fsub (f : Fields) : Statement (.fsub f) := toWord_opc _
theorem fmul (f : Fields) : Statement (.fmul f) := toWord_opc _
theorem fma (f : Fields) : Statement (.fma f) := toWord_opc _
theorem fms (f : Fields) : Statement (.fms f) := toWord_opc _
theorem fmin (f : Fields) : Statement (.fmin f) := toWord_opc _
theorem fmax (f : Fields) : Statement (.fmax f) := toWord_opc _
theorem fabs (f : Fields) : Statement (.fabs f) := toWord_opc _
theorem fneg (f : Fields) : Statement (.fneg f) := toWord_opc _
theorem fcmp (f : Fields) : Statement (.fcmp f) := toWord_opc _
theorem frcp (f : Fields) : Statement (.frcp f) := toWord_opc _
theorem frsq (f : Fields) : Statement (.frsq f) := toWord_opc _
theorem fsqrt (f : Fields) : Statement (.fsqrt f) := toWord_opc _
theorem fdiv (f : Fields) : Statement (.fdiv f) := toWord_opc _
theorem fexp2 (f : Fields) : Statement (.fexp2 f) := toWord_opc _
theorem flog2 (f : Fields) : Statement (.flog2 f) := toWord_opc _
theorem fsin (f : Fields) : Statement (.fsin f) := toWord_opc _
theorem fcos (f : Fields) : Statement (.fcos f) := toWord_opc _
theorem frnd (f : Fields) : Statement (.frnd f) := toWord_opc _
theorem fclass (f : Fields) : Statement (.fclass f) := toWord_opc _
theorem fscale (f : Fields) : Statement (.fscale f) := toWord_opc _
theorem faddmin (f : Fields) : Statement (.faddmin f) := toWord_opc _
theorem fdot2 (f : Fields) : Statement (.fdot2 f) := toWord_opc _
theorem cvt (f : Fields) : Statement (.cvt f) := toWord_opc _
theorem pack (f : Fields) : Statement (.pack f) := toWord_opc _
theorem unpack (f : Fields) : Statement (.unpack f) := toWord_opc _
theorem sxpack (f : Fields) : Statement (.sxpack f) := toWord_opc _
theorem sxunpack (f : Fields) : Statement (.sxunpack f) := toWord_opc _
theorem mov (f : Fields) : Statement (.mov f) := toWord_opc _
theorem movi (f : Fields) : Statement (.movi f) := toWord_opc _
theorem movhi (f : Fields) : Statement (.movhi f) := toWord_opc _
theorem bcast (f : Fields) : Statement (.bcast f) := toWord_opc _
theorem rdlane (f : Fields) : Statement (.rdlane f) := toWord_opc _
theorem wrlane (f : Fields) : Statement (.wrlane f) := toWord_opc _
theorem shfl (f : Fields) : Statement (.shfl f) := toWord_opc _
theorem tshfl (f : Fields) : Statement (.tshfl f) := toWord_opc _
theorem vote (f : Fields) : Statement (.vote f) := toWord_opc _
theorem prmt (f : Fields) : Statement (.prmt f) := toWord_opc _
theorem regroup (f : Fields) : Statement (.regroup f) := toWord_opc _
theorem rdsp (f : Fields) : Statement (.rdsp f) := toWord_opc _
theorem wrsp (f : Fields) : Statement (.wrsp f) := toWord_opc _
theorem scan (f : Fields) : Statement (.scan f) := toWord_opc _
theorem reduce (f : Fields) : Statement (.reduce f) := toWord_opc _
theorem plop (f : Fields) : Statement (.plop f) := toWord_opc _
theorem pmov (f : Fields) : Statement (.pmov f) := toWord_opc _
theorem bra (f : Fields) : Statement (.bra f) := toWord_opc _
theorem brx (f : Fields) : Statement (.brx f) := toWord_opc _
theorem call (f : Fields) : Statement (.call f) := toWord_opc _
theorem ret (f : Fields) : Statement (.ret f) := toWord_opc _
theorem exit (f : Fields) : Statement (.exit f) := toWord_opc _
theorem yield (f : Fields) : Statement (.yield f) := toWord_opc _
theorem nop (f : Fields) : Statement (.nop f) := toWord_opc _
theorem loop (f : Fields) : Statement (.loop f) := toWord_opc _
theorem splitq (f : Fields) : Statement (.splitq f) := toWord_opc _
theorem safept (f : Fields) : Statement (.safept f) := toWord_opc _
theorem critEnter (f : Fields) : Statement (.critEnter f) := toWord_opc _
theorem critExit (f : Fields) : Statement (.critExit f) := toWord_opc _
theorem ld (f : Fields) : Statement (.ld f) := toWord_opc _
theorem st (f : Fields) : Statement (.st f) := toWord_opc _
theorem ldToken (f : Fields) : Statement (.ldToken f) := toWord_opc _
theorem stToken (f : Fields) : Statement (.stToken f) := toWord_opc _
theorem lds (f : Fields) : Statement (.lds f) := toWord_opc _
theorem sts (f : Fields) : Statement (.sts f) := toWord_opc _
theorem ldk (f : Fields) : Statement (.ldk f) := toWord_opc _
theorem atom (f : Fields) : Statement (.atom f) := toWord_opc _
theorem atoms (f : Fields) : Statement (.atoms f) := toWord_opc _
theorem red (f : Fields) : Statement (.red f) := toWord_opc _
theorem pref (f : Fields) : Statement (.pref f) := toWord_opc _
theorem cctl (f : Fields) : Statement (.cctl f) := toWord_opc _
theorem stash (f : Fields) : Statement (.stash f) := toWord_opc _
theorem unstash (f : Fields) : Statement (.unstash f) := toWord_opc _
theorem stashwb (f : Fields) : Statement (.stashwb f) := toWord_opc _
theorem iflush (f : Fields) : Statement (.iflush f) := toWord_opc _
theorem bcopy (f : Fields) : Statement (.bcopy f) := toWord_opc _
theorem btile (f : Fields) : Statement (.btile f) := toWord_opc _
theorem bmcast (f : Fields) : Statement (.bmcast f) := toWord_opc _
theorem bfill (f : Fields) : Statement (.bfill f) := toWord_opc _
theorem bgather (f : Fields) : Statement (.bgather f) := toWord_opc _
theorem fwait (f : Fields) : Statement (.fwait f) := toWord_opc _
theorem ftest (f : Fields) : Statement (.ftest f) := toWord_opc _
theorem fcancel (f : Fields) : Statement (.fcancel f) := toWord_opc _
theorem chkt (f : Fields) : Statement (.chkt f) := toWord_opc _
theorem chkw (f : Fields) : Statement (.chkw f) := toWord_opc _
theorem fstat (f : Fields) : Statement (.fstat f) := toWord_opc _
theorem walk (f : Fields) : Statement (.walk f) := toWord_opc _
theorem wstat (f : Fields) : Statement (.wstat f) := toWord_opc _
theorem hret (f : Fields) : Statement (.hret f) := toWord_opc _
theorem hretf (f : Fields) : Statement (.hretf f) := toWord_opc _
theorem hfail (f : Fields) : Statement (.hfail f) := toWord_opc _
theorem hreg (f : Fields) : Statement (.hreg f) := toWord_opc _
theorem hunreg (f : Fields) : Statement (.hunreg f) := toWord_opc _
theorem barInit (f : Fields) : Statement (.barInit f) := toWord_opc _
theorem barArrive (f : Fields) : Statement (.barArrive f) := toWord_opc _
theorem barWait (f : Fields) : Statement (.barWait f) := toWord_opc _
theorem barSync (f : Fields) : Statement (.barSync f) := toWord_opc _
theorem barx (f : Fields) : Statement (.barx f) := toWord_opc _
theorem cbar (f : Fields) : Statement (.cbar f) := toWord_opc _
theorem amsg (f : Fields) : Statement (.amsg f) := toWord_opc _
theorem cont (f : Fields) : Statement (.cont f) := toWord_opc _
theorem emit (f : Fields) : Statement (.emit f) := toWord_opc _
theorem fenceIo (f : Fields) : Statement (.fenceIo f) := toWord_opc _
theorem fencePool (f : Fields) : Statement (.fencePool f) := toWord_opc _
theorem waitmon (f : Fields) : Statement (.waitmon f) := toWord_opc _
theorem sleep (f : Fields) : Statement (.sleep f) := toWord_opc _
theorem trap (f : Fields) : Statement (.trap f) := toWord_opc _
theorem tret (f : Fields) : Statement (.tret f) := toWord_opc _
theorem cwr (f : Fields) : Statement (.cwr f) := toWord_opc _
theorem cww (f : Fields) : Statement (.cww f) := toWord_opc _
theorem inspect (f : Fields) : Statement (.inspect f) := toWord_opc _
theorem alter (f : Fields) : Statement (.alter f) := toWord_opc _
theorem resume (f : Fields) : Statement (.resume f) := toWord_opc _
theorem kill (f : Fields) : Statement (.kill f) := toWord_opc _
theorem replay (f : Fields) : Statement (.replay f) := toWord_opc _
theorem bkpt (f : Fields) : Statement (.bkpt f) := toWord_opc _
theorem rdts (f : Fields) : Statement (.rdts f) := toWord_opc _
theorem pclass (f : Fields) : Statement (.pclass f) := toWord_opc _
theorem pwrq (f : Fields) : Statement (.pwrq f) := toWord_opc _
theorem accspill (f : Fields) : Statement (.accspill f) := toWord_opc _
theorem accfill (f : Fields) : Statement (.accfill f) := toWord_opc _
theorem tlbinvAll (f : Fields) : Statement (.tlbinvAll f) := toWord_opc _
theorem tlbinvCtx (f : Fields) : Statement (.tlbinvCtx f) := toWord_opc _
theorem tlbinvVa (f : Fields) : Statement (.tlbinvVa f) := toWord_opc _
theorem scanrun (f : Fields) : Statement (.scanrun f) := toWord_opc _
theorem udf (raw : BitVec 87) : Statement (.udf raw) := by
  simp only [Statement, Instr.opc?, encode]
  ext k hk
  simp only [BitVec.getElem_extractLsb', BitVec.getLsbD_append]
  simp [show ¬ 87 + k < 87 by omega, hk]
theorem divideRetry (uid : Nat) (e : Nat) : Statement (.divideRetry uid e) := rfl
theorem schedulerIssue : Statement (.schedulerIssue) := rfl
theorem blockEntryHoldExpiry (uid : Nat) (e : Nat) : Statement (.blockEntryHoldExpiry uid e) := rfl
theorem kiteTimeout (uid : Nat) : Statement (.kiteTimeout uid) := rfl
theorem trapFrameGrant (core : Nat) : Statement (.trapFrameGrant core) := rfl
theorem waitmonWake (uid : Nat) (e : Nat) (line : Nat) : Statement (.waitmonWake uid e line) := rfl
theorem sleepExpiry (uid : Nat) (e : Nat) : Statement (.sleepExpiry uid e) := rfl
theorem wakeApply : Statement (.wakeApply) := rfl
theorem packetRead (q : Nat) : Statement (.packetRead q) := rfl
theorem waitvalReevaluate (q : Nat) : Statement (.waitvalReevaluate q) := rfl
theorem mdAccept : Statement (.mdAccept) := rfl
theorem placementGrant (part : Nat) : Statement (.placementGrant part) := rfl
theorem windowZeroingDone (uid : Nat) : Statement (.windowZeroingDone uid) := rfl
theorem recordArrival (core : Nat) : Statement (.recordArrival core) := rfl
theorem batchTimerExpiry (core : Nat) (batch : Nat) : Statement (.batchTimerExpiry core batch) := rfl
theorem batchLaunch (core : Nat) (batch : Nat) : Statement (.batchLaunch core batch) := rfl
theorem faultRecordDeferredWrite (ctx : Nat) : Statement (.faultRecordDeferredWrite ctx) := rfl
theorem parkedAccessWake (line : Nat) : Statement (.parkedAccessWake line) := rfl
theorem migrationRequest (fn : Nat) : Statement (.migrationRequest fn) := rfl
theorem migrationDone (fn : Nat) : Statement (.migrationDone fn) := rfl
theorem tlbInvalidationDone (fn : Nat) : Statement (.tlbInvalidationDone fn) := rfl
theorem apertureReadTimeout (fn : Nat) (tag : Nat) : Statement (.apertureReadTimeout fn tag) := rfl
theorem partSet (fn : Nat) : Statement (.partSet fn) := rfl
theorem partClear (fn : Nat) : Statement (.partClear fn) := rfl
theorem partReset (fn : Nat) : Statement (.partReset fn) := rfl
theorem partRun (fn : Nat) : Statement (.partRun fn) := rfl
theorem funcParts (fn : Nat) : Statement (.funcParts fn) := rfl
theorem ctxSet (fn : Nat) : Statement (.ctxSet fn) := rfl
theorem ctxDestroy (fn : Nat) : Statement (.ctxDestroy fn) := rfl
theorem ctxPreempt (fn : Nat) : Statement (.ctxPreempt fn) := rfl
theorem ctxRestore (fn : Nat) : Statement (.ctxRestore fn) := rfl
theorem ctxReplayGrant (fn : Nat) : Statement (.ctxReplayGrant fn) := rfl
theorem ctxReplayRevoke (fn : Nat) : Statement (.ctxReplayRevoke fn) := rfl
theorem queueSet (fn : Nat) : Statement (.queueSet fn) := rfl
theorem queueSetRestart (fn : Nat) : Statement (.queueSetRestart fn) := rfl
theorem queueAssign (fn : Nat) : Statement (.queueAssign fn) := rfl
theorem aperture (fn : Nat) : Statement (.aperture fn) := rfl
theorem fwLoad (fn : Nat) : Statement (.fwLoad fn) := rfl
theorem svnRaise (fn : Nat) : Statement (.svnRaise fn) := rfl
theorem railSet (fn : Nat) : Statement (.railSet fn) := rfl
theorem scanGap (fn : Nat) : Statement (.scanGap fn) := rfl
theorem scanNow (fn : Nat) : Statement (.scanNow fn) := rfl
theorem replaySlotRead : Statement (.replaySlotRead) := rfl
theorem stpLinkLoss : Statement (.stpLinkLoss) := rfl
theorem droopDecision : Statement (.droopDecision) := rfl
theorem shedLevelFall : Statement (.shedLevelFall) := rfl
theorem backstopExpiry (cls : Nat) : Statement (.backstopExpiry cls) := rfl
theorem critcapExpiry (uid : Nat) : Statement (.critcapExpiry uid) := rfl
theorem notifyGrantExpiry (uid : Nat) : Statement (.notifyGrantExpiry uid) := rfl
theorem clockStretchEnd (quad : Nat) : Statement (.clockStretchEnd quad) := rfl
theorem a1Entry (quad : Nat) : Statement (.a1Entry quad) := rfl
theorem a2Entry (quad : Nat) : Statement (.a2Entry quad) := rfl
theorem a3Entry : Statement (.a3Entry) := rfl
theorem idleExitComplete (unit : Nat) : Statement (.idleExitComplete unit) := rfl
theorem walkActivate (quad : Nat) (rte : Nat) : Statement (.walkActivate quad rte) := rfl
theorem operandRequest (quad : Nat) (rte : Nat) : Statement (.operandRequest quad rte) := rfl
theorem tileBegin (quad : Nat) : Statement (.tileBegin quad) := rfl
theorem tileFinish (quad : Nat) : Statement (.tileFinish quad) := rfl
theorem operandHeld (quad : Nat) (rte : Nat) (slot : Nat) : Statement (.operandHeld quad rte slot) := rfl
theorem fetcherFillDone (quad : Nat) (rte : Nat) (slot : Nat) : Statement (.fetcherFillDone quad rte slot) := rfl
theorem walkSave (quad : Nat) (rte : Nat) : Statement (.walkSave quad rte) := rfl
theorem walkStopDone (quad : Nat) (rte : Nat) : Statement (.walkStopDone quad rte) := rfl
theorem engineReset (quad : Nat) : Statement (.engineReset quad) := rfl
theorem copyChunkDone (core : Nat) (job : Nat) (chunk : Nat) : Statement (.copyChunkDone core job chunk) := rfl
theorem preemptDeadline (ctx : Nat) : Statement (.preemptDeadline ctx) := rfl
theorem doneWrite (q : Nat) (pidx : Nat) : Statement (.doneWrite q pidx) := rfl
theorem queueReassignment : Statement (.queueReassignment) := rfl
theorem partitionResetComplete (part : Nat) : Statement (.partitionResetComplete part) := rfl
theorem baseDieFault : Statement (.baseDieFault) := rfl
theorem rotationScanStart : Statement (.rotationScanStart) := rfl
theorem scanDrainTimeout (core : Nat) : Statement (.scanDrainTimeout core) := rfl
theorem scanComplete (core : Nat) (pass : Bool) : Statement (.scanComplete core pass) := rfl
theorem hotReset : Statement (.hotReset) := rfl
theorem fabricLinkDown : Statement (.fabricLinkDown) := rfl
theorem perstRelease (verified : Bool) : Statement (.perstRelease verified) := rfl
theorem linkRetrain (link : Nat) (trained : Bool) : Statement (.linkRetrain link trained) := rfl
theorem fabricLinkRetrain : Statement (.fabricLinkRetrain) := rfl
theorem wakeWrite (fn : Nat) (off : Nat) (size : Nat) (value : U64) : Statement (.wakeWrite fn off size value) := rfl
theorem poolBackInvalidate (line : Nat) : Statement (.poolBackInvalidate line) := rfl
theorem migtail (fn : Nat) (value : U64) : Statement (.migtail fn value) := rfl
theorem ticmdAll (fn : Nat) (raw : U64) : Statement (.ticmdAll fn raw) := rfl
theorem ticmdCtx (fn : Nat) (raw : U64) : Statement (.ticmdCtx fn raw) := rfl
theorem ticmdVa (fn : Nat) (raw : U64) : Statement (.ticmdVa fn raw) := rfl
theorem tistatClear (fn : Nat) (bits : U64) : Statement (.tistatClear fn bits) := rfl
theorem frdw (fn : Nat) (value : U64) : Statement (.frdw fn value) := rfl
theorem abase (fn : Nat) (value : U64) : Statement (.abase fn value) := rfl
theorem apertureRead (fn : Nat) (tag : Nat) (off : Nat) (len : Nat) : Statement (.apertureRead fn tag off len) := rfl
theorem apertureWrite (fn : Nat) (off : Nat) (data : List Byte) : Statement (.apertureWrite fn off data) := rfl
theorem apertureAtomic (fn : Nat) (tag : Nat) (off : Nat) (op : HostAtomic) (wide : Bool) (v : U64) (cmp : U64) : Statement (.apertureAtomic fn tag off op wide v cmp) := rfl
theorem ltr (enabled : Bool) (snoop : Nat) (noSnoop : Nat) : Statement (.ltr enabled snoop noSnoop) := rfl
theorem spdmRequest (req : List Byte) : Statement (.spdmRequest req) := rfl
theorem sctail (fn : Nat) (value : U64) : Statement (.sctail fn value) := rfl
theorem errrd (value : U64) : Statement (.errrd value) := rfl
theorem clrd (value : U64) : Statement (.clrd value) := rfl
theorem registerWrite (fn : Nat) (off : Nat) (data : List Byte) : Statement (.registerWrite fn off data) := rfl
theorem thezenFrame (data : List Byte) : Statement (.thezenFrame data) := rfl
theorem droopDetectorTrip (quad : Nat) : Statement (.droopDetectorTrip quad) := rfl
theorem railFault (quad : Nat) : Statement (.railFault quad) := rfl
theorem sensorSweep (temps : List Int) : Statement (.sensorSweep temps) := rfl
theorem vectorRegisterError (uid : Nat) (lane : Nat) (reg : Nat) : Statement (.vectorRegisterError uid lane reg) := rfl
theorem teamStateError (uid : Nat) : Statement (.teamStateError uid) := rfl
theorem scratchpadError (core : Nat) (sector : Nat) : Statement (.scratchpadError core sector) := rfl
theorem llcLineError (line : Nat) : Statement (.llcLineError line) := rfl
theorem cleanLineError (core : Nat) (line : Nat) : Statement (.cleanLineError core line) := rfl
theorem dramError (line : Nat) : Statement (.dramError line) := rfl
theorem correctableError (src : Nat) : Statement (.correctableError src) := rfl
theorem linkCrcFailure (link : Nat) : Statement (.linkCrcFailure link) := rfl
theorem queueCoreImemError (qc : Nat) : Statement (.queueCoreImemError qc) := rfl
theorem queueTableError (q : Nat) : Statement (.queueTableError q) := rfl
theorem quadClockRailFault (quad : Nat) : Statement (.quadClockRailFault quad) := rfl
theorem functionLevelReset (fn : Nat) : Statement (.functionLevelReset fn) := rfl

end OpcodeField
end Sys2Proof.Laws
end

