-- ==== Sys2Proof/Tests/Slice0.lean ====
section
/-!
SUPPORT. Tests: words of the spec, ill-formed instructions, and for every statement with hypotheses a state and operands that
meet them.
-/
namespace Sys2Proof.Tests
open Sys2Proof.Machine

-- one theorem after the other: each is evaluated by the kernel, and waiting ones would hold a thread each
set_option Elab.async false

/-! ## A state in which an instruction issues -/

/-- Fields that name nothing. -/
def none_ : Fields := { grd := .always, dst := .none, sa := .none, sb := .none, feA := false, feB := false, ty := .i32, sat := false
                        rnd := .rne, isp := 0, imm := 0, hint := 0 }
def vv : Fields := { none_ with dst := .v 4, sa := .v 0, sb := .v 2 }
def v1 : Fields := { none_ with dst := .v 4, sa := .v 0 }
def ss : Fields := { none_ with dst := .s 4, sa := .s 0, sb := .s 2 }
def s1 : Fields := { none_ with dst := .s 4, sa := .s 0 }

/-- A team of 64 lanes on core 0, whose first split holds lanes 0 and 1 and stands at the placed word. -/
def team (r : Regs) : Team :=
  { placedTeam 1 1 with
    lanes := 64, slots := [0, 1], regs := r, spCount := 1
    splits := { state := .ready, pc := placedPc, mask := 3 } :: List.replicate 15 {} }
def cur : Cur := { uid := 1, e := 0, pc := placedPc, word := 0, groups := .allOnes 32, mask := 3, replay := none, shared := false }
/-- The device with a team: its context maps one page of 64 KiB at 0x10000, readable, writable and executable. -/
def device (t : Team) : State :=
  { (State.reset.placeWord 0).setTeam t with issueQ := [], cur := some cur, status := 1 }
/-- Registers: s0 and v0 point into the page, v2 into the window, s2 to code, and lanes 0 and 1 have a return address. -/
def regs : Regs :=
  { s := [(0, 0x18000), (2, 0x10190), (6, 256)], links := [(0, [0x10190]), (1, [0x10190])]
    v := [(0, 0x18000), (2, 16), (512, 0x18008), (514, 24)] }
def tm : Team := team regs
def st : State := device tm

/-- The premises of a statement about an instruction that issues, as a computation. -/
def issues (i : Instr) (f : Fields) (s : State) (c : Cur) (t : Team) : Bool :=
  decide (s.cur = some c) && decide (s.team? c.uid = some t) && decide ((t.split c.e).state = .ready) &&
  decide (c.mask = (t.split c.e).mask) && decide (c.pc = (t.split c.e).pc) && decide ((t.split c.e).mask ≠ 0) &&
  (decide (t.kind ≠ .kite) || kiteMay i f) && t.holdsAll i f && !modeBan t.mode i && mayRun t.mode i && decide (c.replay = none) &&
  !s.logHolds t c.e i

theorem issues_meets {i : Instr} {f : Fields} {s : State} {c : Cur} {t : Team} (h : issues i f s c t = true) : Issues i f s c t := by
  simp only [issues, Bool.and_eq_true, decide_eq_true_eq, Bool.or_eq_true, Bool.not_eq_true'] at h
  obtain ⟨⟨⟨⟨⟨⟨⟨⟨⟨⟨⟨h1, h2⟩, h3⟩, h4⟩, h5⟩, h6⟩, h7⟩, h8⟩, h9⟩, h10⟩, h11⟩, h12⟩ := h
  exact ⟨h1, h2, h3, h4, h5, h6, fun k => h7.resolve_left fun n => n k, h8, h9, h10, h11, h12⟩

theorem full_meets {t : Team} (i : Instr) (f : Fields) (h : t.regs.vEmpty = []) (h' : t.regs.sEmpty = []) : t.allFull i f := by
  intro g
  have e (o : Opnd) (k : Nat) : t.isEmpty k g o = false := by
    cases o <;> simp [Team.isEmpty, Regs.emptyV, Regs.emptyS, h, h', NSet.mem]
  exact ⟨e _ _, e _ _, e _ _⟩

/-- A well-formed instruction issues in a state, with no register empty, under a guard that holds and carries no poison. -/
def MeetsIn (s : State) (t : Team) (i : Instr) : Prop :=
  ∃ f, i.fields? = some f ∧ i.wellFormed = true ∧ Issues i f s cur t ∧ t.allFull i f ∧
    (∀ l, t.guard f.grd l = true) ∧ ∀ l, t.guardBad f.grd l = false
abbrev Meets : Instr → Prop := MeetsIn st tm

def ready (s : State) (t : Team) (i : Instr) : Bool :=
  match i.fields? with
  | some f => i.wellFormed && issues i f s cur t && decide (f.grd = .always) && decide (t.regs.vEmpty = []) && decide (t.regs.sEmpty = [])
  | none => false

theorem ready_meets {s : State} {t : Team} {i : Instr} (h : ready s t i = true) : MeetsIn s t i := by
  unfold ready at h
  split at h
  · rename_i f e
    simp only [Bool.and_eq_true, decide_eq_true_eq] at h
    obtain ⟨⟨⟨⟨h1, h2⟩, h3⟩, h4⟩, h5⟩ := h
    refine ⟨f, e, h1, issues_meets h2, full_meets _ _ h4 h5, ?_, ?_⟩ <;> rw [h3] <;> intro l <;> rfl
  · cases h

theorem all_meet {s : State} {t : Team} (l : List Instr) (h : l.all (ready s t) = true) : ∀ i ∈ l, MeetsIn s t i :=
  fun i hi => ready_meets (List.all_eq_true.1 h i hi)

theorem lanes_meet {m : Mask} {P : Nat → Prop} (h : ∀ l ∈ Mask.list m, P l) (l : Nat) (hl : Mask.has m l = true) : P l :=
  h l ((Mask.mem_list m l).2 hl)

/-! ## Integer instructions -/

theorem test_meets_IntegerArithmetic : ∀ i ∈ [Instr.add vv, .add ss, .sub vv, .sub ss, .mul vv, .mul ss, .mulh vv, .mulh ss, .mad vv, .mad ss, .min vv, .min ss, .max vv, .max ss, .clamp vv, .clamp ss, .addmin vv, .addmin ss, .addmax vv, .addmax ss, .sad vv, .sad ss,
    .abs v1, .abs s1, .neg v1, .neg s1,
    .dot4 { vv with ty := .i8x4 }, .dot4 { ss with ty := .u8x4 }, .dot2 { vv with ty := .i16x2 }, .dot2 { ss with ty := .u16x2 }],
    Meets i := all_meet _ (by decide +kernel)

theorem test_meets_CarryChains : ∀ i ∈ [Instr.addc { vv with ty := .u32, imm := 11 }, .addc { ss with ty := .u64, imm := 11 },
    .subb { vv with ty := .u32 }, .subb { ss with ty := .u64 }],
    Meets i := all_meet _ (by decide +kernel)

theorem test_meets_Division : ∀ i ∈ [Instr.div vv, .div ss, .rem { vv with ty := .u64 }, .rem { ss with ty := .u64 }],
    Meets i := all_meet _ (by decide +kernel)

theorem test_meets_LogicAndShifts : ∀ i ∈ [Instr.and { vv with ty := .u32 }, .and { ss with ty := .u32 }, .or { vv with ty := .u32 }, .or { ss with ty := .u32 }, .xor { vv with ty := .u32 }, .xor { ss with ty := .u32 }, .andn { vv with ty := .u32 }, .andn { ss with ty := .u32 },
    .shl { vv with ty := .u32 }, .shl { ss with ty := .u32 }, .shr { vv with ty := .u32 }, .shr { ss with ty := .u32 }, .rotl { vv with ty := .u32 }, .rotl { ss with ty := .u32 }, .funsh { vv with ty := .u32 }, .funsh { ss with ty := .u32 }, .lea { vv with ty := .u32 }, .lea { ss with ty := .u32 },
    .sar vv, .sar ss, .not { v1 with ty := .u32 }, .not { s1 with ty := .u32 }, .popc { v1 with ty := .u32 }, .popc { s1 with ty := .u32 }, .clz { v1 with ty := .u32 }, .clz { s1 with ty := .u32 }, .ctz { v1 with ty := .u32 }, .ctz { s1 with ty := .u32 }, .brev { v1 with ty := .u32 }, .brev { s1 with ty := .u32 },
    .bfx { v1 with imm := 0x0605 }, .bfx { s1 with imm := 0x0605 }, .bfi { v1 with imm := 0x0605 }, .bfi { s1 with imm := 0x0605 }, .ext v1, .ext s1],
    Meets i := all_meet _ (by decide +kernel)

theorem test_meets_CompareAndSelect : ∀ i ∈ [Instr.cmp { vv with dst := .p 2 }, .sel { vv with ty := .u32 }],
    Meets i := all_meet _ (by decide +kernel)

/-! ## Floating point -/

theorem test_meets_Rounding : ∃ F ∈ formats, F.kind = .oneNan := ⟨fmtE4M3, by decide, rfl⟩

theorem test_meets_ExactArithmetic : (FV.fin true 3 0).isFinite = true ∧ (FV.fin true 0 0).rat + (FV.fin false 0 0).rat = 0 := by decide +kernel

theorem test_meets_FloatArithmetic : ∀ i ∈ [Instr.fadd { vv with ty := .f32 }, .fadd { ss with ty := .f32 }, .fsub { vv with ty := .f32 }, .fsub { ss with ty := .f32 }, .fmul { vv with ty := .f32 }, .fmul { ss with ty := .f32 }, .fma { vv with ty := .f32 }, .fma { ss with ty := .f32 }, .fms { vv with ty := .f32 }, .fms { ss with ty := .f32 }, .fscale { vv with ty := .f32 }, .fscale { ss with ty := .f32 }, .faddmin { vv with ty := .f32 }, .faddmin { ss with ty := .f32 },
    .fdot2 { vv with ty := .f16x2 }, .fdot2 { ss with ty := .bf16x2 }],
    Meets i := all_meet _ (by decide +kernel)

theorem test_meets_FloatSelection : ∀ i ∈ [Instr.fmin { vv with ty := .f32 }, .fmin { ss with ty := .f32 }, .fmax { vv with ty := .f32 }, .fmax { ss with ty := .f32 }, .fabs { v1 with ty := .f32 }, .fabs { s1 with ty := .f32 }, .fneg { v1 with ty := .f32 }, .fneg { s1 with ty := .f32 }, .frnd { v1 with ty := .f32 }, .frnd { s1 with ty := .f32 }, .fclass { v1 with ty := .f32 }, .fclass { s1 with ty := .f32 }],
    Meets i := all_meet _ (by decide +kernel)

theorem test_meets_FloatCompare : ∀ i ∈ [Instr.fcmp { vv with dst := .p 2, ty := .f32 }, .fcmp { vv with dst := .p 2, ty := .f64, isp := 7 }],
    Meets i := all_meet _ (by decide +kernel)

theorem test_meets_QuotientsAndRoots : ∀ i ∈ [Instr.fdiv { vv with ty := .f32 }, .fdiv { ss with ty := .f32 }, .frcp { v1 with ty := .f32 }, .frcp { s1 with ty := .f32 }, .fsqrt { v1 with ty := .f32 }, .fsqrt { s1 with ty := .f32 }, .frsq { v1 with ty := .f32 }, .frsq { s1 with ty := .f32 }],
    Meets i := all_meet _ (by decide +kernel)

theorem test_meets_SpecialFunctions : ∀ i ∈ [Instr.fexp2 { v1 with ty := .f32 }, .fexp2 { s1 with ty := .f32 }, .flog2 { v1 with ty := .f32 }, .flog2 { s1 with ty := .f32 }, .fsin { v1 with ty := .f32 }, .fsin { s1 with ty := .f32 }, .fcos { v1 with ty := .f32 }, .fcos { s1 with ty := .f32 }],
    Meets i := all_meet _ (by decide +kernel)

theorem test_meets_Conversions : ∀ i ∈ [Instr.cvt { v1 with imm := 0x0C0C }, .cvt { s1 with imm := 0x0006 }, .cvt { v1 with imm := 0x0500 }, .cvt { v1 with imm := 0x0003 }],
    Meets i := all_meet _ (by decide +kernel)

theorem test_meets_Packing : ∀ i ∈ [Instr.pack { vv with ty := .i16x2 }, .pack { ss with ty := .f16x2 }, .unpack { v1 with ty := .bf16x2 }, .unpack { s1 with ty := .u16x2 }],
    Meets i := all_meet _ (by decide +kernel)

theorem test_meets_SharedExponents : ∀ i ∈ [Instr.sxpack v1, .sxpack { s1 with isp := 6 }, .sxunpack v1, .sxunpack { s1 with isp := 14 }],
    Meets i := all_meet _ (by decide +kernel)

/-! ## Moves and lanes -/

theorem test_meets_Moves : ∀ i ∈ [Instr.mov v1, .mov s1, .movi { none_ with dst := .v 4, imm := 0xFFFFFF }, .movi { none_ with dst := .s 4, ty := .u64 },
    .movhi { none_ with dst := .v 4, ty := .u32 }, .movhi { none_ with dst := .s 4, ty := .u64, isp := 1 }, .prmt vv],
    Meets i := all_meet _ (by decide +kernel)

theorem test_meets_NamedLanes : ∀ i ∈ [Instr.bcast { v1 with ty := .u32, imm := 31 }, .rdlane { v1 with dst := .s 4, ty := .u32, imm := 63 },
    .wrlane { v1 with ty := .u32, imm := 1 }],
    Meets i := all_meet _ (by decide +kernel)

theorem test_meets_Shuffles : ∀ i ∈ [Instr.shfl vv, .shfl { vv with isp := 3 }, .tshfl vv, .tshfl { vv with isp := 3 }],
    Meets i := all_meet _ (by decide +kernel)

theorem test_meets_Votes : ∀ i ∈ [Instr.vote { v1 with sa := .p 0, isp := 6 }, .vote { none_ with dst := .p 2, sa := .p 0 }],
    Meets i := all_meet _ (by decide +kernel)

theorem test_meets_ScanAndReduce : ∀ i ∈ [Instr.scan v1, .scan { v1 with ty := .f32, isp := 10 }, .reduce { v1 with isp := 21 }, .reduce { v1 with dst := .s 4 }],
    Meets i := all_meet _ (by decide +kernel)

theorem test_meets_LinkStacks : (∀ i ∈ [Instr.wrsp { none_ with sa := .v 0 }, .rdsp { none_ with dst := .v 4 }, .rdsp { none_ with dst := .s 4 }],
    Meets i) ∧ ∀ l, Mask.has 3 l = true → (tm.regs.link l).length < 16 ∧ tm.regs.link l ≠ [] :=
  ⟨all_meet _ (by decide +kernel), lanes_meet (by decide +kernel)⟩

/-- A team whose lanes 0, 1 and 33 are in the split: it owns both groups. -/
def regroupTeam : Team :=
  { team {} with splits := { state := .ready, pc := placedPc, mask := 2 ^ 33 + 2 } :: List.replicate 15 {} }
def regroupCur : Cur := { cur with mask := 2 ^ 33 + 2 }
def regroupState : State := { device regroupTeam with cur := some regroupCur }
theorem test_meets_Regrouping : Issues (.regroup none_) none_ regroupState regroupCur regroupTeam ∧
    (∀ l, Mask.has regroupCur.mask l = true → regroupTeam.regs.link l = [] ∧ Mask.has (regroupState.loggedLanes regroupTeam) l = false) ∧
    (∀ g n, regroupTeam.regs.emptyV g n = false) ∧ regroupTeam.vregs ≤ 256 ∧ regroupCur.groups = .allOnes 32 ∧
    (regroupTeam.split 0).did = 0 :=
  ⟨issues_meets (by decide +kernel), lanes_meet (by decide +kernel), fun _ _ => rfl, by decide, rfl, by decide +kernel⟩

/-! ## Predicates and control -/

theorem test_meets_PredicateInstructions : ∀ i ∈ [Instr.plop { none_ with dst := .p 2, sa := .p 0, sb := .p 1, imm := 0x00960B }, .pmov { none_ with dst := .v 4, sa := .p 0 },
    .pmov { none_ with dst := .p 2, sa := .v 0 }],
    Meets i := all_meet _ (by decide +kernel)

theorem test_meets_Branches : (∀ i ∈ [Instr.bra { none_ with imm := 1 }, .brx { none_ with sa := .s 2 }, .call { none_ with imm := 1 }, .ret none_],
    Meets i) ∧ tm.isCode (cur.pc + 12 + 12 * (1 : BitVec 24).signExtend 64) = true ∧ tm.isCode 0x10190 = true ∧ tm.regs.badS 2 = false ∧
    cur.lanes tm ≠ 0 ∧
    ∀ l, Mask.has 3 l = true → (tm.regs.link l).length < 16 ∧ tm.regs.link l ≠ [] ∧ tm.isCode ((tm.regs.link l).headD 0) = true := by
  refine ⟨all_meet _ (by decide +kernel), ?_, ?_, rfl, ?_, lanes_meet (by decide +kernel)⟩ <;> decide +kernel

theorem test_meets_ExitYieldNopLoop : (∀ i ∈ [Instr.exit none_, .yield none_, .nop none_, .loop { none_ with dst := .s 6, imm := 1 }], Meets i) ∧
    (tm.split 0).due &&& ~~~ Mask.inGroups (tm.split 0).mask cur.groups = 0 ∧ cur.lanes tm ≠ 0 ∧
    st.splitLogged tm cur.e = false ∧ tm.mode ≠ .save ∧ tm.live &&& ~~~ tm.guarded .always (cur.lanes tm) = 0 ∧
    tm.regs.emptyS 6 = false ∧ tm.regs.badS 6 = false ∧ tm.isCode (cur.pc + 12 + 12 * (1 : BitVec 24).signExtend 64) = true :=
  ⟨all_meet _ (by decide +kernel), by decide +kernel⟩

/-- The same, where lane 0 alone exits. -/
def exitTeam : Team := team { regs with p := [0] }
theorem test_meets_Exit_some : Issues (.exit { none_ with grd := .p 0 false }) { none_ with grd := .p 0 false } (device exitTeam) cur exitTeam ∧
    (∀ l, exitTeam.guardBad (.p 0 false) l = false) ∧ exitTeam.live &&& ~~~ exitTeam.guarded (.p 0 false) (cur.lanes exitTeam) ≠ 0 :=
  ⟨issues_meets (by decide +kernel), fun _ => rfl, by decide +kernel⟩

def critTeam : Team := { tm with crit := 1 }
theorem test_meets_UniformControl : (∀ i ∈ [Instr.splitq { none_ with dst := .s 4 }, .critEnter none_, .critExit { none_ with isp := 1 }, .safept none_],
    MeetsIn (device critTeam) critTeam i) ∧ critTeam.regs.emptyS 4 = false ∧ critTeam.splits.length = 16 ∧ critTeam.frontier.length < 256 ∧
    critTeam.crit < 255 ∧ 0 < critTeam.crit ∧ (device critTeam).splitLogged critTeam 0 = false ∧ critTeam.mode = .user ∧
    (device critTeam).preempting critTeam.ctx = false :=
  ⟨all_meet _ (by decide +kernel), by decide +kernel⟩

/-! ## Memory -/

/-- A context whose heap lies from 2^40 on, beside the placed page; root and tables as placed. -/
def heapXlat : Xlat := { root := 0, hb := 2 ^ 40, hl := 4096, ho := 0 }
theorem test_meets_Translation : st.tlb = [] ∧ frameOk (st.partOf 1) heapXlat.root.toNat (2 ^ 15) false = true ∧
    -- the heap's first and last byte, and the byte behind it
    heapXlat.inHeap (2 ^ 40) = true ∧ heapXlat.inHeap (2 ^ 40 + 4095) = true ∧ heapXlat.inHeap (2 ^ 40 + 4096) = false ∧
    -- a page mapped through three levels; an invalid entry of each level
    (st.walk 1 heapXlat .read 0x18000).2.map (fun w => (w.entry[0], w.entry[3], malformed w.level w.entry)) =
      [(true, false, false), (true, false, false), (true, true, false)] ∧
    (st.walk 1 heapXlat .read 0x20000).2.map (fun w => w.entry[0]) = [true, true, false] ∧
    (st.walk 1 heapXlat .read (2 ^ 30)).2.map (fun w => w.entry[0]) = [true, false] ∧
    (st.walk 1 heapXlat .read (2 ^ 45)).2.map (fun w => w.entry[0]) = [false] := by decide +kernel

/-- A leaf of 1 GiB at the second level. -/
def bigLeaf : State := { st with mem := Memory.writeN st.mem 0x40008 (leBytes 8 0xB) }
theorem test_meets_Translation_leaf : bigLeaf.tlb = [] ∧ (bigLeaf.phys64 0x40008)[0] = true ∧ (bigLeaf.phys64 0x40008)[3] = true ∧
    malformed 2 (bigLeaf.phys64 0x40008) = false ∧ frameOk (bigLeaf.partOf 1) 0 (2 ^ 30) false = true := by decide +kernel

/-- A translation or check that finds no error and gives such a result. -/
def gives {α : Type} (x : Except XErr α) (p : α → Bool) : Bool :=
  match x with
  | .ok a => p a
  | .error _ => false

theorem test_meets_AddressChecks : memScratch (.ld v1) = false ∧ memAligned (.atom vv) = true ∧
    gives (st.checkLane tm (.ld v1) 0x18000) (·.length = memWidth (.ld v1)) = true := by decide +kernel

/-- An access to the scratchpad. -/
def shared4 : Instr := .lds { v1 with sa := .v 2, isp := 2 }
/-- Team 2 is the peer at position 1 in a grid of clusters of two. -/
def mateTeam : Team := { team regs with uid := 2, cpos := 1, slots := [2, 3] }
def clusterState : State :=
  ((device tm).setTeam mateTeam).setGrid { placedGrid 1 with image := { placedImage with clw := 2 } }
/-- A handler whose granted slot is bytes 64 to 127 of the window of team 1. -/
def grantedTeam (live : Bool) : Team :=
  { tm with uid := 3, slots := [4, 5], grant := some { quad := 0, rte := 0, upcall := 5, owner := 1, ranges := [(64, 64)], live := live } }
def traps (s : State) (t : Team) (i : Instr) (cls : Nat) (ea : Int) : Bool :=
  match s.checkLane t i ea with
  | .error (.trap c 0 0 0) => decide (c = cls)
  | _ => false
def lands (s : State) (t : Team) (ea : Int) (key : Nat) : Bool :=
  gives (s.checkLane t shared4 ea) (· == (List.range 4).map (key + ·))
theorem test_meets_AddressChecks_scratch : memScratch shared4 = true ∧ memWidth shared4 = 4 ∧ memAligned (.atoms vv) = true ∧ (2 : Int) % 4 ≠ 0 ∧
    traps st tm (.atoms vv) cAL 2 = true ∧ st.windowTeam tm = some tm ∧ tm.window.size = 4096 ∧
    -- no address of the form, a SPACE above 2, a position beside SPACE 1
    (([-1, 2 ^ 32, 0x100000, 0x30000000, 0xF0000000, 0x01000000, 0x2F000000] : List Int).all fun ea => traps st tm shared4 cSB ea) = true ∧
    -- the last bytes of the own window, and those past them
    lands st tm 4092 4092 = true ∧ (([4093, 4096, 0xFFFFF] : List Int).all fun ea => traps st tm shared4 cSB ea) = true ∧
    -- a peer's window: positions 0 and 1 exist, 2 does not; and no grid of clusters
    clusterState.windowTeam tm = some tm ∧ (clusterState.grid? 1).any (fun g => g.image.clw * g.image.clh == 2) = true ∧
    (clusterState.allTeams.filter fun x => x.grid == 1 && x.cluster == tm.cluster && x.cpos == 1) = [mateTeam] ∧
    lands clusterState tm 0x11000FFC 4092 = true ∧ traps clusterState tm shared4 cSB 0x11000FFD = true ∧ lands clusterState tm 0x10000000 0 = true ∧
    traps clusterState tm shared4 cSB 0x12000000 = true ∧ traps st tm shared4 cSB 0x10000000 = true ∧
    -- a granted slot: its first and last bytes, those beside it, a slot that has been taken back, and none
    st.windowTeam (grantedTeam true) = some (grantedTeam true) ∧ st.team? 1 = some tm ∧
    lands st (grantedTeam true) 0x20000040 64 = true ∧ lands st (grantedTeam true) 0x2000007C 124 = true ∧
    (([0x2000003F, 0x2000007D] : List Int).all fun ea => traps st (grantedTeam true) shared4 cSB ea) = true ∧
    traps st (grantedTeam false) shared4 cSB 0x20000040 = true ∧ traps st tm shared4 cSB 0x20000040 = true := by decide +kernel

/-- The premises of the memory statements, as a computation: the lanes `ls` may access `keys`. -/
def access (i : Instr) (f : Fields) (s : State) (c : Cur) (t : Team) (ls : List Nat) (keys : Nat → List Nat) : Bool :=
  s.teams.all (fun p => p.2.stashes.isEmpty) && s.peer.isEmpty && s.fabricUp &&
  !c.shared && s.passLanes.isEmpty && ls.all (fun l => !t.bad f.sa i.widths.2.1 l) &&
  ls.all (fun l => gives (s.checkLane t i (t.address { gts := s.gts, e := c.e, i := i, f := f } l)) (· == keys l)) &&
  (decide (memKind i = .read) || memScratch i || ls.all fun l => (keys l).all fun k => !s.locked k &&
    (!t.bad f.sb i.widths.2.2 l || !inPool k) && ls.all fun l' => (List.range (memWidth i)).all fun j =>
      (s.walk t.ctx (t.xlat s) (memKind i) ((t.address { gts := s.gts, e := c.e, i := i, f := f } l').toNat + j)).2.all fun w =>
        decide (k < w.addr) || decide (w.addr + 8 ≤ k))

theorem access_meets {i : Instr} {f : Fields} {s : State} {c : Cur} {t : Team} {ls : List Nat} {keys : Nat → List Nat}
    (h : access i f s c t ls keys = true) : MayAccess i f s c t ls keys := by
  simp only [access, Bool.and_eq_true, Bool.not_eq_true', Bool.or_eq_true, List.all_eq_true, decide_eq_true_eq] at h
  obtain ⟨⟨⟨⟨⟨⟨⟨h1, h2⟩, h4⟩, h8⟩, h9⟩, h5⟩, h6⟩, h7⟩ := h
  refine ⟨⟨fun p hp => by simpa using h1 p hp, by simpa using h2⟩, h4, h8, by simpa using h9, h5, fun l hl => ?_, ?_⟩
  · have := h6 l hl
    unfold gives at this
    split at this
    · rename_i e; rw [e, eq_of_beq this]
    · cases this
  · intro n m l hl k hk
    obtain h7 | h7 := h7
    · exact absurd h7 (fun a => a.elim n fun b => by simp [m] at b)
    · obtain ⟨⟨a, b⟩, d⟩ := h7 l hl k hk
      refine ⟨a, fun e => b.resolve_left (by simp [e]), fun l' hl' j hj => ?_⟩
      exact d l' hl' j (List.mem_range.2 hj)

/-- Lane `l`'s four bytes in the page, or in the window. -/
def pageKeys (l : Nat) : List Nat := (List.range 4).map (0x108000 + 8 * l + ·)
def windowKeys (l : Nat) : List Nat := (List.range 4).map (16 + 8 * l + ·)
def vst : Fields := { none_ with sa := .v 0, sb := .v 2 }
def meetsAccess (i : Fields → Instr) (f : Fields) (ls : List Nat) (keys : Nat → List Nat) : Bool :=
  ready st tm (i f) && access (i f) f st cur tm ls keys
theorem test_meets_MemoryAccesses :
    meetsAccess .ld { v1 with isp := 2 } [0, 1] pageKeys = true ∧ meetsAccess .st { vst with isp := 2 } [0, 1] pageKeys = true ∧
    meetsAccess .atom vv [0, 1] pageKeys = true ∧ meetsAccess .red vst [0, 1] pageKeys = true ∧
    meetsAccess .lds { v1 with sa := .v 2, isp := 2 } [0, 1] windowKeys = true ∧
    meetsAccess .sts { vst with sa := .v 2, isp := 2 } [0, 1] windowKeys = true ∧
    meetsAccess .atoms { vv with sa := .v 2 } [0, 1] windowKeys = true ∧
    -- the scalar forms
    meetsAccess .ld { s1 with isp := 2 } [0] pageKeys = true ∧
    meetsAccess .st { vst with sa := .s 0, sb := .s 2, isp := 2 } [0] pageKeys = true ∧
    ((List.range 1024).filter fun l => Mask.has (cur.lanes tm) l && tm.guard .always l) = [0, 1] := by decide +kernel

def ldt : Fields := { none_ with dst := .h 1, sa := .s 0, isp := 3 }
def stt : Fields := { none_ with sa := .s 0, sb := .h 1, isp := 3 }
def tokenKeys (_ : Nat) : List Nat := (List.range 8).map (0x108000 + ·)
theorem test_meets_Tokens : meetsAccess .ldToken ldt [cur.low tm] tokenKeys = true ∧
    meetsAccess .stToken stt [cur.low tm] tokenKeys = true ∧ NSet.mem tm.regs.hEmpty 1 = false := by decide +kernel

/-- The placed grid with a constant section of 64 bytes. -/
def constGrid : Grid := { placedGrid 1 with image := { placedImage with constOff := 0x8000, constSz := 64 }, constFrames := [0x100000] }
def constState : State := st.setGrid constGrid
theorem test_meets_Constants : (∀ i ∈ [Instr.ldk { none_ with dst := .v 4, isp := 2, imm := 60 }, .ldk { none_ with dst := .s 4, isp := 3 }],
    MeetsIn constState tm i) ∧ constState.splitLogged tm 0 = false ∧ constState.stashless ∧ constState.grid? tm.grid = some constGrid ∧
    60 + memWidth (.ldk { none_ with isp := 2 }) ≤ constGrid.image.constSz := by
  refine ⟨all_meet _ (by decide +kernel), ?_, by unfold State.stashless; decide +kernel, ?_, ?_⟩ <;> decide +kernel

def pref : Fields := { none_ with sa := .v 0 }
theorem test_meets_CacheControl : (∀ i ∈ [Instr.pref pref, .pref { pref with sa := .s 0, isp := 1 }, .cctl pref, .cctl { pref with isp := 1 },
    .iflush { none_ with sa := .s 0, imm := 64 }], Meets i) ∧ st.splitLogged tm 0 = false ∧ st.logFull tm.core = false ∧ st.stashless ∧
    st.snoop.length + 1024 < snoopMax ∧ st.fabricUp = true ∧ rangeError 0x18000 64 = none ∧
    ∀ l, Mask.has 3 l = true → tm.bad pref.sa 2 l = false ∧
      gives (st.checkLane tm (.cctl pref) (tm.address { gts := st.gts, e := 0, i := .cctl pref, f := pref } l)) (fun _ => true) = true := by
  refine ⟨all_meet _ (by decide +kernel), ?_, ?_, by unfold State.stashless; decide +kernel, ?_, ?_, ?_,
    lanes_meet (by decide +kernel)⟩ <;> decide +kernel

def stashF : Fields := { none_ with sa := .s 6, sb := .s 0, imm := 2 }
/-- A mapping of two sectors at window offset 256, the first filled and dirty. -/
def stashTeam : Team := { tm with stashes := [{ win := 256, glob := 0x18000, sectors := 2, filled := [(0, 0x10800)], dirty := [0] }] }
theorem test_meets_Stashes : MeetsIn st tm (.stash stashF) ∧ stashError tm 256 0x18000 2 = none ∧
    st.rangeFault tm.ctx (tm.xlat st) .read 0x18000 32 = none ∧ st.recallWalk tm.ctx (tm.xlat st) .read 0x18000 32 = st ∧
    (∀ i ∈ [Instr.stashwb { none_ with sa := .s 6 }, .unstash { none_ with sa := .s 6 }], MeetsIn (device stashTeam) stashTeam i) ∧
    stashTeam.bad (.s 6) 1 0 = false ∧
    (stashTeam.stashNamed 256).any (fun p => p.2.filled == [(0, 0x10800)]) = true := by
  refine ⟨ready_meets (by decide +kernel), ?_, ?_, ?_, all_meet _ (by decide +kernel), ?_⟩ <;> decide +kernel

/-! ## Copies and futures -/

/-- A copy of 1,024 bytes within the page: KIND 1, LEN, SRC and DST of its descriptor at 0x18000. -/
def copyState : State := { st with mem := Memory.writeN st.mem 0x108000 (leBytes 8 1 ++ leBytes 8 1024 ++ leBytes 8 0x18000 ++ leBytes 8 0x19000) }
def hs : Fields := { none_ with dst := .h 1, sa := .s 0 }
theorem test_meets_CopyPosts : (∀ i ∈ [Instr.bcopy hs, .btile hs, .bmcast hs, .bfill hs, .bgather { hs with sb := .v 2 }],
    MeetsIn copyState tm i) ∧ Performs cur tm hs 0 ∧ copyState.splitLogged tm 0 = false ∧ copyState.logFull tm.core = false ∧
    copyState.stashless ∧ (copyState.core 0).copies.length < 96 ∧ (copyState.core 0).bte.room = true ∧ (copyState.jobs 1).length < 1024 ∧
    gives (copyState.xlatRange 1 (tm.xlat copyState) .read 0x18000 64) (fun pas => !(copyState.gread pas).2) = true ∧
    (∀ l ∈ Mask.list (cur.lanes tm), tm.bad (.s 0) 2 l = false ∧ tm.bad (.v 2) 2 l = false) := by
  refine ⟨all_meet _ (by decide +kernel), ⟨by decide +kernel, rfl⟩, ?_, ?_, by unfold State.stashless; decide +kernel, ?_, ?_, ?_, ?_,
    ?_⟩ <;> decide +kernel

/-- h0 names a copy in flight, the first job of the core's engine, and h2 one that has completed. -/
def inFlight : Copy :=
  { seq := 1, order := 0, uid := 1, grid := 1, ctx := 1, prio := 0
    desc := { kind := 1, barv := false, sscr := false, dscr := false, barn := 0, esz := 0, len := 1024, src := 0x18000, dst := 0x19000, pat := 0
              ext0 := 0, ext1 := 0, pitch := 0, org0 := 0, org1 := 0, w0 := 0, w1 := 0, dpitch := 0, cmask := 0 }
    lanes := [], src := none, targets := [], chunks := 2, done := [1], written := 512, discarded := 0, accounted := [], before := []
    beforePoison := [], parked := [], foot := [] }
def jobCore : Core :=
  { bte := { next := 3, ring := [{ seq := 1, ctx := 1, state := fPENDING, count := 0, detail := 0, counters := none },
                                 { seq := 2, ctx := 1, state := fDONE, count := 64, detail := 0, counters := none }] }
    copies := [inFlight] }
def jobTeam : Team := { tm with regs := { regs with h := [(0, mkToken (srcBte 0) 1 1), (2, mkToken (srcBte 0) 1 2)], hEmpty := [0], s := [(2, 2), (4, 1)] } }
def jobState : State := (device jobTeam).setCore 0 jobCore
def h0 : Fields := { none_ with sa := .h 0 }
theorem test_meets_Futures : (∀ i ∈ [Instr.fwait h0, .fwait { h0 with sa := .h 2 }, .ftest { h0 with dst := .p 2 }, .fstat { h0 with dst := .s 4 },
      .chkt { h0 with dst := .p 2, sb := .s 2 }, .chkw { h0 with sb := .s 2 }, .chkw { h0 with sb := .s 4 }, .fcancel h0,
      .fcancel { h0 with sa := .h 2 }], MeetsIn jobState jobTeam i) ∧
    (jobState.hPending jobTeam (.h 0)).2 = true ∧ (jobState.hPending jobTeam (.h 2)).2 = false ∧
    jobState.completed 1 (jobTeam.regs.getH 0) = false ∧ jobState.completed 1 (jobTeam.regs.getH 2) = true ∧
    jobTeam.reenters (jobTeam.regs.getH 0) = false ∧ jobTeam.regs.getH 0 ≠ 0 ∧ jobTeam.regs.emptyS 4 = false ∧
    jobState.chunkThere 1 (jobTeam.regs.getH 0) 1 = true ∧ jobState.chunkThere 1 (jobTeam.regs.getH 0) 0 = false ∧
    inFlight ∈ (jobState.core (tokenSrc (jobTeam.regs.getH 0) - 0x0200)).copies ∧ 0x0200 ≤ tokenSrc (jobTeam.regs.getH 0) ∧
    inFlight.seq = tokenSeq (jobTeam.regs.getH 0) :=
  ⟨all_meet _ (by decide +kernel), by decide +kernel⟩

/-! ## Walks -/

theorem test_meets_WalkPosts : Meets (.walk hs) ∧ tm.bad (.s 0) 2 0 = false ∧ st.splitLogged tm 0 = false ∧ st.logFull tm.core = false ∧
    st.stashless ∧ (st.jobs 1).length < 1024 ∧ (st.mwe 0).engine.room = true ∧ st.walkAt 0 0 = none ∧
    gives (st.readProblem tm 0x18000) (fun _ => true) = true := by
  refine ⟨ready_meets (by decide +kernel), rfl, ?_, ?_, by unfold State.stashless; decide +kernel, ?_, ?_, ?_, ?_⟩ <;> decide +kernel

/-- A walk of one tile in entry 0 of the engine of quad 0. -/
def side0 : Operand := { fmt := 9, blen := 0, xshift := 0, kind := 0, hidx := 0, xbase := 0, shape := none, sparse := none }
def noScale : Scale := { sbase := 0, tbase := 0, senc := 0, shift := 0 }
def problem : Problem :=
  { m := 8, n := 8, k := 64, tmlog := 3, tnlog := 3, tk := 32, order := 0, look := 1, slots := 4, cslots := 1, cons := 0, fpol := 0, schk := 0
    intsat := false, slotOff := 0, slotSz := 512, a := side0, b := side0, sr := noScale, sc := noScale, save := 0x19000, user := 0, foot := [] }
def walk : Walk :=
  { state := .active, seq := 1, order := 0, ctx := 1, grid := 1, uid := 1, core := 0, window := { base := 0, size := 4096, tag := 0, held := true }, prio := 0
    age := 0, prob := problem, ops := [], cons := [], upcalls := [{ id := 5, ukind := 1, slot := some 0, ordinal := 0, tseq := 0, bad := false }]
    returns := [], next := 0, finished := 0, donec := 0, counters := [1, 2, 3, 4, 5, 6, 7, 8], resumed := false, began := true, cursor := []
    parked := none, ending := none }
def engine : Mwe :=
  { walks := [(0, walk)]
    engine := { next := 2, ring := [{ seq := 1, ctx := 1, state := fPENDING, count := 0, detail := 0, counters := some (List.replicate 8 0) }] } }
/-- A handler of the walk's upcall, h0 naming the walk. -/
def upcallTeam : Team :=
  { tm with kind := .upcall, grant := some { quad := 0, rte := 0, upcall := 5, owner := 1, ranges := [], live := true }
            regs := { regs with h := [(0, mkToken (srcMwe 0) 1 1)], hEmpty := [0] } }
def upcallState : State := (device upcallTeam).setMwe 0 engine
/-- A grid with one handler. -/
def handlerGrid : Grid :=
  { placedGrid 1 with image := { placedImage with htCount := 1, handlers := [(0x10C, 0)] }, live := 1, nodes := [(3, { hidx := 0, ntmr := 2000, home := 0 })] }
def handlerState : State := st.setGrid handlerGrid
theorem test_meets_HandlersAndWalks :
    (∀ i ∈ [Instr.hret none_, .hretf { none_ with sa := .s 0, sb := .s 2 }, .hfail { none_ with sa := .s 6 }, .wstat { none_ with dst := .s 4, sa := .h 0, imm := 7 }],
      MeetsIn upcallState upcallTeam i) ∧
    upcallState.splitLogged upcallTeam 0 = false ∧ upcallTeam.grant.isSome = true ∧ upcallTeam.returned = false ∧
    upcallState.walkAt 0 0 = some walk ∧ walk.upcalls.any (·.id = 5) = true ∧ upcallTeam.regs.emptyS 4 = false ∧
    (∀ v ∈ (upcallState.mwe 0).walks, v.2.seq = 1 → v = (0, walk)) ∧ upcallState.completed 1 (upcallTeam.regs.getH 0) = false ∧
    (∀ i ∈ [Instr.hreg none_, .hunreg none_], MeetsIn handlerState tm i) ∧ handlerState.grid? tm.grid = some handlerGrid ∧
    0 < handlerGrid.image.htCount := by
  refine ⟨all_meet _ (by decide +kernel), ?_, ?_, ?_, ?_, ?_, ?_, ?_, ?_, all_meet _ (by decide +kernel), ?_,
    by decide⟩ <;> decide +kernel

/-! ## Barriers, records and waits -/

/-- A barrier of two lanes with none arrived, and one in whose phase lane 0 has arrived. -/
def barrier0 : Barrier := { count := 2, arrived := 0, pbytes := 0, phase := 0, abandoned := false }
def barrier1 : Barrier := { count := 3, arrived := 1, pbytes := 0, phase := 0, abandoned := false }
def barTeam : Team := { tm with barriers := [(0, barrier0), (1, barrier1)] }
def barState : State := device barTeam
theorem test_meets_Barriers :
    (∀ i ∈ [Instr.barInit { none_ with sa := .s 6, imm := 255 }, .barArrive { none_ with isp := 1 }, .barx { none_ with sa := .s 6 },
      .barWait { none_ with isp := 2 }, .barWait { none_ with isp := 2, imm := 1 }, .barSync { none_ with isp := 3 }, .cbar { none_ with isp := 1 },
      .cbar { none_ with isp := 2 }, .cbar { none_ with isp := 3 }], MeetsIn barState barTeam i) ∧
    barState.boundBarriers 0 < 256 ∧ barState.parks barTeam = false ∧ barrier0.arrived &&& cur.lanes barTeam = 0 ∧
    barrier1.arrived &&& cur.lanes barTeam ≠ 0 ∧ (barrier0.arrive (cur.lanes barTeam) 0).phase = 1 ∧ barTeam.saved = none ∧
    (barState.cbarOf barTeam).abandoned = false ∧ NMap.get (barState.cbarOf barTeam).arrived 1 0 = 0 ∧ barTeam.awaited ≠ 0 ∧
    barState.cbarTeams barTeam = [barTeam] :=
  ⟨all_meet _ (by decide +kernel), by decide +kernel⟩

/-- Lane 0 has arrived at the cluster barrier, whose phase lacks lanes. -/
def cbarTeam : Team := { barTeam with cbar := { CBar.none_ with arrived := [(1, 1)] } }
theorem test_meets_Barriers_cluster : NMap.get ((device cbarTeam).cbarOf cbarTeam).arrived 1 0 &&& cur.lanes cbarTeam ≠ 0 ∧
    cbarTeam.awaited &&& ~~~ (1 : Mask) ≠ 0 ∧ (device cbarTeam).cbarTeams cbarTeam = [cbarTeam] ∧
    MeetsIn (device cbarTeam) cbarTeam (.cbar { none_ with isp := 2 }) := by
  refine ⟨?_, ?_, ?_, ready_meets (by decide +kernel)⟩ <;> decide +kernel

/-- The class of the team is shed. -/
theorem test_meets_Barriers_shed : ({ barState with power := { barState.power with level := 8 } } : State).parks barTeam = true := by decide +kernel

/-- To core 0 from registers that hold 0, in the vector and in the scalar form. -/
def amsg0 : Fields := { none_ with sa := .v 40, sb := .v 0 }
def amsg1 : Fields := { none_ with sa := .s 40, sb := .s 0 }
theorem test_meets_Messages :
    (∀ i ∈ [Instr.amsg amsg0, .amsg amsg1, .cont { none_ with sb := .s 0 }, .emit { none_ with sb := .v 0, imm := 3 }],
      MeetsIn handlerState tm i) ∧
    (∀ l ∈ [0, 1], handlerState.destCore tm (.amsg amsg0) { gts := 0, e := 0, i := .amsg amsg0, f := amsg0 } l = some 0) ∧
    handlerState.destCore tm (.amsg amsg1) { gts := 0, e := 0, i := .amsg amsg1, f := amsg1 } 0 = some 0 ∧
    (handlerState.destOf tm (.amsg none_) none_).isSome = true ∧ (handlerState.destOf tm (.emit none_) { none_ with imm := 3 }).isSome = true ∧
    (handlerState.destCore tm (.cont none_) { gts := 0, e := 0, i := .cont none_, f := none_ } 0).isSome = true ∧
    handlerState.cores = [] ∧ handlerState.splitLogged tm 0 = false :=
  ⟨all_meet _ (by decide +kernel), by decide +kernel⟩

def wm : Fields := { none_ with sa := .v 0, sb := .v 2 }
theorem test_meets_Waits :
    (∀ i ∈ [Instr.fenceIo none_, .fencePool { none_ with isp := 1 }, .waitmon wm, .waitmon { none_ with sa := .s 0, sb := .imm }, .sleep { none_ with sa := .s 6 },
      .sleep { none_ with sa := .imm }], Meets i) ∧
    st.teams.all (fun p => p.2.stashes.isEmpty) = true ∧ st.peer = [] ∧ st.fabricUp = true ∧ st.preempting 1 = false ∧ cur.shared = false ∧
    st.passLanes = [] ∧ (tm.split 0).due &&& ~~~ Mask.inGroups (tm.split 0).mask cur.groups = 0 ∧ (tm.split 0).mon = [] ∧
    ([0, 1].all fun l => decide (tm.splitOf l = some 0)) = true ∧ Mask.list (cur.lanes tm) = [0, 1] ∧
    cur.lanes tm ≠ 0 ∧ tm.kind ≠ .kite ∧
    (∀ l ∈ Mask.list (cur.lanes tm), tm.bad wm.sa 2 l = false ∧
      gives (st.checkLane tm (.waitmon wm) (tm.address { gts := st.gts, e := 0, i := .waitmon wm, f := wm } l))
        (fun pas => !(sectorsOf pas).any (NSet.mem st.poison) && leNat (pas.map (Memory.read st.mem)) != tm.src { gts := st.gts, e := 0, i := .waitmon wm, f := wm } wm.sb 1 l % 2 ^ 64) = true) ∧
    -- the word equals what the second form expects
    gives (st.checkLane tm (.waitmon { none_ with sa := .s 0, sb := .imm }) 0x18000) (fun pas => leNat (pas.map (Memory.read st.mem)) == 0) = true :=
  ⟨all_meet _ (by decide +kernel), by decide +kernel⟩

/-! ## Traps, debug and the supervisor's instructions -/

/-- A context that names a trap handler image. -/
def trapState : State := st.setCtx 1 { placedContext with trapImage := some placedImage }
def debugTeam : Team := { tm with debug := 1 }
theorem test_meets_TrapInstructions : (∀ i ∈ [Instr.trap { none_ with imm := 0xFFFF }, .bkpt none_], MeetsIn trapState tm i) ∧
    trapState.hasHandler 1 = true ∧ tm.guarded .always (cur.lanes tm) ≠ 0 ∧ (∀ g, NMap.find? tm.traps g = none) ∧
    trapState.cur = some cur ∧ trapState.team? 1 = some tm ∧ (tm.split 0).state = .ready ∧ (tm.split 0).pc = cur.pc ∧
    MeetsIn (device debugTeam) debugTeam (.bkpt none_) ∧ debugTeam.mode ≠ .trap ∧ debugTeam.debug[0] = true := by
  refine ⟨all_meet _ (by decide +kernel), ?_, ?_, fun _ => rfl, ?_, ?_, ?_, ?_, ready_meets (by decide +kernel), by decide,
    ?_⟩ <;> decide +kernel

theorem test_meets_PrivilegeTraps : trapState.cur = some cur ∧ trapState.team? cur.uid = some tm ∧ (tm.split 0).state = .ready ∧ (tm.split 0).pc = cur.pc ∧
    tm.holdsAll (.tret none_) none_ = true ∧ modeBan tm.mode (.tret none_) = false ∧ mayRun tm.mode (.tret none_) = false ∧
    tm.holdsAll (.add { vv with ty := .u64, dst := .v 255 }) { vv with ty := .u64, dst := .v 255 } = false ∧ modeBan .trap (.walk hs) = true ∧
    trapState.hasHandler tm.ctx = true ∧ tm.kind ≠ .kite ∧ tm.kind ≠ .trapHandler := by decide +kernel

/-- INSPECT and the like name this group. -/
def groups : Aim → Team → Nat → Bool
  | .group y h, x, g => decide (y = x) && decide (h = g)
  | _, _, _ => false
theorem groups_eq {a : Aim} {x : Team} {g : Nat} (h : groups a x g = true) : a = .group x g := by
  unfold groups at h
  split at h
  · simp only [Bool.and_eq_true, decide_eq_true_eq] at h
    rw [h.1, h.2]
  · cases h

/-- A trapped team of one split, and the handler of its group 0, which issues. Register s8 names the team and its group. -/
def record0 : GTrap :=
  { cls := cAL, mask := 3, detail := 0, pc := placedPc, ea := 0x18001, gts := 0, word := 0, rpc := placedPc + 12, split := 0, debug := false, handler := some 1 }
def victim : Team :=
  { tm with uid := 2, slots := [2, 3], traps := [(0, record0)]
            splits := { state := .trap, pc := placedPc, mask := 3, did := 3 } :: List.replicate 15 {} }
def handlerTeam : Team := { tm with kind := .trapHandler, mode := .trap, lanes := 32, serves := some (2, 0), regs := { regs with s := [(2, 0x10190)] } }
def serving : State := ((device handlerTeam).setTeam victim).setCtx 1 { placedContext with trapImage := some placedImage }
def ra : Fields := { none_ with sa := .s 6 }
/-- The same with a resume PC elsewhere. -/
def victim2 : Team := { victim with traps := [(0, { record0 with rpc := 0x10190 })] }
def serving2 : State := serving.setTeam victim2
theorem test_meets_HandlerInstructions :
    (∀ i ∈ [Instr.tret none_, .resume ra, .kill ra, .replay ra], MeetsIn serving handlerTeam i) ∧ serving.team? 2 = some victim ∧
    NMap.find? victim.traps 0 = some record0 ∧ handlerTeam.serves = some (2, 0) ∧
    groups (serving.aim handlerTeam (handlerTeam.word { gts := 0, e := 0, i := .resume ra, f := ra } ra.sa 0)) victim 0 = true ∧
    record0.rpc = record0.pc + 12 ∧ (victim.split 0).state = .trap ∧ (victim.split 0).stepping = false ∧ (victim.split 0).due = 0 ∧ (serving.core 0).oplog = [] ∧
    (∀ p ∈ victim.traps, p.2.split = 0 → p.1 = 0 ∨ p.2.debug = true) ∧
    MeetsIn serving2 handlerTeam (.resume ra) ∧ serving2.team? 2 = some victim2 ∧ victim2.freeEntry.isSome = true ∧
    frontierBytes victim2.frontier ≤ 4032 ∧ Mask.word (victim2.split 0).mask 0 ≠ 0 ∧
    groups (serving2.aim handlerTeam (handlerTeam.word { gts := 0, e := 0, i := .resume ra, f := ra } ra.sa 0)) victim2 0 = true := by
  refine ⟨all_meet _ (by decide +kernel), ?_, ?_, ?_, ?_, ?_, ?_, ?_, ?_, ?_, ?_, ready_meets (by decide +kernel), ?_, ?_, ?_, ?_,
    ?_⟩ <;> decide +kernel

/-- The selectors of INSPECT and ALTER: a class in bits 8 on, the index below. -/
def inspectOf (p : Nat × Bool) : Fields := { none_ with dst := if p.2 then .v 4 else .s 4, sa := .s 6, imm := .ofNat 24 p.1 }
def alterOf (p : Nat × Bool) : Fields := { none_ with sa := .s 6, sb := if p.2 then .v 4 else .s 2, imm := .ofNat 24 p.1 }
def aimed (i : Instr) (f : Fields) : Bool :=
  ready serving handlerTeam i && victim.hasIndex (selKind f.imm) (selIndex f.imm) &&
  groups (serving.aim handlerTeam (handlerTeam.word { gts := 0, e := 0, i := i, f := f } f.sa 0)) victim 0
theorem test_meets_InspectAndAlter :
    ([(0x000, true), (0x0FF, true), (0x100, false), (0x200, true), (0x300, false), (0x400, false), (0x500, true), (0x600, true), (0x900, false),
      (0xA00, false), (0xC00, false)].all fun p => aimed (.inspect (inspectOf p)) (inspectOf p)) = true ∧
    ([(0x000, true), (0x100, false), (0x200, true), (0x300, false), (0x400, false), (0x500, true), (0xC00, false)].all fun p =>
      aimed (.alter (alterOf p)) (alterOf p)) = true ∧
    victim.uid ≠ cur.uid ∧ serving.team? victim.uid = some victim ∧ victim.isHeld 0 = true ∧ handlerTeam.bad (.s 2) 1 0 = false ∧
    victim.isCode (.ofNat 64 (handlerTeam.word { gts := 0, e := 0, i := .alter (alterOf (0xC00, false)), f := alterOf (0xC00, false) } (.s 2) 0)) = true := by
  decide +kernel

/-- The attached form of the supervisor's team: slot 0 of core 0, bit 16. -/
def superRegs : Regs := { regs with s := [(0, 0x10000), (2, 2 ^ 40), (4, 191), (6, 3), (8, 7)] }
def superTeam : Team := { tm with kind := .supervisor, mode := .supervisor, regs := superRegs }
def superState : State := (device superTeam).setTeam victim
theorem test_meets_ControlWords :
    ([0, 1, 2].all fun n => ready serving handlerTeam (.cwr { none_ with dst := .s 4, imm := .ofNat 24 n })) = true ∧
    (∀ i ∈ [Instr.cwr { none_ with dst := .s 4, imm := 3 }, .cww { none_ with sa := .s 0, imm := 3 }, .cww { none_ with sa := .s 6, imm := 1 }],
      MeetsIn superState superTeam i) ∧ (superState.attached { superTeam with attach := 0x10000 &&& 0x13FFF }).isSome = true ∧
    MeetsIn serving handlerTeam (.cww { none_ with sa := .s 6, imm := 1 }) ∧ handlerTeam.regs.emptyS 4 = false ∧
    (∀ i ∈ [Instr.rdts { none_ with dst := .s 4 }, .rdts { none_ with dst := .v 4 }, .pclass { none_ with sa := .imm, imm := 7 }, .pclass { none_ with sa := .s 10 }],
      Meets i) ∧ st.prioRange tm = (0, 7) ∧ tm.word { gts := 0, e := 0, i := .pclass none_, f := { none_ with imm := 7 } } .imm 0 = 7 ∧
    tm.word { gts := 0, e := 0, i := .pclass none_, f := none_ } (.s 10) 0 = 0 ∧ st.classShed 7 = false ∧ st.splitLogged tm 0 = false ∧
    ([0, 1, 2, 3, 4].all fun n => ready st tm (.pwrq { none_ with dst := .s 4, imm := .ofNat 24 n })) = true := by
  refine ⟨?_, all_meet _ (by decide +kernel), ?_, ready_meets (by decide +kernel), ?_, all_meet _ (by decide +kernel),
    ?_⟩ <;> decide +kernel

/-- A translation of bytes that all lie in the heap. -/
theorem heap_range {s : State} {ctx : Nat} {x : Xlat} {k : AKind} {va : U64} {n : Nat} (hr : rangeError va.toNat n = none)
    (hk : k ≠ .fetch) (hh : ∀ i, i < n → x.inHeap (va.toNat + i) = true) :
    s.xlatRange ctx x k va n = .ok ((List.range n).map fun i => (va.toNat + i + x.ho.toNat) % 2 ^ 64) := by
  have h (l : List Nat) (hl : ∀ i ∈ l, i < n) : l.foldr (fun (i : Nat) (acc : Except XErr (List Nat)) =>
      match (s.walk ctx x k (va.toNat + i)).1, acc with
      | Except.ok pa, Except.ok rest => Except.ok (pa :: rest)
      | Except.error e, Except.ok _ => Except.error e
      | Except.ok _, Except.error e => Except.error e
      | Except.error e, Except.error e' => Except.error (firstErr e e')) (Except.ok []) =
      Except.ok (l.map fun i => (va.toNat + i + x.ho.toNat) % 2 ^ 64) := by
    induction l with
    | nil => rfl
    | cons a l ih =>
      rw [List.foldr_cons, ih fun i hi => hl i (List.mem_cons_of_mem _ hi)]
      unfold State.walk
      rw [hh a (hl a List.mem_cons_self), if_pos rfl, if_neg hk]
      rfl
  unfold State.xlatRange
  rw [hr]
  exact h _ fun i => List.mem_range.1

/-- The walk of entry 0 has been saved, its tile 3 finished in accumulator 1; entry 0 at offset 6 and the engine at 8 of the image at 2^40. -/
def tile : List U32 := (List.range 64).map (.ofNat 32)
def spillMwe : Mwe :=
  { engine with walks := [(0, { walk with state := .saved })], accs := [{}, { st := 2, ctx := 1, rte := 0, seq := 1, q := 3, data := tile }, {}, {}] }
/-- A heap of 1 MiB at 2^40, at device address 0x100000 on. -/
def bigHeap : Context := { placedContext with hb := 2 ^ 40, hl := 2 ^ 20, ho := 0x100000 - 2 ^ 40 }
def spillState : State := (superState.setMwe 0 spillMwe).setCtx 1 bigHeap
def fillState : State := { spillState with mem := Memory.writeN spillState.mem 0x100000 [2, 0, 0, 0, 1, 0, 0, 1, 0, 1] }
/-- Registers s12 and s14: an accumulator that is finished, and one that is free. -/
def accRegs : Regs := { superRegs with s := [(0, 0x10000), (2, 2 ^ 40), (12, 1), (14, 2)] }
def accTeam : Team := { superTeam with regs := accRegs }
def accspill0 : Fields := { none_ with sa := .s 12, sb := .s 2 }
def accfill0 : Fields := { none_ with sa := .s 14, sb := .s 2 }
def tlb0 : Fields := { none_ with sa := .s 8, isp := 1 }
def tlb1 : Fields := { none_ with sa := .s 2, isp := 2, imm := 1 }
/-- A trap handler's register s8 names its own context. -/
def handlerTeam1 : Team := { handlerTeam with regs := { regs with s := [(8, 1)] } }
theorem test_meets_SupervisorInstructions :
    (∀ i ∈ [Instr.tlbinvAll none_, .tlbinvCtx tlb0, .tlbinvVa tlb1, .scanrun { none_ with sa := .s 4 }],
      MeetsIn superState superTeam i) ∧
    (∀ i ∈ [Instr.tlbinvCtx tlb0, .tlbinvVa tlb1], MeetsIn (serving.setTeam handlerTeam1) handlerTeam1 i) ∧
    superTeam.word { gts := 0, e := 0, i := .scanrun none_, f := none_ } (.s 4) 0 < 192 ∧ handlerTeam.mode = .trap ∧ handlerTeam.ctx = 1 ∧
    (∀ i ∈ [Instr.accspill accspill0, .accfill accfill0], MeetsIn (spillState.setTeam accTeam) accTeam i) ∧
    (spillState.mwe 0).accs.getD 1 {} ≠ {} ∧ spillState.walkAt 0 0 = some { walk with state := .saved } ∧ (spillState.mwe 0).accs.length = 4 ∧
    spillState.teams.all (fun p => p.2.stashes.isEmpty) = true ∧ spillState.fabricUp = true ∧ (accTeam.xlat spillState).ho = 0x100000 - 2 ^ 40 ∧
    (Memory.readN fillState.mem 0x100000 16 = [2, 0, 0, 0, 1, 0, 0, 1, 0, 1, 0, 0, 0, 0, 0, 0]) ∧ fillState.walkAt 0 0 = some { walk with state := .saved } :=
  ⟨all_meet _ (by decide +kernel), all_meet _ (by decide +kernel), by decide +kernel, rfl, rfl, all_meet _ (by decide +kernel), by decide +kernel⟩

/-- The image's bytes translate, to different addresses. -/
theorem test_meets_SupervisorInstructions_image (k : AKind) (hk : k ≠ .fetch) :
    ∃ pas, spillState.xlatRange 1 (accTeam.xlat spillState) k (2 ^ 40 : BitVec 64) (64 + 262144) = .ok pas ∧ pas.Nodup ∧
      ∀ j, j < 64 + 262144 → pas[j]? = some (0x100000 + j) := by
  have hx : accTeam.xlat spillState = { root := 0, hb := 2 ^ 40, hl := 2 ^ 20, ho := 0x100000 - 2 ^ 40 } := by decide +kernel
  rw [hx, heap_range (by decide +kernel) hk (fun i hi => by
    simp only [Xlat.inHeap, Bool.and_eq_true, decide_eq_true_eq]
    change 2 ^ 40 ≤ 2 ^ 40 + i ∧ 2 ^ 40 + i < 2 ^ 40 + 2 ^ 20
    omega)]
  have e (j : Nat) (h : j < 64 + 262144) : ((2 ^ 40 : BitVec 64).toNat + j + (0x100000 - 2 ^ 40 : U64).toNat) % 2 ^ 64 = 0x100000 + j := by
    rw [show (2 ^ 40 : BitVec 64).toNat = 1099511627776 from by decide, show (0x100000 - 2 ^ 40 : U64).toNat = 18446742974198972416 from by decide]
    omega
  refine ⟨_, rfl, ?_, fun j h => ?_⟩
  · exact List.pairwise_map.2 (List.nodup_range.imp_of_mem fun ha hb q r => by
      rw [e _ (List.mem_range.1 ha), e _ (List.mem_range.1 hb)] at r; omega)
  · rw [List.getElem?_map, List.getElem?_range h, Option.map_some, e j h]

/-! ## Events -/

/-- The team whose first split is `x`. -/
def withSplit (x : Split) : Team := { tm with splits := x :: List.replicate 15 {} }
def waits (w : Waiting) : Team := withSplit { state := .blocked, pc := placedPc, mask := 3, waiting := w }
/-- Lanes 0 and 1 wait at WAITMON v0, v2 for words that hold 0: one that differs from what it expects, and one that does not. -/
def watched : NMap (Nat × U64 × U64) := [(0, 0x108000, 0, 0), (1, 0x108008, 1, 1)]
/-- Both of their words differ once they are read again. -/
def watched2 : NMap (Nat × U64 × U64) := [(0, 0x108000, 2, 2), (1, 0x108008, 1, 1)]
def monWord : Word96 := 0xA3BFFF000004000000000000
def monTeam (w : NMap (Nat × U64 × U64)) : Team :=
  withSplit { state := .blocked, pc := placedPc, mask := 3, waiting := .monitor false, mon := w, word := some monWord }
def watching (t : Team) : Bool :=
  decide ((t.split 0).state = .blocked) && decide ((t.split 0).waiting = .monitor false) && decide ((t.split 0).word = some monWord) &&
  decide ((device t).team? 1 = some t) && decide (t.uid = 1) && t.traps.isEmpty && ([0, 1].all fun l => decide (t.splitOf l = some 0)) &&
  NMap.sorted (t.split 0).mon && (device t).teams.all (fun p => p.2.stashes.isEmpty) && (device t).peer.isEmpty && (device t).fabricUp &&
  !(device t).preempting 1 && (t.split 0).mon.all fun a => !((device t).gread ((List.range 4).map (a.2.1 + ·))).2
/-- The victim before its group has a handler. -/
def waiting : Team := { victim with traps := [(0, { record0 with handler := none })] }
def waitingState : State := (device tm |>.setTeam waiting).setCtx 1 { placedContext with trapImage := some placedImage, targ := 7 }
theorem test_meets_SplitEvents :
    ((withSplit { state := .held, pc := placedPc, mask := 3 }).split 0).state = .held ∧
    3072 ≤ ((withSplit { state := .ready, pc := placedPc, mask := 3, hold := 3072 }).split 0).hold ∧
    ((waits (.sleep 5)).split 0).waiting = .sleep 5 ∧ watching (monTeam watched) = true ∧ watching (monTeam watched2) = true ∧
    (match decode monWord with
      | .ok (.waitmon g) => !g.isp[0]
      | _ => false) = true ∧
    ({ tm with notify := some (64, 5) } : Team).notify = some (64, 5) ∧ ({ tm with shedAt := some 0 } : Team).shedAt.isSome = true ∧
    ({ st with power := { st.power with level := 8 } } : State).classShed tm.prio = true ∧
    -- a trap frame
    waitingState.freeFrame 0 = some 0 ∧ waitingState.team? 2 = some waiting ∧ (waiting.traps.map (·.1)).Nodup ∧
    waitingState.teams.all (fun p => p.2.kind != .trapHandler && (p.2.uid == 2 || p.2.traps.isEmpty)) = true ∧
    (waitingState.ctx? 1).any (·.trapImage.isSome) = true := by
  decide +kernel

/-- Queue 0 with one packet in its ring, in the heap at device address 0x108000. -/
def queue0 : Queue := { rbase := 2 ^ 40 + 0x8000, rlog := 4, qstate := 1, ctx := 1, wridx := 1 }
def packetState (b : List Byte) : State := { (st.setCtx 1 bigHeap).setQueue 0 queue0 with mem := Memory.writeN st.mem 0x108000 b }
/-- The queue core may read the packet, and it holds these 64 bytes. -/
def readable (s : State) (b : List Byte) : Bool :=
  s.mayRead 0 && s.teams.all (fun p => p.2.stashes.isEmpty) && b.length = 64 &&
  match s.fwAddrs 1 (s.xlatOf 1 0) .read (queue0.rbase + .ofNat 64 (0 % 2 ^ 4 * 64)) 64 with
  | (s', .ok pas) => decide (s' = s) && decide (pas.map (Memory.read s.mem) = b) && decide pas.Nodup
  | (_, .error _) => false
def addrsAre (s : State) (k : AKind) (va : U64) (pas : List Nat) : Bool :=
  match s.fwAddrs 1 (s.xlatOf 1 0) k va 8 with
  | (s', .ok p) => decide (s' = s) && decide (p = pas)
  | (_, .error _) => false
def word64 : List Nat := (List.range 8).map (0x109000 + ·)
def nodePacket : List Byte := [2, 1, 63, 63] ++ leBytes 4 1000000 ++ List.replicate 56 0
def writePacket (atomic : Byte) : List Byte := [3, 0, atomic, 1] ++ leBytes 2 2047 ++ [0, 0] ++ leBytes 8 (2 ^ 40 + 0x9000) ++ leBytes 8 5 ++ List.replicate 40 0
def waitPacket (cond : Byte) : List Byte := [4, 0, cond, 0, 0, 0, 0, 0] ++ leBytes 8 (2 ^ 40 + 0x9000) ++ leBytes 8 0 ++ leBytes 8 (2 ^ 64 - 1) ++ List.replicate 32 0
theorem test_meets_QueueEvents_packets :
    ([[5, 0] ++ List.replicate 62 0, List.replicate 64 0, [1, 2] ++ List.replicate 62 0, nodePacket, writePacket 0, writePacket 1, waitPacket 0, waitPacket 3].all
      fun b => readable (packetState b) b) = true ∧
    addrsAre (packetState (writePacket 0)) .write (2 ^ 40 + 0x9000) word64 = true ∧ addrsAre (packetState (writePacket 1)) .atomic (2 ^ 40 + 0x9000) word64 = true ∧
    addrsAre (packetState (waitPacket 0)) .read (2 ^ 40 + 0x9000) word64 = true ∧ word64.all (fun a => !(packetState (writePacket 0)).locked a) = true ∧
    leAt nodePacket 4 4 ≤ 1000000 ∧ leAt nodePacket 8 56 = 0 ∧ leAt (writePacket 1) 0x18 40 = 0 ∧ leAt (waitPacket 3) 0x20 32 = 0 := by
  decide +kernel

/-- An image of 200 bytes: a header, one word and a constant section, with the CRC-32 of those bytes. -/
def image0 : List Byte :=
  leBytes 4 0x1A494B49 ++ [0, 1, 0, 0] ++ leBytes 2 64 ++ [1, 1] ++ leBytes 2 16 ++ leBytes 2 8 ++ leBytes 4 256 ++ [0, 7, 0, 0] ++ leBytes 4 0 ++
  leBytes 4 128 ++ leBytes 4 128 ++ leBytes 4 12 ++ leBytes 4 192 ++ leBytes 4 8 ++ List.replicate 28 0 ++ leBytes 4 200 ++ leBytes 4 0xA0ED615D ++
  List.replicate 116 0
def launchPacket : List Byte :=
  [1, 0, 7, 0] ++ leBytes 4 (2 ^ 24) ++ leBytes 8 (2 ^ 40) ++ leBytes 8 9 ++ leBytes 8 (2 ^ 40 + 0x9000) ++ leBytes 8 6 ++ List.replicate 24 0
def launchState : State := { packetState launchPacket with mem := Memory.writeN (packetState launchPacket).mem 0x100000 image0 }
theorem image0_crc : crcOk image0 = true := by
  have h : image0.take 0x50 ++ List.replicate 4 0 ++ image0.drop 0x54 =
      (image0.take 32) ++ (image0.drop 32).take 48 ++ List.replicate 40 0 ++ List.replicate 40 0 ++ List.replicate 40 0 := by decide +kernel
  unfold crcOk crc32
  rw [h, List.foldl_append, List.foldl_append, List.foldl_append, List.foldl_append,
    show List.foldl crc32Byte 0xFFFFFFFF (image0.take 32) = 0x5231ed4d from by decide +kernel,
    show List.foldl crc32Byte 0x5231ed4d ((image0.drop 32).take 48) = 0xadffa6ea from by decide +kernel,
    show List.foldl crc32Byte 0xadffa6ea (List.replicate 40 0) = 0xdc225f33 from by decide +kernel,
    show List.foldl crc32Byte 0xdc225f33 (List.replicate 40 0) = 0x6ea0e5ad from by decide +kernel,
    show List.foldl crc32Byte 0x6ea0e5ad (List.replicate 40 0) = 0x5f129ea2 from by decide +kernel]
  decide +kernel
/-- An access of the firmware that gives `b`. -/
def readsAs {α : Type} [DecidableEq α] (x : Except Stop α) (b : α) : Bool :=
  match x with
  | .ok a => decide (a = b)
  | .error _ => false
theorem readsAs_eq {α : Type} [DecidableEq α] {x : Except Stop α} {b : α} (h : readsAs x b = true) : x = .ok b := by
  cases x with
  | ok a => exact congrArg _ (of_decide_eq_true h)
  | error _ => cases h
/-- The firmware reads the first bytes of the image. -/
def reads (n : Nat) : Bool :=
  let x := launchState.fwRead 1 (launchState.xlatOf 1 0) (2 ^ 40) n
  decide (x.1 = launchState) && readsAs x.2 (image0.take n)
theorem image0_read {n : Nat} (h : reads n = true) :
    launchState.fwRead 1 (launchState.xlatOf 1 0) (2 ^ 40) n = (launchState, .ok (image0.take n)) := by
  simp only [reads, Bool.and_eq_true, decide_eq_true_eq] at h
  exact Prod.ext h.1 (readsAs_eq h.2)
theorem test_meets_QueueEvents_launch : readable launchState launchPacket = true ∧ ∃ i,
    launchState.readImage 1 (launchState.xlatOf 1 0) (2 ^ 40) (fun i => leAt launchPacket 4 4 % (i.clw * i.clh) = 0) = (launchState, .ok i) ∧
    launchState.launchCode queue0 7 i = none ∧ launchState.constPages 1 (launchState.xlatOf 1 0) i = .ok [0x100000] := by
  refine ⟨by decide +kernel, readHeader (2 ^ 40) image0, ?_, by decide +kernel, readsAs_eq (by decide +kernel)⟩
  unfold State.readImage
  have e : image0.take 200 = image0 := by decide +kernel
  have t : (readHeader (2 ^ 40) (image0.take 96)).tablesEnd = 96 := by decide +kernel
  have c : (((readHeader (2 ^ 40) (image0.take 96)).readTables (image0.take 96))).crcLen = 200 := by decide +kernel
  simp only [image0_read (n := 96) (by decide +kernel), image0_read (n := 200) (by decide +kernel), t, c, e, image0_crc]
  rw [if_neg (by decide +kernel), if_neg (by decide +kernel), if_neg (by decide +kernel), if_neg (by decide +kernel)]
  exact Prod.ext rfl (congrArg Except.ok (by decide +kernel))

def waitval0 : WaitVal := { cond := 2, addr := 2 ^ 40 + 0x9000, value := 1, mask := 0xFF, phys := 0, pidx := 0 }
def launch0 : Launch := { queue := 0, wakeGts := 0, grid := { placedGrid 9 with placed := 0 } }
def done0 : Done := { pidx := 0, ctx := 1, addr := 2 ^ 40 + 0x9000, value := 6, counts := true, parked := none }
/-- Grid 9 heads the placement line of partition 0; core 1 has the most free slots of those in it. -/
def lineState : State :=
  (st.setGrid { placedGrid 9 with placed := 0 }).setPart 0 { qmask := 1, gsize := 2 ^ 30, pstate := 1, line := [9] }
theorem test_meets_QueueEvents :
    st.status.getLsbD 0 = true ∧ st.power.a3 = false ∧
    (packetState (waitPacket 2)).served 0 = true ∧ addrsAre (packetState (waitPacket 2)) .read waitval0.addr word64 = true ∧
    addrsAre (packetState nodePacket) .write done0.addr word64 = true ∧ word64.Nodup ∧ done0.addr ≠ 0 ∧
    (st.fn 0).pasids = [] ∧ (packetState (waitPacket 2)).peer = [] ∧
    (st.quadPower (quadOf tm.core)).exiting = false ∧ ({ st.firmware with toMove := [5, 4] } : Firmware).toMove = [5, 4] ∧
    (0 < 6 ∧ NSet.mem st.firmware.haltedCores 0 = false) ∧ (lineState.mwes = [] ∧ ({} : Mwe).signal = none) ∧ (lineState.queue 0).dones = [] ∧
    -- a placement
    (lineState.part 0).line = [9] ∧ lineState.teams.all (fun p => !lineState.awaitsPlace p.2 0) = true ∧
    lineState.holdsBack 1 = false ∧ (lineState.grid? 9).any (fun g => g.pending.isEmpty && g.reserves.isEmpty && g.image.htCount == 0) = true ∧
    (let n := placedImage.need placedImage.lanes
     let room (k : Nat) : Bool := (lineState.part 0).hasQuad (quadOf k) && decide ((lineState.core k).scan = .inService) && (lineState.room k n).isSome
     room 1 && (List.range 192).all fun k => !room k || decide ((lineState.freeSlots k).length < (lineState.freeSlots 1).length) ||
       decide ((lineState.freeSlots k).length = (lineState.freeSlots 1).length ∧ 1 ≤ k)) = true := by decide +kernel

/-! ## Records, copies and parked accesses -/

def record1 (origin : Nat) : Record :=
  { grid := 1, origin := origin, hidx := 0, ospec := if origin = 4 then 3 else 0, src := 0, payload := List.replicate 14 5
    poison := List.replicate 14 false, upcall := if origin = 3 then some (0, 0, 5) else none }
def batch1 (n : Nat) (closed : Bool) : Batch :=
  { id := 7, grid := 1, origin := 2, hidx := 0, records := List.replicate n (record1 2), due := 0, closed := closed }
def gathering (c : Core) : State := handlerState.setCore 0 c
/-- The handler of the grid launches records by lanes, by the group, or by the team, from a reserve on core 0. -/
def reserve1 : Reserve := { core := 0, slots := [8, 9], base := 8192, user := none }
def reservedGrid (lpr : Nat) : Grid := { handlerGrid with image := { handlerGrid.image with handlers := [(0x10C, lpr)] }, reserves := [reserve1] }
def batchState (n lpr : Nat) : State := (gathering { batches := [batch1 n true] }).setGrid (reservedGrid lpr)
/-- A copy whose chunks are not done. -/
def copy1 : Copy := { inFlight with desc := { inFlight.desc with src := 2 ^ 40, dst := 2 ^ 40 + 0x1000 }, done := [] }
def copying (k : Copy) : State := ((st.setCtx 1 bigHeap).setCore 0 { jobCore with copies := [k] })
/-- A split parked on a fetch through the entry at 0x80008, which is valid. -/
def fetching : State := { device (waits (.fetch 0x80008)) with woken := [0x80008] }
def heldRecords : Context := { placedContext with held := [List.replicate 32 1], fwr := 63, frd := 0 }
theorem test_meets_RecordAndEngineEvents :
    -- a record that joins a batch, one that fills it, and ones that open it
    (handlerState.grid? 1).isSome = true ∧ ((gathering { inflight := [record1 2], batches := [batch1 30 false] }).core 0).batches = [batch1 30 false] ∧
    (batch1 31 false).records.length = 31 ∧ NMap.find? handlerGrid.nodes ((record1 4).ospec.toNat % 2 ^ 8) = some { hidx := 0, ntmr := 2000, home := 0 } ∧
    ((gathering { inflight := [record1 1] }).core 0).inflight = [record1 1] ∧
    -- a batch that is due; a launch for each way of giving records to lanes
    ((gathering { batches := [batch1 1 false] }).core 0).batches = [batch1 1 false] ∧ (batch1 1 false).due ≤ st.time ∧
    ([0, 1, 2].all fun lpr =>
      let s := batchState 2 lpr
      decide ((s.core 0).batches = [batch1 2 true]) && (batch1 2 true).closed && !s.holdsBack 1 && decide (s.grid? 1 = some (reservedGrid lpr)) && decide ((s.core 0).scan = .inService) && decide ((s.part 0).pstate = 1) &&
      decide (((reservedGrid lpr).reserves.find? fun x => x.core = 0 && x.user.isNone) = some reserve1)) = true ∧
    -- a chunk
    ((copying copy1).core 0).copies.find? (fun y => y.seq = 1) = some copy1 ∧ (copying copy1).jobBlocked 1 1 copy1.foot = false ∧
    (copying copy1).teams.all (fun p => p.2.stashes.isEmpty) = true ∧ ((copying copy1).xlatOf 1 1).ho = 0x100000 - 2 ^ 40 ∧
    (copying copy1).locks = [] ∧ (({ copy1 with done := [0] } : Copy).undone.filter (· ≠ 1)) = [] ∧
    -- the others
    NSet.mem fetching.woken 0x80008 = true ∧ fetching.cores = [] ∧ fetching.queues = [] ∧ fetching.mwes = [] ∧
    fetching.functions.all (fun f => f.2.posted.isEmpty && f.2.reads.isEmpty) = true ∧ fetching.power.slotParked = none ∧
    heldRecords.frd ≤ heldRecords.fwr ∧ heldRecords.fwr - heldRecords.frd ≠ 2 ^ heldRecords.frlog ∧
    (st.setCtx 1 heldRecords).teams.all (fun p => p.2.stashes.isEmpty) = true ∧
    recBefore (List.replicate 32 1) (Memory.readN st.mem (heldRecords.fring + (heldRecords.fwr - 1) % 2 ^ heldRecords.frlog * 32) 32) = false ∧
    ((st.setFn 3 { tiq := [some (2, 1, 0x18000), none] }).fn 3).tiq = [some (2, 1, 0x18000), none] ∧
    (st.setCtx 1 { placedContext with preempt := some (0, 0) }).ctx? 1 = some { placedContext with preempt := some (0, 0) } ∧
    (tm.split 0).state ∉ [SplitState.free, .blocked, .shed] ∧ tm.kind ≠ .supervisor ∧ ({ tm with out := .saving } : Team).out = .saving := by
  decide +kernel

/-- Every byte of the chunk is read and written at addresses of its own. -/
theorem test_meets_RecordAndEngineEvents_chunk : (List.range 512).all (fun i =>
    decide (((copying copy1).xlatOf 1 1).inHeap (2 ^ 40 + i) = true ∧ ((copying copy1).xlatOf 1 1).inHeap (2 ^ 40 + 0x1000 + i) = true) &&
    !inPool (0x101000 + i)) = true := by decide +kernel

/-! ## The host -/

/-- Function 3, which owns context 1, with posted writes behind it. -/
def hostState (f : Function) : State := ({ st.setFn 3 f with status := 1 }).setCtx 1 { bigHeap with owner := 3 }
def hostFn : Function := { apctx := some 1, abase := 2 ^ 40, frctx := 1, sctail := 0, schead := 0 }
theorem test_meets_RegisterWrites :
    (hostState hostFn).status.getLsbD 0 = true ∧ ((hostState hostFn).fn 3).posted = [] ∧ ((hostState hostFn).fn 3).pasids = [] ∧ (hostState hostFn).heldPost = false ∧
    (hostState hostFn).ctx? hostFn.frctx.toNat = some { bigHeap with owner := 3 } ∧
    (hostState hostFn).expects isCommand = false ∧ (∀ f ∈ (hostState hostFn).functions, f.2.sctail = 0 ∧ f.2.schead = 0) ∧
    hostFn.sctail < (64 : U64).toNat ∧ (64 : U64).toNat ≤ hostFn.schead + 64 ∧
    (commandEvent 3 (({ hostFn with slots := [(0, 0x11)] } : Function).slot 0)).isSome = true ∧
    -- TICMD: refused for its form, for its owner, and accepted
    (3 % 4 = 3) ∧ ((2 ^ 16 + 1 : U64).toNat % 4 = 1 ∧ bitsAt (2 ^ 16 + 1 : U64).toNat 16 12 = 1) ∧
    -- the log windows
    ({ errwr := 128, errrd := 0, errHeld := [List.replicate 32 1], clwr := 256 } : Logs).errwr - (1 : U64).toNat < 128 := by decide +kernel

/-- The aperture's bytes translate. -/
def apAddrs (k : AKind) (va : U64) (n : Nat) (pas : List Nat) : Bool :=
  match (hostState hostFn).xlatRange 1 ((hostState hostFn).xlatOf 1 0) k va n with
  | .ok p => decide (p = pas)
  | .error _ => false
/-- A migration request in its ring: VALID page 0x10000 of 64 KiB to the frame at 0x400000. -/
def migState : State := { hostState { hostFn with migbase := 2 ^ 40, migtail := 1 } with locks := [] }
def migration1 : Migration := { ctx := 1, page := 0x10000, size := 2 ^ 16, leaf := 0x80008, old := 0x100000, new := 0x400000, order := 1 }
def readTag : HostRead := { tag := 4, va := 2 ^ 40, len := 8, stamp := 0, entry := none, op := none }
/-- The team watches a word of that page. -/
def movedTeam : Team := monTeam watched
theorem test_meets_HostAccesses :
    apAddrs .read (hostFn.abase + .ofNat 64 8) 8 ((List.range 8).map (0x100008 + ·)) = true ∧
    apAddrs .write (hostFn.abase + .ofNat 64 8) 8 ((List.range 8).map (0x100008 + ·)) = true ∧
    apAddrs .atomic (hostFn.abase + .ofNat 64 8) 8 ((List.range 8).map (0x100008 + ·)) = true ∧
    ((List.range 8).map (0x100008 + ·)).Nodup ∧ (hostFn.abase + .ofNat 64 8).toNat % 16 + 8 ≤ 16 ∧ ((hostState {}).fn 3).apctx = none ∧
    (hostState hostFn).power.a3 = false ∧ ({ (hostState hostFn) with power := { a3 := true } } : State).power.a3 = true ∧ hostFn.apctx.isSome = true ∧
    (∀ x ∈ (hostState hostFn).functions, x.2.posted = []) ∧ hostFn.reads = [] ∧ ((hostState hostFn).jobs 1).length < 1024 ∧
    (hostState hostFn).wakes = [] ∧ hostFn.pasids = [] ∧ (hostState hostFn).peer = [] ∧
    -- a PASID that is not the function's
    ({ hostFn with pasids := [some 3, none], pasid := some 2 } : Function).pasids = [some 3, none] ∧ (some 2 : Option Nat) ≠ some 3 ∧
    readTag ∈ ({ hostFn with reads := [readTag] } : Function).reads ∧
    (match migState.migBytes 3 0 32 .read with
      | some (c, .ok pas) => decide (c = 1) && (migState.migCheck 3 (pas.map (Memory.read migState.mem))).isNone
      | _ => false) = true ∧
    -- a copy of a page that runs
    (hostState { migrating := some migration1 }).jobBlocked 1 1 [{ base := 0x10000, len := 2 ^ 16, write := true }] = false ∧
    (hostState { migrating := some migration1 }).memOk = true ∧ migration1.new % migration1.size = 0 ∧
    migration1.old + migration1.size ≤ migration1.new ∧ migration1.leaf + 256 ≤ migration1.new ∧ inPool (128 * (poolBase / 128)) = true ∧
    (hostState hostFn).fabricUp = true ∧ (∀ x ∈ (hostState { migrating := some migration1 }).functions, x.2.posted = [] ∧ x.2.reads = []) ∧
    ((hostState { migrating := some migration1 }).setTeam movedTeam).team? 1 = some movedTeam ∧
    NMap.find? (movedTeam.split 0).mon 1 = some (0x108008, 1, 1) ∧ movedTeam.ctx = migration1.ctx ∧ migration1.old ≤ 0x108008 ∧
    0x108008 < migration1.old + migration1.size := by
  decide +kernel

/-! ## The supervisor's commands -/

/-- A function asks for a command with these ARGS; its staging area holds `stage`. -/
def ask (op : Nat) (args : List Byte) (stage : List Byte) : Function :=
  { hostFn with busy := true, sctail := 1, parts := 0xFFFF, taken := leBytes 2 op ++ [0, 0, 255, 255, 0, 0] ++ args
                staging := Memory.writeN [] 0 stage }
def pad (l : List Byte) : List Byte := l ++ List.replicate (56 - l.length) 0
/-- No grid and no team, contexts 1 of function 3 and 5 of function 0, partition 1 in reset, queue core 5 halted. -/
def bare : State :=
  ({ st with teams := [], grids := [], cur := none, firmware := { haltedCores := [5], minSvn := [(1, 200)] } }.setCtx 1 { bigHeap with owner := 3 }
    |>.setCtx 5 placedContext).setPart 1 { pstate := 2 }
def asking (fn op : Nat) (args : List Byte) : State := bare.setFn fn (ask op (pad args) [])
/-- The premises of a command's clause: it is taken up with these ARGS. -/
def asked (s : State) (fn : Nat) (named : List (Nat × Nat)) (args : List Byte) : Bool :=
  let b := (s.fn fn).taken
  (s.fn fn).busy && decide (pad args = b.drop 8) && argsZero b named && decide (leAt b 4 2 = 0xFFFF)
def partArgs : List Byte := [2, 0, 0, 0, 0, 0, 0, 0] ++ leBytes 8 (2 ^ 48 - 2) ++ leBytes 8 (2 ^ 30) ++ leBytes 8 (2 ^ 30) ++ List.replicate 16 0 ++ leBytes 8 (2 ^ 32)
theorem test_meets_SupervisorCommands :
    ([(0x01, [(0, 1), (8, 48)], partArgs), (0x02, [(0, 1)], [15]), (0x03, [(0, 1)], [0]), (0x04, [(0, 1)], [1]), (0x05, [(0, 2), (8, 2)], [63, 0]),
      (0x14, [(0, 3)], [5, 0, 1]), (0x14, [(0, 3)], [5, 0, 0]), (0x21, [(0, 4)], [255, 15, 63, 0]), (0x30, [(0, 4)], [63, 0, 255, 255]),
      (0x30, [(0, 4)], [3, 0, 1, 0]), (0x51, [(0, 4)], leBytes 4 1000000), (0x40, [(0, 2), (8, 16)], [2, 5, 0, 0, 0, 0, 0, 0] ++ leBytes 8 (2 ^ 40) ++ [16]),
      (0x41, [(0, 1), (2, 2)], [1, 0, 255, 0]), (0x50, [(0, 1), (2, 2)], [47, 0] ++ leBytes 2 950), (0x52, [(0, 1)], [191])].all fun x =>
        asked (asking 0 x.1 x.2.2) 0 x.2.1 x.2.2 && asked (asking 3 x.1 x.2.2) 3 x.2.1 x.2.2) = true ∧
    ([(0x10, [(0, 3)], [2, 0, 0]), (0x11, [(0, 2)], [1, 0]), (0x12, [(0, 2), (8, 12)], [1, 0, 0, 0, 0, 0, 0, 0, 7]), (0x13, [(0, 2)], [1, 0]),
      (0x20, [(0, 6), (8, 9)], [7, 0, 1, 0, 1, 0, 0, 0] ++ leBytes 8 4096 ++ [16]), (0x20, [(0, 6), (8, 9)], [7, 0, 0, 1])].all fun x =>
        asked (asking 3 x.1 x.2.2) 3 x.2.1 x.2.2) = true ∧
    -- the states of the objects
    bare.contexts.all (fun c => c.2.part == 0 && !c.2.rpl && c.2.preempt.isNone) = true ∧ (bare.part 1).pstate = 2 ∧
    bare.expects (· == .partitionResetComplete 1) = false ∧ leAt ((asking 0 0x03 [0]).fn 0).taken 0 2 = 3 ∧
    (bare.partitions.filter fun x => x.1 ≠ 2 && x.2.pstate ≠ 0).all (fun x => x.2.qmask &&& (2 ^ 48 - 2) = 0) = true ∧
    carveOk 0 gddrSize (2 ^ 30) (2 ^ 30) [(0, 2 ^ 30), (0, 0)] = true ∧ carveOk lpddrBase lpddrSize 0 0 [(0, 0), (0, 0)] = true ∧
    carveOk 0 poolSize 0 (2 ^ 30) [(0, 0), (0, 0)] = true ∧ (bare.queue 7).qstate = 0 ∧ bare.ctx? 1 = some { bigHeap with owner := 3 } ∧
    bare.ctx? 5 = some placedContext ∧ NSet.mem bare.firmware.haltedCores 5 = true ∧ NMap.get bare.firmware.minSvn 1 0 ≤ 255 ∧
    bare.power.quads.length = 48 ∧ bare.hasGrid 2 = false ∧ bare.ctx? 2 = none ∧
    -- pre-emption: no team; one that is ready; a context that is out
    bare.preempted 1 = [] ∧ NMap.sorted bare.teams = true ∧ bare.walksSaved 1 = true ∧ st.team? 1 = some tm ∧ tm.out = .in_ ∧ tm.kind ≠ .supervisor ∧
    ({ placedContext with out := true } : Context).out = true ∧ bare.power.replay ≠ some 2 ∧
    (({ qstate := 3 } : Queue).qstate = 3) := by decide +kernel

/-- The image read by FW_LOAD in the physical function's aperture. -/
theorem test_meets_SupervisorCommands_firmware : ∃ b,
    bare.fwRead 1 (bare.xlatOf 1 0) (.ofNat 64 (leAt (pad ([2, 5, 0, 0, 0, 0, 0, 0] ++ leBytes 8 (2 ^ 40) ++ [16])) 8 8)) 16 = (bare, .ok b) :=
  ⟨List.replicate 16 0, Prod.ext (of_decide_eq_true (by decide +kernel)) (readsAs_eq (by decide +kernel))⟩

/-- A descriptor: heap of 2 MiB at 2^40 and 0x200000, ring of 2^4 records, no vector, TIMG, PDL none. -/
def staged (timg : Nat) : List Byte :=
  leBytes 8 0 ++ leBytes 8 (2 ^ 40) ++ leBytes 8 (2 ^ 21) ++ leBytes 8 (2 ^ 64 - 2 ^ 40 + 0x200000) ++ leBytes 8 0x200000 ++ [4, 0, 0, 0, 0, 0, 0, 0] ++
  List.replicate 16 0 ++ leBytes 8 timg ++ leBytes 8 0 ++ leBytes 8 (2 ^ 64 - 1) ++ leBytes 8 0 ++ leBytes 4 0x10000 ++
  List.replicate 20 0 ++ [4] ++ List.replicate 7 0
def stagedContext (timg : Nat) : Context := { readCtx (staged timg) with owner := 3, part := 0 }
/-- The same image for 32 lanes without a scratchpad, at the heap's start. -/
def image1 : List Byte := (image0.take 8) ++ [32, 0] ++ (image0.drop 10).take 6 ++ [0, 0, 0, 0] ++ ((image0.drop 20).take 60) ++ leBytes 4 0x8a07077a ++ List.replicate 116 0
/-- The same with a notify area at the heap's start, for a context under a replay grant: its slot translates. -/
def slotted : Bool :=
  let s := ({ bare with power := { bare.power with replay := some 2 } } : State).setCtx 2 { stagedContext 0 with nqbase := 2 ^ 40 }
  gives (s.xlatRange 2 (stagedContext 0).xlat .read (2 ^ 40 + 0x10) 16) fun pas => pas.headD 0 == 0x200010
theorem test_meets_SupervisorCommands_context : ([0, 2 ^ 40].all fun timg =>
      decide (Memory.readN ((asking 3 0x10 [2, 0, 0]).setFn 3 (ask 0x10 (pad [2, 0, 0]) (staged timg)) |>.fn 3).staging 0 128 = staged timg) &&
      (stagedContext timg).fieldsOk (staged timg) && (stagedContext timg).memOk (bare.part 0) && decide ((stagedContext timg).timg.toNat = timg)) = true ∧
    (bare.part 0).pstate ≠ 0 ∧ slotted = true ∧ (readHeader (2 ^ 40) image1).trapOk (stagedContext (2 ^ 40)) = true ∧ versionOk image1 = true ∧
    (readHeader (2 ^ 40) image1).headerOk image1 = true := by decide +kernel
theorem image1_crc : crcOk image1 = true := by
  have h : image1.take 0x50 ++ List.replicate 4 0 ++ image1.drop 0x54 =
      (image1.take 32) ++ (image1.drop 32).take 48 ++ List.replicate 40 0 ++ List.replicate 40 0 ++ List.replicate 40 0 := by decide +kernel
  unfold crcOk crc32
  rw [h, List.foldl_append, List.foldl_append, List.foldl_append, List.foldl_append,
    show List.foldl crc32Byte 0xFFFFFFFF (image1.take 32) = 0x33c0326a from by decide +kernel,
    show List.foldl crc32Byte 0x33c0326a ((image1.drop 32).take 48) = 0xd0858051 from by decide +kernel,
    show List.foldl crc32Byte 0xd0858051 (List.replicate 40 0) = 0x955da556 from by decide +kernel,
    show List.foldl crc32Byte 0x955da556 (List.replicate 40 0) = 0xeb95857 from by decide +kernel,
    show List.foldl crc32Byte 0xeb95857 (List.replicate 40 0) = 0x75f8f885 from by decide +kernel]
  decide +kernel
/-- The image stands in the heap, and the context has gone live without it. -/
def liveState : State :=
  let s := { bare.setFn 3 (ask 0x10 (pad [2, 0, 0]) (staged (2 ^ 40))) with mem := Memory.writeN bare.mem 0x200000 image1 }
  { s.setCtx 2 (stagedContext (2 ^ 40)) with tlb := s.tlb.filter fun h => h.ctx ≠ 2 }
theorem test_meets_SupervisorCommands_image : liveState.readImage 2 (stagedContext (2 ^ 40)).xlat (stagedContext (2 ^ 40)).timg (fun _ => true) =
    (liveState, .ok (readHeader (2 ^ 40) image1)) := by
  rw [show (stagedContext (2 ^ 40)).timg = 2 ^ 40 from by decide +kernel]
  have r (n : Nat) (h : (decide ((liveState.fwRead 2 (stagedContext (2 ^ 40)).xlat (2 ^ 40) n).1 = liveState) &&
      readsAs (liveState.fwRead 2 (stagedContext (2 ^ 40)).xlat (2 ^ 40) n).2 (image1.take n)) = true) :
      liveState.fwRead 2 (stagedContext (2 ^ 40)).xlat (2 ^ 40) n = (liveState, .ok (image1.take n)) := by
    simp only [Bool.and_eq_true, decide_eq_true_eq] at h
    exact Prod.ext h.1 (readsAs_eq h.2)
  unfold State.readImage
  have e : image1.take 200 = image1 := by decide +kernel
  have t : (readHeader (2 ^ 40) (image1.take 96)).tablesEnd = 96 := by decide +kernel
  have c : (((readHeader (2 ^ 40) (image1.take 96)).readTables (image1.take 96))).crcLen = 200 := by decide +kernel
  simp only [r 96 (by decide +kernel), r 200 (by decide +kernel), t, c, e, image1_crc]
  rw [if_neg (by decide +kernel), if_neg (by decide +kernel), if_neg (by decide +kernel), if_neg (by decide +kernel)]
  exact Prod.ext rfl (congrArg Except.ok (by decide +kernel))

/-! ## Power -/

/-- A frame of number 1 with the CRC of its bytes, and one of another number. -/
def frameBody (seq : Nat) : List Byte := [0x5A, 0] ++ leBytes 2 seq ++ leBytes 4 49000 ++ leBytes 4 800 ++ [0, 0]
def frame1 (seq : Nat) : List Byte := frameBody seq ++ leBytes 2 (crc16 (frameBody seq))
def isGood (p : Power) (d : List Byte) : Bool :=
  d.length == 16 && leAt d 0 1 == 0x5A && leAt d 12 2 == 0 && leAt d 14 2 == crc16 (d.take 14) &&
  (p.first || decide (1 ≤ (leAt d 2 2 + 2 ^ 16 - p.frame.seq) % 2 ^ 16 ∧ (leAt d 2 2 + 2 ^ 16 - p.frame.seq) % 2 ^ 16 ≤ 32767))
/-- Context 1 has the replay grant and a slot at the heap's start. -/
def slotState : State :=
  { (st.setCtx 1 { bigHeap with nqbase := 2 ^ 40, rpl := true }) with
    mem := Memory.writeN st.mem 0x100010 (frame1 1), power := { st.power with replay := some 1 } }
/-- A ready team of a shed class, whose backstop lapses. -/
def lateTeam : Team := { tm with shedAt := some 0 }
def lateState : State := { device lateTeam with power := { st.power with level := 8 }, time := 13000000 }
/-- Nothing runs. -/
def quiet : State := { bare with time := 130000000, power := { bare.power with ltr := 2000000, quads := List.replicate 48 { idle := .a2, idleSince := some 0 } } }
theorem test_meets_PowerEvents :
    isGood {} (frame1 1) = true ∧ isGood { first := false, frame := { seq := 0 } } (frame1 32767) = true ∧
    isGood { first := false, frame := { seq := 0 } } (frame1 32768) = false ∧ isGood {} (List.replicate 16 0) = false ∧
    (match slotState.replaySlot with
      | some (c, .ok pas) => decide (c = 1 ∧ pas.map (Memory.read slotState.mem) = frame1 1)
      | _ => false) = true ∧ slotState.power.previous = none ∧ slotState.teams.all (fun p => p.2.stashes.isEmpty) = true ∧
    ({ deciding := some 0 } : Power).deciding.isSome = true ∧ ({} : Power).curve.length = 16 ∧ ({ fall := some 0, level := 3 } : Power).fall.isSome = true ∧
    lateState.classShed 0 = true ∧ lateTeam.sheds = true ∧ lateState.parks lateTeam = true ∧ 0 + 13000 * lateState.power.backstop ≤ lateState.time ∧
    (lateTeam.split 0).state = .ready ∧ (lateTeam.split 0).did = 0 ∧ (lateTeam.split 0).passed = 0 ∧
    quiet.quadIdle 47 = true ∧ (quiet.quadPower 47).exiting = false ∧ quiet.functions.all (fun f => f.2.posted.isEmpty && f.2.reads.isEmpty) = true ∧ 0 + 13000000 ≤ quiet.time ∧ 26000000 ≤ 13 * quiet.power.ltr ∧
    ((List.range 48).all fun q => decide ((quiet.quadPower q).idle = .a2) && quiet.quadIdle q) = true ∧ quiet.queues = [] ∧
    (List.replicate 383 (300 : Int) ++ [2000]).length = 384 ∧ ((List.replicate 383 (300 : Int) ++ [2000]).all (· ≤ 2000)) = true := by decide +kernel

/-! ## Walk events -/

def opSlot (n : Nat) (sideB : Bool) (ord st : Nat) : OpSlot := { slot := some n, sideB := sideB, ordinal := ord, st := st, fetch := none, parked := none }
def shape1 : Shape := { kind := 0, fmt := 9, layout := 0, base := 2 ^ 40, extn := 8, extk := 64, pitch := 64 }
def fetched : Problem := { problem with a := { side0 with kind := 2, shape := some shape1 }, foot := [{ base := 2 ^ 40, len := 4096, write := false }] }
def calm : Walk := { walk with upcalls := [] }
def walkState (w : Walk) (f : Mwe → Mwe) : State := ((device tm).setCtx 1 bigHeap).setMwe 0 (f { engine with walks := [(0, w)] })
def fetching1 : OpSlot := { opSlot 0 false 0 1 with fetch := some { handle := none, shape := some shape1, origin := 0, bad := false } }
theorem test_meets_WalkEvents :
    -- a walk that is queued, one that saves
    (walkState { calm with state := .queued } id).jobBlocked 1 0 problem.foot = false ∧ (walkState { calm with state := .queued } id).preempting 1 = false ∧
    apAddrs .write (2 ^ 40) 256 ((List.range 256).map (0x100000 + ·)) = true ∧ ((walkState { calm with state := .saving } id).mwe 0).accs.length = 4 ∧
    -- requests
    engine.waitingAcc 0 calm = none ∧ engine.late = [] ∧ engine.nextAsk = 0 ∧ calm.finished < problem.tiles ∧
    (calm.needs engine 0).find? (fun n => (calm.op? n.1 n.2.1).isNone) = some (false, 0, 0, 0) ∧ calm.ops.length < problem.slots ∧
    ({ calm with prob := fetched }.needs engine 0).find? (fun n => (calm.op? n.1 n.2.1).isNone) = some (false, 0, 0, 0) ∧
    (fetched.side false).kind = 2 ∧ (walkState calm id).classShed 0 = false ∧
    (walkState calm id).upcallRoom ((walkState calm id).upcallCore 0 1) 1 0 = true ∧ ({ calm with finished := 1 } : Walk).finished = problem.tiles ∧
    ({ calm with state := .stopping, ending := some (fDONE, 3) } : Walk).ending = some (fDONE, 3) ∧
    -- tiles
    (let w := { calm with ops := [opSlot 0 false 0 2, opSlot 1 true 0 2] }
     w.holds false (problem.ordA 0 0) && w.holds true (problem.ordB 0 0) && decide (0 < problem.tiles) &&
     decide (w.prio ≤ (walkState w id).cutClass 0) && decide (engine.accs.findIdx? (fun x => x.st = 0) = some 0) && NMap.sorted engine.walks &&
     decide (w.op? false (problem.ordA 0 0) = some (opSlot 0 false 0 2)) && decide (w.op? true (problem.ordB 0 0) = some (opSlot 1 true 0 2))) = true ∧
    0 + 1 < problem.ksn ∧ problem.tk % 32 = 0 ∧ problem.a.sparse = none ∧ engine.badPes = [] ∧
    ({ rte := 0, q := 0, acc := 0, ks := 0, busy := true } : ArrayUse).passes = none ∧
    -- a fetch
    (({ calm with prob := fetched, ops := [fetching1] } : Walk).ops.find? fun o => o.slot = some 0) = some fetching1 ∧
    (match (walkState calm id).pieceAddrs { calm with prob := fetched } (shape1.pieces fetched false 0 0) with
      | .ok pas => decide (pas.length = 256)
      | .error _ => false) = true := by decide +kernel

/-! ## Errors and resets -/

theorem test_meets_ErrorsAndResets :
    st.team? 1 = some tm ∧ tm.retired = false ∧ tm.kind = .grid ∧ tm.live.getLsbD 1 = true ∧ 255 < tm.vregs ∧
    lineExists 0 = true ∧ NMap.find? ((st.setCore 0 { l1 := [(5, 1, 0)] }).core 0).l1 5 = some (1, 0) ∧ NMap.get [(3, 4095)] 3 0 = 4095 ∧
    NSet.mem st.firmware.haltedCores 5 = false ∧ st.scanBusy = false ∧ (st.core 0).scan = .inService ∧ st.coreEmpty 0 = false ∧ st.coreEmpty 1 = true ∧
    ((st.setCore 0 { scan := .draining }).core 0).scan = .draining ∧ (st.ctx? 1).isSome = true ∧
    ({ uid := 1, reg := 512 + 7, due := 0, pool := 2 } : Pending).pool.getLsbD 1 = true ∧ State.reset.status = 0 := by decide +kernel

/-! ## The whole machine -/

/-- A word whose step is the instruction it stands for. -/
def addWord : Nat := 0x003D02202FFE180008080000
theorem test_meets_StepRuns :
    let s := State.reset.withFetchWord 96 addWord
    s.stopped = false ∧ s.inputs = [] ∧ s.issueQ = [{ uid := 1, e := 0, joined := false, replay := none }] ∧
    (s.team? 1).any (fun t => !t.retired && decide ((t.split 0).state = .ready) && decide ((t.split 0).mask ≠ (0 : Mask)) &&
      decide ((t.split 0).did = (0 : Mask)) && decide ((t.split 0).passed = (0 : GMask)) && decide (s.passLanes = []) && s.teams.all (fun p => p.2.stashes.isEmpty) &&
      (match ({ s with choices := s.choices.drop 1, cur := none, issueQ := [], shadow := none } : State).fetchWord t.core t.ctx (t.xlat s) (t.split 0).pc with
        | .ok w => decide (w.toNat = addWord) && (match decode w with
          | .ok (.add _) => true
          | _ => false)
        | _ => false)) = true := by decide +kernel
theorem test_meets_EncodeDecode : (Instr.add { vv with ty := .f64, dst := .v 254 }).isWord = true ∧ (Instr.add vv).wellFormed = true ∧
    (match decode (.ofNat 96 addWord) with
      | .ok (.add _) => true
      | _ => false) = true := by decide +kernel
theorem test_meets_MemoryStaysCanonical : State.reset.memOk = true ∧ (st.memOk = true) ∧ (match step (State.reset.withFetchWord 96 addWord) with
    | .next s => s.memOk
    | _ => false) = true := by decide +kernel

/-! ## Decoding: a word of each instruction, put together from the fields of 02 R18 to R20, R26 and the opcode map R29 -/

/-- The word decodes to the instruction. -/
def decodes (x : Word96 × Instr) : Bool :=
  match decode x.1 with
  | .ok i => decide (i = x.2)
  | .error _ => false
def refused (w : Word96) : Bool :=
  match decode w with
  | .ok _ => false
  | .error _ => true
def wordsIntegerAndAddress : List (Word96 × Instr) := [
    (0x003C02000004000000000000, .add vv),
    (0x00BC02000004000000000000, .sub vv),
    (0x013C02000004080000005800, .addc { vv with ty := .u32, imm := 0xB }),
    (0x01BD02200404180000001800, .subb { ss with ty := .u64, imm := 0x3 }),
    (0x023C02000004000000000000, .mul vv),
    (0x02BC02000004000000000000, .mulh vv),
    (0x033C02000004000000000000, .mad vv),
    (0x03BC02000004000000000000, .div vv),
    (0x043C02000004000000000000, .rem vv),
    (0x04BC02000FFC000000000000, .abs v1),
    (0x053C02000FFC000000000000, .neg v1),
    (0x05BC02000004000000000000, .min vv),
    (0x063C02000004000000000000, .max vv),
    (0x06BC02000004000000000000, .sad vv),
    (0x073C02000004000000000000, .addmin vv),
    (0x07BC02000004000000000000, .addmax vv),
    (0x083C02000004080000000000, .and { vv with ty := .u32 }),
    (0x08BC02000004080000000000, .or { vv with ty := .u32 }),
    (0x093C02000004080000000000, .xor { vv with ty := .u32 }),
    (0x09BC02000004080000000000, .andn { vv with ty := .u32 })] ++ [
    (0x0A3D02200FFC080000000000, .not { s1 with ty := .u32 }),
    (0x0ABC02000004080000000000, .shl { vv with ty := .u32 }),
    (0x0B3C02000004080000000000, .shr { vv with ty := .u32 }),
    (0x0BBC02000004000000000000, .sar vv),
    (0x0C3C02000004080000000000, .rotl { vv with ty := .u32 }),
    (0x0CBC02000004080000000000, .funsh { vv with ty := .u32 }),
    (0x0D3D02200FFC080000000000, .popc { s1 with ty := .u32 }),
    (0x0DBD02200FFC080000000000, .clz { s1 with ty := .u32 }),
    (0x0E3D02200FFC080000000000, .ctz { s1 with ty := .u32 }),
    (0x0EBD02200FFC080000000000, .brev { s1 with ty := .u32 }),
    (0x0F3C02000FFC000000302800, .bfx { v1 with imm := 0x605 }),
    (0x0FBC02000FFC000000302800, .bfi { v1 with imm := 0x605 }),
    (0x103E01000004002800000000, .cmp { vv with dst := .p 2, isp := 5 }),
    (0x10BC02000004180000000000, .sel { vv with ty := .u64 }),
    (0x113C02000004080000000000, .lea { vv with ty := .u32 }),
    (0x123C02000004380000000000, .dot4 { vv with ty := .u8x4 }),
    (0x12BD02200404200000000000, .dot2 { ss with ty := .i16x2 }),
    (0x133C02000004000000000000, .clamp vv),
    (0x13BC02000FFC000000000000, .ext v1)]
theorem test_decode_IntegerAndAddress : wordsIntegerAndAddress.all decodes = true := by decide +kernel

def wordsFloatingPointAndConversion : List (Word96 × Instr) := [
    (0x203C02000004400000000000, .fadd { vv with ty := .f32 }),
    (0x20BC02000004400000000000, .fsub { vv with ty := .f32 }),
    (0x213C02000004400000000000, .fmul { vv with ty := .f32 }),
    (0x21BC02000004400000000000, .fma { vv with ty := .f32 }),
    (0x223C02000004400000000000, .fms { vv with ty := .f32 }),
    (0x22BD02200404580000000000, .fmin { ss with ty := .f64 }),
    (0x233D02200404580000000000, .fmax { ss with ty := .f64 }),
    (0x23BC02000FFC480000000000, .fabs { v1 with ty := .f16x2 }),
    (0x243C02000FFC480000000000, .fneg { v1 with ty := .f16x2 }),
    (0x24BE01000004503800000000, .fcmp { vv with dst := .p 2, ty := .bf16x2, isp := 7 }),
    (0x25BC02000FFC408000000000, .frcp { v1 with ty := .f32, isp := 16 }),
    (0x263C02000FFC408000000000, .frsq { v1 with ty := .f32, isp := 16 }),
    (0x26BC02000FFC408000000000, .fsqrt { v1 with ty := .f32, isp := 16 }),
    (0x273C02000004580000000000, .fdiv { vv with ty := .f64 }),
    (0x27BC02000FFC408000000000, .fexp2 { v1 with ty := .f32, isp := 16 }),
    (0x283C02000FFC408000000000, .flog2 { v1 with ty := .f32, isp := 16 }),
    (0x28BC02000FFC408000000000, .fsin { v1 with ty := .f32, isp := 16 }),
    (0x293C02000FFC408000000000, .fcos { v1 with ty := .f32, isp := 16 }),
    (0x29BC02000FFC480000000000, .frnd { v1 with ty := .f16x2 }),
    (0x2A3C02000FFC480000000000, .fclass { v1 with ty := .f16x2 })] ++ [
    (0x2ABC02000004400000000000, .fscale { vv with ty := .f32 }),
    (0x2B3C02000004400000000000, .faddmin { vv with ty := .f32 }),
    (0x2BBC02000004500000000000, .fdot2 { vv with ty := .bf16x2 }),
    (0x2C3C02000FFC000000603000, .cvt { v1 with imm := 0xC06 }),
    (0x2CBC02000004280000000000, .pack { vv with ty := .u16x2 }),
    (0x2D3C02000FFC480800000000, .unpack { v1 with ty := .f16x2, isp := 1 }),
    (0x2DBC02000FFC007000000000, .sxpack { v1 with isp := 14 }),
    (0x2E3C02000FFC007000000000, .sxunpack { v1 with isp := 14 })]
theorem test_decode_FloatingPointAndConversion : wordsFloatingPointAndConversion.all decodes = true := by decide +kernel

def wordsLanesAndMovement : List (Word96 × Instr) := [
    (0x403D02200FFC180000000000, .mov { s1 with ty := .u64 }),
    (0x40BC027FEFFC0007FFFFF800, .movi { none_ with dst := .v 4, imm := 0xFFFFFF }),
    (0x413D027FEFFC180800000000, .movhi { none_ with dst := .s 4, ty := .u64, isp := 1 }),
    (0x41BC02000FFC08000000F800, .bcast { v1 with ty := .u32, imm := 0x1F }),
    (0x423D02000FFC1800001FF800, .rdlane { v1 with dst := .s 4, ty := .u64, imm := 0x3FF }),
    (0x42BC02000FFC080000000800, .wrlane { v1 with ty := .u32, imm := 0x1 }),
    (0x433C02000004081800000000, .shfl { vv with ty := .u32, isp := 3 }),
    (0x43BC02000004081800000000, .tshfl { vv with ty := .u32, isp := 3 }),
    (0x443C02403FFC003000000000, .vote { none_ with dst := .v 4, sa := .p 3, isp := 6 }),
    (0x44BC02000004000000000000, .prmt vv),
    (0x453FFF7FEFFC000000000000, .regroup none_),
    (0x45BD027FEFFC000000000000, .rdsp { none_ with dst := .s 4 }),
    (0x463FFF000FFC000000000000, .wrsp { none_ with sa := .v 0 }),
    (0x46BC02000FFC00E800000000, .scan { v1 with isp := 29 }),
    (0x473D02000FFC00A800000000, .reduce { v1 with dst := .s 4, isp := 21 })]
theorem test_decode_LanesAndMovement : wordsLanesAndMovement.all decodes = true := by decide +kernel

def wordsPredicatesAndControl : List (Word96 × Instr) := [
    (0x503E0140B802000004B05800, .plop { none_ with dst := .p 2, sa := .p 11, sb := .p 1, imm := 0x960B }),
    (0x50BE01000FFC000000000000, .pmov { none_ with dst := .p 2, sa := .v 0 }),
    (0x513FFF7FEFFC000400000000, .bra { none_ with imm := 0x800000 }),
    (0x51BFFF202FFC000000000000, .brx { none_ with sa := .s 2 }),
    (0x523FFF7FEFFC000400000000, .call { none_ with imm := 0x800000 }),
    (0x52BFFF7FEFFC000000000000, .ret none_),
    (0x533FFF7FEFFC000000000000, .exit none_),
    (0x53BFFF7FEFFC000000000000, .yield none_),
    (0x543FFF7FEFFC000000000000, .nop none_),
    (0x54BD037FEFFC000000000800, .loop { none_ with dst := .s 6, imm := 0x1 }),
    (0x553D037FEFFC000000000000, .splitq { none_ with dst := .s 6 }),
    (0x563FFF7FEFFC00000007F800, .safept { none_ with imm := 0xFF }),
    (0x56BFFF7FEFFC000000000000, .critEnter none_),
    (0x56BFFF7FEFFC000800000000, .critExit { none_ with isp := 1 })]
theorem test_decode_PredicatesAndControl : wordsPredicatesAndControl.all decodes = true := by decide +kernel

def wordsMemory : List (Word96 × Instr) := [
    (0x603C02000FFC005000000000, .ld { v1 with isp := 10 }),
    (0x603F87A00FFC001800000000, .ldToken { none_ with dst := .h 15, sa := .s 0, isp := 3 }),
    (0x60BFFF000004001000000000, .st { none_ with sa := .v 0, sb := .v 2, isp := 2 }),
    (0x60BFFF200E02009800000000, .stToken { none_ with sa := .s 0, sb := .h 1, isp := 19 }),
    (0x613D02200FFC00A000000000, .lds { s1 with isp := 20 }),
    (0x61BFFF200404001FFFFFC000, .sts { none_ with sa := .s 0, sb := .s 2, isp := 3, imm := 0xFFFFF8 }),
    (0x623C027FEFFC002000008000, .ldk { none_ with dst := .v 4, isp := 4, imm := 0x10 }),
    (0x62BC02000004006000000000, .atom { vv with isp := 12 }),
    (0x633D02200404008000000000, .atoms { ss with isp := 16 }),
    (0x60BFFF000C04001000000000, .st { none_ with sa := .v 0, sb := .sp .tlane, isp := 2 }),
    (0x63BFFF000004005800000000, .red { none_ with sa := .v 0, sb := .v 2, isp := 11 }),
    (0x643FFF000FFC000800000000, .pref { none_ with sa := .v 0, isp := 1 }),
    (0x64BFFF200FFC001000000000, .cctl { none_ with sa := .s 0, isp := 2 }),
    (0x653FFF206400000000001000, .stash { none_ with sa := .s 6, sb := .s 0, imm := 0x2 }),
    (0x65BFFF206FFC000000000000, .unstash { none_ with sa := .s 6 }),
    (0x663FFF206FFC000000000000, .stashwb { none_ with sa := .s 6 }),
    (0x673FFF200FFC000000020000, .iflush { none_ with sa := .s 0, imm := 0x40 })]
theorem test_decode_Memory : wordsMemory.all decodes = true := by decide +kernel

def wordsBulkCopyAndFutures : List (Word96 × Instr) := [
    (0x803F80A00FFC000000000000, .bcopy { none_ with dst := .h 1, sa := .s 0 }),
    (0x80BF80A00FFC000000000000, .btile { none_ with dst := .h 1, sa := .s 0 }),
    (0x813F80A00FFC000000000000, .bmcast { none_ with dst := .h 1, sa := .s 0 }),
    (0x81BF80A00FFC000000000000, .bfill { none_ with dst := .h 1, sa := .s 0 }),
    (0x823F80A00004000000000000, .bgather { none_ with dst := .h 1, sa := .s 0, sb := .v 2 }),
    (0x82BFFF702FFC000000000000, .fwait { none_ with sa := .h 2 }),
    (0x833E01702FFC000000000000, .ftest { none_ with dst := .p 2, sa := .h 2 }),
    (0x83BFFF702FFC000000000000, .fcancel { none_ with sa := .h 2 }),
    (0x84BE017024040000000FF800, .chkt { none_ with dst := .p 2, sa := .h 2, sb := .s 2, imm := 0x1FF }),
    (0x853FFF702404000000000800, .chkw { none_ with sa := .h 2, sb := .s 2, imm := 0x1 }),
    (0x85BD02702FFC000000000000, .fstat { none_ with dst := .s 4, sa := .h 2 })]
theorem test_decode_BulkCopyAndFutures : wordsBulkCopyAndFutures.all decodes = true := by decide +kernel

def wordsMatrixWalkAndHandlers : List (Word96 × Instr) := [
    (0x903F80A00FFC000000000000, .walk { none_ with dst := .h 1, sa := .s 0 }),
    (0x90BD02702FFC000000003800, .wstat { none_ with dst := .s 4, sa := .h 2, imm := 0x7 }),
    (0x913FFF7FEFFC000000000000, .hret none_),
    (0x91BFFF202408000000000000, .hretf { none_ with sa := .s 2, sb := .s 4 }),
    (0x923FFF7FFFFC000000001800, .hfail { none_ with sa := .imm, imm := 0x3 }),
    (0x92BFFF7FEFFC00000001F800, .hreg { none_ with imm := 0x3F }),
    (0x933FFF7FEFFC00000001F800, .hunreg { none_ with imm := 0x3F })]
theorem test_decode_MatrixWalkAndHandlers : wordsMatrixWalkAndHandlers.all decodes = true := by decide +kernel

def wordsSynchronisationAndMessages : List (Word96 × Instr) := [
    (0xA03FFF206FFC00000007F800, .barInit { none_ with sa := .s 6, imm := 0xFF }),
    (0xA03FFF7FEFFC000800000000, .barArrive { none_ with isp := 1 }),
    (0xA03FFF7FEFFC001000000000, .barWait { none_ with isp := 2 }),
    (0xA03FFF7FEFFC001800000000, .barSync { none_ with isp := 3 }),
    (0xA0BFFF206FFC000000000800, .barx { none_ with sa := .s 6, imm := 0x1 }),
    (0xA13FFF7FEFFC001800000000, .cbar { none_ with isp := 3 }),
    (0xA1BFFF014008000000001000, .amsg { none_ with sa := .v 20, sb := .v 4, imm := 0x2 }),
    (0xA23FFF7FE40800000001F800, .cont { none_ with sb := .s 4, imm := 0x3F }),
    (0xA2BFFF7FE008000000001800, .emit { none_ with sb := .v 4, imm := 0x3 }),
    (0xA33FFF7FEFFC000000000000, .fenceIo none_),
    (0xA33FFF7FEFFC000800000000, .fencePool { none_ with isp := 1 }),
    (0xA3BFFF000004000800000000, .waitmon { none_ with sa := .v 0, sb := .v 2, isp := 1 }),
    (0xA3BFFF20AC06000000000000, .waitmon { none_ with sa := .s 10, sb := .sp .team }),
    (0xA43FFF7FFFFC000000004800, .sleep { none_ with sa := .imm, imm := 0x9 })]
theorem test_decode_SynchronisationAndMessages : wordsSynchronisationAndMessages.all decodes = true := by decide +kernel

def wordsSystemTrapDebugAndPower : List (Word96 × Instr) := [
    (0xB03FFF7FEFFC000007FFF800, .trap { none_ with imm := 0xFFFF }),
    (0xB0BFFF7FEFFC000000000000, .tret none_),
    (0xB13D027FEFFC000000001800, .cwr { none_ with dst := .s 4, imm := 0x3 }),
    (0xB1BFFF204FFC000000000800, .cww { none_ with sa := .s 4, imm := 0x1 }),
    (0xB23C02208FFC000000001800, .inspect { none_ with dst := .v 4, sa := .s 8, imm := 0x3 }),
    (0xB2BFFF208008000000100000, .alter { none_ with sa := .s 8, sb := .v 4, imm := 0x200 }),
    (0xB33FFF208FFC000000000000, .resume { none_ with sa := .s 8 }),
    (0xB3BFFF208FFC000000000000, .kill { none_ with sa := .s 8 }),
    (0xB43FFF208FFC000000000000, .replay { none_ with sa := .s 8 }),
    (0xB4BFFF7FEFFC000007FFF800, .bkpt { none_ with imm := 0xFFFF }),
    (0xB53C027FEFFC000000000000, .rdts { none_ with dst := .v 4 }),
    (0xB5BFFF7FFFFC000000003800, .pclass { none_ with sa := .imm, imm := 0x7 }),
    (0xB63D027FEFFC000000002000, .pwrq { none_ with dst := .s 4, imm := 0x4 }),
    (0xB6BFFF202408000000000000, .accspill { none_ with sa := .s 2, sb := .s 4 }),
    (0xB73FFF202408000000000000, .accfill { none_ with sa := .s 2, sb := .s 4 }),
    (0xB7BFFF7FEFFC000000000000, .tlbinvAll none_),
    (0xB7BFFF202FFC000800000000, .tlbinvCtx { none_ with sa := .s 2, isp := 1 }),
    (0xB7BFFF202FFC0010007FF800, .tlbinvVa { none_ with sa := .s 2, isp := 2, imm := 0xFFF }),
    (0xB83FFF7FFFFC00000005F800, .scanrun { none_ with sa := .imm, imm := 0xBF })]
theorem test_decode_SystemTrapDebugAndPower : wordsSystemTrapDebugAndPower.all decodes = true := by decide +kernel

/-- UDF, whatever the other fields hold (02 R31). -/
theorem test_decode_Udf : (decodes (0xFF8000000000000000000800, .udf 0x800) && decodes (0xFFFFFFFFFFFFFFFFFFFFFFFF, .udf (.allOnes 87))) = true := by
  decide +kernel
/-- Opcodes 0x023 and 0x180; guard p12; a TYPE that ADD does not take; an IMM bit beside an ADD of registers; FADD of F64 with .FTZ (R19,
R27, R29, R31, 04 R54). -/
theorem test_decode_refuses : ([0x11BC02000004000000000000, 0xC03C02000004000000000000, 0x003002000004000000000000, 0x003C02000004400000000000,
    0x003C02000004000000000800, 0x203C02000004588000000000] : List Word96).all refused = true := by decide +kernel

/-! ## Ill-formed instructions -/

def illFormed : List (Instr × WfError) := [
    (.add { vv with grd := .p 12 false }, .guardNumber), (.add { vv with ty := .f32 }, .type), (.and { vv with ty := .u32, sat := true }, .saturate),
    (.add { vv with rnd := .rtz }, .rounding), (.add { vv with isp := 1 }, .specific), (.movhi { none_ with dst := .s 4, ty := .u32, isp := 1 }, .modRule),
    (.mov { v1 with dst := .p 12 }, .predicate), (.add { vv with dst := .h 0 }, .dstClass), (.add { vv with sa := .p 0 }, .saClass),
    (.add { vv with sb := .none }, .sbClass), (.add { ss with sa := .v 0 }, .scalarForm), (.add { vv with ty := .i64, sb := .v 3 }, .alignment),
    (.add { vv with sa := .imm, sb := .imm }, .twoImmediates), (.add { vv with imm := 1 }, .immediate), (.add { vv with sb := .imm, feB := true }, .emptyRead),
    (.cwr { none_ with dst := .s 4, imm := 4 }, .operandRule)]
/-- One for each of the decoder's checks, refused under its name. -/
theorem test_ill_formed : illFormed.all (fun x => decide (x.1.wfError? = some x.2)) = true := by decide +kernel

/-! ## The self-check of a walk -/

/-- Two of three passes agree: the third decides where the first two differ, and names the pass that lost (14 R272, 19 R340). -/
theorem test_vote : vote 5 7 5 = some (5, some 1) ∧ vote 5 7 7 = some (7, some 0) ∧ vote 5 5 9 = some (5, none) ∧
    vote 5 7 9 = none := by decide +kernel
/-- Element (1, 2) of a tile of four columns, lost by pass 1, is of the PE in row 2 and column 2. -/
theorem test_suspects : suspects 4 (List.replicate 6 (some (0, none)) ++ [some (0, some 1)]) = [2 + 2 * 256] := by decide +kernel

end Sys2Proof.Tests
end

/-! # Writes of the registers of BAR 0

A posted write that nothing is ahead of is performed as it arrives, so each register event is one call of `State.bar0Write`. Below
stands what that call does for each register, then what the reads give. -/
section
namespace Sys2Proof.Machine

/-! ## Little-endian bytes -/

@[simp] theorem leBytes_length (n x : Nat) : (leBytes n x).length = n := by
  induction n generalizing x with
  | zero => rfl
  | succ n ih => rw [leBytes, List.length_cons, ih]

theorem leNat_leBytes (n x : Nat) : leNat (leBytes n x) = x % 256 ^ n := by
  induction n generalizing x with
  | zero => rw [leBytes, leNat, Nat.pow_zero, Nat.mod_one]
  | succ n ih =>
    rw [leBytes, leNat, ih, BitVec.toNat_ofNat, show 2 ^ 8 = 256 from rfl, Nat.pow_succ' (m := 256), Nat.mod_mul]

/-- Eight bytes carry a register's value. -/
@[simp] theorem ofNat_leNat_leBytes (v : U64) : BitVec.ofNat 64 (leNat (leBytes 8 v.toNat)) = v := by
  apply BitVec.eq_of_toNat_eq
  rw [leNat_leBytes, BitVec.toNat_ofNat]
  have := v.isLt
  omega

/-! ## A write that is performed as it arrives -/

/-- Bring-up has ended, and no earlier posted write and no PASID stands before the function's next write. -/
structure State.WritesAtOnce (s : State) (fn : Nat) : Prop where
  up : s.status.getLsbD 0 = true
  posted : (s.fn fn).posted = []
  pasids : (s.fn fn).pasids = []
  held : s.heldPost = false

theorem State.post_bar0 {s : State} {fn : Nat} (h : s.WritesAtOnce fn) (off : Nat) (d : List Byte) :
    s.post fn (.bar0 off d) = s.bar0Write fn off d := by
  have hp : s.takePasid fn = (true, s) := by unfold takePasid; rw [h.pasids]
  have hu : s.status[0] = true := h.up
  unfold post
  simp [hp, hu, h.posted, h.held, hostStore]

theorem reg64_happens {s : State} {fn : Nat} (h : s.WritesAtOnce fn) {i : Instr} {off : Nat} {v : U64} {P : State → Prop}
    (hx : exec i s = reg64 fn off v s) (hp : P (s.bar0Write fn off (leBytes 8 v.toNat))) : Happens i s P :=
  ⟨_, by rw [hx, reg64, State.post_bar0 h], hp⟩

theorem registerWrite_happens {s : State} {fn : Nat} (h : s.WritesAtOnce fn) {off : Nat} {d : List Byte} {P : State → Prop}
    (hp : P (s.bar0Write fn off d)) : Happens (.registerWrite fn off d) s P :=
  ⟨_, congrArg Host.Outcome.next (State.post_bar0 h off d), hp⟩

/-! ## Which register an offset is (23 R378) -/

@[simp] theorem State.bar0Write_migtail (s : State) (fn : Nat) (v : U64) :
    s.bar0Write fn 0x1008 (leBytes 8 v.toNat) = s.migTail fn v := by simp [bar0Write, powerSize]
@[simp] theorem State.bar0Write_ticmd (s : State) (fn : Nat) (v : U64) :
    s.bar0Write fn 0x1108 (leBytes 8 v.toNat) = s.ticmd fn v.toNat := by simp [bar0Write, powerSize]
@[simp] theorem State.bar0Write_tistat (s : State) (fn : Nat) (v : U64) :
    s.bar0Write fn 0x1120 (leBytes 8 v.toNat) = s.onFn fn fun f => { f with tistat := f.tistat &&& ~~~v } := by
  simp [bar0Write, powerSize]
@[simp] theorem State.bar0Write_frdw (s : State) (fn : Nat) (v : U64) :
    s.bar0Write fn 0x1150 (leBytes 8 v.toNat) = s.frdWrite fn v.toNat := by simp [bar0Write, powerSize]
@[simp] theorem State.bar0Write_abase (s : State) (fn : Nat) (v : U64) :
    s.bar0Write fn 0x1180 (leBytes 8 v.toNat) = s.setAbase fn v := by simp [bar0Write, powerSize]
@[simp] theorem State.bar0Write_sctail (s : State) (fn : Nat) (v : U64) :
    s.bar0Write fn 0x1200 (leBytes 8 v.toNat) = s.submit fn v.toNat := by simp [bar0Write, powerSize]
@[simp] theorem State.bar0Write_errrd (s : State) (v : U64) :
    s.bar0Write 0 0x18 (leBytes 8 v.toNat) = s.errRead v.toNat := by simp [bar0Write, powerSize]
@[simp] theorem State.bar0Write_clrd (s : State) (v : U64) :
    s.bar0Write 0 0x28 (leBytes 8 v.toNat) = s.clRead v.toNat := by simp [bar0Write, powerSize]

theorem State.bar0Write_slots (s : State) (fn : Nat) {off : Nat} {d : List Byte} (h : 0x8000 ≤ off)
    (h' : off + d.length ≤ 0x9000) :
    s.bar0Write fn off d = s.onFn fn fun f => { f with slots := Memory.writeN f.slots (off - 0x8000) d } := by
  simp [bar0Write, h, h']

theorem State.bar0Write_staging (s : State) (fn : Nat) {off : Nat} {d : List Byte} (h : 0x1300 ≤ off)
    (h' : off + d.length ≤ 0x1380) :
    s.bar0Write fn off d = s.onFn fn fun f => { f with staging := Memory.writeN f.staging (off - 0x1300) d } := by
  simp [bar0Write, h, h', show ¬ 0x8000 ≤ off by omega]

theorem State.bar0Write_power (s : State) {off : Nat} {d : List Byte} (h : 0x2000 ≤ off) (h' : off + d.length ≤ 0x2140) :
    s.bar0Write 0 off d = s.onPower fun p => { p with
      pending := d.zipIdx.foldl (fun m b => NMap.insert m (off - 0x2000 + b.2) b.1) p.pending } := by
  simp [bar0Write, powerSize, h, h', show ¬ 0x8000 ≤ off by omega, show ¬ off + d.length ≤ 0x1380 by omega]

/-! ## Writes that change the function alone -/

/-- Only the function differs, which has become `y`, and the agenda. -/
def State.SetsFn (s : State) (fn : Nat) (y : Function) (s' : State) : Prop :=
  s' = { s with functions := s'.functions, agenda := s'.agenda } ∧ s'.fn fn = y ∧ ∀ k, k ≠ fn → s'.fn k = s.fn k

theorem State.SetsFn.refl (s : State) (fn : Nat) : s.SetsFn fn (s.fn fn) s := ⟨rfl, rfl, fun _ _ => rfl⟩

theorem State.setsFn_setFn (s : State) (fn : Nat) (y : Function) : s.SetsFn fn y (s.setFn fn y) :=
  ⟨rfl, by simp, fun k hk => by simp [hk]⟩

theorem State.setsFn_setFn_soon (s : State) (fn : Nat) (y : Function) (i : Instr) : s.SetsFn fn y ((s.setFn fn y).soon i) :=
  ⟨rfl, (s.setsFn_setFn fn y).2.1, (s.setsFn_setFn fn y).2.2⟩

theorem State.awaits_soon (s : State) (i : Instr) : (s.soon i).awaits s.time i :=
  List.mem_append_right s.agenda List.mem_cons_self

theorem State.migTail_setsFn (s : State) (fn : Nat) (v : U64) : s.SetsFn fn { s.fn fn with
    migtail := if (s.fn fn).migtail.toNat < v.toNat ∧ v.toNat ≤ (s.fn fn).mighead.toNat + 64 then v else (s.fn fn).migtail }
    (s.migTail fn v) := by
  by_cases h : (s.fn fn).migtail.toNat < v.toNat ∧ v.toNat ≤ (s.fn fn).mighead.toNat + 64
  · have : s.migTail fn v = (s.setFn fn { s.fn fn with migtail := v }).soon (.migrationRequest fn) := by
      simp only [migTail, Bool.or_eq_true, decide_eq_true_eq]
      rw [if_neg (by omega)]
    rw [if_pos h, this]
    exact s.setsFn_setFn_soon fn _ _
  · have : s.migTail fn v = s := by
      simp only [migTail, Bool.or_eq_true, decide_eq_true_eq]
      rw [if_pos (by omega)]
    rw [if_neg h, this]
    exact .refl s fn

theorem State.setAbase_setsFn (s : State) (fn : Nat) (v : U64) : s.SetsFn fn { s.fn fn with
    abase := if canonical v.toNat = true ∧ v.toNat % 2 ^ 40 = 0 then v else (s.fn fn).abase } (s.setAbase fn v) := by
  have hok : abaseOk v = true ↔ canonical v.toNat = true ∧ v.toNat % 2 ^ 40 = 0 := by simp [abaseOk]
  by_cases h : abaseOk v = true
  · rw [if_pos (hok.1 h), setAbase, if_pos h]
    exact s.setsFn_setFn fn _
  · rw [if_neg (mt hok.2 h), setAbase, if_neg h]
    exact .refl s fn

/-! ## TICMD (08 R137) -/

/-- The request's form is none of the three kinds. -/
def ticmdBad (raw : Nat) : Bool :=
  raw % 4 = 3 || bitsAt raw 2 14 ≠ 0 || raw / 2 ^ 28 ≠ 0 || (raw % 4 = 0 && bitsAt raw 16 12 ≠ 0)

/-- The request is for what the function may not invalidate. -/
def State.ticmdDenied (s : State) (fn raw : Nat) : Bool :=
  fn ≠ 0 && raw % 4 ≠ 3 && (raw % 4 = 0 || !(s.ctx? (bitsAt raw 16 12)).any fun c => c.owner = fn)

/-- The function once a request is accepted, which is queued or refused with bits of TISTAT. -/
def Function.asked (f : Function) (r : Option (Nat × Nat × U64)) (bits : BitVec 64) : Function :=
  { f with tireq := f.tireq + 1, tiq := f.tiq ++ [r], tistat := f.tistat ||| bits }

theorem State.ticmd_eq (s : State) (fn raw : Nat) : s.ticmd fn raw =
    (s.setFn fn ((s.fn fn).asked
      (if ticmdBad raw || s.ticmdDenied fn raw then none else some (raw % 4, bitsAt raw 16 12, (s.fn fn).tiva))
      ((if ticmdBad raw then 2 else 0) ||| if s.ticmdDenied fn raw then 1 else 0))).soon (.tlbInvalidationDone fn) := rfl

theorem ticmdBad_iff (raw : Nat) : ticmdBad raw = true ↔
    raw % 4 = 3 ∨ bitsAt raw 2 14 ≠ 0 ∨ 2 ^ 28 ≤ raw ∨ (raw % 4 = 0 ∧ bitsAt raw 16 12 ≠ 0) := by
  have hd : raw / 2 ^ 28 ≠ 0 ↔ 2 ^ 28 ≤ raw := by omega
  simp only [ticmdBad, Bool.or_eq_true, Bool.and_eq_true, decide_eq_true_eq, hd, or_assoc]

theorem State.ticmdDenied_iff (s : State) (fn raw : Nat) : s.ticmdDenied fn raw = false ↔
    fn = 0 ∨ raw % 4 = 3 ∨ (raw % 4 ≠ 0 ∧ ∃ c, s.ctx? (bitsAt raw 16 12) = some c ∧ c.owner = fn) := by
  have howns : ((s.ctx? (bitsAt raw 16 12)).any fun c => c.owner = fn) = true ↔
      ∃ c, s.ctx? (bitsAt raw 16 12) = some c ∧ c.owner = fn := by
    simp only [Option.any_eq_true, decide_eq_true_eq]
  simp only [ticmdDenied, ← howns, Bool.and_eq_false_iff, Bool.or_eq_false_iff, decide_eq_false_iff_not, ne_eq,
    Decidable.not_not, Bool.not_eq_false', or_assoc]

theorem State.ticmd_setsFn (s : State) (fn raw : Nat) {bad denied : Bool} (hb : ticmdBad raw = bad)
    (hd : s.ticmdDenied fn raw = denied) : s.SetsFn fn ((s.fn fn).asked
      (if bad || denied then none else some (raw % 4, bitsAt raw 16 12, (s.fn fn).tiva))
      ((if bad then 2 else 0) ||| if denied then 1 else 0)) (s.ticmd fn raw) := by
  rw [ticmd_eq, hb, hd]
  exact s.setsFn_setFn_soon fn _ _

theorem State.ticmd_awaits (s : State) (fn raw : Nat) : (s.ticmd fn raw).awaits s.time (.tlbInvalidationDone fn) :=
  awaits_soon _ _

/-- The three instructions of TICMD are one write of it. -/
theorem ticmd_happens {s : State} {fn : Nat} (h : s.WritesAtOnce fn) {raw : U64} {i : Instr}
    (hi : i ∈ [Instr.ticmdAll fn raw, .ticmdCtx fn raw, .ticmdVa fn raw]) {P : State → Prop} (hp : P (s.ticmd fn raw.toNat)) :
    Happens i s P := by
  have hx : exec i s = reg64 fn 0x1108 raw s := by
    simp only [List.mem_cons, List.not_mem_nil, or_false] at hi
    rcases hi with rfl | rfl | rfl <;> rfl
  exact reg64_happens h hx (by rw [State.bar0Write_ticmd]; exact hp)

/-! ## FRDW (08 R140, R393) -/

theorem State.frdWrite_ctx {s : State} {fn v : Nat} {c : Context} (hc : s.ctx? (s.fn fn).frctx.toNat = some c) :
    s.frdWrite fn v = { s with contexts := (s.frdWrite fn v).contexts, agenda := (s.frdWrite fn v).agenda } ∧
    (s.frdWrite fn v).ctx? (s.fn fn).frctx.toNat = some { c with
      frd := if (fn = 0 ∨ c.owner = fn) ∧ c.frd ≤ v ∧ v ≤ c.fwr then v else c.frd } := by
  by_cases h : (fn = 0 ∨ c.owner = fn) ∧ c.frd ≤ v ∧ v ≤ c.fwr
  · have : s.frdWrite fn v = (s.setCtx (s.fn fn).frctx.toNat { c with frd := v }).soon
        (.faultRecordDeferredWrite (s.fn fn).frctx.toNat) := by
      simp only [frdWrite, hc, Bool.or_eq_true, Bool.and_eq_true, decide_eq_true_eq]
      rw [if_neg (by omega)]
    rw [if_pos h, this]
    exact ⟨rfl, (s.ctx?_setCtx _ _ _).trans (if_pos rfl)⟩
  · have : s.frdWrite fn v = s := by
      simp only [frdWrite, hc, Bool.or_eq_true, Bool.and_eq_true, decide_eq_true_eq]
      rw [if_pos (by omega)]
    rw [if_neg h, this]
    exact ⟨rfl, hc⟩

/-! ## SCTAIL and the command ring (23 R383) -/

@[simp] theorem State.fn_soon (s : State) (i : Instr) (k : Nat) : (s.soon i).fn k = s.fn k := rfl
@[simp] theorem State.fn_emit (s : State) (m : HostMsg) (k : Nat) : (s.emit m).fn k = s.fn k := rfl

theorem State.setFn_sctail {s : State} {fn : Nat} {y : Function} (h : y.sctail = (s.fn fn).sctail) (k : Nat) :
    ((s.setFn fn y).fn k).sctail = (s.fn k).sctail := by
  rw [fn_setFn]
  split
  · next hk => rw [h, hk]
  · rfl

theorem State.endCommand_sctail (s : State) (fn status reason : Nat) (results : List (Nat × List Byte)) (k : Nat) :
    ((s.endCommand fn status reason results).fn k).sctail = (s.fn k).sctail := by
  unfold endCommand
  dsimp only
  split
  · rw [fn_emit, setFn_sctail]; rfl
  · rw [setFn_sctail]; rfl

/-- The supervisor reads the command of a function from its slot. -/
def State.takesUp (s : State) (fn : Nat) : State :=
  { s with nextFn := (fn + 1) % 64 }.onFn fn fun f => { f with taken := (s.fn fn).slot (s.fn fn).schead }

/-- It begins with the command. -/
def State.begins (s : State) (fn : Nat) (i : Instr) : State :=
  ((s.takesUp fn).onFn fn fun f => { f with busy := true }).soon i

theorem State.fn_takesUp (s : State) (fn k : Nat) : (s.takesUp fn).fn k =
    if k = fn then { s.fn fn with taken := (s.fn fn).slot (s.fn fn).schead } else s.fn k :=
  fn_onFn { s with nextFn := (fn + 1) % 64 } fn k _

theorem State.fn_begins (s : State) (fn k : Nat) (i : Instr) : (s.begins fn i).fn k =
    if k = fn then { s.fn fn with busy := true, taken := (s.fn fn).slot (s.fn fn).schead } else s.fn k := by
  rw [begins, fn_soon, fn_onFn, fn_takesUp, fn_takesUp, if_pos rfl]
  split <;> rfl

/-- The supervisor never moves SCTAIL. -/
theorem State.serve_sctail (n : Nat) (s : State) (k : Nat) : ((s.serve n).fn k).sctail = (s.fn k).sctail := by
  induction n generalizing s with
  | zero => rfl
  | succ n ih =>
    unfold serve
    split
    · rfl
    · dsimp only
      split
      · rfl
      · next fn _ =>
        split
        · next i _ =>
          change ((s.begins fn i).fn k).sctail = _
          rw [fn_begins]
          split
          · next hk => rw [hk]
          · rfl
        · change ((((s.takesUp fn).endCommand fn 2 0x01 []).serve n).fn k).sctail = _
          rw [ih, endCommand_sctail, fn_takesUp]
          split
          · next hk => rw [hk]
          · rfl

theorem State.submit_eq {s : State} {fn v : Nat} (h : (s.fn fn).sctail < v) (h' : v ≤ (s.fn fn).schead + 64) :
    s.submit fn v = (s.setFn fn { s.fn fn with sctail := v }).serve 64 := by
  simp only [submit, Bool.or_eq_true, decide_eq_true_eq]
  rw [if_neg (by omega)]

/-- The element of a list that alone satisfies a predicate is the one found. -/
theorem find?_eq_of_unique {α : Type} {p : α → Bool} {l : List α} {a : α} (ha : a ∈ l) (hp : p a = true)
    (hu : ∀ b ∈ l, p b = true → b = a) : l.find? p = some a := by
  cases hf : l.find? p with
  | none => exact absurd hp (List.find?_eq_none.1 hf a ha)
  | some b => rw [hu b (List.mem_of_find?_eq_some hf) (List.find?_some hf)]

theorem mem_roundRobin {fn : Nat} (h : fn < 64) (n : Nat) : fn ∈ (List.range 64).map fun k => (n + k) % 64 :=
  List.mem_map.2 ⟨(fn + 64 - n % 64) % 64, List.mem_range.2 (by omega), by omega⟩

/-- The supervisor takes up the command of the one function that has one. -/
theorem State.serve_takes {s : State} {fn : Nat} {i : Instr} (n : Nat) (hup : s.status.getLsbD 0 = true)
    (hidle : s.expects isCommand = false) (hfn : fn < 64) (hlt : (s.fn fn).schead < (s.fn fn).sctail)
    (hbusy : (s.fn fn).busy = false) (hrest : ∀ k, k ≠ fn → (s.fn k).sctail ≤ (s.fn k).schead)
    (hi : commandEvent fn ((s.fn fn).slot (s.fn fn).schead) = some i) :
    (s.serve (n + 1)).fn fn = { s.fn fn with busy := true, taken := (s.fn fn).slot (s.fn fn).schead } ∧
    (s.serve (n + 1)).awaits s.time i := by
  have hfind : ((List.range 64).map fun k => (s.nextFn + k) % 64).find?
      (fun k => (s.fn k).schead < (s.fn k).sctail && !(s.fn k).busy) = some fn := by
    refine find?_eq_of_unique (mem_roundRobin hfn _) (by simp [hlt, hbusy]) fun k _ hk =>
      Decidable.byContradiction fun hne => ?_
    have := hrest k hne
    simp only [Bool.and_eq_true, decide_eq_true_eq] at hk
    omega
  have hup : s.status[0] = true := hup
  have hserve : s.serve (n + 1) = s.begins fn i := by
    rw [serve]
    simp only [hidle, hup, hfind, hi]
    rfl
  rw [hserve]
  exact ⟨(fn_begins s fn fn i).trans (if_pos rfl), awaits_soon _ i⟩

theorem State.submit_sctail {s : State} {fn v : Nat} (h : (s.fn fn).sctail < v) (h' : v ≤ (s.fn fn).schead + 64) :
    ((s.submit fn v).fn fn).sctail = v := by
  rw [submit_eq h h', serve_sctail, fn_setFn, if_pos rfl]

/-- A write of SCTAIL that brings the only command there is has the supervisor begin with it. -/
theorem State.submit_takes {s : State} {fn v : Nat} {i : Instr} (h : (s.fn fn).sctail < v) (h' : v ≤ (s.fn fn).schead + 64)
    (hup : s.status.getLsbD 0 = true) (hidle : s.expects isCommand = false) (hbusy : (s.fn fn).busy = false)
    (hrest : ∀ k, k ≠ fn → (s.fn k).sctail ≤ (s.fn k).schead) (hfn : fn < 64) (hlt : (s.fn fn).schead < v)
    (hi : commandEvent fn ((s.fn fn).slot (s.fn fn).schead) = some i) :
    ((s.submit fn v).fn fn).busy = true ∧ ((s.submit fn v).fn fn).taken = (s.fn fn).slot (s.fn fn).schead ∧
      (s.submit fn v).awaits s.time i := by
  have hf : (s.setFn fn { s.fn fn with sctail := v }).fn fn = { s.fn fn with sctail := v } := by rw [fn_setFn, if_pos rfl]
  obtain ⟨htaken, hawaits⟩ := serve_takes (s := s.setFn fn { s.fn fn with sctail := v }) 63 hup hidle hfn
    (by rw [hf]; exact hlt) (by rw [hf]; exact hbusy) (fun k hk => by rw [fn_setFn, if_neg hk]; exact hrest k hk)
    (by rw [hf]; exact hi)
  rw [hf] at htaken
  rw [submit_eq h h', htaken]
  exact ⟨rfl, rfl, hawaits⟩

/-! ## ERRRD and CLRD (23 R385) -/

@[simp] theorem State.logSignal_logs (s : State) (b : Bool) : (s.logSignal b).logs = s.logs := by
  unfold logSignal; split <;> rfl

/-- A log's index read, its index written and its window. -/
structure LogView (α : Type) where
  rd : Nat
  wr : Nat
  window : NMap α

def State.errView (s : State) : LogView (List Byte) := { rd := s.logs.errrd, wr := s.logs.errwr, window := s.logs.errWindow }
def State.clView (s : State) : LogView Completion := { rd := s.logs.clrd, wr := s.logs.clwr, window := s.logs.clWindow }

/-- The log with one more record in its window. -/
def LogView.push {α : Type} (v : LogView α) (x : α) : LogView α :=
  { v with wr := v.wr + 1, window := NMap.insert v.window v.wr x }

/-- Records have come into the window behind those already there. -/
structure LogView.Grows {α : Type} (v v' : LogView α) : Prop where
  rd : v'.rd = v.rd
  wr : v.wr ≤ v'.wr
  old : ∀ k, k < v.wr → NMap.find? v'.window k = NMap.find? v.window k

theorem LogView.Grows.refl {α : Type} (v : LogView α) : v.Grows v := ⟨rfl, Nat.le_refl _, fun _ _ => rfl⟩

theorem LogView.Grows.trans {α : Type} {a b c : LogView α} (h : a.Grows b) (h' : b.Grows c) : a.Grows c :=
  ⟨h'.rd.trans h.rd, Nat.le_trans h.wr h'.wr,
    fun k hk => (h'.old k (Nat.lt_of_lt_of_le hk h.wr)).trans (h.old k hk)⟩

theorem LogView.grows_push {α : Type} (v : LogView α) (x : α) : v.Grows (v.push x) :=
  ⟨rfl, Nat.le_succ _, fun k hk => by rw [push, NMap.find?_insert, if_neg (by omega)]⟩

/-- The record that came first stands at the index written before it. -/
theorem LogView.Grows.first {α : Type} {v v' : LogView α} {x : α} (h : (v.push x).Grows v') :
    NMap.find? v'.window v.wr = some x ∧ v.wr < v'.wr :=
  ⟨(h.old v.wr (Nat.lt_succ_self _)).trans (by rw [push, NMap.find?_insert, if_pos rfl]), h.wr⟩

/-- The first held error record moves into the window. -/
def State.showError (s : State) (r : List Byte) (rest : List (List Byte)) : State :=
  (s.onLogs fun l => { l with
    errHeld := rest, errWindow := NMap.insert l.errWindow l.errwr r, errwr := l.errwr + 1 }).logSignal
      (s.logs.errwr = s.logs.errrd)

/-- The first held completion entry moves into the window. -/
def State.showCompletion (s : State) (r : Completion) (rest : List Completion) : State :=
  (s.onLogs fun l => { l with
    clHeld := rest, clWindow := NMap.insert l.clWindow l.clwr r, clwr := l.clwr + 1 }).logSignal
      (s.logs.clwr = s.logs.clrd)

theorem State.errView_showError (s : State) (r : List Byte) (rest : List (List Byte)) :
    (s.showError r rest).errView = s.errView.push r := by
  unfold errView showError; rw [logSignal_logs]; rfl

theorem State.clView_showCompletion (s : State) (r : Completion) (rest : List Completion) :
    (s.showCompletion r rest).clView = s.clView.push r := by
  unfold clView showCompletion; rw [logSignal_logs]; rfl

theorem State.fillErrors_nil {s : State} (h : s.logs.errHeld = []) (n : Nat) : s.fillErrors n = s := by
  cases n with
  | zero => rfl
  | succ n => rw [fillErrors, h]

theorem State.fillCompletions_nil {s : State} (h : s.logs.clHeld = []) (n : Nat) : s.fillCompletions n = s := by
  cases n with
  | zero => rfl
  | succ n => rw [fillCompletions, h]

theorem State.fillErrors_cons {s : State} {r : List Byte} {rest : List (List Byte)} (h : s.logs.errHeld = r :: rest)
    (n : Nat) : s.fillErrors (n + 1) =
      if 128 ≤ s.logs.errwr - s.logs.errrd then s else (s.showError r rest).fillErrors n := by
  rw [fillErrors, h]; rfl

theorem State.fillCompletions_cons {s : State} {r : Completion} {rest : List Completion} (h : s.logs.clHeld = r :: rest)
    (n : Nat) : s.fillCompletions (n + 1) =
      if 256 ≤ s.logs.clwr - s.logs.clrd then s else (s.showCompletion r rest).fillCompletions n := by
  rw [fillCompletions, h]; rfl

theorem State.fillErrors_grows (n : Nat) (s : State) : s.errView.Grows (s.fillErrors n).errView := by
  induction n generalizing s with
  | zero => exact .refl _
  | succ n ih =>
    cases h : s.logs.errHeld with
    | nil => rw [fillErrors_nil h]; exact .refl _
    | cons r rest =>
      rw [fillErrors_cons h]
      split
      · exact .refl _
      · exact (s.errView.grows_push r).trans (errView_showError s r rest ▸ ih _)

theorem State.fillCompletions_grows (n : Nat) (s : State) : s.clView.Grows (s.fillCompletions n).clView := by
  induction n generalizing s with
  | zero => exact .refl _
  | succ n ih =>
    cases h : s.logs.clHeld with
    | nil => rw [fillCompletions_nil h]; exact .refl _
    | cons r rest =>
      rw [fillCompletions_cons h]
      split
      · exact .refl _
      · exact (s.clView.grows_push r).trans (clView_showCompletion s r rest ▸ ih _)

/-- With room in the window the first held record comes to stand at the index written. -/
theorem State.fillErrors_first {s : State} {r : List Byte} {rest : List (List Byte)} (h : s.logs.errHeld = r :: rest)
    (hroom : s.logs.errwr - s.logs.errrd < 128) (n : Nat) :
    NMap.find? (s.fillErrors (n + 1)).logs.errWindow s.logs.errwr = some r ∧
      s.logs.errwr < (s.fillErrors (n + 1)).logs.errwr := by
  rw [fillErrors_cons h, if_neg (Nat.not_le.2 hroom)]
  exact LogView.Grows.first (v := s.errView) (errView_showError s r rest ▸ fillErrors_grows n _)

theorem State.fillCompletions_first {s : State} {r : Completion} {rest : List Completion} (h : s.logs.clHeld = r :: rest)
    (hroom : s.logs.clwr - s.logs.clrd < 256) (n : Nat) :
    NMap.find? (s.fillCompletions (n + 1)).logs.clWindow s.logs.clwr = some r ∧
      s.logs.clwr < (s.fillCompletions (n + 1)).logs.clwr := by
  rw [fillCompletions_cons h, if_neg (Nat.not_le.2 hroom)]
  exact LogView.Grows.first (v := s.clView) (clView_showCompletion s r rest ▸ fillCompletions_grows n _)

def State.setErrrd (s : State) (v : Nat) : State := { s with logs := { s.logs with errrd := v } }
def State.setClrd (s : State) (v : Nat) : State := { s with logs := { s.logs with clrd := v } }

theorem State.errRead_eq {s : State} {v : Nat} (h : s.logs.errrd ≤ v) (h' : v ≤ s.logs.errwr) :
    s.errRead v = (s.setErrrd v).fillErrors 128 := by
  rw [errRead, if_neg (by simp [h, h'])]; rfl

theorem State.clRead_eq {s : State} {v : Nat} (h : s.logs.clrd ≤ v) (h' : v ≤ s.logs.clwr) :
    s.clRead v = (s.setClrd v).fillCompletions 256 := by
  rw [clRead, if_neg (by simp [h, h'])]; rfl

/-- A write of ERRRD that names a record: the index moves, and the window takes the held records that it has room for. -/
theorem State.errRead_moves {s : State} {v : Nat} (h : s.logs.errrd ≤ v) (h' : v ≤ s.logs.errwr) :
    (s.errRead v).logs.errrd = v ∧
    (s.logs.errHeld = [] → s.errRead v = { s with logs := { s.logs with errrd := v } }) ∧
    ∀ r rest, s.logs.errHeld = r :: rest → s.logs.errwr - v < 128 →
      NMap.find? (s.errRead v).logs.errWindow s.logs.errwr = some r ∧ s.logs.errwr < (s.errRead v).logs.errwr := by
  rw [errRead_eq h h']
  exact ⟨(fillErrors_grows 128 (s.setErrrd v)).rd, fun hn => fillErrors_nil (s := s.setErrrd v) hn 128,
    fun r rest hc hroom => fillErrors_first (s := s.setErrrd v) hc hroom 127⟩

/-- A write of CLRD that names an entry, likewise. -/
theorem State.clRead_moves {s : State} {v : Nat} (h : s.logs.clrd ≤ v) (h' : v ≤ s.logs.clwr) :
    (s.clRead v).logs.clrd = v ∧
    (s.logs.clHeld = [] → s.clRead v = { s with logs := { s.logs with clrd := v } }) ∧
    ∀ r rest, s.logs.clHeld = r :: rest → s.logs.clwr - v < 256 →
      NMap.find? (s.clRead v).logs.clWindow s.logs.clwr = some r ∧ s.logs.clwr < (s.clRead v).logs.clwr := by
  rw [clRead_eq h h']
  exact ⟨(fillCompletions_grows 256 (s.setClrd v)).rd, fun hn => fillCompletions_nil (s := s.setClrd v) hn 256,
    fun r rest hc hroom => fillCompletions_first (s := s.setClrd v) hc hroom 255⟩

/-! ## The power registers, the command slots and the staging area (20 R352, 23 R383) -/

/-- Bytes of a list written to consecutive keys. -/
theorem NMap.find?_insertBytes (d : List Byte) (m : NMap Byte) (base n k : Nat) :
    NMap.find? ((d.zipIdx n).foldl (fun m b => NMap.insert m (base + b.2) b.1) m) k =
      if base + n ≤ k ∧ k < base + n + d.length then d[k - (base + n)]? else NMap.find? m k := by
  induction d generalizing m n with
  | nil => rw [if_neg (by simp)]; rfl
  | cons b d ih =>
    rw [List.zipIdx_cons, List.foldl_cons, ih, NMap.find?_insert, List.length_cons]
    by_cases hk : k = base + n
    · rw [if_neg (by omega), if_pos hk, if_pos (by omega), hk, Nat.sub_self]; rfl
    · by_cases hin : base + n ≤ k ∧ k < base + n + (d.length + 1)
      · rw [if_pos (by omega), if_pos hin, show k - (base + n) = k - (base + (n + 1)) + 1 by omega, List.getElem?_cons_succ]
      · rw [if_neg (by omega), if_neg hk, if_neg hin]

/-- Bytes inserted into an area that begins at `base` of BAR 0, by their offset in it. -/
theorem NMap.find?_insertBytes_area (d : List Byte) (m : NMap Byte) {base off : Nat} (h : base ≤ off) (k : Nat) :
    NMap.find? (d.zipIdx.foldl (fun m b => NMap.insert m (off - base + b.2) b.1) m) k =
      if off ≤ k + base ∧ k + base < off + d.length then d[k + base - off]? else NMap.find? m k := by
  rw [NMap.find?_insertBytes, Nat.add_zero, show k - (off - base) = k + base - off by omega]
  by_cases hk : off ≤ k + base ∧ k + base < off + d.length
  · rw [if_pos hk, if_pos (by omega)]
  · rw [if_neg hk, if_neg (by omega)]

/-- Bytes written to an area that begins at `base` of BAR 0, by their offset in it. -/
theorem Memory.read_writeN_area (m : List Host.Cell) {base off : Nat} (h : base ≤ off) (d : List Byte) (k : Nat) :
    Memory.read (Memory.writeN m (off - base) d) k =
      if off ≤ k + base ∧ k + base < off + d.length then d.getD (k + base - off) 0 else Memory.read m k := by
  rw [Memory.read_writeN, show k - (off - base) = k + base - off by omega]
  by_cases hk : off ≤ k + base ∧ k + base < off + d.length
  · rw [if_pos hk, if_pos (by omega)]
  · rw [if_neg hk, if_neg (by omega)]

/-! ## Reads (23 R378) -/

/-- The registers and areas that every function has in BAR 0. -/
def State.ownMap (s : State) (fn : Nat) : List (Nat × List Byte) :=
  let f := s.fn fn
  let ctx := s.ctx? f.frctx.toNat
  let fwr := ((ctx.filter fun c => fn = 0 || c.owner = fn).map (·.fwr)).getD 0
  [(0x1000, leBytes 8 f.migbase.toNat), (0x1008, leBytes 8 f.migtail.toNat), (0x1010, leBytes 8 f.mighead.toNat),
   (0x1100, leBytes 8 f.tiva.toNat), (0x1110, leBytes 8 f.tireq), (0x1118, leBytes 8 f.tidone),
   (0x1120, leBytes 8 f.tistat.toNat), (0x1140, leBytes 8 f.frctx.toNat), (0x1148, leBytes 8 fwr),
   (0x1150, leBytes 8 ((ctx.map (·.frd)).getD 0)), (0x1180, leBytes 8 f.abase.toNat), (0x1200, leBytes 8 f.sctail),
   (0x1208, leBytes 8 f.schead), (0x1300, f.stagingView), (0x8000, f.slotsView)]

/-- They stand first in what can be read. -/
theorem State.bar0Map_own (s : State) (fn : Nat) : ∃ rest, s.bar0Map fn = s.ownMap fn ++ rest := by
  by_cases h : fn = 0
  · exact ⟨_, by rw [bar0Map, if_pos h]; rfl⟩
  · exact ⟨[], by rw [bar0Map, if_neg h, List.append_nil]; rfl⟩

@[simp] theorem Function.slotsView_length (f : Function) : f.slotsView.length = 4096 := by
  simp [slotsView, Memory.readN]

@[simp] theorem Function.stagingView_length (f : Function) : f.stagingView.length = 128 := by
  simp [stagingView, Memory.readN]

/-- No two of them overlap. -/
theorem State.ownMap_disjoint (s : State) (fn : Nat) :
    (s.ownMap fn).Pairwise fun r r' => r.1 + r.2.length ≤ r'.1 := by
  simp [ownMap]

/-- An address in one of several areas that rise without overlapping is found there. -/
theorem find?_area {l : List (Nat × List Byte)} (hl : l.Pairwise fun r r' => r.1 + r.2.length ≤ r'.1) {r : Nat × List Byte}
    (hr : r ∈ l) {a : Nat} (h : r.1 ≤ a) (h' : a < r.1 + r.2.length) :
    (l.find? fun r => r.1 ≤ a && a < r.1 + r.2.length) = some r := by
  induction l with
  | nil => cases hr
  | cons x l ih =>
    obtain ⟨hx, hl⟩ := List.pairwise_cons.1 hl
    rcases List.mem_cons.1 hr with rfl | hr
    · exact List.find?_cons_of_pos (by simp [h, h'])
    · have := hx r hr
      rw [List.find?_cons_of_neg (by simp only [Bool.and_eq_true, decide_eq_true_eq]; omega)]
      exact ih hl hr

/-- A read inside an own register or area gives its bytes. -/
theorem State.bar0Read_own {s : State} {fn base : Nat} {b : List Byte} (h : (base, b) ∈ s.ownMap fn) {j n : Nat}
    (hj : j + n ≤ b.length) : s.bar0Read fn (base + j) n = (List.range n).map fun k => b.getD (j + k) 0 := by
  obtain ⟨rest, hrest⟩ := s.bar0Map_own fn
  refine List.map_congr_left fun k hk => ?_
  have hk := List.mem_range.1 hk
  rw [hrest, List.find?_append, find?_area (s.ownMap_disjoint fn) h (by dsimp only; omega) (by dsimp only; omega),
    Option.some_or]
  exact congrArg (b.getD · 0) (by omega)

/-- A register reads as its eight bytes. -/
theorem State.bar0Read_own_register {s : State} {fn base x : Nat} (h : (base, leBytes 8 x) ∈ s.ownMap fn) :
    s.bar0Read fn base 8 = leBytes 8 x := by
  rw [← Nat.add_zero base, bar0Read_own h (by simp)]
  simp [leBytes, List.range_succ]

/-- FRWR shows the write index of a context that the function may see (08 R140). -/
theorem State.bar0Read_fwr {s : State} {fn : Nat} {c : Context} (hc : s.ctx? (s.fn fn).frctx.toNat = some c) :
    s.bar0Read fn 0x1148 8 = leBytes 8 (if fn = 0 ∨ c.owner = fn then c.fwr else 0) := by
  refine bar0Read_own_register ?_
  by_cases h : fn = 0 ∨ c.owner = fn <;> simp [ownMap, hc, h, Option.filter]

/-- The zero field of a command slot reads 0. -/
theorem Function.slotsView_zero (f : Function) {k j : Nat} (hk : k < 64) (hj : j = 6 ∨ j = 7) :
    f.slotsView.getD (64 * k + j) 0 = 0 := by
  have hlt : 64 * k + j < f.slotsView.length := by rw [slotsView_length]; omega
  have hmod : (64 * k + j) % 64 = j := by omega
  rw [List.getD_eq_getElem?_getD, List.getElem?_eq_getElem hlt, Option.getD_some]
  simp [slotsView, hmod, hj]

theorem State.bar0Read_slot_zero (s : State) (fn : Nat) {k : Nat} (hk : k < 64) :
    s.bar0Read fn (0x8000 + 64 * k + 6) 2 = [0, 0] := by
  have hown : (0x8000, (s.fn fn).slotsView) ∈ s.ownMap fn := by simp [ownMap]
  rw [Nat.add_assoc, bar0Read_own hown (by rw [Function.slotsView_length]; omega)]
  change [(s.fn fn).slotsView.getD (64 * k + 6) 0, (s.fn fn).slotsView.getD (64 * k + 7) 0] = _
  rw [Function.slotsView_zero _ hk (.inl rfl), Function.slotsView_zero _ hk (.inr rfl)]

/-- Settles O50: with no earlier write in the way, each register event is one call of `State.bar0Write`, and each read finds the
function's own registers. -/
theorem registerWrites : Obligations.RegisterWrites := by
  intro s fn hup hposted hpasids hheld f sets
  have h : s.WritesAtOnce fn := ⟨hup, hposted, hpasids, hheld⟩
  refine ⟨?migtail, ?abase, ?tistat, ?ticmd, ?frdw, ?sctail, ?errrd, ?clrd, ?bytes, ?tireq, ?tidone, ?tistatRead, ?frctx,
    ?fault, ?slot⟩
  case migtail => exact fun v => reg64_happens h rfl (by rw [State.bar0Write_migtail]; exact s.migTail_setsFn fn v)
  case abase => exact fun v => reg64_happens h rfl (by rw [State.bar0Write_abase]; exact s.setAbase_setsFn fn v)
  case tistat => exact fun v => reg64_happens h rfl (by rw [State.bar0Write_tistat]; exact s.setsFn_setFn fn _)
  case ticmd =>
    intro raw i hi kind tag malformed mine asked
    have hbad : malformed ↔ ticmdBad raw.toNat = true := (ticmdBad_iff _).symm
    have hmine : mine ↔ s.ticmdDenied fn raw.toNat = false := (s.ticmdDenied_iff fn _).symm
    simp only [hbad, hmine, Bool.not_eq_true, Bool.not_eq_false]
    exact ⟨fun hb hm => ticmd_happens h hi (s.ticmd_setsFn fn _ hb hm),
      fun hb hm => ticmd_happens h hi (s.ticmd_setsFn fn _ hb hm),
      fun hb hm => ticmd_happens h hi (s.ticmd_setsFn fn _ hb hm),
      fun hb hm => ticmd_happens h hi ⟨s.ticmd_setsFn fn _ hb hm, s.ticmd_awaits fn _⟩⟩
  case frdw => exact fun v c hc => reg64_happens h rfl (by rw [State.bar0Write_frdw]; exact State.frdWrite_ctx hc)
  case sctail =>
    intro v hlo hhi
    refine reg64_happens h rfl ?_
    rw [State.bar0Write_sctail]
    exact ⟨State.submit_sctail hlo hhi, fun i hidle hbusy hrest hfn hlt hi =>
      State.submit_takes hlo hhi hup hidle hbusy hrest hfn hlt hi⟩
  case errrd =>
    rintro rfl v hlo hhi
    exact reg64_happens h rfl (by rw [State.bar0Write_errrd]; exact State.errRead_moves hlo hhi)
  case clrd =>
    rintro rfl v hlo hhi
    exact reg64_happens h rfl (by rw [State.bar0Write_clrd]; exact State.clRead_moves hlo hhi)
  case bytes =>
    intro off d _
    refine ⟨?power, fun hlo hhi => ?slots, fun hlo hhi => ?staging⟩
    case power =>
      rintro rfl hlo hhi
      refine registerWrite_happens h ?_
      rw [State.bar0Write_power s hlo hhi]
      exact ⟨rfl, NMap.find?_insertBytes_area d s.power.pending hlo⟩
    case slots =>
      refine registerWrite_happens h ?_
      rw [State.bar0Write_slots s fn hlo hhi]
      exact ⟨_, s.setsFn_setFn fn _, Memory.read_writeN_area _ hlo d⟩
    case staging =>
      refine registerWrite_happens h ?_
      rw [State.bar0Write_staging s fn hlo hhi]
      exact ⟨_, s.setsFn_setFn fn _, Memory.read_writeN_area _ hlo d⟩
  case tireq => exact State.bar0Read_own_register (by simp [State.ownMap, f])
  case tidone => exact State.bar0Read_own_register (by simp [State.ownMap, f])
  case tistatRead => exact State.bar0Read_own_register (by simp [State.ownMap, f])
  case frctx => exact State.bar0Read_own_register (by simp [State.ownMap, f])
  case fault => exact fun c hc => ⟨State.bar0Read_fwr hc, State.bar0Read_own_register (by simp [State.ownMap, hc, f])⟩
  case slot => exact fun k hk => s.bar0Read_slot_zero fn hk

end Sys2Proof.Machine
end

/-! # Rounding to a format (04 R66, R67)

A format's codes, taken as if its exponents went on above the largest, have magnitudes a fixed step apart between two powers of two
(`Fmt.codeVal_code`). Rounding to one of them is rounding to an integer number of such steps (`codeRounds_of_intRounds`), which is
what `roundDiv` does (`intRounds_roundDiv`); R67 then replaces the codes above the largest finite one. -/
section
namespace Sys2Proof.Machine

/-! ## Powers of two -/

theorem two_pow_cast_pos (n : Nat) : (0 : Rat) < (2 ^ n : Nat) := Rat.natCast_pos.mpr (Nat.two_pow_pos n)

theorem two_pow_succ_cast (n : Nat) : ((2 ^ (n + 1) : Nat) : Rat) = (2 ^ n : Nat) * 2 := by
  rw [Nat.pow_succ, Rat.natCast_mul]
  rfl

theorem two_pow_mod_two {n : Nat} (hn : 1 ≤ n) : 2 ^ n % 2 = 0 := by
  obtain ⟨m, rfl⟩ := Nat.exists_eq_add_of_le' hn
  rw [Nat.pow_succ, Nat.mul_mod_left]

theorem pow2_natCast (n : Nat) : pow2 n = (2 ^ n : Nat) := by
  rw [pow2, if_pos (Int.natCast_nonneg n), Int.toNat_natCast]

theorem pow2_neg_natCast (n : Nat) : pow2 (-n) = 1 / (2 ^ n : Nat) := by
  cases n with
  | zero => decide +kernel
  | succ n => rw [pow2, if_neg (by omega), Int.neg_neg, Int.toNat_natCast]

theorem pow2_pos (e : Int) : 0 < pow2 e := by
  rcases Int.eq_nat_or_neg e with ⟨n, rfl | rfl⟩
  · rw [pow2_natCast]
    exact two_pow_cast_pos n
  · rw [pow2_neg_natCast, Rat.lt_div_iff (two_pow_cast_pos n), Rat.zero_mul]
    decide

theorem pow2_add_one (e : Int) : pow2 (e + 1) = pow2 e * 2 := by
  match e with
  | .ofNat n => exact (pow2_natCast (n + 1)).trans ((two_pow_succ_cast n).trans (by rw [Int.ofNat_eq_natCast, pow2_natCast]))
  | .negSucc n =>
    have hpos := two_pow_cast_pos n
    have hsucc := two_pow_succ_cast n
    rw [show Int.negSucc n + 1 = -(n : Int) by omega, show Int.negSucc n = -((n + 1 : Nat) : Int) by omega, pow2_neg_natCast,
      pow2_neg_natCast, hsucc]
    grind

theorem pow2_add_natCast (e : Int) (n : Nat) : pow2 (e + n) = pow2 e * pow2 n := by
  induction n with
  | zero => exact (congrArg pow2 (Int.add_zero e)).trans (Rat.mul_one (pow2 e)).symm
  | succ n ih => rw [Int.natCast_succ, ← Int.add_assoc, pow2_add_one, pow2_add_one, ih, Rat.mul_assoc]

theorem pow2_add (a b : Int) : pow2 (a + b) = pow2 a * pow2 b := by
  rcases Int.eq_nat_or_neg b with ⟨n, rfl | rfl⟩
  · exact pow2_add_natCast a n
  · have hsum := pow2_add_natCast (a + -n) n
    have hone := pow2_add_natCast (-n) n
    rw [Int.neg_add_cancel_right] at hsum
    rw [Int.add_left_neg, show pow2 0 = 1 from rfl] at hone
    grind

theorem pow2_le_pow2 {a b : Int} (h : a ≤ b) : pow2 a ≤ pow2 b := by
  obtain ⟨n, rfl⟩ := Int.le.dest h
  have hone : (1 : Rat) ≤ (2 ^ n : Nat) := by exact_mod_cast Nat.one_le_two_pow
  have hle := Rat.mul_le_mul_of_nonneg_left hone (Rat.le_of_lt (pow2_pos a))
  rwa [Rat.mul_one, ← pow2_natCast, ← pow2_add] at hle

/-! ## Rounding to an integer -/

theorem natCast_add_one_le {m n : Nat} (h : m < n) : (m : Rat) + 1 ≤ n := by exact_mod_cast h

theorem intRounds_natCast (mode : Rnd) (neg : Bool) (n : Nat) : IntRounds mode neg n n := by
  unfold IntRounds
  split
  · grind
  · split <;> grind

/-- A number rounds to no integer below an integer it is at least. -/
theorem IntRounds.ge {mode : Rnd} {neg : Bool} {a : Rat} {k n : Nat} (h : IntRounds mode neg a k) (hn : (n : Rat) ≤ a) :
    n ≤ k := by
  refine Nat.le_of_not_lt fun hlt => ?_
  have hstep := natCast_add_one_le hlt
  unfold IntRounds at h
  split at h
  · grind
  · split at h <;> grind

/-- A number rounds to no integer above an integer it is at most. -/
theorem IntRounds.le {mode : Rnd} {neg : Bool} {a : Rat} {k n : Nat} (h : IntRounds mode neg a k) (hn : a ≤ (n : Rat)) :
    k ≤ n := by
  refine Nat.le_of_not_lt fun hlt => ?_
  have hstep := natCast_add_one_le hlt
  unfold IntRounds at h
  split at h
  · grind
  · split at h <;> grind

/-- An integer less than a half away is the nearest. -/
theorem intRounds_nearest (neg : Bool) {a : Rat} {n : Nat} (habove : (n : Rat) - a < 1 / 2) (hbelow : a - n < 1 / 2) :
    IntRounds .rne neg a n := by
  rw [IntRounds, if_pos rfl]
  exact ⟨Rat.le_of_lt habove, Rat.le_of_lt hbelow, fun htie =>
    htie.elim (absurd · (Rat.ne_of_lt habove)) (absurd · (Rat.ne_of_lt hbelow))⟩

/-- What the comparison `half` that `roundsUp` takes says of a discarded part `d`. -/
def Discards (half : Nat) (d : Rat) : Prop :=
  match half with
  | 0 => 0 < d ∧ d < 1 / 2
  | 1 => 2 * d = 1
  | 2 => 1 / 2 < d ∧ d < 1
  | 3 => d = 0
  | _ => False

/-- The modes that round a magnitude of a sign down. -/
abbrev towardZero (mode : Rnd) (neg : Bool) : Prop := mode = .rtz ∨ (mode = .rdn ∧ neg = false) ∨ (mode = .rup ∧ neg = true)

/-- A directed mode rounds a discarded part up when it is not toward zero, however large the part is. -/
theorem roundsUp_directed {mode : Rnd} (hmode : mode ≠ .rne) (neg odd : Bool) {half : Nat} (hhalf : half ≠ 3) :
    roundsUp mode neg odd half = !decide (towardZero mode neg) := by
  cases mode <;> cases neg <;> simp_all [roundsUp]

/-- Between two integers, `roundsUp` chooses the one to round to. -/
theorem intRounds_roundsUp {mode : Rnd} {neg : Bool} {a : Rat} {k half : Nat} (h : Discards half (a - k)) :
    IntRounds mode neg a (if roundsUp mode neg (k % 2 = 1) half then k + 1 else k) := by
  by_cases h3 : half = 3
  case pos =>
    subst h3
    obtain rfl : a = k := by grind [show a - k = 0 from h]
    exact intRounds_natCast mode neg k
  have hcast := Rat.natCast_add k 1
  have hbetween : (k : Rat) < a ∧ a < k + 1 := by
    match half, h with
    | 0, ⟨hlo, hhi⟩ => constructor <;> grind
    | 1, h => constructor <;> grind [show 2 * (a - k) = 1 from h]
    | 2, ⟨hlo, hhi⟩ => constructor <;> grind
    | 3, _ => contradiction
  obtain ⟨hlo, hhi⟩ := hbetween
  by_cases hmode : mode = .rne
  case neg =>
    rw [roundsUp_directed hmode neg _ h3, IntRounds, if_neg hmode]
    by_cases hz : towardZero mode neg
    · rw [if_pos hz, decide_eq_true hz, if_neg Bool.noConfusion]
      exact ⟨Rat.le_of_lt hlo, hhi⟩
    · rw [if_neg hz, decide_eq_false hz, Bool.not_false, if_pos rfl, hcast]
      exact ⟨Rat.le_of_lt hhi, by grind⟩
  subst hmode
  match half, h with
  | 0, ⟨hlo, hhi⟩ => simpa [roundsUp] using intRounds_nearest neg (show (k : Rat) - a < 1 / 2 by grind) hhi
  | 1, h =>
    have h : 2 * (a - k) = 1 := h
    rw [IntRounds, if_pos rfl]
    rcases Nat.mod_two_eq_zero_or_one k with hk | hk
    · rw [if_neg (by simp [roundsUp, hk])]
      exact ⟨by grind, by grind, fun _ => hk⟩
    · rw [if_pos (by simp [roundsUp, hk]), hcast]
      exact ⟨by grind, by grind, fun _ => by omega⟩
  | 2, ⟨hlo, hhi⟩ =>
    have h : IntRounds .rne neg a (k + 1) := intRounds_nearest neg (by grind) (by grind)
    simpa [roundsUp] using h
  | 3, _ => contradiction

/-- The remainder of a division, compared with half the divisor as `roundDiv` compares it. -/
theorem discards_mod (m : Nat) {b : Nat} (hb : 0 < b) :
    Discards (if m % b = 0 then 3 else if 2 * (m % b) < b then 0 else if 2 * (m % b) = b then 1 else 2)
      ((m : Rat) / b - (m / b : Nat)) := by
  have hpos : (0 : Rat) < b := Rat.natCast_pos.mpr hb
  have hm : (m : Rat) = b * (m / b : Nat) + (m % b : Nat) := by exact_mod_cast (Nat.div_add_mod m b).symm
  have hd : (m : Rat) / b - (m / b : Nat) = (m % b : Nat) / b := by grind
  have hlt := Nat.mod_lt m hb
  rw [hd]
  generalize m % b = r at hlt
  by_cases h0 : r = 0
  · rw [if_pos h0, h0]
    exact (by grind : ((0 : Nat) : Rat) / b = 0)
  have hr : (0 : Rat) < r := Rat.natCast_pos.mpr (Nat.pos_of_ne_zero h0)
  have hr0 : (0 : Rat) < r / b := (Rat.lt_div_iff hpos).mpr (by rwa [Rat.zero_mul])
  rw [if_neg h0]
  by_cases h1 : 2 * r < b
  · have h1 : (2 : Rat) * r < b := by exact_mod_cast h1
    rw [if_pos ‹_›]
    exact ⟨hr0, (Rat.div_lt_iff hpos).mpr (by grind)⟩
  rw [if_neg h1]
  by_cases h2 : 2 * r = b
  · have h2 : (2 : Rat) * r = b := by exact_mod_cast h2
    rw [if_pos ‹_›]
    exact (by grind : 2 * ((r : Rat) / b) = 1)
  · have h2' : (b : Rat) < 2 * r := by exact_mod_cast (by omega : b < 2 * r)
    rw [if_neg h2]
    exact ⟨(Rat.lt_div_iff hpos).mpr (by grind), (Rat.div_lt_iff hpos).mpr (by rw [Rat.one_mul]; exact_mod_cast hlt)⟩

/-- A number of far fewer bits than are shifted out is less than a half of the last place. -/
theorem discards_tiny {m sh : Nat} (h : m.log2 + 3 < sh) :
    Discards (if m = 0 then 3 else 0) ((m : Rat) / (2 ^ sh : Nat) - (0 : Nat)) := by
  by_cases h0 : m = 0
  · rw [if_pos h0, h0]
    exact (by grind : ((0 : Nat) : Rat) / (2 ^ sh : Nat) - (0 : Nat) = 0)
  · have hm : m * 2 < 2 ^ sh := calc
      m * 2 < 2 ^ (m.log2 + 1) * 2 := Nat.mul_lt_mul_of_pos_right Nat.lt_log2_self Nat.two_pos
      _ = 2 ^ (m.log2 + 2) := (Nat.pow_succ ..).symm
      _ ≤ 2 ^ sh := Nat.pow_le_pow_right Nat.two_pos (by omega)
    have hm : (m : Rat) * 2 < (2 ^ sh : Nat) := by exact_mod_cast hm
    have hpos : (0 : Rat) < m := Rat.natCast_pos.mpr (Nat.pos_of_ne_zero h0)
    have hlo : (0 : Rat) < m / (2 ^ sh : Nat) := (Rat.lt_div_iff (two_pow_cast_pos sh)).mpr (by rwa [Rat.zero_mul])
    have hhi : (m : Rat) / (2 ^ sh : Nat) < 1 / 2 := (Rat.div_lt_iff (two_pow_cast_pos sh)).mpr (by grind)
    rw [if_neg h0]
    exact ⟨by grind, by grind⟩

/-- `roundDiv` rounds `m × 2^(e - q)` to an integer. -/
theorem intRounds_roundDiv (mode : Rnd) (neg : Bool) (m : Nat) (e q : Int) :
    IntRounds mode neg (m * pow2 (e - q)) (roundDiv mode neg m e q) := by
  rw [roundDiv]
  by_cases hq : q ≤ e
  · have hexact : (m : Rat) * pow2 (e - q) = (m * 2 ^ (e - q).toNat : Nat) := by
      rw [Rat.natCast_mul, ← pow2_natCast, Int.toNat_of_nonneg (by omega)]
    rw [if_pos hq, hexact]
    exact intRounds_natCast mode neg _
  · rw [if_neg hq]
    generalize hsh : (q - e).toNat = sh
    have ha : (m : Rat) * pow2 (e - q) = m / (2 ^ sh : Nat) := by
      rw [show e - q = -(sh : Int) by omega, pow2_neg_natCast]
      grind
    rw [ha]
    dsimp only
    split
    · next htiny =>
      have h := intRounds_roundsUp (mode := mode) (neg := neg) (discards_tiny htiny)
      exact h
    · exact intRounds_roundsUp (discards_mod m (Nat.two_pow_pos sh))

/-! ## The codes of a format -/

/-- What rounding asks of a format's fields: the largest finite code has a mantissa that is not zero, and the one NaN code of R57 is
0x7F. -/
structure Fmt.Regular (F : Fmt) : Prop where
  eb : 2 ≤ F.eb
  mb : 1 ≤ F.mb
  oneNan_mb : F.kind = .oneNan → 2 ≤ F.mb
  oneNan_width : F.kind = .oneNan → F.eb + F.mb = 7

theorem regular_of_mem_formats {F : Fmt} (hmem : F ∈ formats) : F.Regular where
  eb := by revert F; decide
  mb := by revert F; decide
  oneNan_mb := by revert F; decide
  oneNan_width := by revert F; decide

/-- The magnitude of a code, as if every exponent field were one of numbers and the exponents went on above the largest (04 R66). -/
def Fmt.codeVal (F : Fmt) (c : Nat) : Rat :=
  if c / 2 ^ F.mb = 0 then (c % 2 ^ F.mb : Nat) * pow2 F.minUlp
  else (2 ^ F.mb + c % 2 ^ F.mb : Nat) * pow2 ((c / 2 ^ F.mb : Nat) - F.bias - F.mb)

section Codes
variable {F : Fmt}

theorem Fmt.codeVal_subnormal {j : Nat} (hj : j < 2 ^ F.mb) : F.codeVal j = j * pow2 F.minUlp := by
  rw [codeVal, if_pos (Nat.div_eq_of_lt hj), Nat.mod_eq_of_lt hj]

theorem Fmt.codeVal_normal (f : Nat) {j : Nat} (hj : j < 2 ^ F.mb) :
    F.codeVal ((f + 1) * 2 ^ F.mb + j) = (2 ^ F.mb + j : Nat) * pow2 (F.minUlp + f) := by
  have hdiv : ((f + 1) * 2 ^ F.mb + j) / 2 ^ F.mb = f + 1 := by
    rw [Nat.add_comm, Nat.add_mul_div_right _ _ (Nat.two_pow_pos _), Nat.div_eq_of_lt hj, Nat.zero_add]
  have hexp : ((f + 1 : Nat) : Int) - F.bias - F.mb = F.minUlp + f := by rw [minUlp]; omega
  rw [codeVal, hdiv, if_neg f.succ_ne_zero, hexp, Nat.mul_add_mod_self_right, Nat.mod_eq_of_lt hj]

/-- A code is an exponent and a significand: `k` steps of the exponent `f` above the least, where `k` may be the power of two at
which the next exponent begins. -/
theorem Fmt.codeVal_code {f k : Nat} (hk : k ≤ 2 ^ (F.mb + 1)) (hf : f = 0 ∨ 2 ^ F.mb ≤ k) :
    F.codeVal (f * 2 ^ F.mb + k) = k * pow2 (F.minUlp + f) := by
  rcases Nat.lt_or_ge k (2 ^ F.mb) with hsub | hnormal
  · obtain rfl : f = 0 := by omega
    rw [Nat.zero_mul, Nat.zero_add, codeVal_subnormal hsub, Int.natCast_zero, Int.add_zero]
  obtain ⟨j, rfl⟩ := Nat.exists_eq_add_of_le hnormal
  have hj : j ≤ 2 ^ F.mb := by omega
  rcases Nat.lt_or_eq_of_le hj with hj | rfl
  · rw [← codeVal_normal f hj, Nat.succ_mul, Nat.add_assoc]
  · have hnext := codeVal_normal (F := F) (f + 1) (Nat.two_pow_pos F.mb)
    rw [Int.natCast_succ, ← Int.add_assoc, pow2_add_one] at hnext
    rw [← Nat.add_assoc, ← Nat.succ_mul, ← Nat.succ_mul, ← Nat.add_zero ((f + 1).succ * _)]
    refine hnext.trans ?_
    rw [Nat.add_zero, Rat.natCast_add]
    grind

theorem exists_code (mb c : Nat) : ∃ f k, c = f * 2 ^ mb + k ∧ k < 2 ^ (mb + 1) ∧ (f = 0 ∨ 2 ^ mb ≤ k) := by
  have hmod := Nat.mod_lt c (Nat.two_pow_pos mb)
  have hc := Nat.div_add_mod' c (2 ^ mb)
  rcases hd : c / 2 ^ mb with _ | f
  · rw [hd, Nat.zero_mul, Nat.zero_add] at hc
    exact ⟨0, c, by omega, by omega, .inl rfl⟩
  · rw [hd, Nat.succ_mul, Nat.add_assoc] at hc
    exact ⟨f, 2 ^ mb + c % 2 ^ mb, hc.symm, by omega, .inr (Nat.le_add_right ..)⟩

theorem Fmt.codeVal_lt_succ (F : Fmt) (c : Nat) : F.codeVal c < F.codeVal (c + 1) := by
  obtain ⟨f, k, rfl, hk, hf⟩ := exists_code F.mb c
  have hs := pow2_pos (F.minUlp + f)
  have hk1 := Rat.natCast_add k 1
  rw [Nat.add_assoc, codeVal_code (Nat.le_of_lt hk) hf, codeVal_code hk (by omega), hk1]
  grind

/-- The codes stand in the order of their magnitudes. -/
theorem Fmt.codeVal_lt (F : Fmt) {a b : Nat} (h : a < b) : F.codeVal a < F.codeVal b := by
  induction h with
  | refl => exact F.codeVal_lt_succ a
  | step _ ih => exact Std.lt_trans ih (F.codeVal_lt_succ _)

theorem Fmt.codeVal_le (F : Fmt) {a b : Nat} (h : a ≤ b) : F.codeVal a ≤ F.codeVal b := by
  rcases Nat.lt_or_eq_of_le h with h | rfl
  · exact Rat.le_of_lt (F.codeVal_lt h)
  · exact Rat.le_refl

theorem Fmt.le_of_codeVal_le (F : Fmt) {a b : Nat} (h : F.codeVal a ≤ F.codeVal b) : a ≤ b :=
  Nat.le_of_not_lt fun hlt => Rat.not_le.mpr (F.codeVal_lt hlt) h

/-- The next code above is a step away, or more. -/
theorem Fmt.codeVal_step_up {f k c : Nat} (hk : k ≤ 2 ^ (F.mb + 1)) (hf : f = 0 ∨ 2 ^ F.mb ≤ k) (hc : f * 2 ^ F.mb + k < c) :
    (k + 1) * pow2 (F.minUlp + f) ≤ F.codeVal c := by
  refine Rat.le_trans ?_ (F.codeVal_le hc)
  have hs := pow2_pos (F.minUlp + f)
  rcases Nat.lt_or_eq_of_le hk with hk | rfl
  · rw [Nat.succ_eq_add_one, Nat.add_assoc, codeVal_code (k := k + 1) hk (by omega), Rat.natCast_add]
    exact Rat.le_refl
  · have h1 : 1 ≤ 2 ^ F.mb := Nat.one_le_two_pow
    have hcode : (f * 2 ^ F.mb + 2 ^ (F.mb + 1)).succ = (f + 1) * 2 ^ F.mb + (2 ^ F.mb + 1) := by
      rw [Nat.succ_mul, Nat.pow_succ]
      omega
    rw [hcode, codeVal_code (by omega) (by omega), Int.natCast_succ, ← Int.add_assoc, pow2_add_one, Rat.natCast_add,
      two_pow_succ_cast]
    grind

/-- The next code below is a step away, unless the code is the least of its exponent. -/
theorem Fmt.codeVal_step_down {f k c : Nat} (hk : k ≤ 2 ^ (F.mb + 1)) (hf : f = 0 ∨ 2 ^ F.mb < k) (hc : c < f * 2 ^ F.mb + k) :
    F.codeVal c ≤ (k - 1) * pow2 (F.minUlp + f) := by
  obtain ⟨j, rfl⟩ : ∃ j, k = j + 1 := Nat.exists_eq_succ_of_ne_zero (by rintro rfl; simp_all)
  have hj := codeVal_code (F := F) (f := f) (k := j) (by omega) (by omega)
  have hsub : ((j + 1 : Nat) : Rat) - 1 = j := by rw [Rat.natCast_add]; exact Rat.add_sub_cancel
  rw [hsub, ← hj]
  exact F.codeVal_le (Nat.le_of_lt_succ hc)

/-! ## The largest finite code -/

/-- The largest finite code is of the last exponent field of numbers, and its mantissa is not zero: all ones, or with the last bit
clear where all ones is the NaN. -/
theorem Fmt.maxBits_fields (hF : F.Regular) :
    1 ≤ F.maxField ∧ F.maxField < 2 ^ F.eb ∧ 1 ≤ F.maxMan ∧ F.maxMan < 2 ^ F.mb ∧ (F.maxMan % 2 = 0 ↔ F.kind = .oneNan) := by
  have heb : 2 ^ 2 ≤ 2 ^ F.eb := Nat.pow_le_pow_right Nat.two_pos hF.eb
  have hmb : 2 ^ 1 ≤ 2 ^ F.mb := Nat.pow_le_pow_right Nat.two_pos hF.mb
  have heven := two_pow_mod_two hF.mb
  rw [maxField, maxMan]
  cases hkind : F.kind
  case oneNan =>
    have : 2 ^ 2 ≤ 2 ^ F.mb := Nat.pow_le_pow_right Nat.two_pos (hF.oneNan_mb hkind)
    simp only [reduceCtorEq, if_false, if_true, iff_true]
    omega
  all_goals
    simp only [reduceCtorEq, if_false, if_true, iff_false]
    omega

theorem Fmt.maxBits_lt (hF : F.Regular) : F.maxBits < 2 ^ (F.eb + F.mb) := by
  obtain ⟨-, hfield, -, hman, -⟩ := maxBits_fields hF
  calc F.maxBits < F.maxField * 2 ^ F.mb + 2 ^ F.mb := Nat.add_lt_add_left hman _
    _ = (F.maxField + 1) * 2 ^ F.mb := (Nat.succ_mul ..).symm
    _ ≤ 2 ^ F.eb * 2 ^ F.mb := Nat.mul_le_mul_right _ hfield
    _ = 2 ^ (F.eb + F.mb) := (Nat.pow_add ..).symm

theorem code_mod_two {mb : Nat} (hmb : 1 ≤ mb) (f k : Nat) : (f * 2 ^ mb + k) % 2 = k % 2 := by
  rw [Nat.add_mod, Nat.mul_mod, two_pow_mod_two hmb, Nat.mul_zero, Nat.zero_mod, Nat.zero_add, Nat.mod_mod]

theorem Fmt.maxBits_mod_two (hF : F.Regular) : F.maxBits % 2 = 0 ↔ F.kind = .oneNan := by
  obtain ⟨-, -, -, -, hodd⟩ := maxBits_fields hF
  rw [← hodd, maxBits, code_mod_two hF.mb]

/-- The last finite step and the step beyond it are equal, so half of one is half of the other. -/
theorem Fmt.codeVal_maxBits_succ (hF : F.Regular) :
    F.codeVal (F.maxBits + 1) - F.codeVal F.maxBits = F.codeVal F.maxBits - F.codeVal (F.maxBits - 1) := by
  obtain ⟨hfield, -, hman, hman', -⟩ := maxBits_fields hF
  obtain ⟨f, hf⟩ := Nat.exists_eq_add_of_le' hfield
  obtain ⟨k, hk⟩ := Nat.exists_eq_add_of_le' hman
  have hbits : F.maxBits = f * 2 ^ F.mb + (2 ^ F.mb + k + 1) := by
    rw [maxBits, hf, hk, Nat.succ_mul, Nat.add_assoc, Nat.add_assoc]
  have habove : F.maxBits + 1 = f * 2 ^ F.mb + (2 ^ F.mb + k + 2) := by rw [hbits]; rfl
  have hbelow : F.maxBits - 1 = f * 2 ^ F.mb + (2 ^ F.mb + k) := by rw [hbits]; rfl
  rw [habove, hbelow, hbits, codeVal_code, codeVal_code, codeVal_code]
  · have hadd := Rat.natCast_add (2 ^ F.mb + k)
    rw [hadd 1, hadd 2]
    grind
  all_goals omega

/-- Up to the largest finite code stand neither the exponent field of infinities and NaNs, nor the one NaN's code. -/
theorem Fmt.finite_of_le_maxBits (hF : F.Regular) {c : Nat} (hc : c ≤ F.maxBits) :
    ¬ (F.kind = .ieee ∧ c / 2 ^ F.mb = 2 ^ F.eb - 1) ∧
    ¬ (F.kind = .oneNan ∧ c / 2 ^ F.mb = 2 ^ F.eb - 1 ∧ c % 2 ^ F.mb = 2 ^ F.mb - 1) := by
  obtain ⟨hfield, -, hman, hman', -⟩ := maxBits_fields hF
  have hmod := Nat.div_add_mod' c (2 ^ F.mb)
  constructor
  · rintro ⟨hkind, htop⟩
    have hle : c / 2 ^ F.mb ≤ F.maxField := by
      rw [← Nat.lt_succ_iff, Nat.div_lt_iff_lt_mul (Nat.two_pow_pos _), Nat.succ_mul]
      exact Nat.lt_of_le_of_lt hc (Nat.add_lt_add_left hman' _)
    rw [htop, maxField, if_pos hkind] at hle
    rw [maxField, if_pos hkind] at hfield
    omega
  · rintro ⟨hkind, htop, hones⟩
    rw [htop, hones] at hmod
    rw [maxBits, maxField, maxMan, if_neg (by simp [hkind]), if_pos hkind] at hc
    rw [maxMan, if_pos hkind] at hman
    generalize (2 ^ F.eb - 1) * 2 ^ F.mb = top at hmod hc
    omega

theorem FV.rat_fin_false (m : Nat) (e : Int) : (FV.fin false m e).rat = m * pow2 e :=
  congrArg (· * pow2 e) (Rat.one_mul (m : Rat))

/-- Up to the largest finite one, the codes are the numbers of the format. -/
theorem Fmt.rat_decode (hF : F.Regular) {c : Nat} (hc : c ≤ F.maxBits) : (F.decode c).rat = F.codeVal c := by
  have hlt := Nat.lt_of_le_of_lt hc (maxBits_lt hF)
  have hman : bitsAt c 0 F.mb = c % 2 ^ F.mb := by rw [bitsAt, Nat.pow_zero, Nat.div_one]
  have hex : bitsAt c F.mb F.eb = c / 2 ^ F.mb :=
    Nat.mod_eq_of_lt ((Nat.div_lt_iff_lt_mul (Nat.two_pow_pos _)).mpr (by rwa [← Nat.pow_add]))
  obtain ⟨hieee, hnan⟩ := finite_of_le_maxBits hF hc
  rw [decode, codeVal, hman, hex, Nat.testBit_lt_two_pow hlt]
  by_cases hsub : c / 2 ^ F.mb = 0
  · rw [if_pos hsub, if_pos hsub, FV.rat_fin_false]
  · have hfield : ¬ (decide (F.kind = .ieee) && decide (c / 2 ^ F.mb = 2 ^ F.eb - 1)) = true := by
      rwa [Bool.and_eq_true, decide_eq_true_iff, decide_eq_true_iff]
    have hcode : ¬ (decide (F.kind = .oneNan) && decide (c / 2 ^ F.mb = 2 ^ F.eb - 1) &&
        decide (c % 2 ^ F.mb = 2 ^ F.mb - 1)) = true := by
      rwa [Bool.and_eq_true, Bool.and_eq_true, decide_eq_true_iff, decide_eq_true_iff, decide_eq_true_iff, and_assoc]
    rw [if_neg hsub, if_neg hsub, if_neg hfield, if_neg hcode, FV.rat_fin_false]

/-! ## Rounding to a code -/

/-- `c` is the code to which a magnitude `a` rounds, were the exponents unbounded above (04 R66): the nearest code, the even one
of two; or the nearest that is not above, or not below. -/
def Fmt.CodeRounds (F : Fmt) (mode : Rnd) (neg : Bool) (a : Rat) (c : Nat) : Prop :=
  if mode = .rne then ∀ c', c' ≠ c →
    let mid := (F.codeVal c + F.codeVal c') / 2
    (if c' < c then mid ≤ a else a ≤ mid) ∧ (mid = a → c % 2 = 0)
  else if towardZero mode neg then F.codeVal c ≤ a ∧ ∀ c', F.codeVal c' ≤ a → c' ≤ c
  else a ≤ F.codeVal c ∧ ∀ c', a ≤ F.codeVal c' → c ≤ c'

section CodeRounds
variable {mode : Rnd} {neg : Bool} {a : Rat} {c : Nat}

/-- A code that a magnitude rounds to is at least any code the magnitude is at least. -/
theorem Fmt.CodeRounds.ge {n : Nat} (h : F.CodeRounds mode neg a c) (hn : F.codeVal n ≤ a) : n ≤ c := by
  unfold CodeRounds at h
  split at h
  · refine Nat.le_of_not_lt fun hlt => ?_
    have hmid := (h n (by omega)).1
    rw [if_neg (by omega)] at hmid
    have := F.codeVal_lt hlt
    grind
  · split at h
    · exact h.2 n hn
    · exact F.le_of_codeVal_le (Rat.le_trans hn h.1)

/-- A code that a magnitude rounds to is at most any code the magnitude is at most. -/
theorem Fmt.CodeRounds.le {n : Nat} (h : F.CodeRounds mode neg a c) (hn : a ≤ F.codeVal n) : c ≤ n := by
  unfold CodeRounds at h
  split at h
  · refine Nat.le_of_not_lt fun hlt => ?_
    have hmid := (h n (by omega)).1
    rw [if_pos (by omega)] at hmid
    have := F.codeVal_lt hlt
    grind
  · split at h
    · exact F.le_of_codeVal_le (Rat.le_trans h.1 hn)
    · exact h.2 n hn

section Steps
variable {f k : Nat} {r : Rat}

/-- A code below the one `r` steps round to is a step away, unless the `r` steps are not below that one. -/
theorem Fmt.codeVal_below (hk : k ≤ 2 ^ (F.mb + 1)) (hf : f = 0 ∨ 2 ^ F.mb ≤ k) (hlo : f = 0 ∨ (2 ^ F.mb : Nat) ≤ r)
    (hc : c < f * 2 ^ F.mb + k) :
    F.codeVal c ≤ (k - 1) * pow2 (F.minUlp + f) ∨ (F.codeVal c < k * pow2 (F.minUlp + f) ∧ k ≤ r) := by
  by_cases hleast : f = 0 ∨ 2 ^ F.mb < k
  · exact .inl (codeVal_step_down hk hleast hc)
  · obtain ⟨hf0, hkmb⟩ := not_or.mp hleast
    exact .inr ⟨codeVal_code hk hf ▸ F.codeVal_lt hc,
      Rat.le_trans (Rat.natCast_le_natCast.mpr (Nat.le_of_not_lt hkmb)) (hlo.resolve_left hf0)⟩

/-- RNE: the codes beside the nearest number of steps are a step away or more, so their midpoints are half a step away. -/
theorem Fmt.codeRounds_rne (hmb : 1 ≤ F.mb) (h : IntRounds .rne neg r k)
    (hlo : f = 0 ∨ (2 ^ F.mb : Nat) ≤ r) (hhi : r ≤ (2 ^ (F.mb + 1) : Nat)) :
    F.CodeRounds .rne neg (r * pow2 (F.minUlp + f)) (f * 2 ^ F.mb + k) := by
  have hk := h.le hhi
  have hf := hlo.imp_right h.ge
  have hs := pow2_pos (F.minUlp + f)
  rw [IntRounds, if_pos rfl] at h
  obtain ⟨habove, hbelow, htie⟩ := h
  rw [CodeRounds, if_pos rfl, codeVal_code hk hf]
  intro c' hne
  dsimp only
  rw [code_mod_two hmb]
  rcases Nat.lt_or_gt_of_ne hne with hlt | hgt
  · rw [if_pos hlt]
    rcases codeVal_below hk hf hlo hlt with hstep | ⟨hlt, hr⟩
    · have hmid := Rat.mul_le_mul_of_nonneg_right (show (k : Rat) - 1 / 2 ≤ r by grind) (Rat.le_of_lt hs)
      refine ⟨by grind, fun heq => htie (.inl (Rat.le_antisymm habove ?_))⟩
      have : r ≤ k - 1 / 2 := Rat.le_of_mul_le_mul_right (by grind) hs
      grind
    · have hkr := Rat.mul_le_mul_of_nonneg_right hr (Rat.le_of_lt hs)
      exact ⟨by grind, fun heq => absurd heq (Rat.ne_of_lt (by grind))⟩
  · rw [if_neg (Nat.not_lt_of_gt hgt)]
    have hstep := codeVal_step_up hk hf hgt
    have hmid := Rat.mul_le_mul_of_nonneg_right (show r ≤ (k : Rat) + 1 / 2 by grind) (Rat.le_of_lt hs)
    refine ⟨by grind, fun heq => htie (.inr (Rat.le_antisymm hbelow ?_))⟩
    have : (k : Rat) + 1 / 2 ≤ r := Rat.le_of_mul_le_mul_right (by grind) hs
    grind

/-- The directed modes: the next code on the magnitude's side is a step away or more, so it is beyond the magnitude. -/
theorem Fmt.codeRounds_directed (hmode : mode ≠ .rne) (h : IntRounds mode neg r k)
    (hlo : f = 0 ∨ (2 ^ F.mb : Nat) ≤ r) (hhi : r ≤ (2 ^ (F.mb + 1) : Nat)) :
    F.CodeRounds mode neg (r * pow2 (F.minUlp + f)) (f * 2 ^ F.mb + k) := by
  have hk := h.le hhi
  have hf := hlo.imp_right h.ge
  have hs := pow2_pos (F.minUlp + f)
  rw [IntRounds, if_neg hmode] at h
  rw [CodeRounds, if_neg hmode, codeVal_code hk hf]
  by_cases hzero : towardZero mode neg
  · rw [if_pos hzero] at h ⊢
    obtain ⟨hle, hlt⟩ := h
    refine ⟨Rat.mul_le_mul_of_nonneg_right hle (Rat.le_of_lt hs), fun c' hc' => Nat.le_of_not_lt fun hgt => ?_⟩
    have := codeVal_step_up hk hf hgt
    have := Rat.mul_lt_mul_of_pos_right hlt hs
    grind
  · rw [if_neg hzero] at h ⊢
    obtain ⟨hge, hlt⟩ := h
    refine ⟨Rat.mul_le_mul_of_nonneg_right hge (Rat.le_of_lt hs), fun c' hc' => Nat.le_of_not_lt fun hbelow => ?_⟩
    rcases codeVal_below hk hf hlo hbelow with hstep | ⟨hlt', hr⟩
    · have := Rat.mul_lt_mul_of_pos_right hlt hs
      grind
    · have := Rat.mul_le_mul_of_nonneg_right hr (Rat.le_of_lt hs)
      grind

/-- A magnitude of the exponent `f` rounds to the code of the number of steps it rounds to. -/
theorem Fmt.codeRounds_of_intRounds (hmb : 1 ≤ F.mb) (h : IntRounds mode neg r k)
    (hlo : f = 0 ∨ (2 ^ F.mb : Nat) ≤ r) (hhi : r ≤ (2 ^ (F.mb + 1) : Nat)) :
    F.CodeRounds mode neg (r * pow2 (F.minUlp + f)) (f * 2 ^ F.mb + k) := by
  by_cases hmode : mode = .rne
  · subst hmode
    exact codeRounds_rne hmb h hlo hhi
  · exact codeRounds_directed hmode h hlo hhi

end Steps

/-- A nonzero number `m × 2^e` counted in steps of its own exponent, as `Fmt.round` counts it: no more than the next exponent begins
at, and no fewer than this one does, except below the least normal one. -/
theorem Fmt.steps_bounds (F : Fmt) {m : Nat} (hm : m ≠ 0) (e : Int) :
    let q := max (m.log2 + e - F.mb) F.minUlp
    ((q - F.minUlp).toNat = 0 ∨ (2 ^ F.mb : Nat) ≤ (m : Rat) * pow2 (e - q)) ∧
      (m : Rat) * pow2 (e - q) ≤ (2 ^ (F.mb + 1) : Nat) := by
  intro q
  have hs := Rat.le_of_lt (pow2_pos (e - q))
  constructor
  · by_cases hq : (q - F.minUlp).toNat = 0
    · exact .inl hq
    right
    have hlo : pow2 m.log2 ≤ m := by
      rw [pow2_natCast]
      exact Rat.natCast_le_natCast.mpr (Nat.log2_self_le hm)
    calc ((2 ^ F.mb : Nat) : Rat) = pow2 (m.log2 + (e - q)) := by
          rw [← pow2_natCast, show (F.mb : Int) = m.log2 + (e - q) by omega]
      _ = pow2 m.log2 * pow2 (e - q) := pow2_add _ _
      _ ≤ m * pow2 (e - q) := Rat.mul_le_mul_of_nonneg_right hlo hs
  · have hhi : (m : Rat) ≤ pow2 (m.log2 + 1 : Nat) := by
      rw [pow2_natCast]
      exact Rat.natCast_le_natCast.mpr (Nat.le_of_lt Nat.lt_log2_self)
    calc (m : Rat) * pow2 (e - q) ≤ pow2 (m.log2 + 1 : Nat) * pow2 (e - q) := Rat.mul_le_mul_of_nonneg_right hhi hs
      _ = pow2 ((m.log2 + 1 : Nat) + (e - q)) := (pow2_add _ _).symm
      _ ≤ pow2 (F.mb + 1 : Nat) := pow2_le_pow2 (by omega)
      _ = (2 ^ (F.mb + 1) : Nat) := pow2_natCast _

/-- The code of a nonzero number, unless it is above the largest: the number of steps it rounds to, after those of the exponents
below its own. -/
theorem Fmt.round_nonzero (mode : Rnd) (sat neg : Bool) {m : Nat} (hm : m ≠ 0) (e : Int) :
    let q := max (m.log2 + e - F.mb) F.minUlp
    let c := (q - F.minUlp).toNat * 2 ^ F.mb + roundDiv mode neg m e q
    F.round mode sat (.fin neg m e) = if F.maxBits < c then F.overflow mode sat neg else F.signBit neg + c := by
  intro q c
  obtain ⟨n, rfl⟩ := Nat.exists_eq_succ_of_ne_zero hm
  have hmag : (if (q - F.minUlp).toNat = 0 then roundDiv mode neg n.succ e q else c) = c := by
    split
    · next h0 => simp [c, h0]
    · rfl
  change (let mag := if (q - F.minUlp).toNat = 0 then roundDiv mode neg n.succ e q else c
    if F.maxBits < mag then _ else F.signBit neg + mag) = _
  rw [hmag]

/-- R66 of a finite number: the code `Fmt.round` finds before it looks for overflow. -/
theorem Fmt.round_fin (hmb : 1 ≤ F.mb) (mode : Rnd) (sat neg : Bool) (m : Nat) (e : Int) :
    ∃ c, F.CodeRounds mode neg (m * pow2 e) c ∧
      F.round mode sat (.fin neg m e) = if F.maxBits < c then F.overflow mode sat neg else F.signBit neg + c := by
  match m with
  | 0 =>
    have h := codeRounds_of_intRounds (f := 0) hmb (intRounds_natCast mode neg 0) (.inl rfl)
      (Rat.le_of_lt (two_pow_cast_pos _))
    have hzero : ((0 : Nat) : Rat) = 0 := rfl
    rw [hzero, Rat.zero_mul, Nat.zero_mul] at h
    refine ⟨0, ?_, rfl⟩
    rwa [hzero, Rat.zero_mul]
  | m + 1 =>
    obtain ⟨hlo, hhi⟩ := F.steps_bounds m.succ_ne_zero e
    have h := codeRounds_of_intRounds hmb (intRounds_roundDiv mode neg (m + 1) e _) hlo hhi
    have hexp (q : Int) : e - q + (F.minUlp + (q - F.minUlp)) = e := by omega
    rw [Rat.mul_assoc, ← pow2_add, Int.toNat_of_nonneg (by omega), hexp] at h
    exact ⟨_, h, round_nonzero mode sat neg m.succ_ne_zero e⟩

end CodeRounds

/-! ## Overflow (04 R67) -/

/-- Where an overflow is the largest finite value: with `.SAT`, in the formats that have neither infinities nor a NaN, and under the
modes toward zero. -/
abbrev Fmt.LargestOnOverflow (F : Fmt) (mode : Rnd) (sat neg : Bool) : Prop :=
  sat = true ∨ F.kind = .noNan ∨ towardZero mode neg

theorem Fmt.overflow_largest {mode : Rnd} {sat neg : Bool} (h : F.LargestOnOverflow mode sat neg) :
    F.overflow mode sat neg = F.signBit neg + F.maxBits := by
  rcases h with rfl | hkind | rfl | ⟨rfl, rfl⟩ | ⟨rfl, rfl⟩
  · rfl
  · cases mode <;> simp [overflow, hkind]
  all_goals simp [overflow]

theorem Fmt.overflow_infinite {mode : Rnd} {sat neg : Bool} (h : ¬ F.LargestOnOverflow mode sat neg) :
    F.overflow mode sat neg = F.infinite false neg := by
  obtain ⟨hsat, -, hzero⟩ : sat = false ∧ F.kind ≠ .noNan ∧ ¬ towardZero mode neg := by
    simpa only [not_or, Bool.not_eq_true] using h
  clear h
  subst hsat
  match mode, neg, hzero with
  | .rne, _, _ | .rdn, true, _ | .rup, false, _ => rfl
  | .rtz, _, hzero | .rdn, false, hzero | .rup, true, hzero => simp at hzero

theorem Fmt.infinite_ieee (hkind : F.kind = .ieee) (neg : Bool) : F.infinite false neg = F.signBit neg + F.infBits := by
  simp [infinite, overflow, hkind]

theorem Fmt.infinite_oneNan (hF : F.Regular) (hkind : F.kind = .oneNan) (neg : Bool) : F.infinite false neg = 0x7F := by
  simp [infinite, overflow, qnan, hkind, hF.oneNan_width hkind]

/-- The outcome of overflow is that of the table of 04 R67. -/
theorem Fmt.overflows_overflow (hF : F.Regular) (mode : Rnd) (sat neg : Bool) :
    Overflows F mode sat neg (F.overflow mode sat neg) :=
  ⟨overflow_largest, fun h hkind => (overflow_infinite h).trans (infinite_ieee hkind neg),
    fun h hkind => (overflow_infinite h).trans (infinite_oneNan hF hkind neg)⟩

/-- Under the modes toward zero, the largest finite code is the outcome of overflow. -/
theorem Fmt.overflows_maxBits {mode : Rnd} {neg : Bool} (h : towardZero mode neg) (sat : Bool) :
    Overflows F mode sat neg (F.signBit neg + F.maxBits) :=
  have hmax : F.LargestOnOverflow mode sat neg := .inr (.inr h)
  ⟨fun _ => rfl, absurd hmax, absurd hmax⟩

/-- The halfway point between the largest finite value and the step beyond it: RNE keeps it where the largest is even. -/
theorem Fmt.CodeRounds.past_iff (hF : F.Regular) {neg : Bool} {a : Rat} {c : Nat} (h : F.CodeRounds .rne neg a c)
    (ha : F.codeVal F.maxBits < a) {half : Rat}
    (hhalf : half = F.codeVal F.maxBits + (F.codeVal F.maxBits - F.codeVal (F.maxBits - 1)) / 2) :
    F.maxBits < c ↔ if F.kind = .oneNan then half < a else half ≤ a := by
  have hle := h.ge (Rat.le_of_lt ha)
  have hkind := maxBits_mod_two hF
  rw [CodeRounds, if_pos rfl] at h
  rw [← codeVal_maxBits_succ hF] at hhalf
  rcases Nat.lt_or_eq_of_le hle with hlt | rfl
  · -- It goes beyond: the number is not below the halfway point, and at it only if the step beyond is even.
    obtain ⟨hmid, htie⟩ := h F.maxBits (Nat.ne_of_lt hlt)
    rw [if_pos hlt] at hmid
    have hstep := F.codeVal_le hlt
    refine iff_of_true hlt ?_
    split
    · next hnan =>
      refine Rat.lt_of_le_of_ne (by grind) fun heq => ?_
      have hsucc : c ≤ F.maxBits + 1 := F.le_of_codeVal_le (by grind)
      have heven := htie (Rat.le_antisymm hmid (by grind))
      have := hkind.mpr hnan
      omega
    · grind
  · -- It stays at the largest: the number is not above the halfway point, and at it only if the largest is even.
    obtain ⟨hmid, htie⟩ := h (F.maxBits + 1) (by omega)
    rw [if_neg (by omega)] at hmid
    rw [show (F.codeVal F.maxBits + F.codeVal (F.maxBits + 1)) / 2 = half by grind] at hmid htie
    refine iff_of_false (Nat.lt_irrefl _) ?_
    split
    · exact Rat.not_lt.mpr hmid
    · next hnan => exact fun hge => hnan (hkind.mp (htie (Rat.le_antisymm hge hmid)))

/-- R67 after R66: of the code that a magnitude rounds to with the exponents unbounded, those above the largest are replaced. -/
theorem Fmt.rounds_of_codeRounds (hF : F.Regular) {mode : Rnd} {neg : Bool} {a : Rat} {c : Nat} (sat : Bool)
    (h : F.CodeRounds mode neg a c) :
    Rounds F mode sat neg (· < a) (· ≤ a) (if F.maxBits < c then F.overflow mode sat neg else F.signBit neg + c) := by
  have hmax : (F.decode F.maxBits).rat = F.codeVal F.maxBits := rat_decode hF (Nat.le_refl _)
  have hprev : (F.decode (F.maxBits - 1)).rat = F.codeVal (F.maxBits - 1) := rat_decode hF (Nat.sub_le ..)
  rw [Rounds]
  dsimp only
  refine ⟨fun hle => ?within, fun hlt => ?beyond⟩
  case within =>
    rw [hmax, Rat.not_lt] at hle
    have hc := h.le hle
    refine ⟨c, hc, if_neg (Nat.not_lt_of_le hc), ?_⟩
    rw [rat_decode hF hc]
    rw [CodeRounds] at h
    by_cases hrne : mode = .rne
    · rw [if_pos hrne] at h ⊢
      intro c' hc' hne
      obtain ⟨hmid, htie⟩ := h c' hne
      rw [rat_decode hF hc', Rat.not_lt]
      exact ⟨hmid, fun hge hle => htie (Rat.le_antisymm hge hle)⟩
    rw [if_neg hrne] at h ⊢
    by_cases hzero : towardZero mode neg
    · rw [if_pos hzero] at h ⊢
      exact ⟨h.1, fun c' hc' => by rw [rat_decode hF hc']; exact h.2 c'⟩
    · rw [if_neg hzero] at h ⊢
      exact ⟨Rat.not_lt.mpr h.1, fun c' hc' => by rw [rat_decode hF hc', Rat.not_lt]; exact h.2 c'⟩
  case beyond =>
    rw [hmax] at hlt
    have hge := h.ge (Rat.le_of_lt hlt)
    rw [hmax, hprev]
    by_cases hrne : mode = .rne
    · subst hrne
      refine ⟨decide (F.maxBits < c), ?_, fun hpast => ?_, fun hpast => ?_⟩
      · rw [decide_eq_true_iff, h.past_iff hF hlt rfl]
        exact ⟨fun hhalf _ => hhalf, fun hhalf => hhalf rfl⟩
      · rw [if_pos (of_decide_eq_true hpast)]
        exact overflows_overflow hF .rne sat neg
      · have hc := of_decide_eq_false hpast
        rw [if_neg hc, Nat.le_antisymm (Nat.le_of_not_lt hc) hge]
    · refine ⟨true, iff_of_true rfl (absurd · hrne), fun _ => ?_, nofun⟩
      split
      · exact overflows_overflow hF mode sat neg
      · next hc =>
        obtain rfl : c = F.maxBits := Nat.le_antisymm (Nat.le_of_not_lt hc) hge
        rw [CodeRounds, if_neg hrne] at h
        by_cases hzero : towardZero mode neg
        · exact overflows_maxBits hzero sat
        · rw [if_neg hzero] at h
          exact absurd h.1 (Rat.not_le.mpr hlt)

end Codes

/-- Settles O6: a finite value is rounded to an integer number of the steps of its exponent, which is the code it rounds to with
the exponents unbounded, and overflow replaces that code where it is above the largest. -/
theorem rounding : Obligations.Rounding := by
  intro F hmem mode sat x
  have hF := regular_of_mem_formats hmem
  match x with
  | .nan => rfl
  | .inf neg => exact F.overflows_overflow hF .rne sat neg
  | .fin neg m e =>
    obtain ⟨c, hc, hround⟩ := F.round_fin hF.mb mode sat neg m e
    rw [hround]
    exact Fmt.rounds_of_codeRounds hF sat hc

end Sys2Proof.Machine
end
